-- ==== Sys2Proof/Word.lean ====
section
/-! DEFINITION. The word types of the block (10_state.md R22, R42 to R44, R50 to R53) and the three small
name sets that command fields select: an edge direction, a reference list, a picture component. -/

namespace Sys2Proof

/-- A command word, or a host interface or configuration register (R22, R29). -/
abbrev Word := BitVec 32

/-- A byte of bitstream memory (R61), or an 8-bit reference index of a REFI map (R51). -/
abbrev Byte := BitVec 8

/-- A sample cell of a picture plane or of an MC buffer (R50, R53). -/
abbrev Sample := BitVec 16

/-- A context model: STATE in bits 9 to 1, MPS in bit 0 (R44). -/
abbrev CtxModel := BitVec 10

/-- The D field of DF_LUMA, DF_CHROMA and DF_CU: 0 is a vertical edge, 1 a horizontal edge (R180). -/
inductive Dir where
  | vertical
  | horizontal
deriving DecidableEq, Repr

/-- A reference list L, 0 or 1 (R48). -/
inductive ListIx where
  | l0
  | l1
deriving DecidableEq, Repr

/-- A picture component, numbered 0 = Y, 1 = Cb, 2 = Cr (R53). -/
inductive Comp where
  | y
  | cb
  | cr
deriving DecidableEq, Repr

/-- The number of a reference list. -/
def ListIx.num : ListIx → Nat
  | .l0 => 0
  | .l1 => 1

/-- The number of a component. -/
def Comp.num : Comp → Nat
  | .y => 0
  | .cb => 1
  | .cr => 2

end Sys2Proof
end

