-- ==== Sys2Proof/Config.lean ====
section
/-! DEFINITION. The implementation parameters of 00_scope.md R7. A value the spec fixes by decision is a
definition here. A parameter the spec marks OPEN is a field of `Config`, which State carries and no step
changes: a statement over all states is a statement over all parameter values. The parameters of the
machine after reset are `Config.chip`, built from constants with no body, so that nothing can be proved of
their values beyond the constraints of 92_eei_decisions.md section 2; CHROMA_QP_MAP alone has a default (R7). -/

namespace Sys2Proof

/-- NUM_CTX, the number of context models (R7, D12). -/
def numCtx : Nat := 256

/-- UE_PREFIX_LIMIT + 1: the number of prefix zeros that makes an Exp-Golomb code malformed (R110). -/
def uePrefixBound : Nat := 32

/-- UNARY_LIMIT, the symbol value at which DEC_UNARY gives up (R7, R135). -/
def unaryLimit : Nat := 65535

/-- The range the arithmetic decoder starts from (R128). -/
def rangeInit : Nat := 16384

/-- The bound below which the range is renormalised (R131). -/
def rangeBound : Nat := 8192

/-- The floor of the LPS sub-range (R129, D52). -/
def lpsFloor : Nat := 437

/-- CHROMA_EDGE_GRID, the luma spacing of chroma-filtered edges (R7, R187). -/
def chromaEdgeGrid : Nat := 8

/-- The OPEN parameters of R7. -/
structure Config where
  /-- BS_SIZE, bytes of bitstream memory. -/
  bsSize : Nat
  /-- PB_CAP, hardware picture slots. -/
  pbCap : Nat
  /-- MAX_REF_LIST, capacity of each reference list. -/
  maxRefList : Nat
  /-- MAX_W, largest luma width. -/
  maxW : Nat
  /-- MAX_H, largest luma height. -/
  maxH : Nat
  /-- LUMA_COEF, 16 rows of 8 signed taps. -/
  lumaCoef : List (List Int)
  /-- CHROMA_COEF, 32 rows of 4 signed taps. -/
  chromaCoef : List (List Int)
  /-- DF_TBL, 4 rows (strength index) of 52 thresholds (QP). -/
  dfTbl : List (List Nat)
  /-- CHROMA_QP_MAP, 52 entries; by default the identity (R7, D31). -/
  chromaQpMap : List Nat := List.range 52
deriving DecidableEq, Repr

/-- A row of an interpolation table that R154 can select: `taps` taps summing to 64 (R155). -/
def coefRowOk (tbl : List (List Int)) (taps row : Nat) : Bool :=
  (tbl.getD row []).length == taps && (tbl.getD row []).sum == 64

/-- The constraints of 92_eei_decisions.md section 2. -/
def Config.wf (c : Config) : Bool :=
  (1 ≤ c.bsSize && c.bsSize ≤ 2 ^ 28) &&
  (1 ≤ c.pbCap && c.pbCap ≤ 255) &&
  (1 ≤ c.maxRefList && c.maxRefList ≤ 255) &&
  (c.maxW % 8 == 0 && 8 ≤ c.maxW && c.maxW ≤ 4096) &&
  (c.maxH % 8 == 0 && 8 ≤ c.maxH && c.maxH ≤ 4096) &&
  (c.lumaCoef.length == 16 && [0, 4, 8, 12].all (coefRowOk c.lumaCoef 8)) &&
  (c.lumaCoef.getD 0 [] == [0, 0, 0, 64, 0, 0, 0, 0]) &&
  (c.chromaCoef.length == 32 && [0, 4, 8, 12, 16, 20, 24, 28].all (coefRowOk c.chromaCoef 4)) &&
  (c.chromaCoef.getD 0 [] == [0, 64, 0, 0]) &&
  (c.dfTbl.length == 4 && c.dfTbl.all (fun r => r.length == 52)) &&
  (c.chromaQpMap.length == 52 && c.chromaQpMap.all (fun q => decide (q ≤ 51)))

/-! The OPEN values themselves: constants with no body (log entry 1). -/

/-- OPEN (D43). -/
opaque Config.openBsSize : Nat
/-- OPEN (D33). -/
opaque Config.openPbCap : Nat
/-- OPEN (D36). -/
opaque Config.openMaxRefList : Nat
/-- OPEN (D46). -/
opaque Config.openMaxW : Nat
/-- OPEN (D46). -/
opaque Config.openMaxH : Nat
/-- OPEN (D22): row, tap. -/
opaque Config.openLumaTap : Nat → Nat → Int
/-- OPEN (D22): row, tap. -/
opaque Config.openChromaTap : Nat → Nat → Int
/-- OPEN (D29): strength index, QP. -/
opaque Config.openThreshold : Nat → Nat → Nat

/-- A LUMA_COEF row: row 0 is the identity, the rows R154 can select sum to 64 (their tap 3 is what is
missing to 64), the others are free. -/
def Config.chipLumaRow (row : Nat) : List Int :=
  let t := Config.openLumaTap row
  if row = 0 then [0, 0, 0, 64, 0, 0, 0, 0]
  else if row % 4 = 0 then
    [t 0, t 1, t 2, 64 - (t 0 + t 1 + t 2 + t 4 + t 5 + t 6 + t 7), t 4, t 5, t 6, t 7]
  else [t 0, t 1, t 2, t 3, t 4, t 5, t 6, t 7]

/-- A CHROMA_COEF row: as `chipLumaRow`, tap 1 completing the sum. -/
def Config.chipChromaRow (row : Nat) : List Int :=
  let t := Config.openChromaTap row
  if row = 0 then [0, 64, 0, 0]
  else if row % 4 = 0 then [t 0, 64 - (t 0 + t 2 + t 3), t 2, t 3]
  else [t 0, t 1, t 2, t 3]

/-- The parameters of the machine after reset: every legal value of a parameter without a default is one of its values,
and nothing else is (log entry 1); CHROMA_QP_MAP has its default, the identity (R7, D31). -/
def Config.chip : Config where
  bsSize := Config.openBsSize % 2 ^ 28 + 1
  pbCap := Config.openPbCap % 255 + 1
  maxRefList := Config.openMaxRefList % 255 + 1
  maxW := 8 * (Config.openMaxW % 512 + 1)
  maxH := 8 * (Config.openMaxH % 512 + 1)
  lumaCoef := (List.range 16).map Config.chipLumaRow
  chromaCoef := (List.range 32).map Config.chipChromaRow
  dfTbl := (List.range 4).map (fun i => (List.range 52).map (Config.openThreshold i))

/-- What the host reads from an MC buffer cell that no command has written: any value (93_implementation_defined.md
section 1, log entry 4), a fresh one for each count of such reads. -/
opaque Config.freeSample : Nat → Sample

end Sys2Proof
end

