-- ==== Sys2Proof/Syntax.lean ====
section
/-! DEFINITION. The 36 commands of 30_encoding.md R89, one constructor each, with the fields of their formats
(R87). A field holds every value its bits can hold; the values a command's rule excludes are for
`WellFormed` and for the meanings. -/

namespace Sys2Proof

/-- One command of the opcode map (R89). -/
inductive Instr where
  /-- NOP (R230). -/
  | nop
  /-- RESET (R231). -/
  | reset
  /-- CFG_WR IDX (R232). -/
  | cfgWr (idx : BitVec 8)
  /-- CFG_RD IDX (R233). -/
  | cfgRd (idx : BitVec 8)
  /-- STAT_CLR (R235). -/
  | statClr
  /-- BR_INIT (R108). -/
  | brInit
  /-- BR_READ N (R107). -/
  | brRead (n : BitVec 6)
  /-- BR_READ1 (R109). -/
  | brRead1
  /-- BR_READ_UE (R111). -/
  | brReadUe
  /-- BR_READ_SE (R112). -/
  | brReadSe
  /-- BR_ALIGNED (R113). -/
  | brAligned
  /-- BR_CONSUMED (R114). -/
  | brConsumed
  /-- SBAC_INIT F (R128). -/
  | sbacInit (f : Bool)
  /-- CTX_WR CTX (R126). -/
  | ctxWr (ctx : BitVec 8)
  /-- CTX_RD CTX (R127). -/
  | ctxRd (ctx : BitVec 8)
  /-- DEC_BIN CTX (R132). -/
  | decBin (ctx : BitVec 8)
  /-- DEC_BIN_EP (R133). -/
  | decBinEp
  /-- DEC_BIN_TRM (R134). -/
  | decBinTrm
  /-- DEC_UNARY CB, NC, EP (R135). -/
  | decUnary (cb : BitVec 8) (nc : BitVec 4) (ep : Bool)
  /-- DEC_TUNARY CB, NC, EP, MAX (R136). -/
  | decTunary (cb : BitVec 8) (nc : BitVec 4) (ep : Bool) (max : BitVec 8)
  /-- MC_CLIPMV (R151). -/
  | mcClipmv
  /-- MC_PRED C, L (R157). -/
  | mcPred (c : BitVec 2) (l : ListIx)
  /-- MC_AVG C (R158). -/
  | mcAvg (c : BitVec 2)
  /-- MC_CU (R159). -/
  | mcCu
  /-- DF_BS (R177). -/
  | dfBs
  /-- DF_LUMA D (R180). -/
  | dfLuma (d : Dir)
  /-- DF_CHROMA D, C (R181). -/
  | dfChroma (d : Dir) (c : BitVec 2)
  /-- DF_CLR (R182). -/
  | dfClr
  /-- DF_CU D (R183). -/
  | dfCu (d : Dir)
  /-- DPB_GET (R200). -/
  | dpbGet
  /-- DPB_PUT IDR, NO, REF, TID (R202). -/
  | dpbPut (idr : Bool) (no : Bool) (ref : Bool) (tid : BitVec 3)
  /-- DPB_REFP M, ST, LID (R204). -/
  | dpbRefp (m : BitVec 8) (st : BitVec 2) (lid : BitVec 3)
  /-- DPB_OUT (R207). -/
  | dpbOut
  /-- DPB_LIST_RD I, L (R208). -/
  | dpbListRd (i : BitVec 8) (l : ListIx)
  /-- DPB_NUMREF (R209). -/
  | dpbNumref
  /-- DPB_SLOT_RD K (R210). -/
  | dpbSlotRd (k : BitVec 8)
deriving DecidableEq, Repr

end Sys2Proof
end

