-- ==== Sys2Proof/WellFormed.lean ====
section
/-! DEFINITION. The checks on a command's fields alone: the field values that the command's rule excludes for
every state (30_encoding.md R90, second part). Every such command completes with ILLEGAL_COMMAND; the
meanings make the same checks where their rules list them, in the order of R250. -/

namespace Sys2Proof

/-- The EP, CB and NC checks shared by DEC_UNARY and DEC_TUNARY (R135, R136). -/
def unaryFieldsOk (cb : BitVec 8) (nc : BitVec 4) (ep : Bool) : Bool :=
  if ep then cb == 0 && nc == 0 else nc != 0 && decide (cb.toNat + nc.toNat - 1 < numCtx)

/-- The fields of a command hold no value its rule excludes. -/
def Instr.wellFormed : Instr → Bool
  | .nop => true
  | .reset => true
  | .cfgWr idx => decide (idx.toNat < 0x0A)
  | .cfgRd idx => decide (idx.toNat < 0x0B)
  | .statClr => true
  | .brInit => true
  | .brRead n => n != 0 && decide (n.toNat ≤ 32)
  | .brRead1 => true
  | .brReadUe => true
  | .brReadSe => true
  | .brAligned => true
  | .brConsumed => true
  | .sbacInit _ => true
  | .ctxWr _ => true
  | .ctxRd _ => true
  | .decBin _ => true
  | .decBinEp => true
  | .decBinTrm => true
  | .decUnary cb nc ep => unaryFieldsOk cb nc ep
  | .decTunary cb nc ep _ => unaryFieldsOk cb nc ep
  | .mcClipmv => true
  | .mcPred c _ => c != 3
  | .mcAvg c => c != 3
  | .mcCu => true
  | .dfBs => true
  | .dfLuma _ => true
  | .dfChroma _ c => c == 1 || c == 2
  | .dfClr => true
  | .dfCu _ => true
  | .dpbGet => true
  | .dpbPut _ _ _ _ => true
  | .dpbRefp _ st _ => st != 3
  | .dpbOut => true
  | .dpbListRd _ _ => true
  | .dpbNumref => true
  | .dpbSlotRd _ => true

end Sys2Proof
end

