-- ==== Sys2Proof/Decode.lean ====
section
/-! DEFINITION. Decoding a command word (30_encoding.md R85 to R91) and, after it, encoding one. The decoder is
total on 32-bit words and rejects by name: an unassigned opcode, the custom space, a reserved bit. -/

namespace Sys2Proof

/-- Why a word is no command (R90, R91). -/
inductive DecodeError where
  /-- The opcode is in the custom space 0xF0 to 0xFF, which this hardware leaves empty (R91). -/
  | customSpace
  /-- The opcode is unassigned (R89). -/
  | unassigned
  /-- A reserved bit of the opcode's format is 1 (R87). -/
  | reservedBit
deriving DecidableEq, Repr

/-- OPC, bits 31 to 24 of a command word (R86). -/
def opcodeOf (w : Word) : BitVec 8 := w.extractLsb' 24 8

/-- Bits 23 to 0 of a command word. -/
def fieldsOf (w : Word) : BitVec 24 := w.extractLsb' 0 24

/-- The field bits of each assigned opcode's format, in the rows of R87 and R89; `none` for an unassigned
opcode. Every other bit of 23 to 0 is reserved. -/
def formatMask (opc : BitVec 8) : Option (BitVec 24) :=
  match opc.toNat with
  | 0x00 => some 0x000000
  | 0x01 => some 0x000000
  | 0x02 => some 0x0000FF
  | 0x03 => some 0x0000FF
  | 0x04 => some 0x000000
  | 0x10 => some 0x000000
  | 0x11 => some 0x00003F
  | 0x12 => some 0x000000
  | 0x13 => some 0x000000
  | 0x14 => some 0x000000
  | 0x15 => some 0x000000
  | 0x16 => some 0x000000
  | 0x20 => some 0x000001
  | 0x21 => some 0x0000FF
  | 0x22 => some 0x0000FF
  | 0x23 => some 0x0000FF
  | 0x24 => some 0x000000
  | 0x25 => some 0x000000
  | 0x26 => some 0x001FFF
  | 0x27 => some 0xFF1FFF
  | 0x30 => some 0x000000
  | 0x31 => some 0x000007
  | 0x32 => some 0x000003
  | 0x33 => some 0x000000
  | 0x40 => some 0x000000
  | 0x41 => some 0x000001
  | 0x42 => some 0x000007
  | 0x43 => some 0x000000
  | 0x44 => some 0x000001
  | 0x50 => some 0x000000
  | 0x51 => some 0x00003F
  | 0x52 => some 0x001FFF
  | 0x53 => some 0x000000
  | 0x54 => some 0x0001FF
  | 0x55 => some 0x000000
  | 0x56 => some 0x0000FF
  | _ => none

/-- The direction a D bit selects (R94). -/
def dirOfBit (b : Bool) : Dir := if b then .horizontal else .vertical

/-- The D bit of a direction. -/
def bitOfDir : Dir → Bool
  | .vertical => false
  | .horizontal => true

/-- The list an L bit selects. -/
def listOfBit (b : Bool) : ListIx := if b then .l1 else .l0

/-- The L bit of a list. -/
def bitOfList : ListIx → Bool
  | .l0 => false
  | .l1 => true

/-- The command an assigned opcode and its fields name (R87, R89); reserved bits are checked by `decode`. -/
def decodeFields (opc : BitVec 8) (f : BitVec 24) : Option Instr :=
  match opc.toNat with
  | 0x00 => some .nop
  | 0x01 => some .reset
  | 0x02 => some (.cfgWr (f.extractLsb' 0 8))
  | 0x03 => some (.cfgRd (f.extractLsb' 0 8))
  | 0x04 => some .statClr
  | 0x10 => some .brInit
  | 0x11 => some (.brRead (f.extractLsb' 0 6))
  | 0x12 => some .brRead1
  | 0x13 => some .brReadUe
  | 0x14 => some .brReadSe
  | 0x15 => some .brAligned
  | 0x16 => some .brConsumed
  | 0x20 => some (.sbacInit (f.getLsbD 0))
  | 0x21 => some (.ctxWr (f.extractLsb' 0 8))
  | 0x22 => some (.ctxRd (f.extractLsb' 0 8))
  | 0x23 => some (.decBin (f.extractLsb' 0 8))
  | 0x24 => some .decBinEp
  | 0x25 => some .decBinTrm
  | 0x26 => some (.decUnary (f.extractLsb' 0 8) (f.extractLsb' 8 4) (f.getLsbD 12))
  | 0x27 => some (.decTunary (f.extractLsb' 0 8) (f.extractLsb' 8 4) (f.getLsbD 12) (f.extractLsb' 16 8))
  | 0x30 => some .mcClipmv
  | 0x31 => some (.mcPred (f.extractLsb' 0 2) (listOfBit (f.getLsbD 2)))
  | 0x32 => some (.mcAvg (f.extractLsb' 0 2))
  | 0x33 => some .mcCu
  | 0x40 => some .dfBs
  | 0x41 => some (.dfLuma (dirOfBit (f.getLsbD 0)))
  | 0x42 => some (.dfChroma (dirOfBit (f.getLsbD 0)) (f.extractLsb' 1 2))
  | 0x43 => some .dfClr
  | 0x44 => some (.dfCu (dirOfBit (f.getLsbD 0)))
  | 0x50 => some .dpbGet
  | 0x51 => some (.dpbPut (f.getLsbD 0) (f.getLsbD 1) (f.getLsbD 2) (f.extractLsb' 3 3))
  | 0x52 => some (.dpbRefp (f.extractLsb' 0 8) (f.extractLsb' 8 2) (f.extractLsb' 10 3))
  | 0x53 => some .dpbOut
  | 0x54 => some (.dpbListRd (f.extractLsb' 0 8) (listOfBit (f.getLsbD 8)))
  | 0x55 => some .dpbNumref
  | 0x56 => some (.dpbSlotRd (f.extractLsb' 0 8))
  | _ => none

/-- The first three lines of the command cycle (R85): the opcode, then the reserved bits. -/
def decode (w : Word) : Except DecodeError Instr :=
  match formatMask (opcodeOf w) with
  | none => .error (if 0xF0 ≤ (opcodeOf w).toNat then .customSpace else .unassigned)
  | some mask =>
    if fieldsOf w &&& ~~~mask ≠ 0 then .error .reservedBit
    else
      match decodeFields (opcodeOf w) (fieldsOf w) with
      | some i => .ok i
      | none => .error .unassigned

/-- A command word from its opcode and its 24 field bits (R86). -/
def mkWord (opc : BitVec 8) (f : BitVec 24) : Word := opc ++ f

/-- The encoding of a command, from the word column of R94 and the layouts of R87. -/
def encode : Instr → Word
  | .nop => mkWord 0x00 0
  | .reset => mkWord 0x01 0
  | .cfgWr idx => mkWord 0x02 ((0 : BitVec 16) ++ idx)
  | .cfgRd idx => mkWord 0x03 ((0 : BitVec 16) ++ idx)
  | .statClr => mkWord 0x04 0
  | .brInit => mkWord 0x10 0
  | .brRead n => mkWord 0x11 ((0 : BitVec 18) ++ n)
  | .brRead1 => mkWord 0x12 0
  | .brReadUe => mkWord 0x13 0
  | .brReadSe => mkWord 0x14 0
  | .brAligned => mkWord 0x15 0
  | .brConsumed => mkWord 0x16 0
  | .sbacInit f => mkWord 0x20 ((0 : BitVec 23) ++ BitVec.ofBool f)
  | .ctxWr ctx => mkWord 0x21 ((0 : BitVec 16) ++ ctx)
  | .ctxRd ctx => mkWord 0x22 ((0 : BitVec 16) ++ ctx)
  | .decBin ctx => mkWord 0x23 ((0 : BitVec 16) ++ ctx)
  | .decBinEp => mkWord 0x24 0
  | .decBinTrm => mkWord 0x25 0
  | .decUnary cb nc ep => mkWord 0x26 ((0 : BitVec 11) ++ BitVec.ofBool ep ++ nc ++ cb)
  | .decTunary cb nc ep max => mkWord 0x27 (max ++ (0 : BitVec 3) ++ BitVec.ofBool ep ++ nc ++ cb)
  | .mcClipmv => mkWord 0x30 0
  | .mcPred c l => mkWord 0x31 ((0 : BitVec 21) ++ BitVec.ofBool (bitOfList l) ++ c)
  | .mcAvg c => mkWord 0x32 ((0 : BitVec 22) ++ c)
  | .mcCu => mkWord 0x33 0
  | .dfBs => mkWord 0x40 0
  | .dfLuma d => mkWord 0x41 ((0 : BitVec 23) ++ BitVec.ofBool (bitOfDir d))
  | .dfChroma d c => mkWord 0x42 ((0 : BitVec 21) ++ c ++ BitVec.ofBool (bitOfDir d))
  | .dfClr => mkWord 0x43 0
  | .dfCu d => mkWord 0x44 ((0 : BitVec 23) ++ BitVec.ofBool (bitOfDir d))
  | .dpbGet => mkWord 0x50 0
  | .dpbPut idr no ref tid =>
    mkWord 0x51 ((0 : BitVec 18) ++ tid ++ BitVec.ofBool ref ++ BitVec.ofBool no ++ BitVec.ofBool idr)
  | .dpbRefp m st lid => mkWord 0x52 ((0 : BitVec 11) ++ lid ++ st ++ m)
  | .dpbOut => mkWord 0x53 0
  | .dpbListRd i l => mkWord 0x54 ((0 : BitVec 15) ++ BitVec.ofBool (bitOfList l) ++ i)
  | .dpbNumref => mkWord 0x55 0
  | .dpbSlotRd k => mkWord 0x56 ((0 : BitVec 16) ++ k)

/-- The command the decoder reads from an instruction whose bits are `w`, numbered as spec/opcode_table.json
numbers them. A command is one 32-bit word (R86), written whole (R63), so no byte order enters. -/
def decodeTableWord (nbits w : Nat) : Option Instr :=
  match decode (BitVec.ofNat 32 (w % 2 ^ nbits)) with
  | .ok i => some i
  | .error _ => none

end Sys2Proof
end

