-- ==== Sys2Proof/Machine/State.lean ====
section
/-! DEFINITION. The state of the block and its reset values (10_state.md R20 to R59, 70_reset_and_hazards.md R265
and R266), the actions of the host (00_scope.md R6), and the reasons a step can stop. State is plain data. -/

namespace Sys2Proof.Machine

/-- A memory: (address, value) pairs with strictly rising addresses (`Memory.wf`, Ops.lean). An address that is
not listed holds no value: reading it is a model fault (R12, R266). -/
abbrev Memory (α : Type) := List (Nat × α)

/-- The completion codes 0 to 7 of STATUS.CODE (R27). -/
inductive Code where
  | ok
  | malformedBitstream
  | unsupported
  | outputNotAvailable
  | unexpectedState
  | outOfBuffers
  | illegalCommand
  | engineHalted
deriving DecidableEq, Repr

/-- SLOT[k].STATE (R45). -/
inductive SlotState where
  | unalloc
  | pool
  | detached
deriving DecidableEq, Repr

/-- A slot record (R45); the defaults are its reset values. -/
structure Slot where
  state : SlotState := .unalloc
  isRef : Bool := false
  needOut : Bool := false
  tid : BitVec 3 := 0
  poc : Word := 0
deriving DecidableEq, Repr

/-- An entry of a reference list: the slot and the POC it had when DPB_REFP built the entry (R48). -/
structure RefEntry where
  slot : Nat
  poc : Word
deriving DecidableEq, Repr

/-- The DPB state (R45 to R48). `slots` lists SLOT[0] to SLOT[PB_CAP - 1]; the lengths of `list0` and `list1`
are NUMREF[0] and NUMREF[1]. -/
structure Dpb where
  slots : List Slot
  pool : List Nat := []
  refseq : List Nat := []
  list0 : List RefEntry := []
  list1 : List RefEntry := []
deriving DecidableEq, Repr

/-- A motion vector: two signed 16-bit components in quarter luma samples (R51). -/
structure MotionVec where
  x : BitVec 16
  y : BitVec 16
deriving DecidableEq, Repr

/-- The planes and maps of a slot (R50, R51), each keyed by `cellKey row column` (Ops.lean). A fresh picture
lists nothing: its contents are unspecified (R201). -/
structure Picture where
  y : Memory Sample := []
  cb : Memory Sample := []
  cr : Memory Sample := []
  mv0 : Memory MotionVec := []
  mv1 : Memory MotionVec := []
  refi0 : Memory Byte := []
  refi1 : Memory Byte := []
deriving DecidableEq, Repr

/-- CUR_SLOT when no slot is current (R40). -/
def noSlot : Word := 0xFFFFFFFF

/-- The configuration registers 0x00 to 0x0A in index order (R30 to R40); the defaults are their reset values
(R265). -/
structure Cfg where
  picW : Word := 0
  picH : Word := 0
  bitDepth : Word := 8
  chromaFormat : Word := 1
  maxPb : Word := 0
  maxNumRef : Word := 0
  pocInc : Word := 1
  nextOutPoc : Word := 0
  ctxInit : Word := 0x200
  mvClipMargin : Word := 64
  curSlot : Word := noSlot
deriving DecidableEq, Repr

/-- The registers of the bit reader and of the SBAC engine and the context memory (R42 to R44); the defaults
are their reset values (R265, R266). -/
structure Entropy where
  bsBase : Word := 0
  bsLen : Word := 0
  bitPos : Word := 0
  range : BitVec 15 := 16384
  value : BitVec 16 := 0
  ctx : Memory CtxModel := []
deriving DecidableEq, Repr

/-- One atomic step of the host (R6, R68). A register is named by its word number, its byte offset divided by 4
(R22): a misaligned or narrower access is not expressible (R66). -/
inductive HostAction where
  /-- Write a register; word 0 is CMD, which runs a command (R23). -/
  | regWrite (word : BitVec 6) (v : Word)
  /-- Read a register. -/
  | regRead (word : BitVec 6)
  /-- Write a byte of BSMEM (R61, R276). -/
  | bsWrite (a : Nat) (v : Byte)
  /-- Read a byte of BSMEM. -/
  | bsRead (a : Nat)
  /-- Write a sample of a slot's picture (R50, R78, R83). -/
  | sampleWrite (slot : Nat) (c : Comp) (y x : Nat) (v : Sample)
  /-- Read a sample of a slot's picture. -/
  | sampleRead (slot : Nat) (c : Comp) (y x : Nat)
  /-- Write an entry of a slot's motion-vector map (R51). -/
  | mvWrite (slot : Nat) (row col : Nat) (l : ListIx) (v : MotionVec)
  /-- Read an entry of a slot's motion-vector map. -/
  | mvRead (slot : Nat) (row col : Nat) (l : ListIx)
  /-- Write an entry of a slot's reference-index map (R51). -/
  | refiWrite (slot : Nat) (row col : Nat) (l : ListIx) (v : Byte)
  /-- Read an entry of a slot's reference-index map. -/
  | refiRead (slot : Nat) (row col : Nat) (l : ListIx)
  /-- Write a whole CU-map word (R52). -/
  | cuWrite (row col : Nat) (v : Word)
  /-- Read a CU-map word. -/
  | cuRead (row col : Nat)
  /-- Read a cell of PRED (R53). -/
  | predRead (l : ListIx) (c : Comp) (i j : Nat)
  /-- Read a cell of PREDOUT (R53). -/
  | predOutRead (c : Comp) (i j : Nat)
deriving DecidableEq, Repr

/-- Why the model stops with a fault: the model faults of R12, R137, R255 and R282, and an access to an element
that does not exist (R82). Each is safe: the block itself would go on with some value (R255). -/
inductive Fault where
  /-- The bit reader or the host reads a BSMEM byte nothing has written (R82). Safe. -/
  | unwrittenBsByte (a : Nat)
  /-- CTX_RD or a bin uses a context model nothing has written (R127, R272). Safe. -/
  | unwrittenContext (c : Nat)
  /-- An MC or DF command, or the host, reads a sample nothing has written since its slot was allocated (R157,
  R201). Safe. -/
  | unwrittenSample (slot : Nat) (c : Comp) (y x : Nat)
  /-- DF_BS, DF_CU or the host reads a motion vector nothing has written (R177). Safe. -/
  | unwrittenMv (slot : Nat) (row col : Nat) (l : ListIx)
  /-- DF_BS, DF_CU or the host reads a reference index nothing has written (R177). Safe. -/
  | unwrittenRefi (slot : Nat) (row col : Nat) (l : ListIx)
  /-- DF_BS, DF_CU or the host reads a part of a CU-map word nothing has written (R52, R177). Safe. -/
  | unwrittenCuWord (row col : Nat)
  /-- MC_AVG reads a PRED cell nothing has written (R158). Safe. -/
  | unwrittenPred (l : ListIx) (c : Comp) (i j : Nat)
  /-- An MC or DF command reads a sample above 2^BITDEPTH - 1 (R282). Safe. -/
  | sampleTooLarge (slot : Nat) (c : Comp) (y x : Nat)
  /-- MC_AVG reads a PRED cell above 2^BITDEPTH - 1, written before BITDEPTH was lowered (R83, D48). Safe. -/
  | predTooLarge (l : ListIx) (c : Comp) (i j : Nat)
  /-- A bin is entered with RANGE at most 437, or DEC_BIN_TRM with RANGE 0 (R137). Safe. -/
  | rangeTooSmall
  /-- An access to an element that does not exist: a byte past BS_SIZE, a cell outside its array, a picture of a
  slot that holds none (R20, R50, R82). Safe. -/
  | noSuchElement
deriving DecidableEq, Repr

/-- Why the model refuses a step. Apart from the first these are the host moves that 93_implementation_defined.md
section 4 says the model refuses; each is safe. -/
inductive Refusal where
  /-- `exec` answers it for a command that has no meaning yet. Safe. -/
  | notModelled (mnemonic : String)
  /-- The host writes a BSMEM byte inside the current packet (R276). Safe. -/
  | bsWriteInPacket
  /-- The host writes the planes or maps of a slot in POOL (R277). Safe. -/
  | storedPictureWrite
  /-- The host writes a sample above 2^BITDEPTH - 1 (R83). Safe. -/
  | sampleAboveMax
deriving DecidableEq, Repr

/-- The state of the machine: the block's state (R20) and, the model's own, the parameters, the host's pending
actions, the word the host last read and a counter for free values. -/
structure State where
  /-- The OPEN parameters (R7); no step changes them. The model's own field. -/
  config : Config
  /-- The host's next actions, first first (R6). The model's own field. -/
  host : List HostAction := []
  /-- The value of the host's last read. The model's own field. -/
  hostData : Word := 0
  /-- How many free values the host has been given. The model's own field. -/
  freeCount : Nat := 0
  /-- ARG0 (R24). -/
  arg0 : Word := 0
  /-- ARG1 (R24). -/
  arg1 : Word := 0
  /-- ARG2 (R24). -/
  arg2 : Word := 0
  /-- ARG3 (R24). -/
  arg3 : Word := 0
  /-- RES0 (R25). -/
  res0 : Word := 0
  /-- RES1 (R25). -/
  res1 : Word := 0
  /-- STATUS.CODE (R26, R27). -/
  code : Code := .ok
  /-- STATUS.STICKY (R28). -/
  sticky : Bool := false
  /-- CFG[0x00..0x0A] (R29 to R40). -/
  cfg : Cfg := {}
  /-- BS_BASE, BS_LEN, BITPOS, RANGE, VALUE and CTX (R42 to R44). -/
  ent : Entropy := {}
  /-- BSMEM (R61): a list of `Host.Cell`. -/
  bsmem : Memory Byte := []
  /-- SLOT, POOL, REFSEQ, REFLIST and NUMREF (R45 to R48). -/
  dpb : Dpb
  /-- PIC[0] to PIC[PB_CAP - 1] (R50, R51). -/
  pics : List Picture
  /-- Bits 30 to 0 of the CUMAP words (R52), keyed by `cellKey by bx`. -/
  cuLow : Memory (BitVec 31) := []
  /-- Bit 31, COD, of the CUMAP words: apart from the rest because DF_CLR and DF_CU write it alone (R182). -/
  cuCod : Memory Bool := []
  /-- PRED (R53), keyed by `predKey`. -/
  pred : Memory Sample := []
  /-- PREDOUT (R53), keyed by `predOutKey`. -/
  predOut : Memory Sample := []
deriving DecidableEq, Repr

/-- The DPB after reset: every slot UNALLOC, the lists empty (R265). -/
def Dpb.resetOf (c : Config) : Dpb := { slots := List.replicate c.pbCap {} }

/-- The state after power-on reset of a block with parameters `c`: every register at its value of R265 and
nothing in any memory (R266). -/
def State.resetOf (c : Config) : State :=
  { config := c, dpb := Dpb.resetOf c, pics := List.replicate c.pbCap {} }

/-- The machine right after reset (R265, R266, R267). -/
def State.reset : State := State.resetOf Config.chip

end Sys2Proof.Machine
end

