-- ==== Sys2Proof/Machine/Ops.lean ====
section
/-! DEFINITION. The named operations over memories and registers. The block has no traps (60_exceptions.md R251):
what stands in the place of taking an exception is `raise`, the one operation by which a command ends with a
completion code (00_scope.md R11), and there is nothing to return from (R253). -/

namespace Sys2Proof.Machine

/-- What a step answers. -/
abbrev Result := Host.Outcome State Fault Refusal

/-! ### Memories -/

/-- The value at an address, `none` where nothing has been written (R12). -/
def Memory.read {α : Type} : Memory α → Nat → Option α
  | [], _ => none
  | (a, v) :: m, k => if k = a then some v else Memory.read m k

/-- Write one element; the addresses stay strictly rising. -/
def Memory.write {α : Type} : Memory α → Nat → α → Memory α
  | [], k, v => [(k, v)]
  | (a, w) :: m, k, v =>
    if k < a then (k, v) :: (a, w) :: m
    else if k = a then (k, v) :: m
    else (a, w) :: Memory.write m k v

/-- The canonical form: strictly rising addresses. An unlisted address reads as no value, so no entry can equal
what an unlisted address reads as. -/
def Memory.wf {α : Type} : Memory α → Bool
  | [] => true
  | [_] => true
  | (a, _) :: (b, w) :: m => decide (a < b) && Memory.wf ((b, w) :: m)

/-- The address of row `r`, column `c` in a two-dimensional memory. Coordinates are 16-bit values (R58). -/
def cellKey (r c : Nat) : Nat := r * 65536 + c

/-- The address of PRED[L][c][i][j]: each buffer is 64 x 64 (R53). -/
def predKey (l : ListIx) (c : Comp) (i j : Nat) : Nat := ((l.num * 3 + c.num) * 64 + i) * 64 + j

/-- The address of PREDOUT[c][i][j] (R53). -/
def predOutKey (c : Comp) (i j : Nat) : Nat := (c.num * 64 + i) * 64 + j

/-- Run `f` on each element in order, stopping at the first fault. -/
def foldE {β σ : Type} (f : β → σ → Except Fault σ) : List β → σ → Except Fault σ
  | [], s => .ok s
  | b :: bs, s =>
    match f b s with
    | .error e => .error e
    | .ok s' => foldE f bs s'

/-- The positions of an h x w block, row by row. -/
def blockCells (h w : Nat) : List (Nat × Nat) :=
  (List.range h).flatMap (fun i => (List.range w).map (fun j => (i, j)))

/-- Write `f i j` at `key i j` for each position of a list, stopping at the first fault. -/
def fillCells (f : Nat → Nat → Except Fault Sample) (key : Nat → Nat → Nat) :
    List (Nat × Nat) → Memory Sample → Except Fault (Memory Sample) :=
  foldE (fun p m =>
    match f p.1 p.2 with
    | .error e => .error e
    | .ok v => .ok (m.write (key p.1 p.2) v))

/-! ### Registers -/

/-- STATUS.CODE <- c. -/
def State.setCode (s : State) (c : Code) : State := { s with code := c }
/-- STATUS.STICKY <- b. -/
def State.setSticky (s : State) (b : Bool) : State := { s with sticky := b }
/-- RES0 <- v. -/
def State.setRes0 (s : State) (v : Word) : State := { s with res0 := v }
/-- RES1 <- v. -/
def State.setRes1 (s : State) (v : Word) : State := { s with res1 := v }
/-- The configuration registers. -/
def State.setCfg (s : State) (c : Cfg) : State := { s with cfg := c }
/-- The bit reader and SBAC registers and contexts. -/
def State.setEnt (s : State) (e : Entropy) : State := { s with ent := e }
/-- The DPB state. -/
def State.setDpb (s : State) (d : Dpb) : State := { s with dpb := d }
/-- The pictures. -/
def State.setPics (s : State) (p : List Picture) : State := { s with pics := p }
/-- Bit 31 of the CU map. -/
def State.setCuCod (s : State) (m : Memory Bool) : State := { s with cuCod := m }
/-- Bits 30 to 0 of the CU map. -/
def State.setCuLow (s : State) (m : Memory (BitVec 31)) : State := { s with cuLow := m }
/-- PRED. -/
def State.setPred (s : State) (m : Memory Sample) : State := { s with pred := m }
/-- PREDOUT. -/
def State.setPredOut (s : State) (m : Memory Sample) : State := { s with predOut := m }
/-- BSMEM (a host step only, R61). -/
def State.setBsmem (s : State) (m : Memory Byte) : State := { s with bsmem := m }
/-- The value the host last read. -/
def State.setHostData (s : State) (v : Word) : State := { s with hostData := v }

/-- Configuration register `idx`, `none` for a reserved index (R41). -/
def Cfg.get (c : Cfg) (idx : BitVec 8) : Option Word :=
  match idx.toNat with
  | 0x00 => some c.picW
  | 0x01 => some c.picH
  | 0x02 => some c.bitDepth
  | 0x03 => some c.chromaFormat
  | 0x04 => some c.maxPb
  | 0x05 => some c.maxNumRef
  | 0x06 => some c.pocInc
  | 0x07 => some c.nextOutPoc
  | 0x08 => some c.ctxInit
  | 0x09 => some c.mvClipMargin
  | 0x0A => some c.curSlot
  | _ => none

/-- Write configuration register `idx`; CUR_SLOT (0x0A) and the reserved indices are not writable (R40, R41). -/
def Cfg.set (c : Cfg) (idx : BitVec 8) (v : Word) : Cfg :=
  match idx.toNat with
  | 0x00 => { c with picW := v }
  | 0x01 => { c with picH := v }
  | 0x02 => { c with bitDepth := v }
  | 0x03 => { c with chromaFormat := v }
  | 0x04 => { c with maxPb := v }
  | 0x05 => { c with maxNumRef := v }
  | 0x06 => { c with pocInc := v }
  | 0x07 => { c with nextOutPoc := v }
  | 0x08 => { c with ctxInit := v }
  | 0x09 => { c with mvClipMargin := v }
  | _ => c

/-! ### Ending a command -/

/-- `raise c` (R11): the command ends with STATUS.CODE <- c. The state it is given is the one it leaves: what
R249 lists for the code is written before. No control transfer, saved state or mode is involved (R251). -/
def raise (c : Code) (s : State) : Result := .next (s.setCode c)

/-- `finish` (R11): the command ends with STATUS.CODE <- OK. -/
def finish (s : State) : Result := raise .ok s

/-- Go on with the value of a computation, or stop with its model fault (R255). -/
def orFault {α : Type} (r : Except Fault α) (k : α → Result) : Result :=
  match r with
  | .error e => .fault e
  | .ok a => k a

/-- An entropy-path command while STATUS.STICKY = 1 completes with ENGINE_HALTED and changes nothing else (R28,
R248); the field checks come before it (R250). -/
def unlessHalted (s : State) (r : Result) : Result :=
  if s.sticky then raise .engineHalted s else r

/-- MALFORMED_BITSTREAM sets STICKY and keeps the effects of the work done so far (R28, R249). -/
def raiseMalformed (e : Entropy) (s : State) : Result :=
  raise .malformedBitstream ((s.setEnt e).setSticky true)

/-! ### Pictures and the CU map -/

/-- The plane of a component. -/
def Picture.plane (p : Picture) : Comp → Memory Sample
  | .y => p.y
  | .cb => p.cb
  | .cr => p.cr

/-- Replace the plane of a component. -/
def Picture.setPlane (p : Picture) (c : Comp) (m : Memory Sample) : Picture :=
  match c with
  | .y => { p with y := m }
  | .cb => { p with cb := m }
  | .cr => { p with cr := m }

/-- The motion-vector map of a list. -/
def Picture.mv (p : Picture) : ListIx → Memory MotionVec
  | .l0 => p.mv0
  | .l1 => p.mv1

/-- Replace the motion-vector map of a list. -/
def Picture.setMv (p : Picture) (l : ListIx) (m : Memory MotionVec) : Picture :=
  match l with
  | .l0 => { p with mv0 := m }
  | .l1 => { p with mv1 := m }

/-- The reference-index map of a list. -/
def Picture.refi (p : Picture) : ListIx → Memory Byte
  | .l0 => p.refi0
  | .l1 => p.refi1

/-- Replace the reference-index map of a list. -/
def Picture.setRefi (p : Picture) (l : ListIx) (m : Memory Byte) : Picture :=
  match l with
  | .l0 => { p with refi0 := m }
  | .l1 => { p with refi1 := m }

/-- The width and height of a component's plane: 4:2:0 (R33, R50, R153). -/
def planeSize (g : Cfg) : Comp → Nat × Nat
  | .y => (g.picW.toNat, g.picH.toNat)
  | .cb => (g.picW.toNat / 2, g.picH.toNat / 2)
  | .cr => (g.picW.toNat / 2, g.picH.toNat / 2)

/-- The value of PIC[k].c[y][x], `none` where there is none. -/
def State.sampleAt (s : State) (k : Nat) (c : Comp) (y x : Nat) : Option Sample :=
  match s.pics[k]? with
  | none => none
  | some p => (p.plane c).read (cellKey y x)

/-- A sample read by an MC or DF command: it must have been written (R201) and lie in [0, 2^BITDEPTH - 1]
(R282). -/
def readSample (s : State) (k : Nat) (c : Comp) (y x : Nat) : Except Fault Int :=
  match s.sampleAt k c y x with
  | none => .error (.unwrittenSample k c y x)
  | some v =>
    if 2 ^ s.cfg.bitDepth.toNat ≤ v.toNat then .error (.sampleTooLarge k c y x)
    else .ok (v.toNat : Int)

/-- PIC[k].c[y][x] <- v. -/
def State.writeSample (s : State) (k : Nat) (c : Comp) (y x : Nat) (v : Sample) : State :=
  s.setPics (s.pics.modify k (fun p => p.setPlane c ((p.plane c).write (cellKey y x) v)))

/-- The entry of a motion-vector map of slot k at block (row, col). -/
def readMv (s : State) (k : Nat) (row col : Nat) (l : ListIx) : Except Fault MotionVec :=
  match (s.pics[k]?).bind (fun p => (p.mv l).read (cellKey row col)) with
  | none => .error (.unwrittenMv k row col l)
  | some v => .ok v

/-- The entry of a reference-index map of slot k at block (row, col). -/
def readRefi (s : State) (k : Nat) (row col : Nat) (l : ListIx) : Except Fault Byte :=
  match (s.pics[k]?).bind (fun p => (p.refi l).read (cellKey row col)) with
  | none => .error (.unwrittenRefi k row col l)
  | some v => .ok v

/-- Bits 30 to 0 of CUMAP[row][col]. -/
def readCuLow (s : State) (row col : Nat) : Except Fault (BitVec 31) :=
  match s.cuLow.read (cellKey row col) with
  | none => .error (.unwrittenCuWord row col)
  | some v => .ok v

/-- CUMAP[row][col].COD, bit 31. -/
def readCod (s : State) (row col : Nat) : Except Fault Bool :=
  match s.cuCod.read (cellKey row col) with
  | none => .error (.unwrittenCuWord row col)
  | some v => .ok v

/-- CUMAP[row][col].COD <- v for every position (row + i, col + j) of an h x w area (R182, R183). -/
def fillCod (row col h w : Nat) (v : Bool) (m : Memory Bool) : Memory Bool :=
  (blockCells h w).foldl (fun m p => m.write (cellKey (row + p.1) (col + p.2)) v) m

/-- The IF bit, 15, of a CU-map word (R52). -/
def cuIntra (w : BitVec 31) : Bool := w.getLsbD 15

/-- The CBFL bit, 24, of a CU-map word (R52). -/
def cuCbfl (w : BitVec 31) : Bool := w.getLsbD 24

/-- The QP field, bits 22 to 16, of a CU-map word (R52). -/
def cuQp (w : BitVec 31) : Nat := (w.extractLsb' 16 7).toNat

end Sys2Proof.Machine
end

