-- ==== Sys2Proof/Machine/Operands.lean ====
section
/-! DEFINITION. Operand assembly (30_encoding.md R88) and the arithmetic of 00_scope.md R8 and R9. -/

namespace Sys2Proof.Machine

/-- Bits 15 to 0 as an unsigned number: x of POS, bx of BLK. -/
def lo16 (a : Word) : Nat := (a.extractLsb' 0 16).toNat

/-- Bits 31 to 16 as an unsigned number: y of POS, by of BLK. -/
def hi16 (a : Word) : Nat := (a.extractLsb' 16 16).toNat

/-- Byte n of an argument register as an unsigned number: w, h, s, r. -/
def byteOf (a : Word) (n : Nat) : Nat := (a.extractLsb' (8 * n) 8).toNat

/-- S8: byte n of an argument register read as two's complement. -/
def s8Of (a : Word) (n : Nat) : Int := (a.extractLsb' (8 * n) 8).toInt

/-- mvx of MV: bits 15 to 0 as two's complement. -/
def mvX (a : Word) : Int := (a.extractLsb' 0 16).toInt

/-- mvy of MV: bits 31 to 16 as two's complement. -/
def mvY (a : Word) : Int := (a.extractLsb' 16 16).toInt

/-- The component a C field names; 3 names none. -/
def compOf (c : BitVec 2) : Option Comp :=
  match c.toNat with
  | 0 => some .y
  | 1 => some .cb
  | 2 => some .cr
  | _ => none

/-- clip3(lo, hi, v) = min(hi, max(lo, v)) (R9). -/
def clip3 (lo hi v : Int) : Int := min hi (max lo v)

/-- clipB(v) = clip3(0, 2^B - 1, v) (R9). -/
def clipB (b : Nat) (v : Int) : Int := clip3 0 (2 ^ b - 1) v

/-- A value kept in a sample cell. -/
def toSample (v : Int) : Sample := BitVec.ofInt 16 v

/-- A result register holding an unsigned number. -/
def natWord (n : Nat) : Word := BitVec.ofNat 32 n

/-- A result register holding a signed number, two's complement. -/
def intWord (v : Int) : Word := BitVec.ofInt 32 v

/-- Two 16-bit halves in one result register: high half first. -/
def pairWord (hi lo : Int) : Word := BitVec.ofInt 16 hi ++ BitVec.ofInt 16 lo

/-- A block size of 1 to 64 in each direction (R151, R157, R158). -/
def sizeOk (w h : Nat) : Bool := decide (1 ≤ w) && decide (w ≤ 64) && decide (1 ≤ h) && decide (h ≤ 64)

/-- A coding-unit size (R65). -/
def cuSizeOk (s : Nat) : Bool := s == 4 || s == 8 || s == 16 || s == 32 || s == 64

/-- A 4-aligned luma position inside the picture (R65, R159, R180, R183). -/
def lumaPosOk (g : Cfg) (x y : Nat) : Bool :=
  x % 4 == 0 && y % 4 == 0 && decide (x < g.picW.toNat) && decide (y < g.picH.toNat)

/-- No picture size is configured (R30). -/
def noPicture (g : Cfg) : Bool := g.picW == 0 || g.picH == 0

end Sys2Proof.Machine
end

