-- ==== Sys2Proof/Machine/Flags.lean ====
section
/-! DEFINITION. The flags of the block are STATUS.CODE and STATUS.STICKY (10_state.md R26 to R28, R55); it has no
condition codes. The commands write them through `raise`, `finish`, `raiseMalformed` and `setSticky` of
Ops.lean; here are their values as the host reads them. -/

namespace Sys2Proof.Machine

/-- The number of a completion code (R27). -/
def Code.num : Code → Nat
  | .ok => 0
  | .malformedBitstream => 1
  | .unsupported => 2
  | .outputNotAvailable => 3
  | .unexpectedState => 4
  | .outOfBuffers => 5
  | .illegalCommand => 6
  | .engineHalted => 7

/-- The STATUS register (R26): CODE in bits 3 to 0, STICKY in bit 8, every other bit 0. -/
def State.statusWord (s : State) : Word :=
  (0 : BitVec 23) ++ BitVec.ofBool s.sticky ++ (0 : BitVec 4) ++ BitVec.ofNat 4 s.code.num

/-- The number of a slot state as DPB_SLOT_RD reports it (R45, R210). -/
def SlotState.num : SlotState → Nat
  | .unalloc => 0
  | .pool => 1
  | .detached => 2

/-- The entropy-path commands, the only ones that STICKY halts (R28). -/
def entropyPath : Instr → Bool
  | .brRead _ | .brRead1 | .brReadUe | .brReadSe | .sbacInit _ | .decBin _ | .decBinEp | .decBinTrm
  | .decUnary _ _ _ | .decTunary _ _ _ _ => true
  | .nop | .reset | .cfgWr _ | .cfgRd _ | .statClr | .brInit | .brAligned | .brConsumed | .ctxWr _ | .ctxRd _
  | .mcClipmv | .mcPred _ _ | .mcAvg _ | .mcCu | .dfBs | .dfLuma _ | .dfChroma _ _ | .dfClr | .dfCu _ | .dpbGet
  | .dpbPut _ _ _ _ | .dpbRefp _ _ _ | .dpbOut | .dpbListRd _ _ | .dpbNumref | .dpbSlotRd _ => false

end Sys2Proof.Machine
end

