-- ==== Sys2Proof/Machine/MotionComp.lean ====
section
/-! DEFINITION. The motion-compensation commands (42_mc.md). `>>` on a signed value is division rounding down,
`&` with 3 or 7 the remainder (00_scope.md R9). -/

namespace Sys2Proof.Machine

/-- REFLIST[L] (R48). -/
def Dpb.list (d : Dpb) : ListIx → List RefEntry
  | .l0 => d.list0
  | .l1 => d.list1

/-- One component of `clipmv` (R152): position `p`, block size `n`, vector `mv`, picture size `size`, margin `m`.
Both tests use the original vector and the second wins. -/
def clipMvAxis (p n : Nat) (mv : Int) (size m : Nat) : Int :=
  let pq : Int := 4 * (p : Int)
  let nq : Int := 4 * (n : Int)
  let lo : Int := -(4 * (m : Int))
  let hi : Int := 4 * ((size : Int) - 1 + m)
  if hi < pq + mv + nq - 4 then hi - pq - nq + 4
  else if pq + mv < lo then lo - pq
  else mv

/-- `clipmv(x, y, w, h, mvx, mvy)` (R152). -/
def clipMv (g : Cfg) (x y w h : Nat) (mv : Int × Int) : Int × Int :=
  (clipMvAxis x w mv.1 g.picW.toNat g.mvClipMargin.toNat, clipMvAxis y h mv.2 g.picH.toNat g.mvClipMargin.toNat)

/-- `ref(c, k, X, Y)` (R153): the sample at coordinates clamped to the plane. -/
def refSample (s : State) (c : Comp) (k : Nat) (x y : Int) : Except Fault Int :=
  let (wc, hc) := planeSize s.cfg c
  readSample s k c (clip3 0 ((hc : Int) - 1) y).toNat (clip3 0 ((wc : Int) - 1) x).toNat

/-- The number of fraction values per integer position: 4 quarter or 8 eighth positions (R154). -/
def fracs (c : Comp) : Nat := if c = .y then 4 else 8

/-- T, the number of taps (R154). -/
def taps (c : Comp) : Nat := if c = .y then 8 else 4

/-- o, the tap at the integer position (R154). -/
def tapOrigin (c : Comp) : Nat := if c = .y then 3 else 1

/-- Integer position: the arithmetic shift of a vector component (R154). -/
def mvInt (c : Comp) (mv : Int) : Int := mv / (fracs c : Int)

/-- Fraction: the low bits of a vector component (R154). -/
def mvFrac (c : Comp) (mv : Int) : Nat := (mv % (fracs c : Int)).toNat

/-- The filter of a fraction: row `fraction << 2` of the component's table (R154, R155). -/
def coefs (g : Config) (c : Comp) (frac : Nat) : List Int :=
  let row := (if c = .y then g.lumaCoef else g.chromaCoef).getD (4 * frac) []
  (List.range (taps c)).map (fun t => row.getD t 0)

/-- The sum over the taps of coefficient times `f t`, the first tap having number `t`. -/
def tapSum (f : Nat → Except Fault Int) : List Int → Nat → Except Fault Int
  | [], _ => .ok 0
  | c :: cs, t =>
    match f t with
    | .error e => .error e
    | .ok v =>
      match tapSum f cs (t + 1) with
      | .error e => .error e
      | .ok r => .ok (c * v + r)

/-- `v >> n` with rounding constant 2^(n-1), none for n = 0 (R156). -/
def roundShift (n : Nat) (v : Int) : Int :=
  (v + if n = 0 then 0 else 2 ^ (n - 1)) / 2 ^ n

/-- One sample of `interp` (R156) at block position (row i, column j). With a fraction on one axis alone only the taps on
that axis are read, as the pseudocode of R156 says, where R164 counts the samples around both axes: DEDUCED, unsafe (log
entry 16). -/
def interpAt (s : State) (c : Comp) (k : Nat) (x y : Nat) (mv : Int × Int) (i j : Nat) : Except Fault Sample :=
  let b := s.cfg.bitDepth.toNat
  let fx := mvFrac c mv.1
  let fy := mvFrac c mv.2
  let px : Int := (x : Int) + mvInt c mv.1 + j
  let py : Int := (y : Int) + mvInt c mv.2 + i
  let at' := fun (tx ty : Nat) => refSample s c k (px + tx - tapOrigin c) (py + ty - tapOrigin c)
  let r : Except Fault Int :=
    if fx = 0 ∧ fy = 0 then refSample s c k px py
    else if fy = 0 then
      (tapSum (fun t => at' t (tapOrigin c)) (coefs s.config c fx) 0).map fun v => clipB b (roundShift 6 v)
    else if fx = 0 then
      (tapSum (fun t => at' (tapOrigin c) t) (coefs s.config c fy) 0).map fun v => clipB b (roundShift 6 v)
    else
      (tapSum (fun r => (tapSum (fun t => at' t r) (coefs s.config c fx) 0).map (roundShift (b - 8)))
        (coefs s.config c fy) 0).map fun v => clipB b (roundShift (20 - b) v)
  r.map toSample

/-- PRED[L][c][0..h-1][0..w-1] <- interp(c, k, x, y, w, h, mv) (R157, R159). -/
def predict (s : State) (l : ListIx) (c : Comp) (k x y w h : Nat) (mv : Int × Int) : Except Fault State :=
  match fillCells (interpAt s c k x y mv) (predKey l c) (blockCells h w) s.pred with
  | .error e => .error e
  | .ok m => .ok (s.setPred m)

/-- PRED[L][c][i][j] (R53): it must have been written (R158) and lie in [0, 2^BITDEPTH - 1], as every sample the block
uses or writes does (R83, D48; 93_implementation_defined.md section 2, log entry 12). -/
def readPred (s : State) (l : ListIx) (c : Comp) (i j : Nat) : Except Fault Sample :=
  match s.pred.read (predKey l c i j) with
  | none => .error (.unwrittenPred l c i j)
  | some v => if 2 ^ s.cfg.bitDepth.toNat ≤ v.toNat then .error (.predTooLarge l c i j) else .ok v

/-- (a + b + 1) >> 1 of the two list predictions (R158). -/
def avgAt (s : State) (c : Comp) (i j : Nat) : Except Fault Sample :=
  match readPred s .l0 c i j with
  | .error e => .error e
  | .ok a =>
    match readPred s .l1 c i j with
    | .error e => .error e
    | .ok b => .ok (BitVec.ofNat 16 ((a.toNat + b.toNat + 1) / 2))

/-- PREDOUT[c][0..h-1][0..w-1] <- f (R158, R159). -/
def output (s : State) (c : Comp) (w h : Nat) (f : Nat → Nat → Except Fault Sample) : Except Fault State :=
  match fillCells f (predOutKey c) (blockCells h w) s.predOut with
  | .error e => .error e
  | .ok m => .ok (s.setPredOut m)

/-- MC_CLIPMV (R151). -/
def execMcClipmv (s : State) : Result :=
  let x := lo16 s.arg0
  let y := hi16 s.arg0
  let w := byteOf s.arg2 0
  let h := byteOf s.arg2 1
  if noPicture s.cfg then raise .illegalCommand s
  else if hi16 s.arg2 ≠ 0 then raise .illegalCommand s
  else if ¬ sizeOk w h then raise .illegalCommand s
  else if s.cfg.picW.toNat ≤ x ∨ s.cfg.picH.toNat ≤ y then raise .illegalCommand s
  else
    let r := clipMv s.cfg x y w h (mvX s.arg1, mvY s.arg1)
    finish (s.setRes0 (pairWord r.2 r.1))

/-- MC_PRED (R157). -/
def execMcPred (c : BitVec 2) (l : ListIx) (s : State) : Result :=
  match compOf c with
  | none => raise .illegalCommand s
  | some c =>
    let x := lo16 s.arg0
    let y := hi16 s.arg0
    let w := byteOf s.arg2 0
    let h := byteOf s.arg2 1
    if noPicture s.cfg then raise .illegalCommand s
    else if byteOf s.arg2 3 ≠ 0 then raise .illegalCommand s
    else if ¬ sizeOk w h then raise .illegalCommand s
    else
      match (s.dpb.list l)[byteOf s.arg2 2]? with
      | none => raise .illegalCommand s
      | some r =>
        if (planeSize s.cfg c).1 ≤ x ∨ (planeSize s.cfg c).2 ≤ y then raise .illegalCommand s
        else orFault (predict s l c r.slot x y w h (mvX s.arg1, mvY s.arg1)) finish

/-- MC_AVG (R158). -/
def execMcAvg (c : BitVec 2) (s : State) : Result :=
  match compOf c with
  | none => raise .illegalCommand s
  | some c =>
    let w := byteOf s.arg2 0
    let h := byteOf s.arg2 1
    if hi16 s.arg2 ≠ 0 then raise .illegalCommand s
    else if ¬ sizeOk w h then raise .illegalCommand s
    else orFault (output s c w h (avgAt s c)) finish

/-- One list's share of MC_CU: the list, the slot its entry names and the vector to fetch with (R159). -/
structure Fetch where
  list : ListIx
  slot : Nat
  mv : Int × Int
deriving DecidableEq, Repr

/-- One component of MC_CU (R159): predict from each list, then average two predictions or copy one. -/
def mcCuComp (x y size : Nat) (fetches : List Fetch) (c : Comp) (s : State) : Except Fault State :=
  let half := fun (n : Nat) => if c = .y then n else n / 2
  match foldE (fun f s => predict s f.list c f.slot (half x) (half y) (half size) (half size) f.mv) fetches s with
  | .error e => .error e
  | .ok s' =>
    match fetches with
    | [f] => output s' c (half size) (half size) (readPred s' f.list c)
    | _ => output s' c (half size) (half size) (avgAt s' c)

/-- A reference index of MC_CU: `none` is an illegal index, `some none` an unused list (R159). -/
def cuRef (d : Dpb) (l : ListIx) (r : Int) : Option (Option RefEntry) :=
  if r = -1 then some none
  else if r < 0 then none
  else
    match (d.list l)[r.toNat]? with
    | none => none
    | some e => some (some e)

/-- The fetches of MC_CU: per used list the clipped vector, and list 0 alone in the degenerate case, where both
entries have one POC and the vectors before clipping are equal (R159, R160). -/
def cuFetches (g : Cfg) (x y size : Nat) (e0 e1 : Option RefEntry) (mv0 mv1 : Int × Int) : List Fetch :=
  let clip := clipMv g x y size size
  match e0, e1 with
  | some a, some b =>
    if a.poc = b.poc ∧ mv0 = mv1 then [⟨.l0, a.slot, clip mv0⟩]
    else [⟨.l0, a.slot, clip mv0⟩, ⟨.l1, b.slot, clip mv1⟩]
  | some a, none => [⟨.l0, a.slot, clip mv0⟩]
  | none, some b => [⟨.l1, b.slot, clip mv1⟩]
  | none, none => []

/-- MC_CU (R159). Its reference indices are read as S8, as R159 says, where R58 calls those of commands unsigned: DEDUCED,
unsafe (log entry 14). -/
def execMcCu (s : State) : Result :=
  let x := lo16 s.arg0
  let y := hi16 s.arg0
  let size := byteOf s.arg1 0
  if noPicture s.cfg then raise .illegalCommand s
  else if byteOf s.arg1 3 ≠ 0 then raise .illegalCommand s
  else if ¬ cuSizeOk size then raise .illegalCommand s
  else if ¬ lumaPosOk s.cfg x y then raise .illegalCommand s
  else
    match cuRef s.dpb .l0 (s8Of s.arg1 1), cuRef s.dpb .l1 (s8Of s.arg1 2) with
    | some e0, some e1 =>
      if e0 = none ∧ e1 = none then raise .illegalCommand s
      else
        let fetches := cuFetches s.cfg x y size e0 e1 (mvX s.arg2, mvY s.arg2) (mvX s.arg3, mvY s.arg3)
        orFault (foldE (mcCuComp x y size fetches) [.y, .cb, .cr] s) finish
    | _, _ => raise .illegalCommand s

end Sys2Proof.Machine
end

