-- ==== Sys2Proof/Machine/Deblock.lean ====
section
/-! DEFINITION. The deblocking commands (43_deblock.md). -/

namespace Sys2Proof.Machine

/-- CUR_SLOT as a slot index, `none` for NONE (R40). -/
def State.curSlot (s : State) : Option Nat :=
  if s.cfg.curSlot = noSlot then none else some s.cfg.curSlot.toNat

/-- `pic(L, r)` (R176): the slot a reference index names, `none` outside the list. -/
def refPic (d : Dpb) (l : ListIx) (r : Byte) : Option Nat :=
  if r.msb then none else ((d.list l)[r.toNat]?).map (·.slot)

/-- `far(a, b)` (R176): a difference of at least 4 quarter samples in a component. -/
def mvFar (a b : MotionVec) : Bool :=
  decide (4 ≤ (a.x.toInt - b.x.toInt).natAbs) || decide (4 ≤ (a.y.toInt - b.y.toInt).natAbs)

/-- `far(mP[lp], mQ[lq])` of slot k: the vectors are read only when they are compared (log entry 7). -/
def farAt (s : State) (k : Nat) (p q : Nat × Nat) (lp lq : ListIx) : Except Fault Bool :=
  match readMv s k p.1 p.2 lp with
  | .error e => .error e
  | .ok a =>
    match readMv s k q.1 q.2 lq with
    | .error e => .error e
    | .ok b => .ok (mvFar a b)

/-- `a or b`, the second evaluated only if the first is false. -/
def orE (a b : Except Fault Bool) : Except Fault Bool :=
  match a with
  | .error e => .error e
  | .ok true => .ok true
  | .ok false => b

/-- `a and b`, the second evaluated only if the first is true. -/
def andE (a b : Except Fault Bool) : Except Fault Bool :=
  match a with
  | .error e => .error e
  | .ok true => b
  | .ok false => .ok false

/-- `b and r`. -/
def guardE (b : Bool) (r : Except Fault Bool) : Except Fault Bool := if b then r else .ok false

/-- IF of one side or the other, then CBFL of one side or the other (R176): `field` is looked up in P, then in Q. -/
def eitherCu (s : State) (p q : Nat × Nat) (field : BitVec 31 → Bool) : Except Fault Bool :=
  orE ((readCuLow s p.1 p.2).map field) ((readCuLow s q.1 q.2).map field)

/-- The slots a block's two reference indices name (R176). -/
def blockRefs (s : State) (k : Nat) (b : Nat × Nat) : Except Fault (Option Nat × Option Nat) :=
  match readRefi s k b.1 b.2 .l0 with
  | .error e => .error e
  | .ok r0 =>
    match readRefi s k b.1 b.2 .l1 with
    | .error e => .error e
    | .ok r1 => .ok (refPic s.dpb .l0 r0, refPic s.dpb .l1 r1)

/-- The motion part of `bs` (R176): 2 if the sides differ enough, 3 if they are close. -/
def motionBs (s : State) (k : Nat) (p q : Nat × Nat) (rp rq : Option Nat × Option Nat) : Except Fault Nat :=
  let straight := rp.1 == rq.1 && rp.2 == rq.2
  let swapped := rp.1 == rq.2 && rp.2 == rq.1
  let fs := orE (guardE rp.1.isSome (farAt s k p q .l0 .l0)) (guardE rp.2.isSome (farAt s k p q .l1 .l1))
  let fw := orE (guardE rp.1.isSome (farAt s k p q .l0 .l1)) (guardE rp.2.isSome (farAt s k p q .l1 .l0))
  if !straight && !swapped then .ok 2
  else
    (if straight && swapped then andE fs fw else if straight then fs else fw).map fun f => if f then 2 else 3

/-- `bs(P, Q)` (R176) for blocks given as (row, column) in slot k. -/
def bs (s : State) (k : Nat) (p q : Nat × Nat) : Except Fault Nat :=
  match eitherCu s p q cuIntra with
  | .error e => .error e
  | .ok true => .ok 0
  | .ok false =>
    match eitherCu s p q cuCbfl with
    | .error e => .error e
    | .ok true => .ok 1
    | .ok false =>
      match blockRefs s k p with
      | .error e => .error e
      | .ok rp =>
        match blockRefs s k q with
        | .error e => .error e
        | .ok rq => motionBs s k p q rp rq

/-- `core` (R179): the signed correction d1 and its magnitude limit cl. `/` truncates toward zero (R9). -/
def lineCore (a b c d st : Int) : Int × Int :=
  let dd := (a - 4 * b + 4 * c - d).tdiv 8
  let t := max 0 (2 * ((dd.natAbs : Int) - st))
  let cl := max 0 ((dd.natAbs : Int) - t)
  (dd.sign * cl, cl)

/-- The four samples across an edge: two of the P side, two of the Q side (R179). -/
structure Line where
  a : Int
  b : Int
  c : Int
  d : Int
deriving DecidableEq, Repr

/-- `line_luma` (R179) at bit depth `depth`. -/
def lineLuma (depth : Nat) (st : Int) (l : Line) : Line :=
  let (d1, cl) := lineCore l.a l.b l.c l.d st
  let c2 := cl / 2
  let d2 := clip3 (-c2) c2 ((l.a - l.d).tdiv 4)
  ⟨clipB depth (l.a - d2), clipB depth (l.b + d1), clipB depth (l.c - d1), clipB depth (l.d + d2)⟩

/-- `line_chroma` (R179): only the two inner samples change. -/
def lineChroma (depth : Nat) (st : Int) (l : Line) : Line :=
  let (d1, _) := lineCore l.a l.b l.c l.d st
  ⟨l.a, clipB depth (l.b + d1), clipB depth (l.c - d1), l.d⟩

/-- The (row, column) of sample n (0 to 3 = A to D) of line i of the segment whose first Q-side sample is at
(x, y) (R180, R181). -/
def linePos (d : Dir) (x y i n : Nat) : Nat × Nat :=
  match d with
  | .vertical => (y + i, x + n - 2)
  | .horizontal => (y + n - 2, x + i)

/-- Sample n of line i. -/
def readLineSample (s : State) (k : Nat) (c : Comp) (d : Dir) (x y i n : Nat) : Except Fault Int :=
  readSample s k c (linePos d x y i n).1 (linePos d x y i n).2

/-- The four samples of line i, all read before any is written (R179). -/
def readLine (s : State) (k : Nat) (c : Comp) (d : Dir) (x y i : Nat) : Except Fault Line :=
  match readLineSample s k c d x y i 0 with
  | .error e => .error e
  | .ok a =>
    match readLineSample s k c d x y i 1 with
    | .error e => .error e
    | .ok b =>
      match readLineSample s k c d x y i 2 with
      | .error e => .error e
      | .ok c' =>
        match readLineSample s k c d x y i 3 with
        | .error e => .error e
        | .ok d' => .ok ⟨a, b, c', d'⟩

/-- Write sample n of line i. -/
def writeLineSample (k : Nat) (c : Comp) (d : Dir) (x y i n : Nat) (v : Int) (s : State) : State :=
  s.writeSample k c (linePos d x y i n).1 (linePos d x y i n).2 (toSample v)

/-- Filter line i of a luma segment: all four samples are written (R180). -/
def filterLumaLine (k : Nat) (d : Dir) (x y : Nat) (st : Int) (i : Nat) (s : State) : Except Fault State :=
  match readLine s k .y d x y i with
  | .error e => .error e
  | .ok l =>
    let r := lineLuma s.cfg.bitDepth.toNat st l
    .ok (writeLineSample k .y d x y i 3 r.d
      (writeLineSample k .y d x y i 2 r.c
        (writeLineSample k .y d x y i 1 r.b
          (writeLineSample k .y d x y i 0 r.a s))))

/-- Filter line i of a chroma segment: the outer samples are read and never written (R181). -/
def filterChromaLine (k : Nat) (c : Comp) (d : Dir) (x y : Nat) (st : Int) (i : Nat) (s : State) :
    Except Fault State :=
  match readLine s k c d x y i with
  | .error e => .error e
  | .ok l =>
    let r := lineChroma s.cfg.bitDepth.toNat st l
    .ok (writeLineSample k c d x y i 2 r.c (writeLineSample k c d x y i 1 r.b s))

/-- A luma segment: four lines (R180). -/
def lumaSegment (k : Nat) (d : Dir) (x y : Nat) (st : Int) : State → Except Fault State :=
  foldE (filterLumaLine k d x y st) [0, 1, 2, 3]

/-- A chroma segment: two lines (R181). -/
def chromaSegment (k : Nat) (c : Comp) (d : Dir) (x y : Nat) (st : Int) : State → Except Fault State :=
  foldE (filterChromaLine k c d x y st) [0, 1]

/-- The edge lies on the left (D = 0) or top (D = 1) picture boundary (R180, R181, R183). -/
def onBoundary (d : Dir) (x y : Nat) : Bool :=
  match d with
  | .vertical => x == 0
  | .horizontal => y == 0

/-- The alignment of a chroma segment: 4 across the edge, 2 along it (R181). -/
def chromaAligned (d : Dir) (x y : Nat) : Bool :=
  match d with
  | .vertical => x % 4 == 0 && y % 2 == 0
  | .horizontal => y % 4 == 0 && x % 2 == 0

/-- DF_BS (R177). -/
def execDfBs (s : State) : Result :=
  match s.curSlot with
  | none => raise .unexpectedState s
  | some k =>
    let px := lo16 s.arg0
    let py := hi16 s.arg0
    let qx := lo16 s.arg1
    let qy := hi16 s.arg1
    let wb := s.cfg.picW.toNat / 4
    let hb := s.cfg.picH.toNat / 4
    if wb ≤ px ∨ hb ≤ py ∨ wb ≤ qx ∨ hb ≤ qy then raise .illegalCommand s
    else if ¬ ((qx = px + 1 ∧ qy = py) ∨ (qx = px ∧ qy = py + 1)) then raise .illegalCommand s
    else orFault (bs s k (py, px) (qy, qx)) fun n => finish (s.setRes0 (natWord n))

/-- DF_LUMA (R180). A position off the 4-sample grid is illegal, as R180 says, where R65 speaks of any sample position:
DEDUCED, unsafe (log entry 15). -/
def execDfLuma (d : Dir) (s : State) : Result :=
  match s.curSlot with
  | none => raise .unexpectedState s
  | some k =>
    let x := lo16 s.arg0
    let y := hi16 s.arg0
    if ¬ lumaPosOk s.cfg x y then raise .illegalCommand s
    else if onBoundary d x y then raise .illegalCommand s
    else orFault (lumaSegment k d x y s.arg1.toNat s) finish

/-- DF_CHROMA (R181); the C field is checked first (R250). A position off its grid is illegal, as R181 says, where R65
speaks of any sample position: DEDUCED, unsafe (log entry 15). -/
def execDfChroma (d : Dir) (c : BitVec 2) (s : State) : Result :=
  match compOf c with
  | none => raise .illegalCommand s
  | some .y => raise .illegalCommand s
  | some c =>
    match s.curSlot with
    | none => raise .unexpectedState s
    | some k =>
      let x := lo16 s.arg0
      let y := hi16 s.arg0
      if ¬ chromaAligned d x y then raise .illegalCommand s
      else if (planeSize s.cfg c).1 ≤ x ∨ (planeSize s.cfg c).2 ≤ y then raise .illegalCommand s
      else if onBoundary d x y then raise .illegalCommand s
      else orFault (chromaSegment k c d x y s.arg1.toNat s) finish

/-- DF_CLR (R182): COD <- 0 over the picture area. -/
def execDfClr (s : State) : Result :=
  finish (s.setCuCod (fillCod 0 0 (s.cfg.picH.toNat / 4) (s.cfg.picW.toNat / 4) false s.cuCod))

/-- DF_TBL[idx][qp] << (B - 8) (R178). -/
def threshold (s : State) (idx qp : Nat) : Nat :=
  (s.config.dfTbl.getD idx []).getD qp 0 * 2 ^ (s.cfg.bitDepth.toNat - 8)

/-- min(QP, 51) of the Q-side block (R178). -/
def clampedQp (w : BitVec 31) : Nat := min (cuQp w) 51

/-- The chroma part of one segment of DF_CU: Cb, then Cr (R183). -/
def dfCuChroma (k : Nat) (d : Dir) (sx sy : Nat) (stc : Nat) (s : State) : Except Fault State :=
  if stc = 0 then .ok s
  else foldE (fun c s => chromaSegment k c d (sx / 2) (sy / 2) stc s) [.cb, .cr] s

/-- The filtering of one available segment of DF_CU, with edge coordinate `e` (R183). -/
def dfCuFilter (k : Nat) (d : Dir) (e sx sy : Nat) (p q : Nat × Nat) (s : State) : Except Fault State :=
  match bs s k p q with
  | .error x => .error x
  | .ok idx =>
    match readCuLow s q.1 q.2 with
    | .error x => .error x
    | .ok w =>
      let qp := clampedQp w
      let st := threshold s idx qp
      let stc := threshold s idx (s.config.chromaQpMap.getD qp 0)
      match (if st = 0 then .ok s else lumaSegment k d sx sy st s) with
      | .error x => .error x
      | .ok s' => if e % chromaEdgeGrid = 0 then dfCuChroma k d sx sy stc s' else .ok s'

/-- Segment i of the left or top edge of the CU at (x, y) (R183); skipped outside the picture and where the
P-side block is not marked (R185). -/
def dfCuSegment (k : Nat) (d : Dir) (x y : Nat) (i : Nat) (s : State) : Except Fault State :=
  let (sx, sy) := match d with
    | .vertical => (x, y + 4 * i)
    | .horizontal => (x + 4 * i, y)
  if s.cfg.picW.toNat ≤ sx ∨ s.cfg.picH.toNat ≤ sy then .ok s
  else
    let q := (sy / 4, sx / 4)
    let p := match d with
      | .vertical => (sy / 4, sx / 4 - 1)
      | .horizontal => (sy / 4 - 1, sx / 4)
    match readCod s p.1 p.2 with
    | .error e => .error e
    | .ok false => .ok s
    | .ok true => dfCuFilter k d (match d with | .vertical => x | .horizontal => y) sx sy p q s

/-- COD <- 1 on the in-picture blocks of the CU (R183). -/
def dfCuMark (x y size : Nat) (s : State) : State :=
  s.setCuCod (fillCod (y / 4) (x / 4) (min (y + size) s.cfg.picH.toNat / 4 - y / 4)
    (min (x + size) s.cfg.picW.toNat / 4 - x / 4) true s.cuCod)

/-- DF_CU (R183). -/
def execDfCu (d : Dir) (s : State) : Result :=
  match s.curSlot with
  | none => raise .unexpectedState s
  | some k =>
    let x := lo16 s.arg0
    let y := hi16 s.arg0
    let size := byteOf s.arg1 0
    if s.arg1.extractLsb' 8 24 ≠ 0 then raise .illegalCommand s
    else if ¬ cuSizeOk size then raise .illegalCommand s
    else if ¬ lumaPosOk s.cfg x y then raise .illegalCommand s
    else
      let filtered :=
        if onBoundary d x y then .ok s else foldE (dfCuSegment k d x y) (List.range (size / 4)) s
      orFault filtered fun s' => finish (dfCuMark x y size s')

end Sys2Proof.Machine
end

