-- ==== Sys2Proof/Machine/Dpb.lean ====
section
/-! DEFINITION. The decoded-picture-buffer commands (44_dpb.md). The primitives work on the DPB record; POCs
and their comparisons are unsigned 32-bit. -/

namespace Sys2Proof.Machine

/-- SLOT[k]. -/
def Dpb.slot (d : Dpb) (k : Nat) : Slot := d.slots.getD k {}

/-- Change SLOT[k]. -/
def Dpb.modifySlot (d : Dpb) (k : Nat) (f : Slot → Slot) : Dpb := { d with slots := d.slots.modify k f }

/-- BORROW(k): the reference-list entries that name slot k (R49). -/
def Dpb.borrow (d : Dpb) (k : Nat) : Nat := (d.list0 ++ d.list1).countP (fun e => e.slot == k)

/-- NALLOC: the slots that are not UNALLOC (R49). -/
def Dpb.nalloc (d : Dpb) : Nat := d.slots.countP (fun r => r.state != .unalloc)

/-- Slot k can be handed out again (R200). -/
def Dpb.reusable (d : Dpb) (k : Nat) : Bool :=
  !(d.slot k).isRef && !(d.slot k).needOut && d.borrow k == 0

/-- Slot k leaves POOL and is DETACHED (R200). -/
def Dpb.detach (d : Dpb) (k : Nat) : Dpb :=
  { d.modifySlot k (fun r => { r with state := .detached }) with pool := d.pool.filter (fun j => j != k) }

/-- The lowest UNALLOC slot (R201). -/
def Dpb.firstFree (d : Dpb) : Option Nat := d.slots.findIdx? (fun r => r.state == .unalloc)

/-- SLOT[k] of a newly allocated picture (R201). -/
def freshSlot : Slot := { state := .detached }

/-- DPB_GET (R200, R201): the first reusable slot of POOL, else a new picture if fewer than MAX_PB are allocated.
A reused slot keeps its picture; an allocated one has unspecified contents. -/
def execDpbGet (s : State) : Result :=
  if noPicture s.cfg then raise .illegalCommand s
  else
    match s.dpb.pool.find? s.dpb.reusable with
    | some k =>
      finish (((s.setDpb (s.dpb.detach k)).setCfg { s.cfg with curSlot := natWord k }).setRes0 (natWord k))
    | none =>
      if s.dpb.nalloc < s.cfg.maxPb.toNat then
        match s.dpb.firstFree with
        | none => raise .outOfBuffers s
        | some k =>
          finish ((((s.setDpb (s.dpb.modifySlot k fun _ => freshSlot)).setPics (s.pics.set k {})).setCfg
            { s.cfg with curSlot := natWord k }).setRes0 (natWord k))
      else raise .outOfBuffers s

/-- `demote(j)` (R203): no longer a reference, out of REFSEQ, to the back of POOL. -/
def Dpb.demote (d : Dpb) (j : Nat) : Dpb :=
  { d.modifySlot j (fun r => { r with isRef := false }) with
    refseq := d.refseq.filter (fun i => i != j)
    pool := d.pool.filter (fun i => i != j) ++ [j] }

/-- Demotion rule (a) (R203): a reference on a non-zero temporal layer, or whose POC is no multiple of the gap. -/
def Dpb.offGap (d : Dpb) (gap : Nat) (j : Nat) : Bool :=
  (d.slot j).tid != 0 || (d.slot j).poc.toNat % gap != 0

/-- Rule (a) over a copy of REFSEQ, front to back (R202). -/
def Dpb.demoteOffGap (d : Dpb) (gap : Nat) : Dpb :=
  (d.refseq.filter (d.offGap gap)).foldl Dpb.demote d

/-- Rule (b): while REFSEQ is not empty and at or above the cap, demote its head, at most `n` times (R202). -/
def Dpb.demoteOldest (cap : Nat) : Nat → Dpb → Dpb
  | 0, d => d
  | n + 1, d =>
    match d.refseq with
    | [] => d
    | j :: _ => if cap ≤ d.refseq.length then Dpb.demoteOldest cap n (d.demote j) else d

/-- The IDR flush: no slot of POOL is a reference any more (R202). -/
def Dpb.flush (d : Dpb) : Dpb :=
  { d.pool.foldl (fun d j => d.modifySlot j fun r => { r with isRef := false }) d with refseq := [] }

/-- What DPB_PUT does to the pictures already stored (R202). -/
def Dpb.mark (d : Dpb) (idr : Bool) (tid : BitVec 3) (gap cap : Nat) : Dpb :=
  if idr then d.flush
  else if tid = 0 then
    let d' := d.demoteOffGap gap
    Dpb.demoteOldest cap d'.refseq.length d'
  else d

/-- The record of a stored picture joins POOL and, as a reference, REFSEQ (R202). -/
def Dpb.store (d : Dpb) (k : Nat) (r : Slot) : Dpb :=
  { d.modifySlot k (fun _ => r) with
    pool := d.pool ++ [k]
    refseq := if r.isRef then d.refseq ++ [k] else d.refseq }

/-- DPB_PUT (R202). -/
def execDpbPut (idr no ref : Bool) (tid : BitVec 3) (s : State) : Result :=
  let k := s.arg0.toNat
  if (s.dpb.slot k).state ≠ .detached then raise .illegalCommand s
  else if s.config.pbCap ≤ k then raise .illegalCommand s
  else if idr = false ∧ tid = 0 ∧ s.arg2 = 0 then raise .illegalCommand s
  else
    let d := s.dpb.mark idr tid s.arg2.toNat s.cfg.maxNumRef.toNat
    let d := d.store k { state := .pool, isRef := ref, needOut := no, tid := tid, poc := s.arg1 }
    let cur := if s.cfg.curSlot = s.arg0 then noSlot else s.cfg.curSlot
    finish ((s.setDpb d).setCfg { s.cfg with curSlot := cur })

/-- Insert a slot before the first one whose POC is not larger than its own. -/
def Dpb.insertByPoc (d : Dpb) (j : Nat) : List Nat → List Nat
  | [] => [j]
  | i :: is => if (d.slot i).poc.toNat ≤ (d.slot j).poc.toNat then j :: i :: is else i :: Dpb.insertByPoc d j is

/-- REFSEQ sorted by POC, largest first; equal POCs keep the REFSEQ order (R204). -/
def Dpb.view (d : Dpb) : List Nat := d.refseq.foldr d.insertByPoc []

/-- `skip(j)` (R204): the candidate lies behind the intra refresh boundary `lip`. -/
def Dpb.skip (d : Dpb) (poc lip : Nat) (j : Nat) : Bool :=
  decide (lip ≤ poc) && decide ((d.slot j).poc.toNat < lip)

/-- The P-slice test of a candidate with `n` entries already taken (R205). -/
def Dpb.okP (d : Dpb) (poc lid n : Nat) (j : Nat) : Bool :=
  let c := d.slot j
  decide (c.poc.toNat < poc) &&
    (if lid = 0 then true
    else if lid = 1 then decide (c.tid.toNat ≤ 1)
    else n == 0 || decide (c.tid.toNat ≤ 1))

/-- List 0 of a P slice (R205): walk the candidates, `out` holding the entries taken so far. -/
def Dpb.walkP (d : Dpb) (m poc lip lid : Nat) : List Nat → List Nat → List Nat
  | [], out => out
  | j :: js, out =>
    if m ≤ out.length then out
    else if d.skip poc lip j then Dpb.walkP d m poc lip lid js out
    else if d.okP poc lid out.length j then Dpb.walkP d m poc lip lid js (out ++ [j])
    else Dpb.walkP d m poc lip lid js out

/-- The B-slice test of a candidate under the layer bound `nl` (R206). -/
def Dpb.okB (d : Dpb) (poc : Nat) (before : Bool) (nl : Nat) (j : Nat) : Bool :=
  let c := d.slot j
  (if before then decide (c.poc.toNat < poc) else decide (poc < c.poc.toNat)) && decide (c.tid.toNat ≤ nl)

/-- `walk(order, before)` (R206) with `m` entries still to take. -/
def Dpb.walkB (d : Dpb) (poc lip : Nat) (before : Bool) : List Nat → Nat → Nat → List Nat
  | [], _, _ => []
  | j :: js, m, nl =>
    if m = 0 then []
    else if d.skip poc lip j then Dpb.walkB d poc lip before js m nl
    else if d.okB poc before nl j then
      j :: Dpb.walkB d poc lip before js (m - 1) ((d.slot j).tid.toNat - 1)
    else Dpb.walkB d poc lip before js m nl

/-- List 0 of a B slice (R206). -/
def Dpb.listB0 (d : Dpb) (m poc lip lid : Nat) : List Nat :=
  Dpb.walkB d poc lip true d.view m (lid - 1)

/-- List 1 of a B slice with its fallback (R206). -/
def Dpb.listB1 (d : Dpb) (m poc lip lid : Nat) : List Nat :=
  let l := Dpb.walkB d poc lip false d.view.reverse m (lid - 1)
  if l.length < m then l ++ Dpb.walkB d poc lip true d.view (m - l.length) (lid - 1) else l

/-- The entries of a reference list (R204). -/
def Dpb.entries (d : Dpb) (l : List Nat) : List RefEntry := l.map fun j => ⟨j, (d.slot j).poc⟩

/-- DPB_REFP (R204). -/
def execDpbRefp (m : BitVec 8) (st : BitVec 2) (lid : BitVec 3) (s : State) : Result :=
  let poc := s.arg0.toNat
  let lip := s.arg1.toNat
  if s.config.maxRefList < m.toNat ∨ st.toNat = 3 then raise .illegalCommand s
  else
    let s0 := s.setDpb { s.dpb with list0 := [], list1 := [] }
    if st.toNat = 0 then finish s0
    else if st.toNat = 1 then
      let l0 := s.dpb.walkP m.toNat poc lip lid.toNat s.dpb.view []
      if l0 = [] then raise .unexpectedState s0
      else finish (s.setDpb { s.dpb with list0 := s.dpb.entries l0, list1 := [] })
    else
      let l0 := s.dpb.listB0 m.toNat poc lip lid.toNat
      let l1 := s.dpb.listB1 m.toNat poc lip lid.toNat
      if l0 = [] ∨ l1 = [] then raise .unexpectedState s0
      else finish (s.setDpb { s.dpb with list0 := s.dpb.entries l0, list1 := s.dpb.entries l1 })

/-- The slot with the smallest POC, the first of equals (R207). -/
def Dpb.minPoc (d : Dpb) : List Nat → Option Nat
  | [] => none
  | j :: js =>
    match Dpb.minPoc d js with
    | none => some j
    | some k => if (d.slot j).poc.toNat ≤ (d.slot k).poc.toNat then some j else some k

/-- The pictures of POOL marked for output, front to back (R207). -/
def Dpb.waiting (d : Dpb) : List Nat := d.pool.filter (fun j => (d.slot j).needOut)

/-- Those of them that are due: POC at most NEXT_OUT_POC (R207). -/
def Dpb.due (d : Dpb) (next : Nat) : List Nat :=
  d.waiting.filter (fun j => decide ((d.slot j).poc.toNat ≤ next))

/-- DPB_OUT (R207). -/
def execDpbOut (s : State) : Result :=
  if s.dpb.waiting = [] then raise .unexpectedState s
  else
    match s.dpb.minPoc (s.dpb.due s.cfg.nextOutPoc.toNat) with
    | none => raise .outputNotAvailable s
    | some k =>
      finish
        ((((s.setDpb (s.dpb.modifySlot k fun r => { r with needOut := false })).setCfg
          { s.cfg with nextOutPoc := s.cfg.nextOutPoc + s.cfg.pocInc }).setRes0 (natWord k)).setRes1
            (s.dpb.slot k).poc)

/-- DPB_LIST_RD (R208). -/
def execDpbListRd (i : BitVec 8) (l : ListIx) (s : State) : Result :=
  match (s.dpb.list l)[i.toNat]? with
  | none => raise .illegalCommand s
  | some e => finish ((s.setRes0 (natWord e.slot)).setRes1 e.poc)

/-- DPB_NUMREF (R209): the lengths of the two lists. -/
def execDpbNumref (s : State) : Result :=
  finish ((s.setRes0 (natWord s.dpb.list0.length)).setRes1 (natWord s.dpb.list1.length))

/-- The position of slot k in an ordered list, 0xFF where it is not (R210). -/
def positionIn (k : Nat) (l : List Nat) : Nat :=
  match l.findIdx? (fun j => j == k) with
  | none => 0xFF
  | some p => p

/-- RES0 of DPB_SLOT_RD: the layout of R210. -/
def slotWord (d : Dpb) (k : Nat) : Word :=
  let r := d.slot k
  BitVec.ofNat 8 (min (d.borrow k) 255) ++ BitVec.ofNat 8 (positionIn k d.refseq) ++
    BitVec.ofNat 8 (positionIn k d.pool) ++ (0 : BitVec 1) ++ r.tid ++ BitVec.ofBool r.needOut ++
    BitVec.ofBool r.isRef ++ BitVec.ofNat 2 r.state.num

/-- DPB_SLOT_RD (R210). -/
def execDpbSlotRd (k : BitVec 8) (s : State) : Result :=
  if s.config.pbCap ≤ k.toNat then raise .illegalCommand s
  else finish ((s.setRes0 (slotWord s.dpb k.toNat)).setRes1 (s.dpb.slot k.toNat).poc)

end Sys2Proof.Machine
end

