-- ==== Sys2Proof/Machine/BitReader.lean ====
section
/-! DEFINITION. The bit reader (40_bitreader.md). Its primitives work on the entropy registers and read BSMEM,
which they never write (20_memory.md R61). -/

namespace Sys2Proof.Machine

/-- BITPOS one further, saturating at 2^32 - 1 (R106). -/
def Entropy.advance (e : Entropy) : Entropy :=
  { e with bitPos := if e.bitPos.toNat < 0xFFFFFFFF then e.bitPos + 1 else e.bitPos }

/-- The bit at the cursor: bit 7 - i mod 8 of byte i div 8 of the packet, 0 past its end (R60, R70, R106). -/
def currentBit (bs : Memory Byte) (e : Entropy) : Except Fault Bool :=
  let i := e.bitPos.toNat
  if i / 8 < e.bsLen.toNat then
    match bs.read (e.bsBase.toNat + i / 8) with
    | none => .error (.unwrittenBsByte (e.bsBase.toNat + i / 8))
    | some b => .ok (b.getLsbD (7 - i % 8))
  else .ok false

/-- `nextbit()` (R106). -/
def nextbit (bs : Memory Byte) (e : Entropy) : Except Fault (Bool × Entropy) :=
  match currentBit bs e with
  | .error f => .error f
  | .ok b => .ok (b, e.advance)

/-- `v <- (v << 1) | nextbit()`, n times (R106). -/
def readbitsFrom (bs : Memory Byte) : Nat → Nat → Entropy → Except Fault (Nat × Entropy)
  | 0, v, e => .ok (v, e)
  | n + 1, v, e =>
    match nextbit bs e with
    | .error f => .error f
    | .ok (b, e') => readbitsFrom bs n (2 * v + b.toNat) e'

/-- `readbits(n)` (R106). -/
def readbits (bs : Memory Byte) (n : Nat) (e : Entropy) : Except Fault (Nat × Entropy) :=
  readbitsFrom bs n 0 e

/-- The prefix of an Exp-Golomb code (R110): `lz` zeros have been read and at most `n` more may follow; the
answer is the number of zeros before the 1 bit, `none` when the bound is reached. -/
def uePrefix (bs : Memory Byte) : Nat → Nat → Entropy → Except Fault (Option Nat × Entropy)
  | 0, _, e => .ok (none, e)
  | n + 1, lz, e =>
    match nextbit bs e with
    | .error f => .error f
    | .ok (true, e') => .ok (some lz, e')
    | .ok (false, e') => uePrefix bs n (lz + 1) e'

/-- `ue()` (R110); `none` is MALFORMED. -/
def ue (bs : Memory Byte) (e : Entropy) : Except Fault (Option Nat × Entropy) :=
  match uePrefix bs uePrefixBound 0 e with
  | .error f => .error f
  | .ok (none, e') => .ok (none, e')
  | .ok (some lz, e') =>
    match readbits bs lz e' with
    | .error f => .error f
    | .ok (suffix, e'') => .ok (some (2 ^ lz - 1 + suffix), e'')

/-- The signed value of an unsigned Exp-Golomb code: `(v+1)>>1` if odd, else `-(v>>1)` (R112). -/
def zigzag (v : Nat) : Int :=
  if v % 2 = 1 then (((v + 1) / 2 : Nat) : Int) else -((v / 2 : Nat) : Int)

/-- BR_INIT (R108). -/
def execBrInit (s : State) : Result :=
  if s.config.bsSize < s.arg0.toNat + s.arg1.toNat then raise .illegalCommand s
  else
    finish ((s.setEnt { s.ent with bsBase := s.arg0, bsLen := s.arg1, bitPos := 0 }).setSticky false)

/-- BR_READ (R107). -/
def execBrRead (n : BitVec 6) (s : State) : Result :=
  if n.toNat = 0 ∨ 32 < n.toNat then raise .illegalCommand s
  else
    unlessHalted s
      (orFault (readbits s.bsmem n.toNat s.ent) fun (v, e) => finish ((s.setEnt e).setRes0 (natWord v)))

/-- BR_READ1 (R109). -/
def execBrRead1 (s : State) : Result :=
  unlessHalted s
    (orFault (nextbit s.bsmem s.ent) fun (b, e) => finish ((s.setEnt e).setRes0 (natWord b.toNat)))

/-- BR_READ_UE (R111). -/
def execBrReadUe (s : State) : Result :=
  unlessHalted s
    (orFault (ue s.bsmem s.ent) fun (r, e) =>
      match r with
      | none => raiseMalformed e s
      | some v => finish ((s.setEnt e).setRes0 (natWord v)))

/-- BR_READ_SE (R112). -/
def execBrReadSe (s : State) : Result :=
  unlessHalted s
    (orFault (ue s.bsmem s.ent) fun (r, e) =>
      match r with
      | none => raiseMalformed e s
      | some v => finish ((s.setEnt e).setRes0 (intWord (zigzag v))))

/-- BR_ALIGNED (R113). -/
def execBrAligned (s : State) : Result :=
  finish (s.setRes0 (if s.ent.bitPos.toNat % 8 = 0 then 1 else 0))

/-- BR_CONSUMED (R114). -/
def execBrConsumed (s : State) : Result :=
  finish (s.setRes0 (natWord ((s.ent.bitPos.toNat + 7) / 8)))

end Sys2Proof.Machine
end

