-- ==== Sys2Proof/Machine/Sbac.lean ====
section
/-! DEFINITION. The SBAC engine (41_sbac.md). RANGE and VALUE are computed as numbers and kept in their 15-bit
and 16-bit registers (10_state.md R43). -/

namespace Sys2Proof.Machine

/-- STATE of a context model (R44). -/
def ctxState (m : CtxModel) : Nat := (m.extractLsb' 1 9).toNat

/-- MPS of a context model (R44). -/
def ctxMps (m : CtxModel) : Bool := m.getLsbD 0

/-- A context model from STATE and MPS. -/
def mkCtx (state : Nat) (mps : Bool) : CtxModel := BitVec.ofNat 9 state ++ BitVec.ofBool mps

/-- The model after an LPS: adapt upward, and above 256 flip MPS and mirror (R129 step 3). -/
def adaptLps (state : Nat) (mps : Bool) : CtxModel :=
  let up := state + (512 - state + 16) / 32
  if 256 < up then mkCtx (512 - up) (!mps) else mkCtx up mps

/-- The model after an MPS: adapt downward (R129 step 4). -/
def adaptMps (state : Nat) (mps : Bool) : CtxModel := mkCtx (state - (state + 16) / 32) mps

/-- The LPS sub-range: max(437, (state * RANGE) >> 9) (R129 step 1, D52). -/
def lpsRange (state range : Nat) : Nat := max lpsFloor (state * range / 512)

/-- RANGE and VALUE set to numbers. -/
def Entropy.setRv (e : Entropy) (range value : Nat) : Entropy :=
  { e with range := BitVec.ofNat 15 range, value := BitVec.ofNat 16 value }

/-- `renorm()` (R131), at most `n` doublings. -/
def renormUpTo (bs : Memory Byte) : Nat → Entropy → Except Fault Entropy
  | 0, e => .ok e
  | n + 1, e =>
    if e.range.toNat < rangeBound then
      match nextbit bs e with
      | .error f => .error f
      | .ok (b, e') => renormUpTo bs n (e'.setRv (2 * e.range.toNat) (2 * e.value.toNat + b.toNat))
    else .ok e

/-- `renorm()` (R131). From a RANGE of at least 1 the bound of 8192 = 2^13 is reached in 13 doublings. -/
def renorm (bs : Memory Byte) (e : Entropy) : Except Fault Entropy := renormUpTo bs 13 e

/-- `bin(c)` (R129). -/
def bin (bs : Memory Byte) (c : Nat) (e : Entropy) : Except Fault (Bool × Entropy) :=
  match e.ctx.read c with
  | none => .error (.unwrittenContext c)
  | some m =>
    if e.range.toNat ≤ lpsFloor then .error .rangeTooSmall
    else
      let lps := lpsRange (ctxState m) e.range.toNat
      let r := e.range.toNat - lps
      let b := if r ≤ e.value.toNat then !ctxMps m else ctxMps m
      let e' :=
        if r ≤ e.value.toNat then
          { e.setRv lps (e.value.toNat - r) with ctx := e.ctx.write c (adaptLps (ctxState m) (ctxMps m)) }
        else
          { e.setRv r e.value.toNat with ctx := e.ctx.write c (adaptMps (ctxState m) (ctxMps m)) }
      match renorm bs e' with
      | .error f => .error f
      | .ok e'' => .ok (b, e'')

/-- `ep()` (R133): halve, compare, double back, shift in one bit. -/
def ep (bs : Memory Byte) (e : Entropy) : Except Fault (Bool × Entropy) :=
  let r := e.range.toNat / 2
  let b := decide (r ≤ e.value.toNat)
  let v := if r ≤ e.value.toNat then e.value.toNat - r else e.value.toNat
  match nextbit bs e with
  | .error f => .error f
  | .ok (x, e') => .ok (b, e'.setRv (2 * r) (2 * v + x.toNat))

/-- Bin k of a unary symbol: a bypass bin, or the bin of context CB + min(k, NC - 1) (R135). -/
def unaryBin (bs : Memory Byte) (cb nc : Nat) (bypass : Bool) (k : Nat) (e : Entropy) :
    Except Fault (Bool × Entropy) :=
  if bypass then ep bs e else bin bs (cb + min k (nc - 1)) e

/-- Bins from number `k` on, until a 0 bin or until `n` more 1 bins: the number of the 0 bin, or `none` when
the limit is reached (R135, R136). -/
def unaryFrom (f : Nat → Entropy → Except Fault (Bool × Entropy)) :
    Nat → Nat → Entropy → Except Fault (Option Nat × Entropy)
  | 0, _, e => .ok (none, e)
  | n + 1, k, e =>
    match f k e with
    | .error x => .error x
    | .ok (false, e') => .ok (some k, e')
    | .ok (true, e') => unaryFrom f n (k + 1) e'

/-- Read `n` alignment bits: is a 1 among them (R134)? -/
def alignBits (bs : Memory Byte) : Nat → Bool → Entropy → Except Fault (Bool × Entropy)
  | 0, bad, e => .ok (bad, e)
  | n + 1, bad, e =>
    match nextbit bs e with
    | .error f => .error f
    | .ok (b, e') => alignBits bs n (bad || b) e'

/-- The number of bits from the cursor to the next byte boundary (R134, R139; log entry 8). -/
def bitsToAlign (e : Entropy) : Nat := (8 - e.bitPos.toNat % 8) % 8

/-- SBAC_INIT (R128). -/
def execSbacInit (f : Bool) (s : State) : Result :=
  unlessHalted s
    (orFault (readbits s.bsmem 14 s.ent) fun (v, e) =>
      let e' := e.setRv rangeInit v
      let ctx := if f then (List.range numCtx).map (fun c => (c, s.cfg.ctxInit.extractLsb' 0 10)) else e.ctx
      finish (s.setEnt { e' with ctx := ctx }))

/-- CTX_WR (R126). -/
def execCtxWr (ctx : BitVec 8) (s : State) : Result :=
  if s.arg0.extractLsb' 10 22 ≠ 0 then raise .illegalCommand s
  else if 256 < ctxState (s.arg0.extractLsb' 0 10) then raise .illegalCommand s
  else finish (s.setEnt { s.ent with ctx := s.ent.ctx.write ctx.toNat (s.arg0.extractLsb' 0 10) })

/-- CTX_RD (R127). -/
def execCtxRd (ctx : BitVec 8) (s : State) : Result :=
  match s.ent.ctx.read ctx.toNat with
  | none => .fault (.unwrittenContext ctx.toNat)
  | some m => finish (s.setRes0 (m.zeroExtend 32))

/-- DEC_BIN (R132). -/
def execDecBin (ctx : BitVec 8) (s : State) : Result :=
  unlessHalted s
    (orFault (bin s.bsmem ctx.toNat s.ent) fun (b, e) => finish ((s.setEnt e).setRes0 (natWord b.toNat)))

/-- DEC_BIN_EP (R133). -/
def execDecBinEp (s : State) : Result :=
  unlessHalted s
    (orFault (ep s.bsmem s.ent) fun (b, e) => finish ((s.setEnt e).setRes0 (natWord b.toNat)))

/-- DEC_BIN_TRM (R134); with RANGE 0 it is a model fault (R137). -/
def execDecBinTrm (s : State) : Result :=
  unlessHalted s
    (if s.ent.range.toNat = 0 then .fault .rangeTooSmall
    else
      let r := s.ent.range.toNat - 1
      let e := s.ent.setRv r s.ent.value.toNat
      if r ≤ s.ent.value.toNat then
        orFault (alignBits s.bsmem (bitsToAlign e) false e) fun (bad, e') =>
          if bad then raiseMalformed e' s else finish ((s.setEnt e').setRes0 1)
      else orFault (renorm s.bsmem e) fun e' => finish ((s.setEnt e').setRes0 0))

/-- DEC_UNARY (R135). -/
def execDecUnary (cb : BitVec 8) (nc : BitVec 4) (bypass : Bool) (s : State) : Result :=
  if bypass = true ∧ (cb.toNat ≠ 0 ∨ nc.toNat ≠ 0) then raise .illegalCommand s
  else if bypass = false ∧ (nc.toNat = 0 ∨ numCtx ≤ cb.toNat + nc.toNat - 1) then raise .illegalCommand s
  else
    unlessHalted s
      (orFault (unaryFrom (unaryBin s.bsmem cb.toNat nc.toNat bypass) unaryLimit 0 s.ent) fun (r, e) =>
        match r with
        | none => raiseMalformed e s
        | some k => finish ((s.setEnt e).setRes0 (natWord k)))

/-- DEC_TUNARY (R136): at most MAX - 1 bins, and no 0 bin is needed once the value is MAX - 1. -/
def execDecTunary (cb : BitVec 8) (nc : BitVec 4) (bypass : Bool) (max : BitVec 8) (s : State) : Result :=
  if bypass = true ∧ (cb.toNat ≠ 0 ∨ nc.toNat ≠ 0) then raise .illegalCommand s
  else if bypass = false ∧ (nc.toNat = 0 ∨ numCtx ≤ cb.toNat + nc.toNat - 1) then raise .illegalCommand s
  else
    unlessHalted s
      (orFault (unaryFrom (unaryBin s.bsmem cb.toNat nc.toNat bypass) (max.toNat - 1) 0 s.ent) fun (r, e) =>
        finish ((s.setEnt e).setRes0 (natWord (r.getD (max.toNat - 1)))))

end Sys2Proof.Machine
end

