-- ==== Sys2Proof/Machine/System.lean ====
section
/-! DEFINITION. The system commands (45_system.md): NOP, RESET, CFG_WR, CFG_RD, STAT_CLR. -/

namespace Sys2Proof.Machine

/-- NOP (R230). -/
def execNop (s : State) : Result := finish s

/-- RESET (R231): the state of power-on reset, but BSMEM is kept (R266) and so are the fields that are not the
block's. -/
def execReset (s : State) : Result :=
  finish
    { State.resetOf s.config with
      host := s.host, hostData := s.hostData, freeCount := s.freeCount, bsmem := s.bsmem }

/-- The sequence re-initialisation (R234): every slot, list and the CU map are discarded. -/
def reinit (s : State) : State :=
  { s with
    dpb := Dpb.resetOf s.config
    pics := List.replicate s.config.pbCap {}
    cfg := { s.cfg with curSlot := noSlot }
    cuLow := []
    cuCod := [] }

/-- The value checks of CFG_WR (R232): the code raised, `none` for a legal value. -/
def cfgWrError (c : Config) (idx : BitVec 8) (v : Word) : Option Code :=
  match idx.toNat with
  | 0x00 => if v.toNat ≠ 0 ∧ (v.toNat % 8 ≠ 0 ∨ c.maxW < v.toNat) then some .illegalCommand else none
  | 0x01 => if v.toNat ≠ 0 ∧ (v.toNat % 8 ≠ 0 ∨ c.maxH < v.toNat) then some .illegalCommand else none
  | 0x02 => if v.toNat = 8 ∨ v.toNat = 9 ∨ v.toNat = 10 then none else some .unsupported
  | 0x03 => if 3 < v.toNat then some .illegalCommand else if v.toNat ≠ 1 then some .unsupported else none
  | 0x04 => if c.pbCap < v.toNat then some .illegalCommand else none
  | 0x05 => if 255 < v.toNat then some .illegalCommand else none
  | 0x06 => none
  | 0x07 => none
  | 0x08 => if 0x201 < v.toNat then some .illegalCommand else none
  | 0x09 => if 1024 < v.toNat then some .illegalCommand else none
  | _ => some .illegalCommand

/-- PIC_W or PIC_H takes a value it did not hold: the write re-initialises (R30, R31). -/
def changesSize (g : Cfg) (idx : BitVec 8) (v : Word) : Bool :=
  (idx == 0x00 && v != g.picW) || (idx == 0x01 && v != g.picH)

/-- CFG_WR (R232). -/
def execCfgWr (idx : BitVec 8) (s : State) : Result :=
  match cfgWrError s.config idx s.arg0 with
  | some c => raise c s
  | none =>
    let s' := s.setCfg (s.cfg.set idx s.arg0)
    finish (if changesSize s.cfg idx s.arg0 then reinit s' else s')

/-- CFG_RD (R233). -/
def execCfgRd (idx : BitVec 8) (s : State) : Result :=
  match s.cfg.get idx with
  | none => raise .illegalCommand s
  | some v => finish (s.setRes0 v)

/-- STAT_CLR (R235). -/
def execStatClr (s : State) : Result := finish (s.setSticky false)

end Sys2Proof.Machine
end

