-- ==== Sys2Proof/Machine/Dispatch.lean ====
section
/-! DEFINITION. `exec`: one arm per command, each one direct call of its meaning. -/

namespace Sys2Proof.Machine

def exec (i : Instr) (s : State) : Host.Outcome State Fault Refusal :=
  match i with
  -- 45_system.md
  | .nop => Sys2Proof.Machine.execNop s
  | .reset => Sys2Proof.Machine.execReset s
  | .cfgWr idx => Sys2Proof.Machine.execCfgWr idx s
  | .cfgRd idx => Sys2Proof.Machine.execCfgRd idx s
  | .statClr => Sys2Proof.Machine.execStatClr s
  -- 40_bitreader.md
  | .brInit => Sys2Proof.Machine.execBrInit s
  | .brRead n => Sys2Proof.Machine.execBrRead n s
  | .brRead1 => Sys2Proof.Machine.execBrRead1 s
  | .brReadUe => Sys2Proof.Machine.execBrReadUe s
  | .brReadSe => Sys2Proof.Machine.execBrReadSe s
  | .brAligned => Sys2Proof.Machine.execBrAligned s
  | .brConsumed => Sys2Proof.Machine.execBrConsumed s
  -- 41_sbac.md
  | .sbacInit f => Sys2Proof.Machine.execSbacInit f s
  | .ctxWr ctx => Sys2Proof.Machine.execCtxWr ctx s
  | .ctxRd ctx => Sys2Proof.Machine.execCtxRd ctx s
  | .decBin ctx => Sys2Proof.Machine.execDecBin ctx s
  | .decBinEp => Sys2Proof.Machine.execDecBinEp s
  | .decBinTrm => Sys2Proof.Machine.execDecBinTrm s
  | .decUnary cb nc ep => Sys2Proof.Machine.execDecUnary cb nc ep s
  | .decTunary cb nc ep max => Sys2Proof.Machine.execDecTunary cb nc ep max s
  -- 42_mc.md
  | .mcClipmv => Sys2Proof.Machine.execMcClipmv s
  | .mcPred c l => Sys2Proof.Machine.execMcPred c l s
  | .mcAvg c => Sys2Proof.Machine.execMcAvg c s
  | .mcCu => Sys2Proof.Machine.execMcCu s
  -- 43_deblock.md
  | .dfBs => Sys2Proof.Machine.execDfBs s
  | .dfLuma d => Sys2Proof.Machine.execDfLuma d s
  | .dfChroma d c => Sys2Proof.Machine.execDfChroma d c s
  | .dfClr => Sys2Proof.Machine.execDfClr s
  | .dfCu d => Sys2Proof.Machine.execDfCu d s
  -- 44_dpb.md
  | .dpbGet => Sys2Proof.Machine.execDpbGet s
  | .dpbPut idr no ref tid => Sys2Proof.Machine.execDpbPut idr no ref tid s
  | .dpbRefp m st lid => Sys2Proof.Machine.execDpbRefp m st lid s
  | .dpbOut => Sys2Proof.Machine.execDpbOut s
  | .dpbListRd i' l => Sys2Proof.Machine.execDpbListRd i' l s
  | .dpbNumref => Sys2Proof.Machine.execDpbNumref s
  | .dpbSlotRd k => Sys2Proof.Machine.execDpbSlotRd k s

end Sys2Proof.Machine
end

