-- ==== Sys2Proof/Machine/HostPort.lean ====
section
/-! DEFINITION. The steps of the host (00_scope.md R6): accesses to the register bank (10_state.md R22 to R26) and
to the memories (20_memory.md R61, R78, R82, R83). A write of CMD runs a command (R23, R85). -/

namespace Sys2Proof.Machine

/-- A host write of `w` to CMD (R85): an illegal word completes with ILLEGAL_COMMAND and no other effect (R90), a
legal one is executed. -/
def runCommand (w : Word) (s : State) : Result :=
  match decode w with
  | .error _ => raise .illegalCommand s
  | .ok i => exec i s

/-- A host write of a register (R22): CMD executes, ARG0 to ARG3 are written, the rest ignore the write. -/
def hostRegWrite (word : BitVec 6) (v : Word) (s : State) : Result :=
  match word.toNat with
  | 0 => runCommand v s
  | 1 => .next { s with arg0 := v }
  | 2 => .next { s with arg1 := v }
  | 3 => .next { s with arg2 := v }
  | 4 => .next { s with arg3 := v }
  | _ => .next s

/-- What a host read of a register answers (R22): CMD and the reserved words read 0. -/
def hostRegValue (word : BitVec 6) (s : State) : Word :=
  match word.toNat with
  | 1 => s.arg0
  | 2 => s.arg1
  | 3 => s.arg2
  | 4 => s.arg3
  | 5 => s.res0
  | 6 => s.res1
  | 7 => s.statusWord
  | _ => 0

/-- The host's read answered `v`. -/
def hostAnswer (v : Word) (s : State) : Result := .next (s.setHostData v)

/-- BSMEM address `a` lies in the current packet (R276). -/
def inPacket (e : Entropy) (a : Nat) : Bool :=
  decide (e.bsBase.toNat ≤ a) && decide (a < e.bsBase.toNat + e.bsLen.toNat)

/-- A host write of a BSMEM byte: not inside the current packet (R276). -/
def hostBsWrite (a : Nat) (v : Byte) (s : State) : Result :=
  if s.config.bsSize ≤ a then .fault .noSuchElement
  else if inPacket s.ent a then .refused .bsWriteInPacket
  else .next (s.setBsmem (s.bsmem.write a v))

/-- A host read of a BSMEM byte (R61, R82). -/
def hostBsRead (a : Nat) (s : State) : Result :=
  match s.bsmem.read a with
  | some b => if s.config.bsSize ≤ a then .fault .noSuchElement else hostAnswer (b.zeroExtend 32) s
  | none => if s.config.bsSize ≤ a then .fault .noSuchElement else .fault (.unwrittenBsByte a)

/-- A host write to slot k's planes or maps at a position that exists (`inside`): allowed while the slot is
DETACHED (R78), refused while it is in POOL (R277); an UNALLOC slot holds no picture (R50). -/
def hostPicWrite (k : Nat) (inside : Bool) (f : Picture → Picture) (s : State) : Result :=
  match (s.dpb.slot k).state with
  | .unalloc => .fault .noSuchElement
  | .pool => .refused .storedPictureWrite
  | .detached => if inside then .next (s.setPics (s.pics.modify k f)) else .fault .noSuchElement

/-- A sample position inside a component's plane (R50). -/
def insidePlane (g : Cfg) (c : Comp) (y x : Nat) : Bool :=
  decide (x < (planeSize g c).1) && decide (y < (planeSize g c).2)

/-- A 4x4 block position inside the picture (R51). -/
def insideMap (g : Cfg) (row col : Nat) : Bool :=
  decide (col < g.picW.toNat / 4) && decide (row < g.picH.toNat / 4)

/-- A host write of a sample, at most 2^BITDEPTH - 1 (R83). -/
def hostSampleWrite (k : Nat) (c : Comp) (y x : Nat) (v : Sample) (s : State) : Result :=
  if 2 ^ s.cfg.bitDepth.toNat ≤ v.toNat then .refused .sampleAboveMax
  else
    hostPicWrite k (insidePlane s.cfg c y x) (fun p => p.setPlane c ((p.plane c).write (cellKey y x) v)) s

/-- A host read of an element of slot k's picture, at a position that exists. -/
def hostPicRead (k : Nat) (inside : Bool) (r : Except Fault Word) (s : State) : Result :=
  if (s.dpb.slot k).state = .unalloc ∨ inside = false then .fault .noSuchElement
  else orFault r fun v => hostAnswer v s

/-- A host read of a sample; a sample above the current maximum is read as it stands. -/
def hostSampleRead (k : Nat) (c : Comp) (y x : Nat) (s : State) : Result :=
  hostPicRead k (insidePlane s.cfg c y x)
    (match s.sampleAt k c y x with
      | none => .error (.unwrittenSample k c y x)
      | some v => .ok (v.zeroExtend 32)) s

/-- A host write of a motion vector (R51). -/
def hostMvWrite (k row col : Nat) (l : ListIx) (v : MotionVec) (s : State) : Result :=
  hostPicWrite k (insideMap s.cfg row col) (fun p => p.setMv l ((p.mv l).write (cellKey row col) v)) s

/-- A host read of a motion vector: mvx in the low half, mvy in the high half. DESIGN CHOICE, unsafe (log entry 10). -/
def hostMvRead (k row col : Nat) (l : ListIx) (s : State) : Result :=
  hostPicRead k (insideMap s.cfg row col) ((readMv s k row col l).map fun v => v.y ++ v.x) s

/-- A host write of a reference index (R51). -/
def hostRefiWrite (k row col : Nat) (l : ListIx) (v : Byte) (s : State) : Result :=
  hostPicWrite k (insideMap s.cfg row col) (fun p => p.setRefi l ((p.refi l).write (cellKey row col) v)) s

/-- A host read of a reference index: the 8 bits of the entry in the low byte, the rest 0, so that -1 reads as 0xFF. The
spec gives the entry as a signed 8-bit value and no 32-bit form of it: DESIGN CHOICE, unsafe (log entry 10). -/
def hostRefiRead (k row col : Nat) (l : ListIx) (s : State) : Result :=
  hostPicRead k (insideMap s.cfg row col) ((readRefi s k row col l).map fun v => v.zeroExtend 32) s

/-- A CU-map position that exists: (MAX_H / 4) x (MAX_W / 4) words are provided (R20, R57). -/
def insideCuMap (c : Config) (row col : Nat) : Bool :=
  decide (col < c.maxW / 4) && decide (row < c.maxH / 4)

/-- A host write of a whole CU-map word (R52). -/
def hostCuWrite (row col : Nat) (v : Word) (s : State) : Result :=
  if insideCuMap s.config row col then
    .next ((s.setCuLow (s.cuLow.write (cellKey row col) (v.extractLsb' 0 31))).setCuCod
      (s.cuCod.write (cellKey row col) (v.getLsbD 31)))
  else .fault .noSuchElement

/-- A host read of a CU-map word, both parts written (R52). -/
def hostCuRead (row col : Nat) (s : State) : Result :=
  if insideCuMap s.config row col then
    match readCuLow s row col with
    | .error e => .fault e
    | .ok low =>
      match readCod s row col with
      | .error e => .fault e
      | .ok cod => hostAnswer (BitVec.ofBool cod ++ low) s
  else .fault .noSuchElement

/-- A host read of an MC buffer cell: a cell no command has written reads as a free value (93_implementation_defined.md
section 1, log entry 4). -/
def hostBufRead (v : Option Sample) (i j : Nat) (s : State) : Result :=
  if i < 64 ∧ j < 64 then
    match v with
    | some v => hostAnswer (v.zeroExtend 32) s
    | none =>
      .next { s with
        hostData := (Config.freeSample s.freeCount).zeroExtend 32
        freeCount := s.freeCount + 1 }
  else .fault .noSuchElement

/-- One step of the host. -/
def hostStep (a : HostAction) (s : State) : Result :=
  match a with
  | .regWrite word v => hostRegWrite word v s
  | .regRead word => hostAnswer (hostRegValue word s) s
  | .bsWrite a v => hostBsWrite a v s
  | .bsRead a => hostBsRead a s
  | .sampleWrite k c y x v => hostSampleWrite k c y x v s
  | .sampleRead k c y x => hostSampleRead k c y x s
  | .mvWrite k row col l v => hostMvWrite k row col l v s
  | .mvRead k row col l => hostMvRead k row col l s
  | .refiWrite k row col l v => hostRefiWrite k row col l v s
  | .refiRead k row col l => hostRefiRead k row col l s
  | .cuWrite row col v => hostCuWrite row col v s
  | .cuRead row col => hostCuRead row col s
  | .predRead l c i j => hostBufRead (s.pred.read (predKey l c i j)) i j s
  | .predOutRead c i j => hostBufRead (s.predOut.read (predOutKey c i j)) i j s

/-- The next step of the machine: the host's next action, and with none pending the block holds its state and does
nothing (R263, R267). -/
def nextStep (s : State) : Result :=
  match s.host with
  | [] => .next s
  | a :: rest => hostStep a { s with host := rest }

/-- The host's next action becomes the write of `w` to CMD. -/
def enqueueCommand (w : Word) (s : State) : State := { s with host := .regWrite 0 w :: s.host }

end Sys2Proof.Machine
end

