-- ==== Sys2Proof/Machine/Step.lean ====
section
/-! DEFINITION. One step of the machine. There is no program counter and no fetch (10_state.md R21, 20_memory.md R80):
the next command is the one the host writes next. -/

namespace Sys2Proof.Machine

/-- One atomic step (R6, R68). -/
def step (s : State) : Host.Outcome State Fault Refusal := nextStep s

/-- `s` with the instruction of bits `w` as what the host writes to CMD next (log entry 2). -/
def State.withFetchWord (s : State) (nbits w : Nat) : State :=
  enqueueCommand (BitVec.ofNat 32 (w % 2 ^ nbits)) s

end Sys2Proof.Machine
end

