-- ==== Sys2Proof/Safety.lean ====
section
/-! DEFINITION. What counts as a good state and what the rules say of values, in the terms the statements use: the
bits of the packet, the invariants of the registers, of the DPB and of the memories, and the values of an
interpolated sample and of an edge strength over memories whose contents are known. -/

namespace Sys2Proof.Machine

/-! ### The packet (20_memory.md R60, R70) -/

/-- Bit number `i` of the packet, 0 past its end; meant where the packet's bytes are written. -/
def packetBit (s : State) (i : Nat) : Bool :=
  if i / 8 < s.ent.bsLen.toNat then
    ((s.bsmem.read (s.ent.bsBase.toNat + i / 8)).getD 0).getLsbD (7 - i % 8)
  else false

/-- The number spelled by the `n` bits from bit `i` on, most significant first. -/
def packetBits (s : State) (i : Nat) : Nat → Nat
  | 0 => 0
  | n + 1 => 2 * packetBits s i n + (packetBit s (i + n)).toNat

/-- Every byte of the packet has been written. -/
def PacketWritten (s : State) : Prop :=
  ∀ a, s.ent.bsBase.toNat ≤ a → a < s.ent.bsBase.toNat + s.ent.bsLen.toNat → (s.bsmem.read a).isSome = true

/-- The packet lies inside a bitstream memory of legal size (R7, R73). -/
def PacketFits (s : State) : Prop :=
  s.ent.bsBase.toNat + s.ent.bsLen.toNat ≤ s.config.bsSize ∧ s.config.bsSize ≤ 2 ^ 28

/-- The cursor. -/
def State.cursor (s : State) : Nat := s.ent.bitPos.toNat

/-- BITPOS after `n` more bits, saturating at 2^32 - 1 (R106). -/
def cursorAfter (s : State) (n : Nat) : Word := BitVec.ofNat 32 (min (s.cursor + n) 0xFFFFFFFF)

/-- The single-bin command that decodes bin `k` of a unary symbol: DEC_BIN_EP, or DEC_BIN of context
CB + min(k, NC - 1) (R135). -/
def binCommand (cb : BitVec 8) (nc : BitVec 4) (bypass : Bool) (k : Nat) : Instr :=
  if bypass then .decBinEp else .decBin (BitVec.ofNat 8 (cb.toNat + min k (nc.toNat - 1)))

/-- Run one after another from `s`, the commands of `n` bins, the first having number `k`, each decode a 1 and
lead to `t` (R135). -/
def OnesRun (cb : BitVec 8) (nc : BitVec 4) (bypass : Bool) : Nat → Nat → State → State → Prop
  | 0, _, s, t => t = s
  | n + 1, k, s, t =>
    ∃ u, exec (binCommand cb nc bypass k) s = .next u ∧ u.res0 = 1 ∧ OnesRun cb nc bypass n (k + 1) u t

/-- The contexts a unary symbol may use are written and RANGE can be split; a bypass symbol needs neither (R135,
R137). -/
def UnaryReady (s : State) (cb : BitVec 8) (nc : BitVec 4) (bypass : Bool) : Prop :=
  bypass = false →
    437 < s.ent.range.toNat ∧
      ∀ c, cb.toNat ≤ c → c < cb.toNat + nc.toNat → (s.ent.ctx.read c).isSome = true

/-! ### Legal registers -/

/-- The legal values of configuration register `idx`, 0x00 to 0x09 (R30 to R39). -/
def cfgLegal (c : Config) (idx : BitVec 8) (v : Word) : Prop :=
  match idx.toNat with
  | 0x00 => v.toNat = 0 ∨ (v.toNat % 8 = 0 ∧ v.toNat ≤ c.maxW)
  | 0x01 => v.toNat = 0 ∨ (v.toNat % 8 = 0 ∧ v.toNat ≤ c.maxH)
  | 0x02 => 8 ≤ v.toNat ∧ v.toNat ≤ 10
  | 0x03 => v.toNat = 1
  | 0x04 => v.toNat ≤ c.pbCap
  | 0x05 => v.toNat ≤ 255
  | 0x06 => True
  | 0x07 => True
  | 0x08 => v.toNat ≤ 0x201
  | 0x09 => v.toNat ≤ 1024
  | _ => False

/-- Every configuration register a CFG_WR can write holds a legal value. -/
def CfgOk (s : State) : Prop :=
  ∀ idx v, idx.toNat < 0x0A → s.cfg.get idx = some v → cfgLegal s.config idx v

/-- A legal context model: STATE at most 256 (R44, R130). -/
def ctxLegal (m : CtxModel) : Prop := m.toNat / 2 ≤ 256

/-- RANGE is at most 16384 (R137), every context model that holds a value is legal (R130), the packet lies inside
BSMEM (R73). -/
def EntropyOk (s : State) : Prop :=
  s.ent.range.toNat ≤ 16384 ∧
  (∀ c m, s.ent.ctx.read c = some m → ctxLegal m) ∧
  s.ent.bsBase.toNat + s.ent.bsLen.toNat ≤ s.config.bsSize

/-- The registers hold values their rules allow, for legal parameters. -/
def RegistersOk (s : State) : Prop := s.config.wf = true ∧ CfgOk s ∧ EntropyOk s

/-- The codes a command can complete with (R245). -/
def mayComplete : Instr → List Code
  | .nop | .reset | .statClr => [.ok]
  | .cfgWr _ => [.ok, .illegalCommand, .unsupported]
  | .cfgRd _ => [.ok, .illegalCommand]
  | .brInit => [.ok, .illegalCommand]
  | .brRead _ => [.ok, .illegalCommand, .engineHalted]
  | .brRead1 => [.ok, .engineHalted]
  | .brReadUe | .brReadSe => [.ok, .engineHalted, .malformedBitstream]
  | .brAligned | .brConsumed => [.ok]
  | .sbacInit _ => [.ok, .engineHalted]
  | .ctxWr _ => [.ok, .illegalCommand]
  | .ctxRd _ => [.ok]
  | .decBin _ | .decBinEp => [.ok, .engineHalted]
  | .decBinTrm => [.ok, .engineHalted, .malformedBitstream]
  | .decUnary _ _ _ => [.ok, .illegalCommand, .engineHalted, .malformedBitstream]
  | .decTunary _ _ _ _ => [.ok, .illegalCommand, .engineHalted]
  | .mcClipmv | .mcPred _ _ | .mcAvg _ | .mcCu => [.ok, .illegalCommand]
  | .dfBs | .dfLuma _ | .dfChroma _ _ | .dfCu _ => [.ok, .unexpectedState, .illegalCommand]
  | .dfClr => [.ok]
  | .dpbGet => [.ok, .illegalCommand, .outOfBuffers]
  | .dpbPut _ _ _ _ => [.ok, .illegalCommand]
  | .dpbRefp _ _ _ => [.ok, .illegalCommand, .unexpectedState]
  | .dpbOut => [.ok, .unexpectedState, .outputNotAvailable]
  | .dpbListRd _ _ => [.ok, .illegalCommand]
  | .dpbNumref => [.ok]
  | .dpbSlotRd _ => [.ok, .illegalCommand]

/-- Every register, slot record and list holds its reset value (R265). -/
structure ResetValues (s : State) : Prop where
  args : s.arg0 = 0 ∧ s.arg1 = 0 ∧ s.arg2 = 0 ∧ s.arg3 = 0
  results : s.res0 = 0 ∧ s.res1 = 0
  status : s.statusWord = 0 ∧ s.code = .ok ∧ s.sticky = false
  size : s.cfg.picW = 0 ∧ s.cfg.picH = 0
  format : s.cfg.bitDepth = 8 ∧ s.cfg.chromaFormat = 1
  limits : s.cfg.maxPb = 0 ∧ s.cfg.maxNumRef = 0
  output : s.cfg.pocInc = 1 ∧ s.cfg.nextOutPoc = 0
  others : s.cfg.ctxInit = 0x200 ∧ s.cfg.mvClipMargin = 64 ∧ s.cfg.curSlot = 0xFFFFFFFF
  reader : s.ent.bsBase = 0 ∧ s.ent.bsLen = 0 ∧ s.ent.bitPos = 0
  engine : s.ent.range.toNat = 16384 ∧ s.ent.value.toNat = 0
  slots : ∀ k, s.dpb.slot k = { state := .unalloc, isRef := false, needOut := false, tid := 0, poc := 0 }
  lists : s.dpb.pool = [] ∧ s.dpb.refseq = [] ∧ s.dpb.list0 = [] ∧ s.dpb.list1 = []

/-- Nothing the block itself writes can be read: contexts, CU map, MC buffers and pictures (R266). -/
structure MemoriesBlank (s : State) : Prop where
  ctx : ∀ c, s.ent.ctx.read c = none
  cuMap : ∀ a, s.cuLow.read a = none ∧ s.cuCod.read a = none
  buffers : ∀ a, s.pred.read a = none ∧ s.predOut.read a = none
  samples : ∀ k c y x, s.sampleAt k c y x = none
  maps : ∀ (k : Nat) (p : Picture), s.pics[k]? = some p → ∀ l a, (p.mv l).read a = none ∧ (p.refi l).read a = none

/-! ### The DPB (R45 to R48, R211) -/

/-- CUR_SLOT is NONE, or names a DETACHED slot while a picture size is configured (R40, R175). -/
def CurSlotOk (s : State) : Prop :=
  s.cfg.curSlot = noSlot ∨
    ((s.dpb.slot s.cfg.curSlot.toNat).state = .detached ∧ s.cfg.picW ≠ 0 ∧ s.cfg.picH ≠ 0)

/-- The DPB invariants of R211 with the shapes of R45 to R48. -/
structure DpbOk (s : State) : Prop where
  slots_length : s.dpb.slots.length = s.config.pbCap
  pics_length : s.pics.length = s.config.pbCap
  pool_nodup : s.dpb.pool.Nodup
  mem_pool : ∀ k, k ∈ s.dpb.pool ↔ (s.dpb.slot k).state = .pool
  refseq_nodup : s.dpb.refseq.Nodup
  mem_refseq : ∀ k, k ∈ s.dpb.refseq ↔ (s.dpb.slot k).state = .pool ∧ (s.dpb.slot k).isRef = true
  not_pool : ∀ k, (s.dpb.slot k).state ≠ .pool → (s.dpb.slot k).isRef = false ∧ (s.dpb.slot k).needOut = false
  borrowed : ∀ l, ∀ e ∈ s.dpb.list l, (s.dpb.slot e.slot).state = .pool
  numref_le : ∀ l, (s.dpb.list l).length ≤ s.config.maxRefList
  current : CurSlotOk s

/-- The POC of a slot. -/
def State.pocOf (s : State) (k : Nat) : Nat := (s.dpb.slot k).poc.toNat

/-- The temporal layer of a slot. -/
def State.tidOf (s : State) (k : Nat) : Nat := (s.dpb.slot k).tid.toNat

/-- NALLOC: the slots that are not UNALLOC (R49). -/
def State.allocated (s : State) : Nat :=
  (List.range s.config.pbCap).countP (fun k => decide ((s.dpb.slot k).state ≠ .unalloc))

/-- DPB_GET may hand slot k out again: neither a reference nor waiting for output, and in no reference list
(R200). -/
def Reusable (s : State) (k : Nat) : Prop :=
  (s.dpb.slot k).isRef = false ∧ (s.dpb.slot k).needOut = false ∧ ∀ l, ∀ e ∈ s.dpb.list l, e.slot ≠ k

/-- REFSEQ sorted by POC, largest first, equal POCs in REFSEQ order: a stable sort (R204). -/
def State.refView (s : State) : List Nat :=
  s.dpb.refseq.mergeSort (fun i j => decide (s.pocOf j ≤ s.pocOf i))

/-- Slot j does not lie behind the intra refresh boundary (R204). -/
def Unskipped (s : State) (poc lip j : Nat) : Bool := !(decide (lip ≤ poc) && decide (s.pocOf j < lip))

/-- The candidates before the current picture, nearest first (R205, R206). -/
def State.past (s : State) (poc lip : Nat) : List Nat :=
  s.refView.filter (fun j => Unskipped s poc lip j && decide (s.pocOf j < poc))

/-- The candidates after the current picture, nearest first (R206). -/
def State.future (s : State) (poc lip : Nat) : List Nat :=
  s.refView.reverse.filter (fun j => Unskipped s poc lip j && decide (poc < s.pocOf j))

/-- List 0 of a P slice before it is cut to M entries: every past candidate on layer 0; on layer 1 those with
TID <= 1; above it the first one, and after it those with TID <= 1 (R205). -/
def State.forP (s : State) (poc lip lid : Nat) : List Nat :=
  if lid = 0 then s.past poc lip
  else if lid = 1 then (s.past poc lip).filter (fun j => decide (s.tidOf j ≤ 1))
  else
    match s.past poc lip with
    | [] => []
    | j :: js => j :: js.filter (fun i => decide (s.tidOf i ≤ 1))

/-- The picks of a B-slice walk: pass over the candidates above the layer bound, take the next one, go on with the
bound one below its layer, until `m` are taken (R206). -/
def layerPicks (tid : Nat → Nat) : Nat → Nat → List Nat → List Nat
  | 0, _, _ => []
  | m + 1, bound, cand =>
    match cand.dropWhile (fun j => decide (bound < tid j)) with
    | [] => []
    | j :: rest => j :: layerPicks tid m (tid j - 1) rest

/-- List 0 of a B slice (R206). -/
def State.forB0 (s : State) (m poc lip lid : Nat) : List Nat :=
  layerPicks s.tidOf m (lid - 1) (s.past poc lip)

/-- List 1 of a B slice with its fallback to the past (R206). -/
def State.forB1 (s : State) (m poc lip lid : Nat) : List Nat :=
  let l := layerPicks s.tidOf m (lid - 1) (s.future poc lip)
  l ++ layerPicks s.tidOf (m - l.length) (lid - 1) (s.past poc lip)

/-- The reference-list entries of a list of slots: each with the POC its slot has now (R204). -/
def State.entriesOf (s : State) (l : List Nat) : List RefEntry := l.map (fun j => ⟨j, (s.dpb.slot j).poc⟩)

/-- The references a base-layer put with gap `gap` demotes, in order (R202, R203): by rule (a) those on a non-zero
layer or with a POC that is no multiple of the gap; then by rule (b) the oldest of the rest, until fewer than
`cap` are left. -/
def State.demoted (s : State) (gap cap : Nat) : List Nat :=
  let off := s.dpb.refseq.filter (fun j => decide (s.tidOf j ≠ 0 ∨ s.pocOf j % gap ≠ 0))
  let rest := s.dpb.refseq.filter (fun j => decide (s.tidOf j = 0 ∧ s.pocOf j % gap = 0))
  off ++ rest.take (rest.length - (cap - 1))

/-! ### The memories -/

/-- The memories of a picture are in canonical form. -/
def Picture.wf (p : Picture) : Bool :=
  p.y.wf && p.cb.wf && p.cr.wf && p.mv0.wf && p.mv1.wf && p.refi0.wf && p.refi1.wf

/-- Every memory of the state is in canonical form. -/
def MemoriesOk (s : State) : Prop :=
  s.bsmem.wf = true ∧ s.ent.ctx.wf = true ∧ s.cuLow.wf = true ∧ s.cuCod.wf = true ∧ s.pred.wf = true ∧
    s.predOut.wf = true ∧ ∀ p ∈ s.pics, p.wf = true

/-! ### Known contents -/

/-- Sample (y, x) of slot k is written and within the bit depth. -/
def SampleReady (s : State) (k : Nat) (c : Comp) (y x : Nat) : Prop :=
  match s.sampleAt k c y x with
  | none => False
  | some v => v.toNat < 2 ^ s.cfg.bitDepth.toNat

/-- Every sample of a plane of slot k is written and within the bit depth. -/
def PlaneReady (s : State) (k : Nat) (c : Comp) : Prop :=
  ∀ y x, y < (planeSize s.cfg c).2 → x < (planeSize s.cfg c).1 → SampleReady s k c y x

/-- The value of a sample; meant where it is written. -/
def sampleVal (s : State) (k : Nat) (c : Comp) (y x : Nat) : Int :=
  (((s.sampleAt k c y x).getD 0).toNat : Int)

/-- The reference sample at integer coordinates, clamped to the plane (R153). -/
def refVal (s : State) (c : Comp) (k : Nat) (x y : Int) : Int :=
  sampleVal s k c
    (min (((planeSize s.cfg c).2 : Int) - 1) (max 0 y)).toNat (min (((planeSize s.cfg c).1 : Int) - 1) (max 0 x)).toNat

/-- Tap `t` of the filter of fraction `f` (R154, R155). -/
def tapVal (s : State) (c : Comp) (f t : Nat) : Int :=
  (((if c = .y then s.config.lumaCoef else s.config.chromaCoef).getD (4 * f) []).getD t 0)

/-- A value limited to [0, 2^BITDEPTH - 1] (R9). -/
def clipVal (s : State) (v : Int) : Int := min (2 ^ s.cfg.bitDepth.toNat - 1) (max 0 v)

/-- The value of `interp(c, k, x, y, w, h, mvx, mvy)` at row i, column j of the block (R154, R156): `q` positions
per sample, `T` taps, tap `o` at the integer position. -/
def interpVal (s : State) (c : Comp) (k x y : Nat) (mvx mvy : Int) (i j : Nat) : Int :=
  let q : Int := if c = .y then 4 else 8
  let T : Nat := if c = .y then 8 else 4
  let o : Int := if c = .y then 3 else 1
  let X : Int := (x : Int) + mvx / q + j
  let Y : Int := (y : Int) + mvy / q + i
  let fx := (mvx % q).toNat
  let fy := (mvy % q).toNat
  let B := s.cfg.bitDepth.toNat
  let a1 : Int := if B = 8 then 0 else 2 ^ (B - 9)
  if fx = 0 ∧ fy = 0 then refVal s c k X Y
  else if fy = 0 then
    clipVal s ((∑ t ∈ Finset.range T, tapVal s c fx t * refVal s c k (X + t - o) Y + 32) / 64)
  else if fx = 0 then
    clipVal s ((∑ t ∈ Finset.range T, tapVal s c fy t * refVal s c k X (Y + t - o) + 32) / 64)
  else
    clipVal s ((∑ r ∈ Finset.range T, tapVal s c fy r *
      ((∑ t ∈ Finset.range T, tapVal s c fx t * refVal s c k (X + t - o) (Y + r - o) + a1) / 2 ^ (B - 8))
        + 2 ^ (19 - B)) / 2 ^ (20 - B))

/-- One component of a clipped vector (R152): position p, block size n, component mv, picture size `size`, margin M,
all in luma samples but mv in quarter samples. -/
def clippedMv (p n : Nat) (mv : Int) (size M : Nat) : Int :=
  let minv : Int := -(4 * (M : Int))
  let maxv : Int := 4 * ((size : Int) - 1 + M)
  if 4 * (p : Int) + mv + 4 * (n : Int) - 4 > maxv then maxv - 4 * (p : Int) - 4 * (n : Int) + 4
  else if 4 * (p : Int) + mv < minv then minv - 4 * (p : Int)
  else mv

/-- The reference index of list l in ARG1 of MC_CU, -1 for a list that is not used (R159). -/
def cuRefIndex (s : State) : ListIx → Int
  | .l0 => (s.arg1.extractLsb' 8 8).toInt
  | .l1 => (s.arg1.extractLsb' 16 8).toInt

/-- The vector of list l of MC_CU as given (R159). -/
def cuVector (s : State) : ListIx → Int × Int
  | .l0 => ((s.arg2.extractLsb' 0 16).toInt, (s.arg2.extractLsb' 16 16).toInt)
  | .l1 => ((s.arg3.extractLsb' 0 16).toInt, (s.arg3.extractLsb' 16 16).toInt)

/-- The operands of MC_CU and DF_CU name a CU: a legal size and a 4-aligned origin inside the picture (R65). -/
def CuPlaced (s : State) (x y size : Nat) : Prop :=
  (size = 4 ∨ size = 8 ∨ size = 16 ∨ size = 32 ∨ size = 64) ∧ x % 4 = 0 ∧ y % 4 = 0 ∧ x < s.cfg.picW.toNat ∧
    y < s.cfg.picH.toNat

/-- A luma length in samples of component c (4:2:0, R33). -/
def inComp (c : Comp) (n : Nat) : Nat := if c = .y then n else n / 2

/-- The prediction MC_CU makes at (i, j) of component c for list l, whose entry names slot k: the value interpolated
with the clipped vector (R152, R156, R159). -/
def cuPrediction (s : State) (l : ListIx) (k : Nat) (c : Comp) (i j : Nat) : Int :=
  let x := lo16 s.arg0
  let y := hi16 s.arg0
  let size := byteOf s.arg1 0
  let M := s.cfg.mvClipMargin.toNat
  interpVal s c k (inComp c x) (inComp c y) (clippedMv x size (cuVector s l).1 s.cfg.picW.toNat M)
    (clippedMv y size (cuVector s l).2 s.cfg.picH.toNat M) i j

/-- A cell of PRED[l][c], numbered row i, column j, as a number; `none` where nothing is written. -/
def State.predVal (s : State) (l : ListIx) (c : Comp) (i j : Nat) : Option Int :=
  (s.pred.read (predKey l c i j)).map (fun v => (v.toNat : Int))

/-- A cell of PREDOUT[c]. -/
def State.predOutVal (s : State) (c : Comp) (i j : Nat) : Option Int :=
  (s.predOut.read (predOutKey c i j)).map (fun v => (v.toNat : Int))

/-- The motion-vector and reference-index maps of slot k. -/
def State.mapsOf (s : State) (k : Nat) :
    Option ((Memory MotionVec × Memory MotionVec) × Memory Byte × Memory Byte) :=
  (s.pics[k]?).map (fun p => ((p.mv0, p.mv1), p.refi0, p.refi1))

/-- Entry (row, col) of the motion-vector map of slot k and list l; `none` where there is none. -/
def State.mvAt (s : State) (k : Nat) (l : ListIx) (row col : Nat) : Option MotionVec :=
  (s.pics[k]?).bind (fun p => (p.mv l).read (cellKey row col))

/-- Entry (row, col) of the reference-index map of slot k and list l. -/
def State.refiAt (s : State) (k : Nat) (l : ListIx) (row col : Nat) : Option Byte :=
  (s.pics[k]?).bind (fun p => (p.refi l).read (cellKey row col))

/-- The CU-map word and the motion and reference-index entries of block (row, col) of slot k are written. -/
def BlockReady (s : State) (k row col : Nat) : Prop :=
  (s.cuLow.read (cellKey row col)).isSome = true ∧
    ∃ p, s.pics[k]? = some p ∧
      ∀ l, ((p.mv l).read (cellKey row col)).isSome = true ∧ ((p.refi l).read (cellKey row col)).isSome = true

/-- Bits 30 to 0 of a CU-map word; meant where they are written. -/
def cuVal (s : State) (row col : Nat) : BitVec 31 := (s.cuLow.read (cellKey row col)).getD 0

/-- The slot that block (row, col) of slot k names for list L, `none` for a reference index outside the list
(R176). -/
def refSlotVal (s : State) (k row col : Nat) (l : ListIx) : Option Nat :=
  let r := (((s.pics.getD k {}).refi l).read (cellKey row col)).getD 0
  if 0 ≤ r.toInt then ((s.dpb.list l)[r.toInt.toNat]?).map (·.slot) else none

/-- The motion vector of block (row, col) of slot k for list L as numbers. -/
def mvVal (s : State) (k row col : Nat) (l : ListIx) : Int × Int :=
  let v := (((s.pics.getD k {}).mv l).read (cellKey row col)).getD ⟨0, 0⟩
  (v.x.toInt, v.y.toInt)

/-- Two vectors differ by at least 4 quarter samples in a component (R176). -/
def FarApart (a b : Int × Int) : Prop := 4 ≤ |a.1 - b.1| ∨ 4 ≤ |a.2 - b.2|

/-- The motion part of R176: the sides name the same references, list by list or exchanged, and under every pairing
that matches some vector of a used list is far from its partner. -/
def MotionFar (s : State) (k : Nat) (p q : Nat × Nat) : Prop :=
  let rp := fun l => refSlotVal s k p.1 p.2 l
  let rq := fun l => refSlotVal s k q.1 q.2 l
  let mp := fun l => mvVal s k p.1 p.2 l
  let mq := fun l => mvVal s k q.1 q.2 l
  ((rp .l0 = rq .l0 ∧ rp .l1 = rq .l1) →
      ((rp .l0 ≠ none ∧ FarApart (mp .l0) (mq .l0)) ∨ (rp .l1 ≠ none ∧ FarApart (mp .l1) (mq .l1)))) ∧
    ((rp .l0 = rq .l1 ∧ rp .l1 = rq .l0) →
      ((rp .l0 ≠ none ∧ FarApart (mp .l0) (mq .l1)) ∨ (rp .l1 ≠ none ∧ FarApart (mp .l1) (mq .l0))))

/-- The four samples of a luma line after filtering with threshold st (R179), before they are limited to the bit
depth. -/
def lumaLineVal (a b c d st : Int) : Int × Int × Int × Int :=
  let dd := (a - 4 * b + 4 * c - d).tdiv 8
  let cl := max 0 (|dd| - max 0 (2 * (|dd| - st)))
  let d1 := if 0 ≤ dd then cl else -cl
  let d2 := min (cl / 2) (max (-(cl / 2)) ((a - d).tdiv 4))
  (a - d2, b + d1, c - d1, d + d2)

/-- The sample positions a deblocking segment of `n` lines at (x, y) touches are written and within the bit depth. -/
def SegmentReady (s : State) (k : Nat) (c : Comp) (d : Dir) (x y n : Nat) : Prop :=
  ∀ i m, i < n → m < 4 → SampleReady s k c (linePos d x y i m).1 (linePos d x y i m).2

/-- DF_CU can read all it needs: the two blocks of every in-picture edge segment, their COD bits and the samples of
its luma and chroma segments. -/
def EdgeReady (s : State) (k x y size : Nat) : Prop :=
  (∀ row col, row < s.cfg.picH.toNat / 4 → col < s.cfg.picW.toNat / 4 →
    y / 4 - 1 ≤ row → row < (y + size) / 4 → x / 4 - 1 ≤ col → col < (x + size) / 4 →
    BlockReady s k row col ∧ (s.cuCod.read (cellKey row col)).isSome = true) ∧
  ∀ c, PlaneReady s k c

/-! ### DF_CU as a run of the other deblocking commands (R183) -/

/-- A position operand: x in the low half, y in the high half (R88). -/
def posWord (x y : Nat) : Word := BitVec.ofNat 16 y ++ BitVec.ofNat 16 x

/-- The block before the edge segment whose Q-side block is (row, col) (R183). -/
def beforeBlock (d : Dir) (row col : Nat) : Nat × Nat :=
  match d with
  | .vertical => (row, col - 1)
  | .horizontal => (row - 1, col)

/-- The first Q-side luma sample (x, y) of segment i of the edge of the CU at (x, y) (R183). -/
def segmentAt (d : Dir) (x y i : Nat) : Nat × Nat :=
  match d with
  | .vertical => (x, y + 4 * i)
  | .horizontal => (x + 4 * i, y)

/-- The coordinate across the edge of the CU at (x, y): x for its left edge, y for its top edge (R183). -/
def edgeAt (d : Dir) (x y : Nat) : Nat :=
  match d with
  | .vertical => x
  | .horizontal => y

/-- DF_TBL[idx][qp] << (B - 8) (R178). -/
def thresholdVal (s : State) (idx qp : Nat) : Nat :=
  (s.config.dfTbl.getD idx []).getD qp 0 * 2 ^ (s.cfg.bitDepth.toNat - 8)

/-- The filtering commands of one edge segment at (sx, sy) with thresholds st and stc, run from s, lead to t (R183):
DF_LUMA runs if st is not zero; on the chroma grid, DF_CHROMA runs for Cb and for Cr if stc is not zero. -/
def FilterRun (d : Dir) (sx sy st stc : Nat) (s t : State) : Prop :=
  st < 2 ^ 32 ∧ stc < 2 ^ 32 ∧
  ∃ l, (if st = 0 then l = s
      else exec (.dfLuma d) { s with arg0 := posWord sx sy, arg1 := BitVec.ofNat 32 st } = .next l ∧ l.code = .ok) ∧
    if edgeAt d sx sy % 8 = 0 ∧ stc ≠ 0 then
      ∃ c, exec (.dfChroma d 1) { l with arg0 := posWord (sx / 2) (sy / 2), arg1 := BitVec.ofNat 32 stc } = .next c ∧
        c.code = .ok ∧ exec (.dfChroma d 2) c = .next t ∧ t.code = .ok
    else t = l

/-- The commands of one edge segment at (sx, sy), run from s, lead to t (R178, R183): DF_BS gives the index and the
Q-side CU-map word, which must be written, the QP; the filtering commands run with the thresholds of R178. -/
def SegmentRun (d : Dir) (sx sy : Nat) (s t : State) : Prop :=
  ∃ b w,
    exec .dfBs { s with
      arg0 := posWord (beforeBlock d (sy / 4) (sx / 4)).2 (beforeBlock d (sy / 4) (sx / 4)).1
      arg1 := posWord (sx / 4) (sy / 4) } = .next b ∧
    b.code = .ok ∧ s.cuLow.read (cellKey (sy / 4) (sx / 4)) = some w ∧
    FilterRun d sx sy (thresholdVal s b.res0.toNat (min (w.extractLsb' 16 7).toNat 51))
      (thresholdVal s b.res0.toNat (s.config.chromaQpMap.getD (min (w.extractLsb' 16 7).toNat 51) 0)) s t

/-- The runs of the segments of a list, in order, lead from s to t; a segment outside the picture, or whose block
before the edge is not marked, is passed over (R183, R185). -/
def EdgeRun (d : Dir) (x y : Nat) : List Nat → State → State → Prop
  | [], s, t => t = s
  | i :: is, s, t =>
    let sx := (segmentAt d x y i).1
    let sy := (segmentAt d x y i).2
    let p := beforeBlock d (sy / 4) (sx / 4)
    if s.cfg.picW.toNat ≤ sx ∨ s.cfg.picH.toNat ≤ sy ∨ s.cuCod.read (cellKey p.1 p.2) = some false then
      EdgeRun d x y is s t
    else
      s.cuCod.read (cellKey p.1 p.2) = some true ∧ ∃ m, SegmentRun d sx sy s m ∧ EdgeRun d x y is m t

end Sys2Proof.Machine
end

