-- ==== Sys2Proof/Certificates/Slice0/Obligations.lean ====
section
/-! DEFINITION. The statements for the provers, from the numbered rules of spec/. Each docstring names the rules it
states. A statement that speaks of every state holds in states no run reaches; where the model's invariants are
needed they are premises (`RegistersOk`, `DpbOk`), kept by every step by statements of their own. -/

open Sys2Proof Sys2Proof.Machine

/-! ### Encoding (30_encoding.md) -/

/-- Words written out from the table of R94 decode to their commands (R87, R89). -/
def Obligations.KnownWordsDecode : Prop :=
  decode 0x00000000#32 = .ok .nop ∧ decode 0x02000009#32 = .ok (.cfgWr 9) ∧ decode 0x11000020#32 = .ok (.brRead 32) ∧
  decode 0x20000001#32 = .ok (.sbacInit true) ∧ decode 0x270503A1#32 = .ok (.decTunary 0xA1 3 false 5) ∧
  decode 0x31000006#32 = .ok (.mcPred 2 .l1) ∧ decode 0x42000005#32 = .ok (.dfChroma .horizontal 2) ∧
  decode 0x51000036#32 = .ok (.dpbPut false true true 6) ∧ decode 0x52001602#32 = .ok (.dpbRefp 2 2 5) ∧
  decode 0x54000103#32 = .ok (.dpbListRd 3 .l1) ∧ decode 0xFFFFFFFF#32 = .error .customSpace ∧
  decode 0x05000000#32 = .error .unassigned ∧ decode 0x01000001#32 = .error .reservedBit

/-- Decoding and encoding agree (R86, R87, R89, R93): every command, with every value of its fields, is what its
encoding decodes to, and a word that decodes is the encoding of its command, so no bit of it is dropped. -/
def Obligations.DecodeEncodeAgree : Prop :=
  (∀ i : Instr, decode (encode i) = .ok i) ∧ ∀ (w : Word) (i : Instr), decode w = .ok i → encode i = w

/-- R90 and R91: an unassigned opcode, a reserved bit, and a field value the command's rule excludes each complete
with ILLEGAL_COMMAND and change nothing else. -/
def Obligations.IllegalCommandsOnlySetCode : Prop :=
  ∀ s : State,
    (∀ w : Word,
      (let o := (w.extractLsb' 24 8).toNat;
        (0x05 ≤ o ∧ o ≤ 0x0F) ∨ (0x17 ≤ o ∧ o ≤ 0x1F) ∨ (0x28 ≤ o ∧ o ≤ 0x2F) ∨ (0x34 ≤ o ∧ o ≤ 0x3F) ∨
          (0x45 ≤ o ∧ o ≤ 0x4F) ∨ 0x57 ≤ o) →
      runCommand w s = .next { s with code := .illegalCommand }) ∧
    (∀ w : Word, ∀ p ∈ ([(0x00, 0), (0x01, 0), (0x02, 0xFF), (0x03, 0xFF), (0x04, 0), (0x10, 0), (0x11, 0x3F),
        (0x12, 0), (0x13, 0), (0x14, 0), (0x15, 0), (0x16, 0), (0x20, 1), (0x21, 0xFF), (0x22, 0xFF), (0x23, 0xFF),
        (0x24, 0), (0x25, 0), (0x26, 0x1FFF), (0x27, 0xFF1FFF), (0x30, 0), (0x31, 7), (0x32, 3), (0x33, 0),
        (0x40, 0), (0x41, 1), (0x42, 7), (0x43, 0), (0x44, 1), (0x50, 0), (0x51, 0x3F), (0x52, 0x1FFF), (0x53, 0),
        (0x54, 0x1FF), (0x55, 0), (0x56, 0xFF)] : List (BitVec 8 × BitVec 24)),
      w.extractLsb' 24 8 = p.1 → w.extractLsb' 0 24 &&& ~~~p.2 ≠ 0 →
      runCommand w s = .next { s with code := .illegalCommand }) ∧
    (∀ i : Instr,
      (i.wellFormed = false ∨ (∃ m st lid, i = .dpbRefp m st lid ∧ s.config.maxRefList < m.toNat) ∨
        (∃ k, i = .dpbSlotRd k ∧ s.config.pbCap ≤ k.toNat) ∨
        ∃ k l, i = .dpbListRd k l ∧ (s.dpb.list l).length ≤ k.toNat) →
      exec i s = .next { s with code := .illegalCommand })

/-! ### Steps of the machine -/

/-- R23 and R85: when the host's next action writes to CMD a word that decodes to i, the step is exec of i, the
action being consumed; so it is for the word that `withFetchWord` places. With no action pending the block does
nothing (R263, R267). -/
def Obligations.StepRunsDecodedCommand : Prop :=
  (∀ (s : State) (w : Word) (rest : List HostAction) (i : Instr),
    s.host = .regWrite 0 w :: rest → decode w = .ok i → step s = exec i { s with host := rest }) ∧
  (∀ (s : State) (i : Instr), step (s.withFetchWord 32 (encode i).toNat) = exec i s) ∧
  (∀ s : State, s.host = [] → step s = .next s)

/-- R22 (with R24 to R27): the register bank as the host reads and writes it, by word number. -/
def Obligations.HostRegisterBank : Prop :=
  ∀ (s : State) (rest : List HostAction) (n : BitVec 6) (v : Word),
    (s.host = .regRead n :: rest →
      step s = .next { s with
        host := rest
        hostData :=
          if n = 1 then s.arg0 else if n = 2 then s.arg1 else if n = 3 then s.arg2 else if n = 4 then s.arg3
          else if n = 5 then s.res0 else if n = 6 then s.res1
          else if n = 7 then BitVec.ofNat 32 (s.code.num + if s.sticky then 256 else 0) else 0 }) ∧
    (s.host = .regWrite n v :: rest →
      (n = 0 → step s = runCommand v { s with host := rest }) ∧
      (n = 1 → step s = .next { s with host := rest, arg0 := v }) ∧
      (n = 2 → step s = .next { s with host := rest, arg1 := v }) ∧
      (n = 3 → step s = .next { s with host := rest, arg2 := v }) ∧
      (n = 4 → step s = .next { s with host := rest, arg3 := v }) ∧
      (5 ≤ n.toNat → step s = .next { s with host := rest }))

/-- R61, R82 and R276: a byte the host writes outside the current packet is the byte it reads back and no other byte
changes; a write inside the packet is refused; an unwritten byte holds no value. That a write inside the packet is
refused and an unwritten byte faults is the model's form of R276 and R82 (log entries 3 and 12). -/
def Obligations.HostBitstreamMemory : Prop :=
  ∀ (s : State) (rest : List HostAction) (a : Nat) (v : Byte), a < s.config.bsSize →
    (s.host = .bsWrite a v :: rest →
      ((a < s.ent.bsBase.toNat ∨ s.ent.bsBase.toNat + s.ent.bsLen.toNat ≤ a) →
        ∃ t, step s = .next t ∧ t = { s with host := rest, bsmem := t.bsmem } ∧
          ∀ b, t.bsmem.read b = if b = a then some v else s.bsmem.read b) ∧
      (s.ent.bsBase.toNat ≤ a → a < s.ent.bsBase.toNat + s.ent.bsLen.toNat →
        step s = .refused .bsWriteInPacket)) ∧
    (s.host = .bsRead a :: rest →
      (∀ b, s.bsmem.read a = some b → step s = .next { s with host := rest, hostData := b.zeroExtend 32 }) ∧
      (s.bsmem.read a = none → step s = .fault (.unwrittenBsByte a)))

/-- R50, R51, R78, R83 and R277: the host writes a sample, a motion vector or a reference index of a DETACHED slot's
picture, and no other sample or map entry changes; a write to a POOL slot and a sample above 2^BITDEPTH - 1 are refused.
That such writes are refused is the model's form of R277 and R83 (log entry 12). -/
def Obligations.HostPictureWrites : Prop :=
  ∀ (s : State) (rest : List HostAction) (k : Nat), k < s.pics.length →
    (∀ (c : Comp) (y x : Nat) (v : Sample), s.host = .sampleWrite k c y x v :: rest →
      y < (planeSize s.cfg c).2 → x < (planeSize s.cfg c).1 → x < 65536 →
      (2 ^ s.cfg.bitDepth.toNat ≤ v.toNat → step s = .refused .sampleAboveMax) ∧
      (v.toNat < 2 ^ s.cfg.bitDepth.toNat → (s.dpb.slot k).state = .pool → step s = .refused .storedPictureWrite) ∧
      (v.toNat < 2 ^ s.cfg.bitDepth.toNat → (s.dpb.slot k).state = .detached →
        ∃ t, step s = .next t ∧ t = { s with host := rest, pics := t.pics } ∧
          (∀ k' c' y' x', x' < 65536 → t.sampleAt k' c' y' x' =
            if k' = k ∧ c' = c ∧ y' = y ∧ x' = x then some v else s.sampleAt k' c' y' x') ∧
          ∀ k', t.mapsOf k' = s.mapsOf k')) ∧
    (∀ (l : ListIx) (row col : Nat) (v : MotionVec), s.host = .mvWrite k row col l v :: rest →
      row < s.cfg.picH.toNat / 4 → col < s.cfg.picW.toNat / 4 → col < 65536 →
      ((s.dpb.slot k).state = .pool → step s = .refused .storedPictureWrite) ∧
      ((s.dpb.slot k).state = .detached →
        ∃ t, step s = .next t ∧ t = { s with host := rest, pics := t.pics } ∧
          (∀ k' c y x, t.sampleAt k' c y x = s.sampleAt k' c y x) ∧
          ∀ k' l' r' c', c' < 65536 →
            t.mvAt k' l' r' c' =
              (if k' = k ∧ l' = l ∧ r' = row ∧ c' = col then some v else s.mvAt k' l' r' c') ∧
            t.refiAt k' l' r' c' = s.refiAt k' l' r' c')) ∧
    (∀ (l : ListIx) (row col : Nat) (v : Byte), s.host = .refiWrite k row col l v :: rest →
      row < s.cfg.picH.toNat / 4 → col < s.cfg.picW.toNat / 4 → col < 65536 →
      ((s.dpb.slot k).state = .pool → step s = .refused .storedPictureWrite) ∧
      ((s.dpb.slot k).state = .detached →
        ∃ t, step s = .next t ∧ t = { s with host := rest, pics := t.pics } ∧
          (∀ k' c y x, t.sampleAt k' c y x = s.sampleAt k' c y x) ∧
          ∀ k' l' r' c', c' < 65536 →
            t.refiAt k' l' r' c' =
              (if k' = k ∧ l' = l ∧ r' = row ∧ c' = col then some v else s.refiAt k' l' r' c') ∧
            t.mvAt k' l' r' c' = s.mvAt k' l' r' c'))

/-- R52 and R53: the host writes and reads back whole CU-map words; it reads the MC buffers, a cell no command has
written giving some value. The value of an unwritten cell is free (log entry 4). The motion-vector and reference-index
maps are in HostPictureWrites and HostPictureReads. -/
def Obligations.HostMapsAndBuffers : Prop :=
  (∀ (s : State) (rest : List HostAction) (row col : Nat) (v : Word),
    row < s.config.maxH / 4 → col < s.config.maxW / 4 → s.config.maxW ≤ 4096 →
    (s.host = .cuWrite row col v :: rest →
      ∃ t, step s = .next t ∧ t = { s with host := rest, cuLow := t.cuLow, cuCod := t.cuCod } ∧
        ∀ r c, c < 65536 →
          t.cuLow.read (cellKey r c) =
            (if r = row ∧ c = col then some (v.extractLsb' 0 31) else s.cuLow.read (cellKey r c)) ∧
          t.cuCod.read (cellKey r c) =
            (if r = row ∧ c = col then some (v.getLsbD 31) else s.cuCod.read (cellKey r c))) ∧
    (s.host = .cuRead row col :: rest →
      ∀ low cod, s.cuLow.read (cellKey row col) = some low → s.cuCod.read (cellKey row col) = some cod →
        step s = .next { s with host := rest, hostData := BitVec.ofBool cod ++ low })) ∧
  ∀ (s : State) (rest : List HostAction) (l : ListIx) (c : Comp) (i j : Nat), i < 64 → j < 64 →
    (s.host = .predRead l c i j :: rest →
      ∃ v n, step s = .next { s with host := rest, hostData := v, freeCount := n } ∧
        ∀ w, s.pred.read (predKey l c i j) = some w → v = w.zeroExtend 32) ∧
    (s.host = .predOutRead c i j :: rest →
      ∃ v n, step s = .next { s with host := rest, hostData := v, freeCount := n } ∧
        ∀ w, s.predOut.read (predOutKey c i j) = some w → v = w.zeroExtend 32)

/-! ### Whole-machine rules (60_exceptions.md) -/

/-- R245: the codes each command can complete with; a word that is no command gives ILLEGAL_COMMAND. -/
def Obligations.CompletionCodes : Prop :=
  (∀ (i : Instr) (s t : State), exec i s = .next t → t.code ∈ mayComplete i) ∧
  ∀ (w : Word) (e : DecodeError) (s : State), decode w = .error e →
    runCommand w s = .next { s with code := .illegalCommand }

/-- R249 and R25: the state each code other than OK lets a command change. -/
def Obligations.EffectsByCode : Prop :=
  ∀ (i : Instr) (s t : State), exec i s = .next t →
    (t.code ≠ .ok → t.res0 = s.res0 ∧ t.res1 = s.res1) ∧
    (t.code ∈ [Code.illegalCommand, .unsupported, .engineHalted, .outOfBuffers, .outputNotAvailable] →
      t = { s with code := t.code }) ∧
    (t.code = .unexpectedState →
      ((∃ m st lid, i = .dpbRefp m st lid) →
        t = { s with code := .unexpectedState, dpb := { s.dpb with list0 := [], list1 := [] } }) ∧
      ((∀ m st lid, i ≠ .dpbRefp m st lid) → t = { s with code := .unexpectedState })) ∧
    (t.code = .malformedBitstream →
      t = { s with code := .malformedBitstream, sticky := true, ent := t.ent } ∧
      t.ent.bsBase = s.ent.bsBase ∧ t.ent.bsLen = s.ent.bsLen ∧ s.ent.bitPos.toNat ≤ t.ent.bitPos.toNat ∧
      (i = .brReadUe ∨ i = .brReadSe →
        t.ent.range = s.ent.range ∧ t.ent.value = s.ent.value ∧ t.ent.ctx = s.ent.ctx) ∧
      (i = .decBinTrm →
        t.ent.range.toNat + 1 = s.ent.range.toNat ∧ t.ent.value = s.ent.value ∧ t.ent.ctx = s.ent.ctx))

/-- R28, R248 and R257: STICKY becomes 1 exactly when an entropy-path command completes with MALFORMED_BITSTREAM,
which no other command does; BR_INIT (when it completes with OK), STAT_CLR and RESET clear it; no other command
changes it. While it is 1 an entropy-path command whose fields are legal completes with ENGINE_HALTED and changes
nothing else. R257 is marked derived in 60_exceptions.md. -/
def Obligations.StickyHaltsEntropyPath : Prop :=
  (∀ (i : Instr) (s t : State), exec i s = .next t →
    (i ∈ [Instr.statClr, .reset] → t.sticky = false) ∧
    (i = .brInit → t.sticky = if t.code = .ok then false else s.sticky) ∧
    (entropyPath i = true → (t.sticky = true ↔ s.sticky = true ∨ t.code = .malformedBitstream)) ∧
    (i ∉ [Instr.statClr, .reset, .brInit] → entropyPath i = false →
      t.sticky = s.sticky ∧ t.code ≠ .malformedBitstream)) ∧
  ∀ (i : Instr) (s : State), s.sticky = true → entropyPath i = true → i.wellFormed = true →
    exec i s = .next { s with code := .engineHalted }

/-- R24 and R61: no command writes BSMEM, and none but RESET writes ARG0 to ARG3; no step changes the parameters
(R7). -/
def Obligations.OperandsAndParametersKept : Prop :=
  (∀ (i : Instr) (s t : State), exec i s = .next t →
    t.bsmem = s.bsmem ∧ t.host = s.host ∧ t.hostData = s.hostData ∧
      (i ≠ .reset → t.arg0 = s.arg0 ∧ t.arg1 = s.arg1 ∧ t.arg2 = s.arg2 ∧ t.arg3 = s.arg3)) ∧
  ∀ s t : State, step s = .next t → t.config = s.config

/-- R78 and R277: while a slot stays in POOL no step, of the block or of the host, changes its planes or maps. -/
def Obligations.StoredPicturesNotWritten : Prop :=
  ∀ (s t : State) (k : Nat), DpbOk s → step s = .next t →
    (s.dpb.slot k).state = .pool → (t.dpb.slot k).state = .pool → t.pics[k]? = s.pics[k]?

/-! ### System commands (45_system.md, 70_reset_and_hazards.md) -/

/-- R230 and R235: NOP writes STATUS.CODE alone, STAT_CLR also clears STICKY. -/
def Obligations.NopAndStatClr : Prop :=
  encode .nop = 0x00000000#32 ∧ encode .statClr = 0x04000000#32 ∧
  ∀ s : State, exec .nop s = .next { s with code := .ok } ∧
    exec .statClr s = .next { s with code := .ok, sticky := false }

/-- R231, R265 and R266: power-on reset and RESET give every register, record and list its value and leave nothing
readable in the memories, but RESET keeps BSMEM. The reset value of CTX_INIT is marked general knowledge in R265; the
parameters, the host's queue and the counter of free values are the model's own (log entries 1, 2 and 4). -/
def Obligations.ResetState : Prop :=
  (ResetValues State.reset ∧ MemoriesBlank State.reset ∧ ∀ a, State.reset.bsmem.read a = none) ∧
  ∀ s : State, ∃ t, exec .reset s = .next t ∧ ResetValues t ∧ MemoriesBlank t ∧ t.bsmem = s.bsmem ∧
    t.config = s.config ∧ t.host = s.host ∧ t.hostData = s.hostData ∧ t.freeCount = s.freeCount

/-- R232 and R234 (with R30 to R41): CFG_WR of a legal value writes the register and nothing else; a new picture width
or height also discards every slot, list and the CU map and sets CUR_SLOT to NONE. A reserved or read-only index, an
illegal value, and a BITDEPTH or CHROMA_FORMAT that is not implemented change nothing but STATUS.CODE. -/
def Obligations.CfgWrWritesRegister : Prop :=
  (∀ (idx : BitVec 8) (s : State), cfgLegal s.config idx s.arg0 →
    ∃ t, exec (.cfgWr idx) s = .next t ∧ t.code = .ok ∧
      (¬(idx = 0 ∧ s.arg0 ≠ s.cfg.picW ∨ idx = 1 ∧ s.arg0 ≠ s.cfg.picH) →
        t = { s with code := .ok, cfg := t.cfg } ∧
        ∀ j, t.cfg.get j = if j = idx then some s.arg0 else s.cfg.get j) ∧
      ((idx = 0 ∧ s.arg0 ≠ s.cfg.picW ∨ idx = 1 ∧ s.arg0 ≠ s.cfg.picH) →
        t = { s with code := .ok, cfg := t.cfg, dpb := t.dpb, pics := t.pics, cuLow := t.cuLow, cuCod := t.cuCod } ∧
        (∀ j, t.cfg.get j =
          if j = idx then some s.arg0 else if j = 0x0A then some 0xFFFFFFFF else s.cfg.get j) ∧
        (∀ k, t.dpb.slot k = { state := .unalloc, isRef := false, needOut := false, tid := 0, poc := 0 }) ∧
        t.dpb.pool = [] ∧ t.dpb.refseq = [] ∧ t.dpb.list0 = [] ∧ t.dpb.list1 = [] ∧
        ∀ a, t.cuLow.read a = none ∧ t.cuCod.read a = none)) ∧
  ∀ (idx : BitVec 8) (s : State),
    (idx.toNat = 2 → (s.arg0.toNat < 8 ∨ 10 < s.arg0.toNat) →
      exec (.cfgWr idx) s = .next { s with code := .unsupported }) ∧
    (idx.toNat = 3 → (s.arg0.toNat = 0 ∨ s.arg0.toNat = 2 ∨ s.arg0.toNat = 3) →
      exec (.cfgWr idx) s = .next { s with code := .unsupported }) ∧
    (idx.toNat = 3 → 3 < s.arg0.toNat → exec (.cfgWr idx) s = .next { s with code := .illegalCommand }) ∧
    (idx.toNat ≠ 2 → idx.toNat ≠ 3 → ¬cfgLegal s.config idx s.arg0 →
      exec (.cfgWr idx) s = .next { s with code := .illegalCommand })

/-- R233: CFG_RD returns the register; a reserved index is illegal. -/
def Obligations.CfgRdReadsRegister : Prop :=
  (∀ idx : BitVec 8, encode (.cfgRd idx) = 0x03000000#32 ||| idx.zeroExtend 32) ∧
  ∀ (idx : BitVec 8) (s : State),
    (idx.toNat < 0x0B →
      exec (.cfgRd idx) s = .next { s with
        code := .ok
        res0 := [s.cfg.picW, s.cfg.picH, s.cfg.bitDepth, s.cfg.chromaFormat, s.cfg.maxPb, s.cfg.maxNumRef,
          s.cfg.pocInc, s.cfg.nextOutPoc, s.cfg.ctxInit, s.cfg.mvClipMargin, s.cfg.curSlot].getD idx.toNat 0 }) ∧
    (0x0B ≤ idx.toNat → exec (.cfgRd idx) s = .next { s with code := .illegalCommand })

/-! ### Bit reader (40_bitreader.md) -/

/-- R108: BR_INIT sets the packet, the cursor and STICKY; a packet that does not fit changes nothing. -/
def Obligations.BrInitStartsPacket : Prop :=
  encode .brInit = 0x10000000#32 ∧
  ∀ s : State,
    (s.arg0.toNat + s.arg1.toNat ≤ s.config.bsSize →
      exec .brInit s = .next { s with
        code := .ok
        sticky := false
        ent := { s.ent with bsBase := s.arg0, bsLen := s.arg1, bitPos := 0 } }) ∧
    (s.config.bsSize < s.arg0.toNat + s.arg1.toNat →
      exec .brInit s = .next { s with code := .illegalCommand })

/-- R107, R109, R60 and R70: BR_READ returns the next N bits of the packet, most significant first, zeros past its end,
and advances the cursor by N; BR_READ1 is BR_READ with N = 1. -/
def Obligations.BrReadReturnsBits : Prop :=
  (∀ n : BitVec 6, encode (.brRead n) = 0x11000000#32 ||| n.zeroExtend 32) ∧ encode .brRead1 = 0x12000000#32 ∧
  ∀ s : State,
    (∀ n : BitVec 6, n.toNat = 0 ∨ 32 < n.toNat →
      exec (.brRead n) s = .next { s with code := .illegalCommand }) ∧
    (∀ n : BitVec 6, 1 ≤ n.toNat → n.toNat ≤ 32 → s.sticky = true →
      exec (.brRead n) s = .next { s with code := .engineHalted }) ∧
    (∀ n : BitVec 6, PacketFits s → PacketWritten s → s.sticky = false → 1 ≤ n.toNat → n.toNat ≤ 32 →
      exec (.brRead n) s = .next { s with
        code := .ok
        res0 := BitVec.ofNat 32 (packetBits s s.cursor n.toNat)
        ent := { s.ent with bitPos := cursorAfter s n.toNat } }) ∧
    (PacketFits s → PacketWritten s → s.sticky = false →
      exec .brRead1 s = .next { s with
        code := .ok
        res0 := BitVec.ofNat 32 (packetBit s s.cursor).toNat
        ent := { s.ent with bitPos := cursorAfter s 1 } }) ∧
    exec .brRead1 s = exec (.brRead 1) s

/-- R110 and R111: BR_READ_UE returns 2^z - 1 plus the z bits after z zeros and a 1, at most 31 zeros; 32 zeros are a
malformed prefix: the cursor stays advanced by 32, STICKY is set and RES0 is kept. -/
def Obligations.BrReadUeDecodes : Prop :=
  encode .brReadUe = 0x13000000#32 ∧
  (∀ s : State, s.sticky = true → exec .brReadUe s = .next { s with code := .engineHalted }) ∧
  ∀ s : State, PacketFits s → PacketWritten s → s.sticky = false →
    (∀ z < 32, (∀ j < z, packetBit s (s.cursor + j) = false) → packetBit s (s.cursor + z) = true →
      exec .brReadUe s = .next { s with
        code := .ok
        res0 := BitVec.ofNat 32 (2 ^ z - 1 + packetBits s (s.cursor + z + 1) z)
        ent := { s.ent with bitPos := cursorAfter s (2 * z + 1) } }) ∧
    ((∀ j < 32, packetBit s (s.cursor + j) = false) →
      exec .brReadUe s = .next { s with
        code := .malformedBitstream
        sticky := true
        ent := { s.ent with bitPos := cursorAfter s 32 } })

/-- R112: BR_READ_SE maps the unsigned code v to (v + 1) / 2 if v is odd and to -(v / 2) if it is even. -/
def Obligations.BrReadSeDecodes : Prop :=
  encode .brReadSe = 0x14000000#32 ∧
  (∀ s : State, s.sticky = true → exec .brReadSe s = .next { s with code := .engineHalted }) ∧
  ∀ s : State, PacketFits s → PacketWritten s → s.sticky = false →
    (∀ z < 32, (∀ j < z, packetBit s (s.cursor + j) = false) → packetBit s (s.cursor + z) = true →
      ∀ v, v = 2 ^ z - 1 + packetBits s (s.cursor + z + 1) z →
      exec .brReadSe s = .next { s with
        code := .ok
        res0 := BitVec.ofInt 32 (if v % 2 = 1 then ((v : Int) + 1) / 2 else -((v : Int) / 2))
        ent := { s.ent with bitPos := cursorAfter s (2 * z + 1) } }) ∧
    ((∀ j < 32, packetBit s (s.cursor + j) = false) →
      exec .brReadSe s = .next { s with
        code := .malformedBitstream
        sticky := true
        ent := { s.ent with bitPos := cursorAfter s 32 } })

/-- R115: for every v from 0 to 2^32 - 2, with floor(log2(v + 1)) zero bits, a 1 and the low bits of v + 1 at the
cursor, BR_READ_UE returns v; and BR_READ_SE returns s when these are the bits of the code of s. R115 is marked
derived in 40_bitreader.md. -/
def Obligations.ExpGolombRoundTrip : Prop :=
  ∀ (s : State) (v : Nat), v ≤ 2 ^ 32 - 2 → PacketFits s → PacketWritten s → s.sticky = false →
    (∀ j < Nat.log2 (v + 1), packetBit s (s.cursor + j) = false) →
    packetBit s (s.cursor + Nat.log2 (v + 1)) = true →
    packetBits s (s.cursor + Nat.log2 (v + 1) + 1) (Nat.log2 (v + 1)) = v + 1 - 2 ^ Nat.log2 (v + 1) →
    (∃ t, exec .brReadUe s = .next t ∧ t.code = .ok ∧ t.res0.toNat = v) ∧
    (∀ z : Int, -(2 ^ 31 - 1) ≤ z → z ≤ 2 ^ 31 - 1 → (v : Int) = (if 0 < z then 2 * z - 1 else -2 * z) →
      ∃ t, exec .brReadSe s = .next t ∧ t.code = .ok ∧ t.res0.toInt = z)

/-- R113 and R114: BR_ALIGNED and BR_CONSUMED report the cursor, whatever STICKY is, and change nothing else. -/
def Obligations.BrCursorQueries : Prop :=
  encode .brAligned = 0x15000000#32 ∧ encode .brConsumed = 0x16000000#32 ∧
  ∀ s : State,
    exec .brAligned s = .next { s with code := .ok, res0 := if s.cursor % 8 = 0 then 1 else 0 } ∧
    exec .brConsumed s = .next { s with code := .ok, res0 := BitVec.ofNat 32 ((s.cursor + 7) / 8) } ∧
    (s.cursor + 7) / 8 ≤ 2 ^ 29

/-- R116: what a bit-reader command does depends only on ARG0, ARG1 and BS_SIZE (BR_INIT), the reader's registers,
STICKY and the bytes inside the packet. R116 is marked derived in 40_bitreader.md. -/
def Obligations.BitReaderDependsOnPacket : Prop :=
  ∀ (i : Instr) (s u t : State),
    ((∃ n, i = .brRead n) ∨ i ∈ [Instr.brInit, .brRead1, .brReadUe, .brReadSe, .brAligned, .brConsumed]) →
    (i = .brInit → s.arg0 = u.arg0 ∧ s.arg1 = u.arg1 ∧ s.config.bsSize = u.config.bsSize) →
    s.ent.bsBase = u.ent.bsBase → s.ent.bsLen = u.ent.bsLen → s.ent.bitPos = u.ent.bitPos → s.sticky = u.sticky →
    (∀ a, s.ent.bsBase.toNat ≤ a → a < s.ent.bsBase.toNat + s.ent.bsLen.toNat → s.bsmem.read a = u.bsmem.read a) →
    exec i s = .next t →
    ∃ v, exec i u = .next v ∧ v.code = t.code ∧ v.sticky = t.sticky ∧ v.ent.bsBase = t.ent.bsBase ∧
      v.ent.bsLen = t.ent.bsLen ∧ v.ent.bitPos = t.ent.bitPos ∧ (t.code = .ok → i ≠ .brInit → v.res0 = t.res0)

/-! ### SBAC engine (41_sbac.md) -/

/-- R128: SBAC_INIT sets RANGE, primes VALUE with 14 bits and, with F = 1, sets every context to CTX_INIT. -/
def Obligations.SbacInitPrimesEngine : Prop :=
  (∀ f : Bool, encode (.sbacInit f) = if f then 0x20000001#32 else 0x20000000#32) ∧
  (∀ (f : Bool) (s : State), s.sticky = true → exec (.sbacInit f) s = .next { s with code := .engineHalted }) ∧
  ∀ (f : Bool) (s : State), PacketFits s → PacketWritten s → s.sticky = false →
    ∃ t, exec (.sbacInit f) s = .next t ∧ t = { s with code := .ok, ent := t.ent } ∧
      t.ent.bsBase = s.ent.bsBase ∧ t.ent.bsLen = s.ent.bsLen ∧ t.ent.bitPos = cursorAfter s 14 ∧
      t.ent.range.toNat = 16384 ∧ t.ent.value.toNat = packetBits s s.cursor 14 ∧
      (f = true → ∀ c < 256, t.ent.ctx.read c = some (s.cfg.ctxInit.extractLsb' 0 10)) ∧
      (f = false → t.ent.ctx = s.ent.ctx)

/-- R126 and R127: CTX_WR writes a legal model into one context and rejects another value; CTX_RD returns a written
context, and one never written is a model fault. Both run while STICKY = 1. -/
def Obligations.ContextAccess : Prop :=
  (∀ c : BitVec 8, encode (.ctxWr c) = 0x21000000#32 ||| c.zeroExtend 32 ∧
    encode (.ctxRd c) = 0x22000000#32 ||| c.zeroExtend 32) ∧
  ∀ (c : BitVec 8) (s : State),
    (s.arg0.toNat < 1024 → s.arg0.toNat / 2 ≤ 256 →
      ∃ t, exec (.ctxWr c) s = .next t ∧ t = { s with code := .ok, ent := { s.ent with ctx := t.ent.ctx } } ∧
        ∀ b, t.ent.ctx.read b = if b = c.toNat then some (s.arg0.extractLsb' 0 10) else s.ent.ctx.read b) ∧
    (1024 ≤ s.arg0.toNat ∨ 256 < s.arg0.toNat / 2 → exec (.ctxWr c) s = .next { s with code := .illegalCommand }) ∧
    (∀ m, s.ent.ctx.read c.toNat = some m →
      exec (.ctxRd c) s = .next { s with code := .ok, res0 := m.zeroExtend 32 }) ∧
    (s.ent.ctx.read c.toNat = none → exec (.ctxRd c) s = .fault (.unwrittenContext c.toNat))

/-- R129, R131 and R132: DEC_BIN splits RANGE at max(437, STATE * RANGE / 512), takes the MPS or the LPS branch, adapts
the model, and doubles RANGE and VALUE the least number k of times that brings RANGE to 8192. On a context never written
(R132, R272), and entered with RANGE at most 437 (R137), it is a model fault. -/
def Obligations.DecBinDecodes : Prop :=
  (∀ (c : BitVec 8) (s : State), s.sticky = false →
    (s.ent.ctx.read c.toNat = none → exec (.decBin c) s = .fault (.unwrittenContext c.toNat)) ∧
    (∀ m, s.ent.ctx.read c.toNat = some m → s.ent.range.toNat ≤ 437 →
      exec (.decBin c) s = .fault .rangeTooSmall)) ∧
  ∀ (c : BitVec 8) (s : State) (m : CtxModel), PacketFits s → PacketWritten s → s.sticky = false →
    s.ent.ctx.read c.toNat = some m → 437 < s.ent.range.toNat →
    let st := m.toNat / 2
    let R := s.ent.range.toNat
    let V := s.ent.value.toNat
    let L := max 437 (st * R / 512)
    let up := st + (528 - st) / 32
    ∃ (t : State) (k R' V' st' : Nat) (mps : Bool),
      exec (.decBin c) s = .next t ∧
      (V < R - L → R' = R - L ∧ V' = V ∧ st' = st - (st + 16) / 32 ∧ mps = m.getLsbD 0 ∧
        t.res0 = if m.getLsbD 0 then 1 else 0) ∧
      (R - L ≤ V → R' = L ∧ V' = V - (R - L) ∧ st' = (if 256 < up then 512 - up else up) ∧
        mps = (if 256 < up then !m.getLsbD 0 else m.getLsbD 0) ∧ t.res0 = if m.getLsbD 0 then 0 else 1) ∧
      8192 ≤ R' * 2 ^ k ∧ (k = 0 ∨ R' * 2 ^ k < 16384) ∧
      t = { s with code := .ok, res0 := t.res0, ent := t.ent } ∧
      t.ent.bsBase = s.ent.bsBase ∧ t.ent.bsLen = s.ent.bsLen ∧ t.ent.bitPos = cursorAfter s k ∧
      t.ent.range.toNat = R' * 2 ^ k ∧
      t.ent.value.toNat = (V' * 2 ^ k + packetBits s s.cursor k) % 2 ^ 16 ∧
      ∀ b, t.ent.ctx.read b =
        if b = c.toNat then some (BitVec.ofNat 10 (2 * st' + mps.toNat)) else s.ent.ctx.read b

/-- R130: a bin leaves a legal model legal, and for 437 < RANGE <= 16384 the LPS sub-range is smaller than RANGE. R130
is marked derived in 41_sbac.md. -/
def Obligations.AdaptationKeepsModelsLegal : Prop :=
  ∀ (bs : Memory Byte) (c : Nat) (e e' : Entropy) (b : Bool) (m : CtxModel),
    e.ctx.read c = some m → m.toNat / 2 ≤ 256 → bin bs c e = .ok (b, e') →
    (∃ m', e'.ctx.read c = some m' ∧ m'.toNat / 2 ≤ 256) ∧
    ∀ R, 437 < R → R ≤ 16384 → lpsRange (ctxState m) R < R

/-- R137: from a RANGE of at most 16384, every context-coded bin ends with 8192 <= RANGE < 16384, a bypass bin keeps
8192 <= RANGE <= 16384, and a terminating bin 0 ends with 8192 <= RANGE <= 16383. R137 is marked derived in
41_sbac.md. -/
def Obligations.RangeAfterBins : Prop :=
  ∀ s t : State, s.sticky = false → s.ent.range.toNat ≤ 16384 →
    (∀ c, exec (.decBin c) s = .next t → 8192 ≤ t.ent.range.toNat ∧ t.ent.range.toNat < 16384) ∧
    (∀ cb nc, Instr.wellFormed (.decUnary cb nc false) = true → exec (.decUnary cb nc false) s = .next t →
      8192 ≤ t.ent.range.toNat ∧ t.ent.range.toNat < 16384) ∧
    (∀ cb nc mx, Instr.wellFormed (.decTunary cb nc false mx) = true → 2 ≤ mx.toNat →
      exec (.decTunary cb nc false mx) s = .next t → 8192 ≤ t.ent.range.toNat ∧ t.ent.range.toNat < 16384) ∧
    (8192 ≤ s.ent.range.toNat → exec .decBinEp s = .next t →
      8192 ≤ t.ent.range.toNat ∧ t.ent.range.toNat ≤ 16384) ∧
    (exec .decBinTrm s = .next t → t.code = .ok → t.res0 = 0 →
      8192 ≤ t.ent.range.toNat ∧ t.ent.range.toNat ≤ 16383)

/-- R133: DEC_BIN_EP halves RANGE, compares, doubles back and shifts one bit into VALUE; no context changes. -/
def Obligations.DecBinEpDecodes : Prop :=
  encode .decBinEp = 0x24000000#32 ∧
  (∀ s : State, s.sticky = true → exec .decBinEp s = .next { s with code := .engineHalted }) ∧
  ∀ s : State, PacketFits s → PacketWritten s → s.sticky = false →
    let H := s.ent.range.toNat / 2
    let V := s.ent.value.toNat
    exec .decBinEp s = .next { s with
      code := .ok
      res0 := if H ≤ V then 1 else 0
      ent := { s.ent with
        range := BitVec.ofNat 15 (2 * H)
        value := BitVec.ofNat 16 (2 * (if H ≤ V then V - H else V) + (packetBit s s.cursor).toNat)
        bitPos := cursorAfter s 1 } }

/-- R134 and R138: DEC_BIN_TRM lowers RANGE by 1; a bin 1 consumes the bits up to the byte boundary and returns 1 only
if all are 0, else it is MALFORMED_BITSTREAM; a bin 0 renormalises. With RANGE 0 it is a model fault (R137). Beyond
the last byte boundary before the saturated cursor the model's reading is log entry 8. -/
def Obligations.DecBinTrmDecodes : Prop :=
  ∀ s : State, s.sticky = false →
    (s.ent.range.toNat = 0 → exec .decBinTrm s = .fault .rangeTooSmall) ∧
    (PacketFits s → PacketWritten s → 1 ≤ s.ent.range.toNat → s.cursor ≤ 2 ^ 32 - 8 →
      let R := s.ent.range.toNat - 1
      let V := s.ent.value.toNat
      let n := (8 - s.cursor % 8) % 8
      (R ≤ V → (∀ j < n, packetBit s (s.cursor + j) = false) →
        exec .decBinTrm s = .next { s with
          code := .ok
          res0 := 1
          ent := { s.ent with range := BitVec.ofNat 15 R, bitPos := cursorAfter s n } }) ∧
      (R ≤ V → (∃ j < n, packetBit s (s.cursor + j) = true) →
        exec .decBinTrm s = .next { s with
          code := .malformedBitstream
          sticky := true
          ent := { s.ent with range := BitVec.ofNat 15 R, bitPos := cursorAfter s n } }) ∧
      (V < R → ∃ k, 8192 ≤ R * 2 ^ k ∧ (k = 0 ∨ R * 2 ^ k < 16384) ∧
        exec .decBinTrm s = .next { s with
          code := .ok
          res0 := 0
          ent := { s.ent with
            range := BitVec.ofNat 15 (R * 2 ^ k)
            value := BitVec.ofNat 16 (V * 2 ^ k + packetBits s s.cursor k)
            bitPos := cursorAfter s k } }))

/-- R135: DEC_UNARY is DEC_BIN_EP, or DEC_BIN of context CB + min(k, NC - 1), issued for k = 0, 1, ... until a bin is 0;
it returns the number of 1 bins, and 65535 of them are MALFORMED_BITSTREAM. The model fault of a bin is that of the
command. -/
def Obligations.DecUnaryRunsBins : Prop :=
  ∀ (cb : BitVec 8) (nc : BitVec 4) (bypass : Bool) (s : State), s.sticky = false →
    (if bypass then cb = 0 ∧ nc = 0 else nc ≠ 0 ∧ cb.toNat + nc.toNat ≤ 256) →
    (∀ k u t, k < 65535 → OnesRun cb nc bypass k 0 s u → exec (binCommand cb nc bypass k) u = .next t → t.res0 = 0 →
      exec (.decUnary cb nc bypass) s = .next { t with res0 := BitVec.ofNat 32 k }) ∧
    (∀ u, OnesRun cb nc bypass 65535 0 s u →
      exec (.decUnary cb nc bypass) s =
        .next { u with code := .malformedBitstream, sticky := true, res0 := s.res0 }) ∧
    ∀ k u f, k < 65535 → OnesRun cb nc bypass k 0 s u → exec (binCommand cb nc bypass k) u = .fault f →
      exec (.decUnary cb nc bypass) s = .fault f

/-- R136: DEC_TUNARY runs the same bins but at most MAX - 1 of them, and reads no 0 bin after MAX - 1 ones; with MAX
0 or 1 it decodes nothing and returns 0. The model fault of a bin is that of the command. -/
def Obligations.DecTunaryRunsBins : Prop :=
  ∀ (cb : BitVec 8) (nc : BitVec 4) (bypass : Bool) (mx : BitVec 8) (s : State), s.sticky = false →
    (if bypass then cb = 0 ∧ nc = 0 else nc ≠ 0 ∧ cb.toNat + nc.toNat ≤ 256) →
    (mx.toNat ≤ 1 → exec (.decTunary cb nc bypass mx) s = .next { s with code := .ok, res0 := 0 }) ∧
    (∀ k u t, k < mx.toNat - 1 → OnesRun cb nc bypass k 0 s u → exec (binCommand cb nc bypass k) u = .next t →
      t.res0 = 0 → exec (.decTunary cb nc bypass mx) s = .next { t with res0 := BitVec.ofNat 32 k }) ∧
    (∀ u, 2 ≤ mx.toNat → OnesRun cb nc bypass (mx.toNat - 1) 0 s u →
      exec (.decTunary cb nc bypass mx) s = .next { u with res0 := BitVec.ofNat 32 (mx.toNat - 1) }) ∧
    ∀ k u f, k < mx.toNat - 1 → OnesRun cb nc bypass k 0 s u → exec (binCommand cb nc bypass k) u = .fault f →
      exec (.decTunary cb nc bypass mx) s = .fault f

/-- R135, R136 and R137: with the packet and the contexts written and RANGE above 437, DEC_UNARY and DEC_TUNARY answer a
next state and touch only the engine's registers and the contexts CB to CB + NC - 1; DEC_UNARY returns 0 where the
first bin is 0. With RANGE at most 437, and with context CB never written (R272), a command that decodes a context bin is
a model fault. -/
def Obligations.UnaryCompletes : Prop :=
  (∀ (cb : BitVec 8) (nc : BitVec 4) (mx : BitVec 8) (s : State), s.sticky = false → nc ≠ 0 →
    cb.toNat + nc.toNat ≤ 256 →
    (s.ent.ctx.read cb.toNat = none →
      exec (.decUnary cb nc false) s = .fault (.unwrittenContext cb.toNat) ∧
      (2 ≤ mx.toNat → exec (.decTunary cb nc false mx) s = .fault (.unwrittenContext cb.toNat))) ∧
    (∀ m, s.ent.ctx.read cb.toNat = some m → s.ent.range.toNat ≤ 437 →
      exec (.decUnary cb nc false) s = .fault .rangeTooSmall ∧
      (2 ≤ mx.toNat → exec (.decTunary cb nc false mx) s = .fault .rangeTooSmall))) ∧
  ∀ (cb : BitVec 8) (nc : BitVec 4) (bypass : Bool) (mx : BitVec 8) (s : State), PacketFits s → PacketWritten s →
    s.sticky = false → UnaryReady s cb nc bypass →
    (if bypass then cb = 0 ∧ nc = 0 else nc ≠ 0 ∧ cb.toNat + nc.toNat ≤ 256) →
    (∃ t, exec (.decUnary cb nc bypass) s = .next t ∧
      (t.code = .ok ∧ t.sticky = false ∧ t.res0.toNat < 65535 ∨
        t.code = .malformedBitstream ∧ t.sticky = true ∧ t.res0 = s.res0) ∧
      t = { s with code := t.code, sticky := t.sticky, res0 := t.res0, ent := t.ent } ∧
      t.ent.bsBase = s.ent.bsBase ∧ t.ent.bsLen = s.ent.bsLen ∧
      (∀ c, bypass = true ∨ c < cb.toNat ∨ cb.toNat + nc.toNat ≤ c → t.ent.ctx.read c = s.ent.ctx.read c) ∧
      (bypass = true → s.ent.value.toNat < s.ent.range.toNat / 2 → t.code = .ok ∧ t.res0 = 0) ∧
      (bypass = false → ∀ m, s.ent.ctx.read cb.toNat = some m → m.getLsbD 0 = false →
        max 437 (m.toNat / 2 * s.ent.range.toNat / 512) + s.ent.value.toNat < s.ent.range.toNat →
        t.code = .ok ∧ t.res0 = 0)) ∧
    (∃ t, exec (.decTunary cb nc bypass mx) s = .next t ∧
      t = { s with code := .ok, res0 := t.res0, ent := t.ent } ∧ t.res0.toNat ≤ mx.toNat - 1 ∧
      t.ent.bsBase = s.ent.bsBase ∧ t.ent.bsLen = s.ent.bsLen ∧
      ∀ c, bypass = true ∨ c < cb.toNat ∨ cb.toNat + nc.toNat ≤ c → t.ent.ctx.read c = s.ent.ctx.read c)

/-! ### Motion compensation (42_mc.md) -/

/-- R151 and R152: MC_CLIPMV limits each component against the padded range, the upper test winning; a bad operand or
no picture size is illegal. The range and the tests of R152 are marked general knowledge in 42_mc.md (log entry 11). -/
def Obligations.McClipmvClips : Prop :=
  ∀ s : State,
    let x := lo16 s.arg0
    let y := hi16 s.arg0
    let w := byteOf s.arg2 0
    let h := byteOf s.arg2 1
    let legal := s.cfg.picW ≠ 0 ∧ s.cfg.picH ≠ 0 ∧ hi16 s.arg2 = 0 ∧ 1 ≤ w ∧ w ≤ 64 ∧ 1 ≤ h ∧ h ≤ 64 ∧
      x < s.cfg.picW.toNat ∧ y < s.cfg.picH.toNat
    (legal → exec .mcClipmv s = .next { s with
      code := .ok
      res0 :=
        BitVec.ofInt 16 (clippedMv y h (s.arg1.extractLsb' 16 16).toInt s.cfg.picH.toNat s.cfg.mvClipMargin.toNat) ++
        BitVec.ofInt 16 (clippedMv x w (s.arg1.extractLsb' 0 16).toInt s.cfg.picW.toNat s.cfg.mvClipMargin.toNat) }) ∧
    (¬legal → exec .mcClipmv s = .next { s with code := .illegalCommand })

/-- R153 to R157: MC_PRED writes the interpolated block into the top-left corner of PRED[L][C] and changes nothing
else, for a reference plane whose samples are written. The tap offsets of R154 and the shifts of R156 are marked
general knowledge in 42_mc.md (log entry 11). -/
def Obligations.McPredInterpolates : Prop :=
  ∀ (c : Comp) (l : ListIx) (s : State) (e : RefEntry), RegistersOk s →
    let x := lo16 s.arg0
    let y := hi16 s.arg0
    let w := byteOf s.arg2 0
    let h := byteOf s.arg2 1
    s.cfg.picW ≠ 0 → s.cfg.picH ≠ 0 → byteOf s.arg2 3 = 0 → 1 ≤ w → w ≤ 64 → 1 ≤ h → h ≤ 64 →
    (s.dpb.list l)[byteOf s.arg2 2]? = some e → x < (planeSize s.cfg c).1 → y < (planeSize s.cfg c).2 →
    PlaneReady s e.slot c →
    ∃ t, exec (.mcPred (BitVec.ofNat 2 c.num) l) s = .next t ∧ t = { s with code := .ok, pred := t.pred } ∧
      (∀ i < h, ∀ j < w, t.predVal l c i j =
        some (interpVal s c e.slot x y (s.arg1.extractLsb' 0 16).toInt (s.arg1.extractLsb' 16 16).toInt i j)) ∧
      ∀ a, (∀ i < h, ∀ j < w, a ≠ predKey l c i j) → t.pred.read a = s.pred.read a

/-- R161: with no fraction, the interpolated value is the reference sample at the displaced integer position. R161 is
marked derived in 42_mc.md. -/
def Obligations.IntegerMotionCopies : Prop :=
  ∀ (s : State) (c : Comp) (k x y : Nat) (mx my : Int) (i j : Nat), RegistersOk s → PlaneReady s k c →
    0 < (planeSize s.cfg c).1 → 0 < (planeSize s.cfg c).2 →
    let q : Int := if c = .y then 4 else 8
    mx % q = 0 → my % q = 0 →
    ∃ v, interpAt s c k x y (mx, my) i j = .ok v ∧
      s.sampleAt k c (min (((planeSize s.cfg c).2 : Int) - 1) (max 0 (y + my / q + i))).toNat
        (min (((planeSize s.cfg c).1 : Int) - 1) (max 0 (x + mx / q + j))).toNat = some v

/-- R158: MC_AVG writes (a + b + 1) >> 1 of the two list predictions to the top-left corner of PREDOUT[C] and changes
nothing else, where every cell it reads is written and within the bit depth. A cell of either list that was never
written is a model fault, and so is one above 2^BITDEPTH - 1; the latter is the model's form of R83 (log entry 12). -/
def Obligations.McAvgAverages : Prop :=
  ∀ (c : Comp) (s : State),
    let w := byteOf s.arg2 0
    let h := byteOf s.arg2 1
    hi16 s.arg2 = 0 → 1 ≤ w → w ≤ 64 → 1 ≤ h → h ≤ 64 →
    ((∀ i < h, ∀ j < w, ∀ l, ∃ a, s.predVal l c i j = some a ∧ a < 2 ^ s.cfg.bitDepth.toNat) →
      ∃ t, exec (.mcAvg (BitVec.ofNat 2 c.num)) s = .next t ∧ t = { s with code := .ok, predOut := t.predOut } ∧
        (∀ i < h, ∀ j < w, ∀ a b, s.predVal .l0 c i j = some a → s.predVal .l1 c i j = some b →
          t.predOutVal c i j = some ((a + b + 1) / 2) ∧ (a + b + 1) / 2 < 2 ^ s.cfg.bitDepth.toNat) ∧
        ∀ a, (∀ i < h, ∀ j < w, a ≠ predOutKey c i j) → t.predOut.read a = s.predOut.read a) ∧
    ((∃ i < h, ∃ j < w, ∃ l, ∀ a, s.predVal l c i j = some a → 2 ^ s.cfg.bitDepth.toNat ≤ a) →
      ∃ i < h, ∃ j < w, ∃ l,
        (s.predVal l c i j = none ∧
          exec (.mcAvg (BitVec.ofNat 2 c.num)) s = .fault (.unwrittenPred l c i j)) ∨
        ∃ a, s.predVal l c i j = some a ∧ 2 ^ s.cfg.bitDepth.toNat ≤ a ∧
          exec (.mcAvg (BitVec.ofNat 2 c.num)) s = .fault (.predTooLarge l c i j))

/-- R159 and R160: MC_CU with one list in use, or in the degenerate case where both entries have one POC and the
vectors are equal (then list 0), predicts the three components from that list with the clipped vector and copies them
to PREDOUT. Vectors and values follow R152, R154 and R156, marked general knowledge in 42_mc.md (log entry 11). -/
def Obligations.McCuFromOneList : Prop :=
  ∀ (s : State) (l : ListIx) (e : RefEntry), RegistersOk s →
    let size := byteOf s.arg1 0
    CuPlaced s (lo16 s.arg0) (hi16 s.arg0) size → byteOf s.arg1 3 = 0 →
    0 ≤ cuRefIndex s l → (s.dpb.list l)[(cuRefIndex s l).toNat]? = some e →
    ((∀ m, m ≠ l → cuRefIndex s m = -1) ∨
      (l = .l0 ∧ 0 ≤ cuRefIndex s .l1 ∧ cuVector s .l0 = cuVector s .l1 ∧
        ∃ e', s.dpb.list1[(cuRefIndex s .l1).toNat]? = some e' ∧ e'.poc = e.poc)) →
    (∀ c, PlaneReady s e.slot c) →
    ∃ t, exec .mcCu s = .next t ∧ t = { s with code := .ok, pred := t.pred, predOut := t.predOut } ∧
      (∀ c, ∀ i < inComp c size, ∀ j < inComp c size,
        t.predVal l c i j = some (cuPrediction s l e.slot c i j) ∧
        t.predOutVal c i j = some (cuPrediction s l e.slot c i j)) ∧
      (∀ a, (∀ c, ∀ i < inComp c size, ∀ j < inComp c size, a ≠ predKey l c i j) →
        t.pred.read a = s.pred.read a) ∧
      ∀ a, (∀ c, ∀ i < inComp c size, ∀ j < inComp c size, a ≠ predOutKey c i j) →
        t.predOut.read a = s.predOut.read a

/-- R159 and R162: MC_CU with two lists that are not degenerate predicts from both and writes (a + b + 1) >> 1.
Vectors and values follow R152, R154 and R156, marked general knowledge in 42_mc.md (log entry 11). -/
def Obligations.McCuFromTwoLists : Prop :=
  ∀ (s : State) (e0 e1 : RefEntry), RegistersOk s →
    let size := byteOf s.arg1 0
    CuPlaced s (lo16 s.arg0) (hi16 s.arg0) size → byteOf s.arg1 3 = 0 →
    0 ≤ cuRefIndex s .l0 → s.dpb.list0[(cuRefIndex s .l0).toNat]? = some e0 →
    0 ≤ cuRefIndex s .l1 → s.dpb.list1[(cuRefIndex s .l1).toNat]? = some e1 →
    ¬(e0.poc = e1.poc ∧ cuVector s .l0 = cuVector s .l1) →
    (∀ c, PlaneReady s e0.slot c ∧ PlaneReady s e1.slot c) →
    ∃ t, exec .mcCu s = .next t ∧ t = { s with code := .ok, pred := t.pred, predOut := t.predOut } ∧
      (∀ c, ∀ i < inComp c size, ∀ j < inComp c size,
        t.predVal .l0 c i j = some (cuPrediction s .l0 e0.slot c i j) ∧
        t.predVal .l1 c i j = some (cuPrediction s .l1 e1.slot c i j) ∧
        t.predOutVal c i j =
          some ((cuPrediction s .l0 e0.slot c i j + cuPrediction s .l1 e1.slot c i j + 1) / 2)) ∧
      (∀ a, (∀ l c, ∀ i < inComp c size, ∀ j < inComp c size, a ≠ predKey l c i j) →
        t.pred.read a = s.pred.read a) ∧
      ∀ a, (∀ c, ∀ i < inComp c size, ∀ j < inComp c size, a ≠ predOutKey c i j) →
        t.predOut.read a = s.predOut.read a

/-- R30 and R175: with no picture size configured the commands that need one are illegal; with no current picture the
deblocking commands that need one complete with UNEXPECTED_STATE. R157 to R159, R177, R180, R181 and R183: each operand
these rules exclude makes the command illegal (the DF commands stated with a current picture). Nothing else changes. That
MC_CU with an index of 0x80 to 0xFE is illegal is the model's reading, R159 being followed where R58 reads otherwise (log
entry 14); that DF_LUMA and DF_CHROMA off their grids are illegal is its reading too, R180 and R181 being followed where
R65 reads otherwise (log entry 15). -/
def Obligations.OperandErrors : Prop :=
  (∀ (i : Instr) (s : State), s.cfg.picW = 0 ∨ s.cfg.picH = 0 →
    (i ∈ [Instr.mcClipmv, .mcCu, .dpbGet] ∨ ∃ c l, i = .mcPred c l) →
    exec i s = .next { s with code := .illegalCommand }) ∧
  (∀ (i : Instr) (s : State), s.cfg.curSlot = 0xFFFFFFFF →
    (i = .dfBs ∨ (∃ d, i = .dfLuma d) ∨ (∃ d c, i = .dfChroma d c ∧ (c = 1 ∨ c = 2)) ∨ ∃ d, i = .dfCu d) →
    exec i s = .next { s with code := .unexpectedState }) ∧
  ∀ s : State,
    let w := byteOf s.arg2 0
    let h := byteOf s.arg2 1
    let x := lo16 s.arg0
    let y := hi16 s.arg0
    let W := s.cfg.picW.toNat
    let H := s.cfg.picH.toNat
    let illegal : Host.Outcome State Fault Refusal := .next { s with code := .illegalCommand }
    (∀ (c : Comp) (l : ListIx),
      (byteOf s.arg2 3 ≠ 0 ∨ w < 1 ∨ 64 < w ∨ h < 1 ∨ 64 < h ∨ (s.dpb.list l).length ≤ byteOf s.arg2 2 ∨
        (planeSize s.cfg c).1 ≤ x ∨ (planeSize s.cfg c).2 ≤ y) →
      exec (.mcPred (BitVec.ofNat 2 c.num) l) s = illegal) ∧
    (∀ c : Comp, (hi16 s.arg2 ≠ 0 ∨ w < 1 ∨ 64 < w ∨ h < 1 ∨ 64 < h) →
      exec (.mcAvg (BitVec.ofNat 2 c.num)) s = illegal) ∧
    ((byteOf s.arg1 3 ≠ 0 ∨ ¬CuPlaced s x y (byteOf s.arg1 0) ∨
        (∃ l, cuRefIndex s l < -1 ∨ ((s.dpb.list l).length : Int) ≤ cuRefIndex s l) ∨
        (∀ l, cuRefIndex s l = -1)) →
      exec .mcCu s = illegal) ∧
    (s.cfg.curSlot ≠ 0xFFFFFFFF →
      ((W / 4 ≤ x ∨ H / 4 ≤ y ∨ W / 4 ≤ lo16 s.arg1 ∨ H / 4 ≤ hi16 s.arg1 ∨
          ¬((lo16 s.arg1 = x + 1 ∧ hi16 s.arg1 = y) ∨ (lo16 s.arg1 = x ∧ hi16 s.arg1 = y + 1))) →
        exec .dfBs s = illegal) ∧
      (∀ d, (x % 4 ≠ 0 ∨ y % 4 ≠ 0 ∨ W ≤ x ∨ H ≤ y ∨ (d = .vertical ∧ x = 0) ∨ (d = .horizontal ∧ y = 0)) →
        exec (.dfLuma d) s = illegal) ∧
      (∀ d c, ((d = .vertical ∧ (x % 4 ≠ 0 ∨ y % 2 ≠ 0 ∨ x = 0)) ∨
          (d = .horizontal ∧ (y % 4 ≠ 0 ∨ x % 2 ≠ 0 ∨ y = 0)) ∨ W / 2 ≤ x ∨ H / 2 ≤ y) →
        exec (.dfChroma d c) s = illegal) ∧
      (∀ d, (s.arg1.extractLsb' 8 24 ≠ 0 ∨ ¬CuPlaced s x y (byteOf s.arg1 0)) →
        exec (.dfCu d) s = illegal))

/-! ### Deblocking (43_deblock.md) -/

/-- R176 and R177: DF_BS returns 0 if a side is intra, else 1 if a side has a residual, else 2 or 3 by the motion of
the two sides. The comparison by slot and the straight and swapped forms of R176 are marked general knowledge in
43_deblock.md, the CU-map layout of R52 in 10_state.md (log entry 11). -/
def Obligations.DfBsStrength : Prop :=
  ∀ (s : State) (k : Nat), s.cfg.curSlot ≠ 0xFFFFFFFF → k = s.cfg.curSlot.toNat →
    let p := (hi16 s.arg0, lo16 s.arg0)
    let q := (hi16 s.arg1, lo16 s.arg1)
    p.2 < s.cfg.picW.toNat / 4 → p.1 < s.cfg.picH.toNat / 4 → q.2 < s.cfg.picW.toNat / 4 →
    q.1 < s.cfg.picH.toNat / 4 → ((q.2 = p.2 + 1 ∧ q.1 = p.1) ∨ (q.2 = p.2 ∧ q.1 = p.1 + 1)) →
    BlockReady s k p.1 p.2 → BlockReady s k q.1 q.2 →
    let intra := (cuVal s p.1 p.2).getLsbD 15 = true ∨ (cuVal s q.1 q.2).getLsbD 15 = true
    let coded := (cuVal s p.1 p.2).getLsbD 24 = true ∨ (cuVal s q.1 q.2).getLsbD 24 = true
    ∃ v : Nat, exec .dfBs s = .next { s with code := .ok, res0 := BitVec.ofNat 32 v } ∧
      (intra → v = 0) ∧ (¬intra → coded → v = 1) ∧ (¬intra → ¬coded → MotionFar s k p q → v = 2) ∧
      (¬intra → ¬coded → ¬MotionFar s k p q → v = 3)

/-- R179 and R180: DF_LUMA filters the four samples of each of its four lines and changes no other sample. All of R179
but its formula of d is marked general knowledge in 43_deblock.md (log entry 11). -/
def Obligations.DfLumaFiltersLines : Prop :=
  ∀ (d : Dir) (s : State) (k : Nat), RegistersOk s → s.cfg.curSlot ≠ 0xFFFFFFFF → k = s.cfg.curSlot.toNat →
    let x := lo16 s.arg0
    let y := hi16 s.arg0
    x % 4 = 0 → y % 4 = 0 → x < s.cfg.picW.toNat → y < s.cfg.picH.toNat →
    (d = .vertical → x ≠ 0) → (d = .horizontal → y ≠ 0) → SegmentReady s k .y d x y 4 →
    ∃ t, exec (.dfLuma d) s = .next t ∧ t = { s with code := .ok, pics := t.pics } ∧
      (∀ i < 4,
        let old := fun n => sampleVal s k .y (linePos d x y i n).1 (linePos d x y i n).2
        let new := fun n => sampleVal t k .y (linePos d x y i n).1 (linePos d x y i n).2
        let r := lumaLineVal (old 0) (old 1) (old 2) (old 3) s.arg1.toNat
        new 0 = clipVal s r.1 ∧ new 1 = clipVal s r.2.1 ∧ new 2 = clipVal s r.2.2.1 ∧ new 3 = clipVal s r.2.2.2) ∧
      (∀ k' c row col, col < 65536 → ¬(k' = k ∧ c = .y ∧ ∃ i < 4, ∃ n < 4, (row, col) = linePos d x y i n) →
        t.sampleAt k' c row col = s.sampleAt k' c row col) ∧
      ∀ k', t.mapsOf k' = s.mapsOf k'

/-- R179 and R181: DF_CHROMA changes the two inner samples of each of its two lines, by the luma correction without
the outer part, and no other sample. All of R179 but its formula of d is marked general knowledge in 43_deblock.md
(log entry 11). -/
def Obligations.DfChromaFiltersLines : Prop :=
  ∀ (d : Dir) (c : Comp) (s : State) (k : Nat), RegistersOk s → c ≠ .y → s.cfg.curSlot ≠ 0xFFFFFFFF →
    k = s.cfg.curSlot.toNat →
    let x := lo16 s.arg0
    let y := hi16 s.arg0
    (d = .vertical → x % 4 = 0 ∧ y % 2 = 0 ∧ x ≠ 0) → (d = .horizontal → y % 4 = 0 ∧ x % 2 = 0 ∧ y ≠ 0) →
    x < s.cfg.picW.toNat / 2 → y < s.cfg.picH.toNat / 2 → SegmentReady s k c d x y 2 →
    ∃ t, exec (.dfChroma d (BitVec.ofNat 2 c.num)) s = .next t ∧ t = { s with code := .ok, pics := t.pics } ∧
      (∀ i < 2,
        let old := fun n => sampleVal s k c (linePos d x y i n).1 (linePos d x y i n).2
        let new := fun n => sampleVal t k c (linePos d x y i n).1 (linePos d x y i n).2
        let r := lumaLineVal (old 0) (old 1) (old 2) (old 3) s.arg1.toNat
        new 1 = clipVal s r.2.1 ∧ new 2 = clipVal s r.2.2.1) ∧
      (∀ k' c' row col, col < 65536 →
        ¬(k' = k ∧ c' = c ∧ ∃ i < 2, ∃ n, (n = 1 ∨ n = 2) ∧ (row, col) = linePos d x y i n) →
        t.sampleAt k' c' row col = s.sampleAt k' c' row col) ∧
      ∀ k', t.mapsOf k' = s.mapsOf k'

/-- R186: with threshold 0, with d = 0, and with |d| at least twice the threshold both line primitives return their
inputs. R186 is marked derived in 43_deblock.md. -/
def Obligations.UnfilteredLines : Prop :=
  ∀ (depth : Nat) (st a b c d : Int), 0 ≤ st → 0 ≤ a → a < 2 ^ depth → 0 ≤ b → b < 2 ^ depth → 0 ≤ c →
    c < 2 ^ depth → 0 ≤ d → d < 2 ^ depth →
    (st = 0 ∨ (a - 4 * b + 4 * c - d).tdiv 8 = 0 ∨ 2 * st ≤ |(a - 4 * b + 4 * c - d).tdiv 8|) →
    lineLuma depth st ⟨a, b, c, d⟩ = ⟨a, b, c, d⟩ ∧ lineChroma depth st ⟨a, b, c, d⟩ = ⟨a, b, c, d⟩

/-- R182: DF_CLR clears COD on the picture area, whether or not there is a current picture, and nothing else. -/
def Obligations.DfClrClearsCoded : Prop :=
  encode .dfClr = 0x43000000#32 ∧
  ∀ s : State, RegistersOk s →
    ∃ t, exec .dfClr s = .next t ∧ t = { s with code := .ok, cuCod := t.cuCod } ∧
      ∀ row col, col < 65536 → t.cuCod.read (cellKey row col) =
        if row < s.cfg.picH.toNat / 4 ∧ col < s.cfg.picW.toNat / 4 then some false
        else s.cuCod.read (cellKey row col)

/-- R178, R183 and R185: DF_CU leaves the pictures that DF_BS, DF_LUMA and DF_CHROMA leave when they are issued
segment by segment along the CU's edge with the thresholds of R178, passing over a segment outside the picture or
behind an unmarked block; on the picture boundary it filters nothing. It marks the CU's blocks in the picture. The QP
rule of R178 and the grid of R187 are marked general knowledge in 43_deblock.md (log entry 11). -/
def Obligations.DfCuRunsSegments : Prop :=
  ∀ (d : Dir) (s m : State), RegistersOk s → s.cfg.curSlot ≠ 0xFFFFFFFF →
    let x := lo16 s.arg0
    let y := hi16 s.arg0
    let size := byteOf s.arg1 0
    s.arg1.extractLsb' 8 24 = 0 → CuPlaced s x y size →
    (if edgeAt d x y = 0 then m = s else EdgeRun d x y (List.range (size / 4)) s m) →
    ∃ t, exec (.dfCu d) s = .next t ∧ t = { s with code := .ok, pics := m.pics, cuCod := t.cuCod } ∧
      ∀ row col, col < 65536 → t.cuCod.read (cellKey row col) =
        if y / 4 ≤ row ∧ row < min (y + size) s.cfg.picH.toNat / 4 ∧ x / 4 ≤ col ∧
          col < min (x + size) s.cfg.picW.toNat / 4 then some true
        else s.cuCod.read (cellKey row col)

/-- R183 and R188: where all that DF_CU may read is written it answers a next state; it changes only samples within
two of the edge (one in a chroma plane) along the CU, all in range, and the CU's COD bits. R188 is marked derived in
43_deblock.md. -/
def Obligations.DfCuCompletes : Prop :=
  ∀ (d : Dir) (s : State) (k : Nat), RegistersOk s → s.cfg.curSlot ≠ 0xFFFFFFFF → k = s.cfg.curSlot.toNat →
    let x := lo16 s.arg0
    let y := hi16 s.arg0
    let size := byteOf s.arg1 0
    s.arg1.extractLsb' 8 24 = 0 → CuPlaced s x y size → EdgeReady s k x y size →
    ∃ t, exec (.dfCu d) s = .next t ∧ t = { s with code := .ok, pics := t.pics, cuCod := t.cuCod } ∧
      (∀ c, PlaneReady t k c) ∧
      (∀ k' c row col, col < 65536 →
        ¬(k' = k ∧
          (match d with
          | .vertical =>
            (if c = .y then x ≤ col + 2 ∧ col < x + 2 else x / 2 ≤ col + 1 ∧ col < x / 2 + 1) ∧
              inComp c y ≤ row ∧ row < inComp c (y + size)
          | .horizontal =>
            (if c = .y then y ≤ row + 2 ∧ row < y + 2 else y / 2 ≤ row + 1 ∧ row < y / 2 + 1) ∧
              inComp c x ≤ col ∧ col < inComp c (x + size))) →
        t.sampleAt k' c row col = s.sampleAt k' c row col) ∧
      (∀ k', t.mapsOf k' = s.mapsOf k') ∧
      ∀ row col, col < 65536 → t.cuCod.read (cellKey row col) =
        if y / 4 ≤ row ∧ row < min (y + size) s.cfg.picH.toNat / 4 ∧ x / 4 ≤ col ∧
          col < min (x + size) s.cfg.picW.toNat / 4 then some true
        else s.cuCod.read (cellKey row col)

/-! ### Decoded-picture buffer (44_dpb.md) -/

/-- R200 and R201: DPB_GET detaches the first reusable slot of POOL, whose picture is kept; else, below MAX_PB, it
allocates the lowest UNALLOC slot, with nothing readable in its picture; else it completes with OUT_OF_BUFFERS. -/
def Obligations.DpbGetAcquires : Prop :=
  ∀ s : State, DpbOk s → RegistersOk s → s.cfg.picW ≠ 0 → s.cfg.picH ≠ 0 →
    (∀ pre k post, s.dpb.pool = pre ++ k :: post → Reusable s k → (∀ j ∈ pre, ¬Reusable s j) →
      ∃ t, exec .dpbGet s = .next t ∧
        t = { s with
          code := .ok, res0 := BitVec.ofNat 32 k, cfg := { s.cfg with curSlot := BitVec.ofNat 32 k }
          dpb := { s.dpb with slots := t.dpb.slots, pool := pre ++ post } } ∧
        ∀ j, t.dpb.slot j = if j = k then { s.dpb.slot k with state := .detached } else s.dpb.slot j) ∧
    (∀ k, (∀ j ∈ s.dpb.pool, ¬Reusable s j) → s.allocated < s.cfg.maxPb.toNat → k < s.config.pbCap →
      (s.dpb.slot k).state = .unalloc → (∀ j < k, (s.dpb.slot j).state ≠ .unalloc) →
      ∃ t, exec .dpbGet s = .next t ∧
        t = { s with
          code := .ok, res0 := BitVec.ofNat 32 k, cfg := { s.cfg with curSlot := BitVec.ofNat 32 k }
          dpb := { s.dpb with slots := t.dpb.slots }, pics := t.pics } ∧
        (∀ j, t.dpb.slot j =
          if j = k then { state := .detached, isRef := false, needOut := false, tid := 0, poc := 0 }
          else s.dpb.slot j) ∧
        (∀ j, j ≠ k → t.pics[j]? = s.pics[j]?) ∧
        (∀ c y x, t.sampleAt k c y x = none) ∧
        ∀ l a, ∀ p, t.pics[k]? = some p → (p.mv l).read a = none ∧ (p.refi l).read a = none) ∧
    ((∀ j ∈ s.dpb.pool, ¬Reusable s j) → s.cfg.maxPb.toNat ≤ s.allocated →
      exec .dpbGet s = .next { s with code := .outOfBuffers })

/-- R202 and R203: DPB_PUT of a DETACHED slot stores its record at the back of POOL (and of REFSEQ, for a reference); an
IDR clears every reference, a base-layer put demotes by rules (a) and (b), any other demotes nothing. A slot that is
not DETACHED, and a base-layer put with gap 0, are illegal. -/
def Obligations.DpbPutStores : Prop :=
  ∀ (idr no ref : Bool) (tid : BitVec 3) (s : State) (k : Nat), DpbOk s → RegistersOk s → k = s.arg0.toNat →
    ((s.dpb.slot k).state ≠ .detached → exec (.dpbPut idr no ref tid) s = .next { s with code := .illegalCommand }) ∧
    (idr = false → tid = 0 → s.arg2 = 0 →
      exec (.dpbPut idr no ref tid) s = .next { s with code := .illegalCommand }) ∧
    ((s.dpb.slot k).state = .detached → (idr = true ∨ tid ≠ 0 ∨ s.arg2 ≠ 0) →
      let gone := if idr then s.dpb.refseq
        else if tid = 0 then s.demoted s.arg2.toNat s.cfg.maxNumRef.toNat else []
      let moved := if idr then [] else gone
      let tail := if ref then [k] else []
      ∃ t, exec (.dpbPut idr no ref tid) s = .next t ∧
        t = { s with
          code := .ok
          cfg := { s.cfg with curSlot := if s.cfg.curSlot = s.arg0 then 0xFFFFFFFF else s.cfg.curSlot }
          dpb := { s.dpb with
            slots := t.dpb.slots
            pool := s.dpb.pool.filter (fun j => decide (j ∉ moved)) ++ moved ++ [k]
            refseq := s.dpb.refseq.filter (fun j => decide (j ∉ gone)) ++ tail } } ∧
        ∀ j, t.dpb.slot j =
          if j = k then { state := .pool, isRef := ref, needOut := no, tid := tid, poc := s.arg1 }
          else if j ∈ gone then { s.dpb.slot j with isRef := false } else s.dpb.slot j)

/-- R204 to R206: DPB_REFP empties both lists and, for a P or B slice, fills them with the candidates the rules pick,
each with its POC; a required list that comes out empty is UNEXPECTED_STATE with both lists empty. The layer cases of
R205 and the layer bound of R206 are marked general knowledge in 44_dpb.md (log entry 11). -/
def Obligations.DpbRefpBuildsLists : Prop :=
  ∀ (m : BitVec 8) (st : BitVec 2) (lid : BitVec 3) (s : State),
    let poc := s.arg0.toNat
    let lip := s.arg1.toNat
    let p0 := (s.forP poc lip lid.toNat).take m.toNat
    let b0 := s.forB0 m.toNat poc lip lid.toNat
    let b1 := s.forB1 m.toNat poc lip lid.toNat
    (s.config.maxRefList < m.toNat ∨ st = 3 →
      exec (.dpbRefp m st lid) s = .next { s with code := .illegalCommand }) ∧
    (m.toNat ≤ s.config.maxRefList →
      (st = 0 → exec (.dpbRefp m st lid) s =
        .next { s with code := .ok, dpb := { s.dpb with list0 := [], list1 := [] } }) ∧
      (st = 1 → p0 ≠ [] → exec (.dpbRefp m st lid) s =
        .next { s with code := .ok, dpb := { s.dpb with list0 := s.entriesOf p0, list1 := [] } }) ∧
      (st = 1 → p0 = [] → exec (.dpbRefp m st lid) s =
        .next { s with code := .unexpectedState, dpb := { s.dpb with list0 := [], list1 := [] } }) ∧
      (st = 2 → b0 ≠ [] → b1 ≠ [] → exec (.dpbRefp m st lid) s =
        .next { s with code := .ok, dpb := { s.dpb with list0 := s.entriesOf b0, list1 := s.entriesOf b1 } }) ∧
      (st = 2 → b0 = [] ∨ b1 = [] → exec (.dpbRefp m st lid) s =
        .next { s with code := .unexpectedState, dpb := { s.dpb with list0 := [], list1 := [] } }))

/-- R213: when the POCs of the references in REFSEQ are distinct, so are those within each list DPB_REFP builds. R213
is marked derived in 44_dpb.md. -/
def Obligations.DpbRefpDistinctPocs : Prop :=
  ∀ (m : BitVec 8) (st : BitVec 2) (lid : BitVec 3) (s t : State),
    (s.dpb.refseq.map (fun j => (s.dpb.slot j).poc)).Nodup → exec (.dpbRefp m st lid) s = .next t →
    t.code ≠ .illegalCommand → ∀ l, ((t.dpb.list l).map RefEntry.poc).Nodup

/-- R207: DPB_OUT returns the due picture of POOL with the smallest POC, the first of equals, clears its NEED_OUT and
advances NEXT_OUT_POC; with none marked it is UNEXPECTED_STATE, with none due OUTPUT_NOT_AVAILABLE. -/
def Obligations.DpbOutSelects : Prop :=
  encode .dpbOut = 0x53000000#32 ∧
  ∀ s : State,
    (∀ pre k post, s.dpb.pool = pre ++ k :: post → (s.dpb.slot k).needOut = true →
      s.pocOf k ≤ s.cfg.nextOutPoc.toNat →
      (∀ j ∈ pre, (s.dpb.slot j).needOut = true → s.pocOf k < s.pocOf j) →
      (∀ j ∈ post, (s.dpb.slot j).needOut = true → s.pocOf k ≤ s.pocOf j) →
      ∃ t, exec .dpbOut s = .next t ∧
        t = { s with
          code := .ok, res0 := BitVec.ofNat 32 k, res1 := (s.dpb.slot k).poc
          cfg := { s.cfg with nextOutPoc := s.cfg.nextOutPoc + s.cfg.pocInc }
          dpb := { s.dpb with slots := t.dpb.slots } } ∧
        ∀ j, t.dpb.slot j = if j = k then { s.dpb.slot k with needOut := false } else s.dpb.slot j) ∧
    ((∀ j ∈ s.dpb.pool, (s.dpb.slot j).needOut = false) →
      exec .dpbOut s = .next { s with code := .unexpectedState }) ∧
    ((∃ j ∈ s.dpb.pool, (s.dpb.slot j).needOut = true) →
      (∀ j ∈ s.dpb.pool, (s.dpb.slot j).needOut = true → s.cfg.nextOutPoc.toNat < s.pocOf j) →
      exec .dpbOut s = .next { s with code := .outputNotAvailable })

/-- R208 and R209: DPB_LIST_RD returns an entry's slot and stored POC, an index past the list is illegal; DPB_NUMREF
returns the two lengths. -/
def Obligations.DpbListReads : Prop :=
  (∀ (i : BitVec 8) (l : ListIx),
    encode (.dpbListRd i l) = 0x54000000#32 ||| (if l = .l1 then 0x100#32 else 0#32) ||| i.zeroExtend 32) ∧
  encode .dpbNumref = 0x55000000#32 ∧
  ∀ s : State,
    (∀ (i : BitVec 8) (l : ListIx),
      (∀ e, (s.dpb.list l)[i.toNat]? = some e →
        exec (.dpbListRd i l) s = .next { s with code := .ok, res0 := BitVec.ofNat 32 e.slot, res1 := e.poc }) ∧
      ((s.dpb.list l).length ≤ i.toNat → exec (.dpbListRd i l) s = .next { s with code := .illegalCommand })) ∧
    exec .dpbNumref s = .next { s with
      code := .ok
      res0 := BitVec.ofNat 32 (s.dpb.list .l0).length
      res1 := BitVec.ofNat 32 (s.dpb.list .l1).length }

/-- R210: DPB_SLOT_RD packs a slot's record, its positions in POOL and REFSEQ (255 where it is in none) and its
borrow count, saturating at 255. -/
def Obligations.DpbSlotRead : Prop :=
  (∀ k : BitVec 8, encode (.dpbSlotRd k) = 0x56000000#32 ||| k.zeroExtend 32) ∧
  ∀ (k : BitVec 8) (s : State), DpbOk s → RegistersOk s →
    (s.config.pbCap ≤ k.toNat → exec (.dpbSlotRd k) s = .next { s with code := .illegalCommand }) ∧
    (k.toNat < s.config.pbCap →
      let r := s.dpb.slot k.toNat
      let st := match r.state with
        | .unalloc => 0
        | .pool => 1
        | .detached => 2
      let pp := if k.toNat ∈ s.dpb.pool then s.dpb.pool.idxOf k.toNat else 255
      let rp := if k.toNat ∈ s.dpb.refseq then s.dpb.refseq.idxOf k.toNat else 255
      let borrow := ((s.dpb.list .l0 ++ s.dpb.list .l1).filter (fun e => decide (e.slot = k.toNat))).length
      exec (.dpbSlotRd k) s = .next { s with
        code := .ok
        res0 := BitVec.ofNat 32 (min borrow 255 * 2 ^ 24 + rp * 2 ^ 16 + pp * 2 ^ 8 + r.tid.toNat * 16 +
          r.needOut.toNat * 8 + r.isRef.toNat * 4 + st)
        res1 := r.poc })

/-! ### Invariants -/

/-- Every step, of the block or of the host, keeps every memory in canonical form: strictly rising addresses. -/
def Obligations.StepKeepsMemories : Prop := ∀ s t : State, MemoriesOk s → step s = .next t → MemoriesOk t

/-- R211 (with R40, R46 to R48): every step keeps the invariants of the DPB. R211 is marked derived in 44_dpb.md. -/
def Obligations.StepKeepsDpb : Prop :=
  ∀ s t : State, RegistersOk s → DpbOk s → step s = .next t → DpbOk t

/-- R30 to R39, R44, R73 and R137: every step keeps the configuration registers legal, every context model legal, RANGE
at most 16384 and the packet inside BSMEM. -/
def Obligations.StepKeepsRegisters : Prop := ∀ s t : State, RegistersOk s → step s = .next t → RegistersOk t

/-- The state after reset meets the three invariants, its OPEN parameters being legal (R7, log entry 1). -/
def Obligations.ResetMeetsInvariants : Prop :=
  MemoriesOk State.reset ∧ DpbOk State.reset ∧ RegistersOk State.reset

/-! ### Host reads of pictures (20_memory.md) -/

/-- R50, R51 and R82: the host reads the samples, motion vectors and reference indices of a picture that a slot holds;
an element never written is a model fault. The word in which the host reads a vector (mvx in its low half) and a
reference index (its low byte), and the fault where the slot holds no picture, are the model's choice (log entry 10). -/
def Obligations.HostPictureReads : Prop :=
  ∀ (s : State) (rest : List HostAction) (k : Nat),
    (∀ (c : Comp) (y x : Nat), s.host = .sampleRead k c y x :: rest →
      ((s.dpb.slot k).state = .unalloc → step s = .fault .noSuchElement) ∧
      ((s.dpb.slot k).state ≠ .unalloc → y < (planeSize s.cfg c).2 → x < (planeSize s.cfg c).1 →
        (∀ v, s.sampleAt k c y x = some v → step s = .next { s with host := rest, hostData := v.zeroExtend 32 }) ∧
        (s.sampleAt k c y x = none → step s = .fault (.unwrittenSample k c y x)))) ∧
    ∀ (l : ListIx) (row col : Nat), row < s.cfg.picH.toNat / 4 → col < s.cfg.picW.toNat / 4 →
      (s.host = .mvRead k row col l :: rest →
        ((s.dpb.slot k).state = .unalloc → step s = .fault .noSuchElement) ∧
        ((s.dpb.slot k).state ≠ .unalloc →
          (∀ v, s.mvAt k l row col = some v → step s = .next { s with host := rest, hostData := v.y ++ v.x }) ∧
          (s.mvAt k l row col = none → step s = .fault (.unwrittenMv k row col l)))) ∧
      (s.host = .refiRead k row col l :: rest →
        ((s.dpb.slot k).state = .unalloc → step s = .fault .noSuchElement) ∧
        ((s.dpb.slot k).state ≠ .unalloc →
          (∀ v, s.refiAt k l row col = some v →
            step s = .next { s with host := rest, hostData := v.zeroExtend 32 }) ∧
          (s.refiAt k l row col = none → step s = .fault (.unwrittenRefi k row col l))))
end

