-- ==== Sys2Proof/Laws/Memory.lean ====
section
/-! SUPPORT. The laws of the memories: a read after a write, the canonical form, the keys of two-dimensional
memories, the fills. -/

namespace Sys2Proof.Machine

variable {α : Type}

@[simp] theorem Memory.read_nil (k : Nat) : Memory.read ([] : Memory α) k = none := rfl

theorem Memory.read_write_self (m : Memory α) (k : Nat) (v : α) : (Memory.write m k v).read k = some v := by
  induction m with
  | nil => simp [Memory.write, Memory.read]
  | cons p m ih =>
    obtain ⟨a, w⟩ := p
    simp only [Memory.write]
    split
    · simp [Memory.read]
    · split
      · simp [Memory.read]
      · simp [Memory.read, *]

theorem Memory.read_write_ne (m : Memory α) {k j : Nat} (v : α) (h : j ≠ k) :
    (Memory.write m k v).read j = m.read j := by
  induction m with
  | nil => simp [Memory.write, Memory.read, h]
  | cons p m ih =>
    obtain ⟨a, w⟩ := p
    simp only [Memory.write]
    split
    · simp [Memory.read, h]
    · split
      · next hk => subst hk; simp [Memory.read, h]
      · simp [Memory.read, ih]

/-- A read after a write: the value written, and every other address as before. -/
theorem Memory.read_write (m : Memory α) (k j : Nat) (v : α) :
    (Memory.write m k v).read j = if j = k then some v else m.read j := by
  by_cases h : j = k
  · subst h; simp [Memory.read_write_self]
  · simp [h, Memory.read_write_ne m v h]

theorem Memory.wf_cons (a : Nat) (v : α) (m : Memory α) :
    Memory.wf ((a, v) :: m) = true ↔ (∀ b w m', m = (b, w) :: m' → a < b) ∧ Memory.wf m = true := by
  cases m with
  | nil => simp [Memory.wf]
  | cons p m =>
    obtain ⟨b, w⟩ := p
    simp only [Memory.wf, Bool.and_eq_true, decide_eq_true_eq]
    constructor
    · rintro ⟨h1, h2⟩
      refine ⟨?_, h2⟩
      intro b' w' m' h
      cases h; exact h1
    · rintro ⟨h1, h2⟩
      exact ⟨h1 b w m rfl, h2⟩

theorem Memory.write_head (m : Memory α) (k : Nat) (v : α) (b : Nat) (w : α) (m' : Memory α)
    (h : Memory.write m k v = (b, w) :: m') : b = k ∨ ∃ w' m'', m = (b, w') :: m'' := by
  cases m with
  | nil => simp only [Memory.write, List.cons.injEq, Prod.mk.injEq] at h; exact .inl h.1.1.symm
  | cons p m =>
    obtain ⟨a, x⟩ := p
    simp only [Memory.write] at h
    split at h
    · simp only [List.cons.injEq, Prod.mk.injEq] at h; exact .inl h.1.1.symm
    · split at h <;> simp only [List.cons.injEq, Prod.mk.injEq] at h
      · exact .inl h.1.1.symm
      · obtain ⟨⟨rfl, rfl⟩, -⟩ := h
        exact .inr ⟨_, _, rfl⟩

/-- A write keeps the canonical form. -/
theorem Memory.wf_write (m : Memory α) (k : Nat) (v : α) (h : m.wf = true) : (Memory.write m k v).wf = true := by
  induction m with
  | nil => simp [Memory.write, Memory.wf]
  | cons p m ih =>
    obtain ⟨a, w⟩ := p
    have hw := (Memory.wf_cons a w m).1 h
    simp only [Memory.write]
    split
    · next hk =>
      refine (Memory.wf_cons _ _ _).2 ⟨?_, h⟩
      intro b x m' e; cases e; exact hk
    · next hk =>
      split
      · next e => subst e; exact (Memory.wf_cons _ _ _).2 ⟨hw.1, hw.2⟩
      · next hne =>
        refine (Memory.wf_cons _ _ _).2 ⟨?_, ih hw.2⟩
        intro b x m' e
        rcases Memory.write_head m k v b x m' e with rfl | ⟨w', m'', rfl⟩
        · omega
        · exact hw.1 _ _ _ rfl

theorem cellKey_inj {r c r' c' : Nat} (hc : c < 65536) (hc' : c' < 65536) :
    cellKey r c = cellKey r' c' ↔ r = r' ∧ c = c' := by
  unfold cellKey; omega

theorem listIx_num_lt (l : ListIx) : l.num < 2 := by cases l <;> decide

theorem comp_num_lt (c : Comp) : c.num < 3 := by cases c <;> decide

theorem listIx_num_inj {l l' : ListIx} : l.num = l'.num ↔ l = l' := by cases l <;> cases l' <;> decide

theorem comp_num_inj {c c' : Comp} : c.num = c'.num ↔ c = c' := by cases c <;> cases c' <;> decide

theorem predKey_inj {l l' : ListIx} {c c' : Comp} {i j i' j' : Nat} (hi : i < 64) (hj : j < 64) (hi' : i' < 64)
    (hj' : j' < 64) : predKey l c i j = predKey l' c' i' j' ↔ l = l' ∧ c = c' ∧ i = i' ∧ j = j' := by
  have h1 := comp_num_lt c; have h2 := comp_num_lt c'
  rw [← listIx_num_inj, ← comp_num_inj]
  unfold predKey
  omega

theorem predOutKey_inj {c c' : Comp} {i j i' j' : Nat} (hi : i < 64) (hj : j < 64) (hi' : i' < 64) (hj' : j' < 64) :
    predOutKey c i j = predOutKey c' i' j' ↔ c = c' ∧ i = i' ∧ j = j' := by
  rw [← comp_num_inj]
  unfold predOutKey
  omega

@[simp] theorem mem_blockCells {h w i j : Nat} : (i, j) ∈ blockCells h w ↔ i < h ∧ j < w := by
  simp [blockCells]

/-! ### foldE -/

variable {β σ : Type}

@[simp] theorem foldE_nil (f : β → σ → Except Fault σ) (s : σ) : foldE f [] s = .ok s := rfl

theorem foldE_cons_ok {f : β → σ → Except Fault σ} {b : β} {bs : List β} {s t : σ} :
    foldE f (b :: bs) s = .ok t ↔ ∃ s', f b s = .ok s' ∧ foldE f bs s' = .ok t := by
  simp only [foldE]
  cases h : f b s with
  | error e => simp
  | ok s' => simp

/-- An invariant of every single step of a fold is one of the fold. -/
theorem foldE_inv {f : β → σ → Except Fault σ} (P : σ → Prop)
    (hf : ∀ b s s', P s → f b s = .ok s' → P s') :
    ∀ (l : List β) (s t : σ), P s → foldE f l s = .ok t → P t := by
  intro l
  induction l with
  | nil => intro s t hs h; cases h; exact hs
  | cons b bs ih =>
    intro s t hs h
    obtain ⟨s', h1, h2⟩ := foldE_cons_ok.1 h
    exact ih s' t (hf b s s' hs h1) h2

/-- A fold whose single steps all succeed from states with P succeeds. -/
theorem foldE_total {f : β → σ → Except Fault σ} (P : σ → Prop) (l : List β)
    (hf : ∀ b ∈ l, ∀ s, P s → ∃ s', f b s = .ok s' ∧ P s') :
    ∀ s, P s → ∃ t, foldE f l s = .ok t ∧ P t := by
  induction l with
  | nil => intro s hs; exact ⟨s, rfl, hs⟩
  | cons b bs ih =>
    intro s hs
    obtain ⟨s', h1, h2⟩ := hf b (by simp) s hs
    obtain ⟨t, h3, h4⟩ := ih (fun b' hb' => hf b' (by simp [hb'])) s' h2
    exact ⟨t, foldE_cons_ok.2 ⟨s', h1, h3⟩, h4⟩

/-- What a fill does, with keys that tell the listed positions apart: if it answers m', every listed position holds
its value and every other address is as before. -/
theorem fillCells_ok {f : Nat → Nat → Except Fault Sample} {key : Nat → Nat → Nat} :
    ∀ (cells : List (Nat × Nat)) (m m' : Memory Sample),
      fillCells f key cells m = .ok m' →
      (∀ p ∈ cells, ∀ q ∈ cells, key p.1 p.2 = key q.1 q.2 → p = q) →
      (∀ p ∈ cells, ∃ v, f p.1 p.2 = .ok v ∧ m'.read (key p.1 p.2) = some v) ∧
        (∀ a, (∀ p ∈ cells, a ≠ key p.1 p.2) → m'.read a = m.read a) := by
  intro cells
  induction cells with
  | nil => intro m m' h _; cases h; simp
  | cons p ps ih =>
    intro m m' h inj
    obtain ⟨m1, h1, h2⟩ := foldE_cons_ok.1 h
    cases hv : f p.1 p.2 with
    | error e => simp [hv] at h1
    | ok v =>
      simp only [hv, Except.ok.injEq] at h1
      subst h1
      obtain ⟨ih1, ih2⟩ := ih _ m' h2 (fun a ha b hb => inj a (by simp [ha]) b (by simp [hb]))
      refine ⟨?_, ?_⟩
      · intro q hq
        by_cases hqp : q ∈ ps
        · exact ih1 q hqp
        · have : q = p := by simpa [hqp] using hq
          subst this
          refine ⟨v, hv, ?_⟩
          rw [ih2 _ (fun r hr e => hqp (by rw [inj q (by simp) r (by simp [hr]) e]; exact hr))]
          exact Memory.read_write_self _ _ _
      · intro a ha
        rw [ih2 a (fun r hr => ha r (by simp [hr]))]
        exact Memory.read_write_ne _ _ (ha p (by simp))

/-- A fill answers when its function answers at every listed position. -/
theorem fillCells_total {f : Nat → Nat → Except Fault Sample} {key : Nat → Nat → Nat} (cells : List (Nat × Nat))
    (hf : ∀ p ∈ cells, ∃ v, f p.1 p.2 = .ok v) (m : Memory Sample) : ∃ m', fillCells f key cells m = .ok m' := by
  obtain ⟨t, h, -⟩ := foldE_total (f := fun p m =>
      match f p.1 p.2 with
      | .error e => .error e
      | .ok v => .ok (Memory.write m (key p.1 p.2) v)) (fun _ => True) cells
    (fun p hp s _ => by obtain ⟨v, hv⟩ := hf p hp; exact ⟨s.write (key p.1 p.2) v, by simp [hv], trivial⟩) m trivial
  exact ⟨t, h⟩

/-- A fill stops with the fault of a listed position, and only with one. -/
theorem fillCells_error {f : Nat → Nat → Except Fault Sample} {key : Nat → Nat → Nat} {e : Fault} :
    ∀ (cells : List (Nat × Nat)) (m : Memory Sample), fillCells f key cells m = .error e →
      ∃ p ∈ cells, f p.1 p.2 = .error e := by
  intro cells
  induction cells with
  | nil => intro m h; cases h
  | cons p ps ih =>
    intro m h
    unfold fillCells foldE at h
    cases hv : f p.1 p.2 with
    | error e' =>
      simp only [hv, Except.error.injEq] at h
      exact ⟨p, by simp, by rw [hv, h]⟩
    | ok v =>
      simp only [hv] at h
      obtain ⟨q, hq, he⟩ := ih _ h
      exact ⟨q, by simp [hq], he⟩

theorem fillCells_wf {f : Nat → Nat → Except Fault Sample} {key : Nat → Nat → Nat} {cells : List (Nat × Nat)}
    {m m' : Memory Sample} (hm : m.wf = true) (h : fillCells f key cells m = .ok m') : m'.wf = true := by
  refine foldE_inv (fun m => Memory.wf m = true) ?_ cells m m' hm h
  intro p s s' hs hp
  cases hv : f p.1 p.2 with
  | error e => simp [hv] at hp
  | ok v =>
    simp only [hv, Except.ok.injEq] at hp
    subst hp
    exact Memory.wf_write _ _ _ hs

/-- What `fillCod` does over any list of positions. -/
theorem foldl_write_read (l : List (Nat × Nat)) (key : Nat × Nat → Nat) (v : α) :
    ∀ (m : Memory α) (a : Nat), (l.foldl (fun m p => Memory.write m (key p) v) m).read a =
      if ∃ p ∈ l, key p = a then some v else m.read a := by
  induction l with
  | nil => simp
  | cons p ps ih =>
    intro m a
    rw [List.foldl_cons, ih]
    by_cases h : ∃ q ∈ ps, key q = a
    · have h2 : ∃ q ∈ p :: ps, key q = a := by
        obtain ⟨q, h1, h3⟩ := h
        exact ⟨q, List.mem_cons_of_mem _ h1, h3⟩
      rw [if_pos h, if_pos h2]
    · rw [if_neg h, Memory.read_write]
      by_cases hk : a = key p
      · rw [if_pos hk, if_pos ⟨p, List.mem_cons_self, hk.symm⟩]
      · rw [if_neg hk, if_neg]
        rintro ⟨q, hq, e⟩
        rcases List.mem_cons.1 hq with hq | hq
        · exact hk (by rw [← e, hq])
        · exact h ⟨q, hq, e⟩

/-- What `fillCod` does: COD of every block of the area is v, every other word is as before. -/
theorem fillCod_read (row col h w : Nat) (v : Bool) (m : Memory Bool) (r c : Nat) (hc : c < 65536)
    (hw : col + w ≤ 65536) :
    (fillCod row col h w v m).read (cellKey r c) =
      if (row ≤ r ∧ r < row + h) ∧ (col ≤ c ∧ c < col + w) then some v else m.read (cellKey r c) := by
  rw [fillCod, foldl_write_read _ (fun p => cellKey (row + p.1) (col + p.2))]
  refine if_congr ?_ rfl rfl
  constructor
  · rintro ⟨⟨i, j⟩, hm, e⟩
    rw [mem_blockCells] at hm
    rw [cellKey_inj (by omega) hc] at e
    omega
  · rintro ⟨h1, h2⟩
    refine ⟨(r - row, c - col), ?_, ?_⟩
    · rw [mem_blockCells]; omega
    · show cellKey (row + (r - row)) (col + (c - col)) = _
      rw [cellKey_inj (by omega) hc]; omega

theorem fillCod_wf (row col h w : Nat) (v : Bool) (m : Memory Bool) (hm : m.wf = true) :
    (fillCod row col h w v m).wf = true := by
  unfold fillCod
  induction blockCells h w generalizing m with
  | nil => exact hm
  | cons p ps ih => exact ih _ (Memory.wf_write _ _ _ hm)

end Sys2Proof.Machine
end

