-- ==== Sys2Proof/Laws/State.lean ====
section
/-! SUPPORT. One lemma per field and update of State: no later proof unfolds a record update. -/

namespace Sys2Proof.Machine

variable (s : State)

@[simp] theorem State.setCode_config (v : Code) : (s.setCode v).config = s.config := rfl
@[simp] theorem State.setCode_host (v : Code) : (s.setCode v).host = s.host := rfl
@[simp] theorem State.setCode_hostData (v : Code) : (s.setCode v).hostData = s.hostData := rfl
@[simp] theorem State.setCode_freeCount (v : Code) : (s.setCode v).freeCount = s.freeCount := rfl
@[simp] theorem State.setCode_arg0 (v : Code) : (s.setCode v).arg0 = s.arg0 := rfl
@[simp] theorem State.setCode_arg1 (v : Code) : (s.setCode v).arg1 = s.arg1 := rfl
@[simp] theorem State.setCode_arg2 (v : Code) : (s.setCode v).arg2 = s.arg2 := rfl
@[simp] theorem State.setCode_arg3 (v : Code) : (s.setCode v).arg3 = s.arg3 := rfl
@[simp] theorem State.setCode_res0 (v : Code) : (s.setCode v).res0 = s.res0 := rfl
@[simp] theorem State.setCode_res1 (v : Code) : (s.setCode v).res1 = s.res1 := rfl
@[simp] theorem State.setCode_code (v : Code) : (s.setCode v).code = v := rfl
@[simp] theorem State.setCode_sticky (v : Code) : (s.setCode v).sticky = s.sticky := rfl
@[simp] theorem State.setCode_cfg (v : Code) : (s.setCode v).cfg = s.cfg := rfl
@[simp] theorem State.setCode_ent (v : Code) : (s.setCode v).ent = s.ent := rfl
@[simp] theorem State.setCode_bsmem (v : Code) : (s.setCode v).bsmem = s.bsmem := rfl
@[simp] theorem State.setCode_dpb (v : Code) : (s.setCode v).dpb = s.dpb := rfl
@[simp] theorem State.setCode_pics (v : Code) : (s.setCode v).pics = s.pics := rfl
@[simp] theorem State.setCode_cuLow (v : Code) : (s.setCode v).cuLow = s.cuLow := rfl
@[simp] theorem State.setCode_cuCod (v : Code) : (s.setCode v).cuCod = s.cuCod := rfl
@[simp] theorem State.setCode_pred (v : Code) : (s.setCode v).pred = s.pred := rfl
@[simp] theorem State.setCode_predOut (v : Code) : (s.setCode v).predOut = s.predOut := rfl

@[simp] theorem State.setSticky_config (v : Bool) : (s.setSticky v).config = s.config := rfl
@[simp] theorem State.setSticky_host (v : Bool) : (s.setSticky v).host = s.host := rfl
@[simp] theorem State.setSticky_hostData (v : Bool) : (s.setSticky v).hostData = s.hostData := rfl
@[simp] theorem State.setSticky_freeCount (v : Bool) : (s.setSticky v).freeCount = s.freeCount := rfl
@[simp] theorem State.setSticky_arg0 (v : Bool) : (s.setSticky v).arg0 = s.arg0 := rfl
@[simp] theorem State.setSticky_arg1 (v : Bool) : (s.setSticky v).arg1 = s.arg1 := rfl
@[simp] theorem State.setSticky_arg2 (v : Bool) : (s.setSticky v).arg2 = s.arg2 := rfl
@[simp] theorem State.setSticky_arg3 (v : Bool) : (s.setSticky v).arg3 = s.arg3 := rfl
@[simp] theorem State.setSticky_res0 (v : Bool) : (s.setSticky v).res0 = s.res0 := rfl
@[simp] theorem State.setSticky_res1 (v : Bool) : (s.setSticky v).res1 = s.res1 := rfl
@[simp] theorem State.setSticky_code (v : Bool) : (s.setSticky v).code = s.code := rfl
@[simp] theorem State.setSticky_sticky (v : Bool) : (s.setSticky v).sticky = v := rfl
@[simp] theorem State.setSticky_cfg (v : Bool) : (s.setSticky v).cfg = s.cfg := rfl
@[simp] theorem State.setSticky_ent (v : Bool) : (s.setSticky v).ent = s.ent := rfl
@[simp] theorem State.setSticky_bsmem (v : Bool) : (s.setSticky v).bsmem = s.bsmem := rfl
@[simp] theorem State.setSticky_dpb (v : Bool) : (s.setSticky v).dpb = s.dpb := rfl
@[simp] theorem State.setSticky_pics (v : Bool) : (s.setSticky v).pics = s.pics := rfl
@[simp] theorem State.setSticky_cuLow (v : Bool) : (s.setSticky v).cuLow = s.cuLow := rfl
@[simp] theorem State.setSticky_cuCod (v : Bool) : (s.setSticky v).cuCod = s.cuCod := rfl
@[simp] theorem State.setSticky_pred (v : Bool) : (s.setSticky v).pred = s.pred := rfl
@[simp] theorem State.setSticky_predOut (v : Bool) : (s.setSticky v).predOut = s.predOut := rfl

@[simp] theorem State.setRes0_config (v : Word) : (s.setRes0 v).config = s.config := rfl
@[simp] theorem State.setRes0_host (v : Word) : (s.setRes0 v).host = s.host := rfl
@[simp] theorem State.setRes0_hostData (v : Word) : (s.setRes0 v).hostData = s.hostData := rfl
@[simp] theorem State.setRes0_freeCount (v : Word) : (s.setRes0 v).freeCount = s.freeCount := rfl
@[simp] theorem State.setRes0_arg0 (v : Word) : (s.setRes0 v).arg0 = s.arg0 := rfl
@[simp] theorem State.setRes0_arg1 (v : Word) : (s.setRes0 v).arg1 = s.arg1 := rfl
@[simp] theorem State.setRes0_arg2 (v : Word) : (s.setRes0 v).arg2 = s.arg2 := rfl
@[simp] theorem State.setRes0_arg3 (v : Word) : (s.setRes0 v).arg3 = s.arg3 := rfl
@[simp] theorem State.setRes0_res0 (v : Word) : (s.setRes0 v).res0 = v := rfl
@[simp] theorem State.setRes0_res1 (v : Word) : (s.setRes0 v).res1 = s.res1 := rfl
@[simp] theorem State.setRes0_code (v : Word) : (s.setRes0 v).code = s.code := rfl
@[simp] theorem State.setRes0_sticky (v : Word) : (s.setRes0 v).sticky = s.sticky := rfl
@[simp] theorem State.setRes0_cfg (v : Word) : (s.setRes0 v).cfg = s.cfg := rfl
@[simp] theorem State.setRes0_ent (v : Word) : (s.setRes0 v).ent = s.ent := rfl
@[simp] theorem State.setRes0_bsmem (v : Word) : (s.setRes0 v).bsmem = s.bsmem := rfl
@[simp] theorem State.setRes0_dpb (v : Word) : (s.setRes0 v).dpb = s.dpb := rfl
@[simp] theorem State.setRes0_pics (v : Word) : (s.setRes0 v).pics = s.pics := rfl
@[simp] theorem State.setRes0_cuLow (v : Word) : (s.setRes0 v).cuLow = s.cuLow := rfl
@[simp] theorem State.setRes0_cuCod (v : Word) : (s.setRes0 v).cuCod = s.cuCod := rfl
@[simp] theorem State.setRes0_pred (v : Word) : (s.setRes0 v).pred = s.pred := rfl
@[simp] theorem State.setRes0_predOut (v : Word) : (s.setRes0 v).predOut = s.predOut := rfl

@[simp] theorem State.setRes1_config (v : Word) : (s.setRes1 v).config = s.config := rfl
@[simp] theorem State.setRes1_host (v : Word) : (s.setRes1 v).host = s.host := rfl
@[simp] theorem State.setRes1_hostData (v : Word) : (s.setRes1 v).hostData = s.hostData := rfl
@[simp] theorem State.setRes1_freeCount (v : Word) : (s.setRes1 v).freeCount = s.freeCount := rfl
@[simp] theorem State.setRes1_arg0 (v : Word) : (s.setRes1 v).arg0 = s.arg0 := rfl
@[simp] theorem State.setRes1_arg1 (v : Word) : (s.setRes1 v).arg1 = s.arg1 := rfl
@[simp] theorem State.setRes1_arg2 (v : Word) : (s.setRes1 v).arg2 = s.arg2 := rfl
@[simp] theorem State.setRes1_arg3 (v : Word) : (s.setRes1 v).arg3 = s.arg3 := rfl
@[simp] theorem State.setRes1_res0 (v : Word) : (s.setRes1 v).res0 = s.res0 := rfl
@[simp] theorem State.setRes1_res1 (v : Word) : (s.setRes1 v).res1 = v := rfl
@[simp] theorem State.setRes1_code (v : Word) : (s.setRes1 v).code = s.code := rfl
@[simp] theorem State.setRes1_sticky (v : Word) : (s.setRes1 v).sticky = s.sticky := rfl
@[simp] theorem State.setRes1_cfg (v : Word) : (s.setRes1 v).cfg = s.cfg := rfl
@[simp] theorem State.setRes1_ent (v : Word) : (s.setRes1 v).ent = s.ent := rfl
@[simp] theorem State.setRes1_bsmem (v : Word) : (s.setRes1 v).bsmem = s.bsmem := rfl
@[simp] theorem State.setRes1_dpb (v : Word) : (s.setRes1 v).dpb = s.dpb := rfl
@[simp] theorem State.setRes1_pics (v : Word) : (s.setRes1 v).pics = s.pics := rfl
@[simp] theorem State.setRes1_cuLow (v : Word) : (s.setRes1 v).cuLow = s.cuLow := rfl
@[simp] theorem State.setRes1_cuCod (v : Word) : (s.setRes1 v).cuCod = s.cuCod := rfl
@[simp] theorem State.setRes1_pred (v : Word) : (s.setRes1 v).pred = s.pred := rfl
@[simp] theorem State.setRes1_predOut (v : Word) : (s.setRes1 v).predOut = s.predOut := rfl

@[simp] theorem State.setCfg_config (v : Cfg) : (s.setCfg v).config = s.config := rfl
@[simp] theorem State.setCfg_host (v : Cfg) : (s.setCfg v).host = s.host := rfl
@[simp] theorem State.setCfg_hostData (v : Cfg) : (s.setCfg v).hostData = s.hostData := rfl
@[simp] theorem State.setCfg_freeCount (v : Cfg) : (s.setCfg v).freeCount = s.freeCount := rfl
@[simp] theorem State.setCfg_arg0 (v : Cfg) : (s.setCfg v).arg0 = s.arg0 := rfl
@[simp] theorem State.setCfg_arg1 (v : Cfg) : (s.setCfg v).arg1 = s.arg1 := rfl
@[simp] theorem State.setCfg_arg2 (v : Cfg) : (s.setCfg v).arg2 = s.arg2 := rfl
@[simp] theorem State.setCfg_arg3 (v : Cfg) : (s.setCfg v).arg3 = s.arg3 := rfl
@[simp] theorem State.setCfg_res0 (v : Cfg) : (s.setCfg v).res0 = s.res0 := rfl
@[simp] theorem State.setCfg_res1 (v : Cfg) : (s.setCfg v).res1 = s.res1 := rfl
@[simp] theorem State.setCfg_code (v : Cfg) : (s.setCfg v).code = s.code := rfl
@[simp] theorem State.setCfg_sticky (v : Cfg) : (s.setCfg v).sticky = s.sticky := rfl
@[simp] theorem State.setCfg_cfg (v : Cfg) : (s.setCfg v).cfg = v := rfl
@[simp] theorem State.setCfg_ent (v : Cfg) : (s.setCfg v).ent = s.ent := rfl
@[simp] theorem State.setCfg_bsmem (v : Cfg) : (s.setCfg v).bsmem = s.bsmem := rfl
@[simp] theorem State.setCfg_dpb (v : Cfg) : (s.setCfg v).dpb = s.dpb := rfl
@[simp] theorem State.setCfg_pics (v : Cfg) : (s.setCfg v).pics = s.pics := rfl
@[simp] theorem State.setCfg_cuLow (v : Cfg) : (s.setCfg v).cuLow = s.cuLow := rfl
@[simp] theorem State.setCfg_cuCod (v : Cfg) : (s.setCfg v).cuCod = s.cuCod := rfl
@[simp] theorem State.setCfg_pred (v : Cfg) : (s.setCfg v).pred = s.pred := rfl
@[simp] theorem State.setCfg_predOut (v : Cfg) : (s.setCfg v).predOut = s.predOut := rfl

@[simp] theorem State.setEnt_config (v : Entropy) : (s.setEnt v).config = s.config := rfl
@[simp] theorem State.setEnt_host (v : Entropy) : (s.setEnt v).host = s.host := rfl
@[simp] theorem State.setEnt_hostData (v : Entropy) : (s.setEnt v).hostData = s.hostData := rfl
@[simp] theorem State.setEnt_freeCount (v : Entropy) : (s.setEnt v).freeCount = s.freeCount := rfl
@[simp] theorem State.setEnt_arg0 (v : Entropy) : (s.setEnt v).arg0 = s.arg0 := rfl
@[simp] theorem State.setEnt_arg1 (v : Entropy) : (s.setEnt v).arg1 = s.arg1 := rfl
@[simp] theorem State.setEnt_arg2 (v : Entropy) : (s.setEnt v).arg2 = s.arg2 := rfl
@[simp] theorem State.setEnt_arg3 (v : Entropy) : (s.setEnt v).arg3 = s.arg3 := rfl
@[simp] theorem State.setEnt_res0 (v : Entropy) : (s.setEnt v).res0 = s.res0 := rfl
@[simp] theorem State.setEnt_res1 (v : Entropy) : (s.setEnt v).res1 = s.res1 := rfl
@[simp] theorem State.setEnt_code (v : Entropy) : (s.setEnt v).code = s.code := rfl
@[simp] theorem State.setEnt_sticky (v : Entropy) : (s.setEnt v).sticky = s.sticky := rfl
@[simp] theorem State.setEnt_cfg (v : Entropy) : (s.setEnt v).cfg = s.cfg := rfl
@[simp] theorem State.setEnt_ent (v : Entropy) : (s.setEnt v).ent = v := rfl
@[simp] theorem State.setEnt_bsmem (v : Entropy) : (s.setEnt v).bsmem = s.bsmem := rfl
@[simp] theorem State.setEnt_dpb (v : Entropy) : (s.setEnt v).dpb = s.dpb := rfl
@[simp] theorem State.setEnt_pics (v : Entropy) : (s.setEnt v).pics = s.pics := rfl
@[simp] theorem State.setEnt_cuLow (v : Entropy) : (s.setEnt v).cuLow = s.cuLow := rfl
@[simp] theorem State.setEnt_cuCod (v : Entropy) : (s.setEnt v).cuCod = s.cuCod := rfl
@[simp] theorem State.setEnt_pred (v : Entropy) : (s.setEnt v).pred = s.pred := rfl
@[simp] theorem State.setEnt_predOut (v : Entropy) : (s.setEnt v).predOut = s.predOut := rfl

@[simp] theorem State.setDpb_config (v : Dpb) : (s.setDpb v).config = s.config := rfl
@[simp] theorem State.setDpb_host (v : Dpb) : (s.setDpb v).host = s.host := rfl
@[simp] theorem State.setDpb_hostData (v : Dpb) : (s.setDpb v).hostData = s.hostData := rfl
@[simp] theorem State.setDpb_freeCount (v : Dpb) : (s.setDpb v).freeCount = s.freeCount := rfl
@[simp] theorem State.setDpb_arg0 (v : Dpb) : (s.setDpb v).arg0 = s.arg0 := rfl
@[simp] theorem State.setDpb_arg1 (v : Dpb) : (s.setDpb v).arg1 = s.arg1 := rfl
@[simp] theorem State.setDpb_arg2 (v : Dpb) : (s.setDpb v).arg2 = s.arg2 := rfl
@[simp] theorem State.setDpb_arg3 (v : Dpb) : (s.setDpb v).arg3 = s.arg3 := rfl
@[simp] theorem State.setDpb_res0 (v : Dpb) : (s.setDpb v).res0 = s.res0 := rfl
@[simp] theorem State.setDpb_res1 (v : Dpb) : (s.setDpb v).res1 = s.res1 := rfl
@[simp] theorem State.setDpb_code (v : Dpb) : (s.setDpb v).code = s.code := rfl
@[simp] theorem State.setDpb_sticky (v : Dpb) : (s.setDpb v).sticky = s.sticky := rfl
@[simp] theorem State.setDpb_cfg (v : Dpb) : (s.setDpb v).cfg = s.cfg := rfl
@[simp] theorem State.setDpb_ent (v : Dpb) : (s.setDpb v).ent = s.ent := rfl
@[simp] theorem State.setDpb_bsmem (v : Dpb) : (s.setDpb v).bsmem = s.bsmem := rfl
@[simp] theorem State.setDpb_dpb (v : Dpb) : (s.setDpb v).dpb = v := rfl
@[simp] theorem State.setDpb_pics (v : Dpb) : (s.setDpb v).pics = s.pics := rfl
@[simp] theorem State.setDpb_cuLow (v : Dpb) : (s.setDpb v).cuLow = s.cuLow := rfl
@[simp] theorem State.setDpb_cuCod (v : Dpb) : (s.setDpb v).cuCod = s.cuCod := rfl
@[simp] theorem State.setDpb_pred (v : Dpb) : (s.setDpb v).pred = s.pred := rfl
@[simp] theorem State.setDpb_predOut (v : Dpb) : (s.setDpb v).predOut = s.predOut := rfl

@[simp] theorem State.setPics_config (v : List Picture) : (s.setPics v).config = s.config := rfl
@[simp] theorem State.setPics_host (v : List Picture) : (s.setPics v).host = s.host := rfl
@[simp] theorem State.setPics_hostData (v : List Picture) : (s.setPics v).hostData = s.hostData := rfl
@[simp] theorem State.setPics_freeCount (v : List Picture) : (s.setPics v).freeCount = s.freeCount := rfl
@[simp] theorem State.setPics_arg0 (v : List Picture) : (s.setPics v).arg0 = s.arg0 := rfl
@[simp] theorem State.setPics_arg1 (v : List Picture) : (s.setPics v).arg1 = s.arg1 := rfl
@[simp] theorem State.setPics_arg2 (v : List Picture) : (s.setPics v).arg2 = s.arg2 := rfl
@[simp] theorem State.setPics_arg3 (v : List Picture) : (s.setPics v).arg3 = s.arg3 := rfl
@[simp] theorem State.setPics_res0 (v : List Picture) : (s.setPics v).res0 = s.res0 := rfl
@[simp] theorem State.setPics_res1 (v : List Picture) : (s.setPics v).res1 = s.res1 := rfl
@[simp] theorem State.setPics_code (v : List Picture) : (s.setPics v).code = s.code := rfl
@[simp] theorem State.setPics_sticky (v : List Picture) : (s.setPics v).sticky = s.sticky := rfl
@[simp] theorem State.setPics_cfg (v : List Picture) : (s.setPics v).cfg = s.cfg := rfl
@[simp] theorem State.setPics_ent (v : List Picture) : (s.setPics v).ent = s.ent := rfl
@[simp] theorem State.setPics_bsmem (v : List Picture) : (s.setPics v).bsmem = s.bsmem := rfl
@[simp] theorem State.setPics_dpb (v : List Picture) : (s.setPics v).dpb = s.dpb := rfl
@[simp] theorem State.setPics_pics (v : List Picture) : (s.setPics v).pics = v := rfl
@[simp] theorem State.setPics_cuLow (v : List Picture) : (s.setPics v).cuLow = s.cuLow := rfl
@[simp] theorem State.setPics_cuCod (v : List Picture) : (s.setPics v).cuCod = s.cuCod := rfl
@[simp] theorem State.setPics_pred (v : List Picture) : (s.setPics v).pred = s.pred := rfl
@[simp] theorem State.setPics_predOut (v : List Picture) : (s.setPics v).predOut = s.predOut := rfl

@[simp] theorem State.setCuCod_config (v : Memory Bool) : (s.setCuCod v).config = s.config := rfl
@[simp] theorem State.setCuCod_host (v : Memory Bool) : (s.setCuCod v).host = s.host := rfl
@[simp] theorem State.setCuCod_hostData (v : Memory Bool) : (s.setCuCod v).hostData = s.hostData := rfl
@[simp] theorem State.setCuCod_freeCount (v : Memory Bool) : (s.setCuCod v).freeCount = s.freeCount := rfl
@[simp] theorem State.setCuCod_arg0 (v : Memory Bool) : (s.setCuCod v).arg0 = s.arg0 := rfl
@[simp] theorem State.setCuCod_arg1 (v : Memory Bool) : (s.setCuCod v).arg1 = s.arg1 := rfl
@[simp] theorem State.setCuCod_arg2 (v : Memory Bool) : (s.setCuCod v).arg2 = s.arg2 := rfl
@[simp] theorem State.setCuCod_arg3 (v : Memory Bool) : (s.setCuCod v).arg3 = s.arg3 := rfl
@[simp] theorem State.setCuCod_res0 (v : Memory Bool) : (s.setCuCod v).res0 = s.res0 := rfl
@[simp] theorem State.setCuCod_res1 (v : Memory Bool) : (s.setCuCod v).res1 = s.res1 := rfl
@[simp] theorem State.setCuCod_code (v : Memory Bool) : (s.setCuCod v).code = s.code := rfl
@[simp] theorem State.setCuCod_sticky (v : Memory Bool) : (s.setCuCod v).sticky = s.sticky := rfl
@[simp] theorem State.setCuCod_cfg (v : Memory Bool) : (s.setCuCod v).cfg = s.cfg := rfl
@[simp] theorem State.setCuCod_ent (v : Memory Bool) : (s.setCuCod v).ent = s.ent := rfl
@[simp] theorem State.setCuCod_bsmem (v : Memory Bool) : (s.setCuCod v).bsmem = s.bsmem := rfl
@[simp] theorem State.setCuCod_dpb (v : Memory Bool) : (s.setCuCod v).dpb = s.dpb := rfl
@[simp] theorem State.setCuCod_pics (v : Memory Bool) : (s.setCuCod v).pics = s.pics := rfl
@[simp] theorem State.setCuCod_cuLow (v : Memory Bool) : (s.setCuCod v).cuLow = s.cuLow := rfl
@[simp] theorem State.setCuCod_cuCod (v : Memory Bool) : (s.setCuCod v).cuCod = v := rfl
@[simp] theorem State.setCuCod_pred (v : Memory Bool) : (s.setCuCod v).pred = s.pred := rfl
@[simp] theorem State.setCuCod_predOut (v : Memory Bool) : (s.setCuCod v).predOut = s.predOut := rfl

@[simp] theorem State.setCuLow_config (v : Memory (BitVec 31)) : (s.setCuLow v).config = s.config := rfl
@[simp] theorem State.setCuLow_host (v : Memory (BitVec 31)) : (s.setCuLow v).host = s.host := rfl
@[simp] theorem State.setCuLow_hostData (v : Memory (BitVec 31)) : (s.setCuLow v).hostData = s.hostData := rfl
@[simp] theorem State.setCuLow_freeCount (v : Memory (BitVec 31)) : (s.setCuLow v).freeCount = s.freeCount := rfl
@[simp] theorem State.setCuLow_arg0 (v : Memory (BitVec 31)) : (s.setCuLow v).arg0 = s.arg0 := rfl
@[simp] theorem State.setCuLow_arg1 (v : Memory (BitVec 31)) : (s.setCuLow v).arg1 = s.arg1 := rfl
@[simp] theorem State.setCuLow_arg2 (v : Memory (BitVec 31)) : (s.setCuLow v).arg2 = s.arg2 := rfl
@[simp] theorem State.setCuLow_arg3 (v : Memory (BitVec 31)) : (s.setCuLow v).arg3 = s.arg3 := rfl
@[simp] theorem State.setCuLow_res0 (v : Memory (BitVec 31)) : (s.setCuLow v).res0 = s.res0 := rfl
@[simp] theorem State.setCuLow_res1 (v : Memory (BitVec 31)) : (s.setCuLow v).res1 = s.res1 := rfl
@[simp] theorem State.setCuLow_code (v : Memory (BitVec 31)) : (s.setCuLow v).code = s.code := rfl
@[simp] theorem State.setCuLow_sticky (v : Memory (BitVec 31)) : (s.setCuLow v).sticky = s.sticky := rfl
@[simp] theorem State.setCuLow_cfg (v : Memory (BitVec 31)) : (s.setCuLow v).cfg = s.cfg := rfl
@[simp] theorem State.setCuLow_ent (v : Memory (BitVec 31)) : (s.setCuLow v).ent = s.ent := rfl
@[simp] theorem State.setCuLow_bsmem (v : Memory (BitVec 31)) : (s.setCuLow v).bsmem = s.bsmem := rfl
@[simp] theorem State.setCuLow_dpb (v : Memory (BitVec 31)) : (s.setCuLow v).dpb = s.dpb := rfl
@[simp] theorem State.setCuLow_pics (v : Memory (BitVec 31)) : (s.setCuLow v).pics = s.pics := rfl
@[simp] theorem State.setCuLow_cuLow (v : Memory (BitVec 31)) : (s.setCuLow v).cuLow = v := rfl
@[simp] theorem State.setCuLow_cuCod (v : Memory (BitVec 31)) : (s.setCuLow v).cuCod = s.cuCod := rfl
@[simp] theorem State.setCuLow_pred (v : Memory (BitVec 31)) : (s.setCuLow v).pred = s.pred := rfl
@[simp] theorem State.setCuLow_predOut (v : Memory (BitVec 31)) : (s.setCuLow v).predOut = s.predOut := rfl

@[simp] theorem State.setPred_config (v : Memory Sample) : (s.setPred v).config = s.config := rfl
@[simp] theorem State.setPred_host (v : Memory Sample) : (s.setPred v).host = s.host := rfl
@[simp] theorem State.setPred_hostData (v : Memory Sample) : (s.setPred v).hostData = s.hostData := rfl
@[simp] theorem State.setPred_freeCount (v : Memory Sample) : (s.setPred v).freeCount = s.freeCount := rfl
@[simp] theorem State.setPred_arg0 (v : Memory Sample) : (s.setPred v).arg0 = s.arg0 := rfl
@[simp] theorem State.setPred_arg1 (v : Memory Sample) : (s.setPred v).arg1 = s.arg1 := rfl
@[simp] theorem State.setPred_arg2 (v : Memory Sample) : (s.setPred v).arg2 = s.arg2 := rfl
@[simp] theorem State.setPred_arg3 (v : Memory Sample) : (s.setPred v).arg3 = s.arg3 := rfl
@[simp] theorem State.setPred_res0 (v : Memory Sample) : (s.setPred v).res0 = s.res0 := rfl
@[simp] theorem State.setPred_res1 (v : Memory Sample) : (s.setPred v).res1 = s.res1 := rfl
@[simp] theorem State.setPred_code (v : Memory Sample) : (s.setPred v).code = s.code := rfl
@[simp] theorem State.setPred_sticky (v : Memory Sample) : (s.setPred v).sticky = s.sticky := rfl
@[simp] theorem State.setPred_cfg (v : Memory Sample) : (s.setPred v).cfg = s.cfg := rfl
@[simp] theorem State.setPred_ent (v : Memory Sample) : (s.setPred v).ent = s.ent := rfl
@[simp] theorem State.setPred_bsmem (v : Memory Sample) : (s.setPred v).bsmem = s.bsmem := rfl
@[simp] theorem State.setPred_dpb (v : Memory Sample) : (s.setPred v).dpb = s.dpb := rfl
@[simp] theorem State.setPred_pics (v : Memory Sample) : (s.setPred v).pics = s.pics := rfl
@[simp] theorem State.setPred_cuLow (v : Memory Sample) : (s.setPred v).cuLow = s.cuLow := rfl
@[simp] theorem State.setPred_cuCod (v : Memory Sample) : (s.setPred v).cuCod = s.cuCod := rfl
@[simp] theorem State.setPred_pred (v : Memory Sample) : (s.setPred v).pred = v := rfl
@[simp] theorem State.setPred_predOut (v : Memory Sample) : (s.setPred v).predOut = s.predOut := rfl

@[simp] theorem State.setPredOut_config (v : Memory Sample) : (s.setPredOut v).config = s.config := rfl
@[simp] theorem State.setPredOut_host (v : Memory Sample) : (s.setPredOut v).host = s.host := rfl
@[simp] theorem State.setPredOut_hostData (v : Memory Sample) : (s.setPredOut v).hostData = s.hostData := rfl
@[simp] theorem State.setPredOut_freeCount (v : Memory Sample) : (s.setPredOut v).freeCount = s.freeCount := rfl
@[simp] theorem State.setPredOut_arg0 (v : Memory Sample) : (s.setPredOut v).arg0 = s.arg0 := rfl
@[simp] theorem State.setPredOut_arg1 (v : Memory Sample) : (s.setPredOut v).arg1 = s.arg1 := rfl
@[simp] theorem State.setPredOut_arg2 (v : Memory Sample) : (s.setPredOut v).arg2 = s.arg2 := rfl
@[simp] theorem State.setPredOut_arg3 (v : Memory Sample) : (s.setPredOut v).arg3 = s.arg3 := rfl
@[simp] theorem State.setPredOut_res0 (v : Memory Sample) : (s.setPredOut v).res0 = s.res0 := rfl
@[simp] theorem State.setPredOut_res1 (v : Memory Sample) : (s.setPredOut v).res1 = s.res1 := rfl
@[simp] theorem State.setPredOut_code (v : Memory Sample) : (s.setPredOut v).code = s.code := rfl
@[simp] theorem State.setPredOut_sticky (v : Memory Sample) : (s.setPredOut v).sticky = s.sticky := rfl
@[simp] theorem State.setPredOut_cfg (v : Memory Sample) : (s.setPredOut v).cfg = s.cfg := rfl
@[simp] theorem State.setPredOut_ent (v : Memory Sample) : (s.setPredOut v).ent = s.ent := rfl
@[simp] theorem State.setPredOut_bsmem (v : Memory Sample) : (s.setPredOut v).bsmem = s.bsmem := rfl
@[simp] theorem State.setPredOut_dpb (v : Memory Sample) : (s.setPredOut v).dpb = s.dpb := rfl
@[simp] theorem State.setPredOut_pics (v : Memory Sample) : (s.setPredOut v).pics = s.pics := rfl
@[simp] theorem State.setPredOut_cuLow (v : Memory Sample) : (s.setPredOut v).cuLow = s.cuLow := rfl
@[simp] theorem State.setPredOut_cuCod (v : Memory Sample) : (s.setPredOut v).cuCod = s.cuCod := rfl
@[simp] theorem State.setPredOut_pred (v : Memory Sample) : (s.setPredOut v).pred = s.pred := rfl
@[simp] theorem State.setPredOut_predOut (v : Memory Sample) : (s.setPredOut v).predOut = v := rfl

@[simp] theorem State.setBsmem_config (v : Memory Byte) : (s.setBsmem v).config = s.config := rfl
@[simp] theorem State.setBsmem_host (v : Memory Byte) : (s.setBsmem v).host = s.host := rfl
@[simp] theorem State.setBsmem_hostData (v : Memory Byte) : (s.setBsmem v).hostData = s.hostData := rfl
@[simp] theorem State.setBsmem_freeCount (v : Memory Byte) : (s.setBsmem v).freeCount = s.freeCount := rfl
@[simp] theorem State.setBsmem_arg0 (v : Memory Byte) : (s.setBsmem v).arg0 = s.arg0 := rfl
@[simp] theorem State.setBsmem_arg1 (v : Memory Byte) : (s.setBsmem v).arg1 = s.arg1 := rfl
@[simp] theorem State.setBsmem_arg2 (v : Memory Byte) : (s.setBsmem v).arg2 = s.arg2 := rfl
@[simp] theorem State.setBsmem_arg3 (v : Memory Byte) : (s.setBsmem v).arg3 = s.arg3 := rfl
@[simp] theorem State.setBsmem_res0 (v : Memory Byte) : (s.setBsmem v).res0 = s.res0 := rfl
@[simp] theorem State.setBsmem_res1 (v : Memory Byte) : (s.setBsmem v).res1 = s.res1 := rfl
@[simp] theorem State.setBsmem_code (v : Memory Byte) : (s.setBsmem v).code = s.code := rfl
@[simp] theorem State.setBsmem_sticky (v : Memory Byte) : (s.setBsmem v).sticky = s.sticky := rfl
@[simp] theorem State.setBsmem_cfg (v : Memory Byte) : (s.setBsmem v).cfg = s.cfg := rfl
@[simp] theorem State.setBsmem_ent (v : Memory Byte) : (s.setBsmem v).ent = s.ent := rfl
@[simp] theorem State.setBsmem_bsmem (v : Memory Byte) : (s.setBsmem v).bsmem = v := rfl
@[simp] theorem State.setBsmem_dpb (v : Memory Byte) : (s.setBsmem v).dpb = s.dpb := rfl
@[simp] theorem State.setBsmem_pics (v : Memory Byte) : (s.setBsmem v).pics = s.pics := rfl
@[simp] theorem State.setBsmem_cuLow (v : Memory Byte) : (s.setBsmem v).cuLow = s.cuLow := rfl
@[simp] theorem State.setBsmem_cuCod (v : Memory Byte) : (s.setBsmem v).cuCod = s.cuCod := rfl
@[simp] theorem State.setBsmem_pred (v : Memory Byte) : (s.setBsmem v).pred = s.pred := rfl
@[simp] theorem State.setBsmem_predOut (v : Memory Byte) : (s.setBsmem v).predOut = s.predOut := rfl

@[simp] theorem State.setHostData_config (v : Word) : (s.setHostData v).config = s.config := rfl
@[simp] theorem State.setHostData_host (v : Word) : (s.setHostData v).host = s.host := rfl
@[simp] theorem State.setHostData_hostData (v : Word) : (s.setHostData v).hostData = v := rfl
@[simp] theorem State.setHostData_freeCount (v : Word) : (s.setHostData v).freeCount = s.freeCount := rfl
@[simp] theorem State.setHostData_arg0 (v : Word) : (s.setHostData v).arg0 = s.arg0 := rfl
@[simp] theorem State.setHostData_arg1 (v : Word) : (s.setHostData v).arg1 = s.arg1 := rfl
@[simp] theorem State.setHostData_arg2 (v : Word) : (s.setHostData v).arg2 = s.arg2 := rfl
@[simp] theorem State.setHostData_arg3 (v : Word) : (s.setHostData v).arg3 = s.arg3 := rfl
@[simp] theorem State.setHostData_res0 (v : Word) : (s.setHostData v).res0 = s.res0 := rfl
@[simp] theorem State.setHostData_res1 (v : Word) : (s.setHostData v).res1 = s.res1 := rfl
@[simp] theorem State.setHostData_code (v : Word) : (s.setHostData v).code = s.code := rfl
@[simp] theorem State.setHostData_sticky (v : Word) : (s.setHostData v).sticky = s.sticky := rfl
@[simp] theorem State.setHostData_cfg (v : Word) : (s.setHostData v).cfg = s.cfg := rfl
@[simp] theorem State.setHostData_ent (v : Word) : (s.setHostData v).ent = s.ent := rfl
@[simp] theorem State.setHostData_bsmem (v : Word) : (s.setHostData v).bsmem = s.bsmem := rfl
@[simp] theorem State.setHostData_dpb (v : Word) : (s.setHostData v).dpb = s.dpb := rfl
@[simp] theorem State.setHostData_pics (v : Word) : (s.setHostData v).pics = s.pics := rfl
@[simp] theorem State.setHostData_cuLow (v : Word) : (s.setHostData v).cuLow = s.cuLow := rfl
@[simp] theorem State.setHostData_cuCod (v : Word) : (s.setHostData v).cuCod = s.cuCod := rfl
@[simp] theorem State.setHostData_pred (v : Word) : (s.setHostData v).pred = s.pred := rfl
@[simp] theorem State.setHostData_predOut (v : Word) : (s.setHostData v).predOut = s.predOut := rfl

end Sys2Proof.Machine
end

