-- ==== Sys2Proof/Laws/Ops.lean ====
section
/-! SUPPORT. What the operations that end a command can answer. -/

namespace Sys2Proof.Machine

variable {α : Type} {s t : State}

@[simp] theorem raise_eq (c : Code) (s : State) : raise c s = .next (s.setCode c) := rfl

@[simp] theorem finish_eq (s : State) : finish s = .next (s.setCode .ok) := rfl

@[simp] theorem raiseMalformed_eq (e : Entropy) (s : State) :
    raiseMalformed e s = .next (((s.setEnt e).setSticky true).setCode .malformedBitstream) := rfl

@[simp] theorem orFault_ok (a : α) (k : α → Result) : orFault (.ok a) k = k a := rfl

@[simp] theorem orFault_error (e : Fault) (k : α → Result) : orFault (.error e) k = .fault e := rfl

/-- A computation that may fault answers a next state only through its value. -/
theorem orFault_next {r : Except Fault α} {k : α → Result} :
    orFault r k = .next t ↔ ∃ a, r = .ok a ∧ k a = .next t := by
  cases r <;> simp [orFault]

/-- An entropy-path command either is halted or runs. -/
theorem unlessHalted_next {r : Result} :
    unlessHalted s r = .next t ↔
      (s.sticky = true ∧ t = s.setCode .engineHalted) ∨ (s.sticky = false ∧ r = .next t) := by
  unfold unlessHalted
  cases h : s.sticky <;> simp [eq_comm]

@[simp] theorem unlessHalted_running {r : Result} (h : s.sticky = false) : unlessHalted s r = r := by
  simp [unlessHalted, h]

@[simp] theorem unlessHalted_halted {r : Result} (h : s.sticky = true) :
    unlessHalted s r = .next (s.setCode .engineHalted) := by
  simp [unlessHalted, h]

theorem unlessHalted_not_refused {r : Result} (h : ∀ x, r ≠ .refused x) (x : Refusal) :
    unlessHalted s r ≠ .refused x := by
  unfold unlessHalted
  split
  · simp
  · exact h x

/-- Reading a configuration register after writing one (R232, R233). -/
theorem cfg_get_set (g : Cfg) (i j : BitVec 8) (v : Word) (hi : i.toNat < 0x0A) :
    (g.set i v).get j = if j = i then some v else g.get j := by
  by_cases h : j = i
  · subst h
    rw [if_pos rfl]
    have : j.toNat = 0 ∨ j.toNat = 1 ∨ j.toNat = 2 ∨ j.toNat = 3 ∨ j.toNat = 4 ∨ j.toNat = 5 ∨ j.toNat = 6 ∨
        j.toNat = 7 ∨ j.toNat = 8 ∨ j.toNat = 9 := by omega
    rcases this with h | h | h | h | h | h | h | h | h | h <;> simp [Cfg.get, Cfg.set, h]
  · rw [if_neg h]
    have hne : j.toNat ≠ i.toNat := fun e => h (BitVec.eq_of_toNat_eq e)
    have : i.toNat = 0 ∨ i.toNat = 1 ∨ i.toNat = 2 ∨ i.toNat = 3 ∨ i.toNat = 4 ∨ i.toNat = 5 ∨ i.toNat = 6 ∨
        i.toNat = 7 ∨ i.toNat = 8 ∨ i.toNat = 9 := by omega
    unfold Cfg.get
    rcases this with h | h | h | h | h | h | h | h | h | h <;> simp only [Cfg.set, h] at * <;>
      (split <;> first | rfl | omega)

end Sys2Proof.Machine
end

