-- ==== Sys2Proof/Laws/BitReader.lean ====
section
/-! SUPPORT. What the bit reader does on a packet whose bytes are written: it hands out the bits of the packet in
order (20_memory.md R60, R70; 40_bitreader.md R106). -/

namespace Sys2Proof.Machine

/-- `e` reads the packet of `s`, its cursor `n` bits further. -/
structure AtCursor (s : State) (n : Nat) (e : Entropy) : Prop where
  base : e.bsBase = s.ent.bsBase
  len : e.bsLen = s.ent.bsLen
  pos : e.bitPos = cursorAfter s n

variable {s : State}

theorem cursor_lt (s : State) : s.cursor < 2 ^ 32 := s.ent.bitPos.isLt

theorem cursorAfter_toNat (s : State) (n : Nat) : (cursorAfter s n).toNat = min (s.cursor + n) 0xFFFFFFFF := by
  simp only [cursorAfter, BitVec.toNat_ofNat]
  omega

theorem cursorAfter_zero (s : State) : cursorAfter s 0 = s.ent.bitPos := by
  apply BitVec.eq_of_toNat_eq
  have := cursor_lt s
  rw [cursorAfter_toNat]
  unfold State.cursor at *
  omega

theorem atCursor_zero (s : State) : AtCursor s 0 s.ent := ⟨rfl, rfl, (cursorAfter_zero s).symm⟩

theorem AtCursor.advance {n : Nat} {e : Entropy} (h : AtCursor s n e) :
    e.advance = { e with bitPos := cursorAfter s (n + 1) } := by
  unfold Entropy.advance
  congr 1
  apply BitVec.eq_of_toNat_eq
  have hp := cursorAfter_toNat s n
  rw [← h.pos] at hp
  rw [cursorAfter_toNat]
  split
  · rw [BitVec.toNat_add]; simp; omega
  · omega

/-- `nextbit()` on a written packet. -/
theorem nextbit_ok (hf : PacketFits s) (hw : PacketWritten s) {n : Nat} {e : Entropy} (h : AtCursor s n e) :
    nextbit s.bsmem e = .ok (packetBit s (s.cursor + n), { e with bitPos := cursorAfter s (n + 1) }) := by
  have hp := cursorAfter_toNat s n
  rw [← h.pos] at hp
  have hlen : s.ent.bsLen.toNat ≤ 2 ^ 28 := by have := hf.1; have := hf.2; omega
  have hc : currentBit s.bsmem e = .ok (packetBit s (s.cursor + n)) := by
    simp only [currentBit, packetBit, h.base, h.len]
    by_cases hin : e.bitPos.toNat / 8 < s.ent.bsLen.toNat
    · have e1 : e.bitPos.toNat = s.cursor + n := by omega
      rw [e1] at hin ⊢
      have hs := hw (s.ent.bsBase.toNat + (s.cursor + n) / 8) (by omega) (by omega)
      obtain ⟨b, hb⟩ := Option.isSome_iff_exists.1 hs
      simp [hin, hb]
    · rw [if_neg hin, if_neg]
      omega
  simp [nextbit, hc, h.advance]

theorem packetBits_first (s : State) (i n : Nat) :
    packetBits s i (n + 1) = (packetBit s i).toNat * 2 ^ n + packetBits s (i + 1) n := by
  induction n with
  | zero => simp [packetBits]
  | succ n ih =>
    rw [packetBits, ih, packetBits]
    have : i + 1 + n = i + (n + 1) := by omega
    rw [this]
    ring

theorem packetBits_lt (s : State) (i n : Nat) : packetBits s i n < 2 ^ n := by
  induction n with
  | zero => simp [packetBits]
  | succ n ih =>
    rw [packetBits, pow_succ]
    have : (packetBit s (i + n)).toNat ≤ 1 := by cases packetBit s (i + n) <;> simp
    omega

theorem AtCursor.move {n k : Nat} {e : Entropy} (h : AtCursor s n e) :
    AtCursor s k { e with bitPos := cursorAfter s k } := ⟨h.base, h.len, rfl⟩

/-- `readbits(k)` on a written packet: the next k bits, most significant first. -/
theorem readbitsFrom_ok (hf : PacketFits s) (hw : PacketWritten s) (k : Nat) :
    ∀ {n v : Nat} {e : Entropy}, AtCursor s n e →
      readbitsFrom s.bsmem k v e =
        .ok (v * 2 ^ k + packetBits s (s.cursor + n) k, { e with bitPos := cursorAfter s (n + k) }) := by
  induction k with
  | zero =>
    intro n v e h
    simp [readbitsFrom, packetBits, ← h.pos]
  | succ k ih =>
    intro n v e h
    rw [readbitsFrom, nextbit_ok hf hw h]
    simp only
    rw [ih h.move, packetBits_first]
    have e1 : s.cursor + (n + 1) = s.cursor + n + 1 := by omega
    have e2 : n + 1 + k = n + (k + 1) := by omega
    rw [e1, e2]
    congr 2
    ring

theorem readbits_ok (hf : PacketFits s) (hw : PacketWritten s) (k : Nat) {n : Nat} {e : Entropy}
    (h : AtCursor s n e) :
    readbits s.bsmem k e = .ok (packetBits s (s.cursor + n) k, { e with bitPos := cursorAfter s (n + k) }) := by
  rw [readbits, readbitsFrom_ok hf hw k h]
  simp

/-- The prefix of an Exp-Golomb code: the zeros before the 1 bit, or the bound. -/
theorem uePrefix_ok (hf : PacketFits s) (hw : PacketWritten s) (b : Nat) :
    ∀ {lz n : Nat} {e : Entropy}, AtCursor s n e →
      (∀ z < b, (∀ j < z, packetBit s (s.cursor + n + j) = false) → packetBit s (s.cursor + n + z) = true →
        uePrefix s.bsmem b lz e = .ok (some (lz + z), { e with bitPos := cursorAfter s (n + z + 1) })) ∧
      ((∀ j < b, packetBit s (s.cursor + n + j) = false) →
        uePrefix s.bsmem b lz e = .ok (none, { e with bitPos := cursorAfter s (n + b) })) := by
  induction b with
  | zero =>
    intro lz n e h
    refine ⟨fun z hz => absurd hz (by omega), fun _ => ?_⟩
    simp [uePrefix, ← h.pos]
  | succ b ih =>
    intro lz n e h
    have hm := h.move (k := n + 1)
    have := ih (lz := lz + 1) hm
    refine ⟨fun z hz h0 h1 => ?_, fun h0 => ?_⟩
    · rw [uePrefix, nextbit_ok hf hw h]
      cases z with
      | zero => simp only [Nat.add_zero] at h1; simp [h1]
      | succ z =>
        have h00 := h0 0 (by omega)
        simp only [Nat.add_zero] at h00
        simp only [h00]
        rw [this.1 z (by omega) (fun j hj => by have := h0 (j + 1) (by omega); rw [← this]; congr 1; omega)
          (by rw [← h1]; congr 1; omega)]
        have e1 : lz + 1 + z = lz + (z + 1) := by omega
        have e2 : n + 1 + z + 1 = n + (z + 1) + 1 := by omega
        rw [e1, e2]
    · rw [uePrefix, nextbit_ok hf hw h]
      have h00 := h0 0 (by omega)
      simp only [Nat.add_zero] at h00
      simp only [h00]
      rw [this.2 (fun j hj => by have := h0 (j + 1) (by omega); rw [← this]; congr 1; omega)]
      have e2 : n + 1 + b = n + (b + 1) := by omega
      rw [e2]

/-- `ue()` on a written packet: the code's value, or MALFORMED after 32 zeros (R110). -/
theorem ue_ok (hf : PacketFits s) (hw : PacketWritten s) :
    (∀ z < 32, (∀ j < z, packetBit s (s.cursor + j) = false) → packetBit s (s.cursor + z) = true →
      ue s.bsmem s.ent = .ok (some (2 ^ z - 1 + packetBits s (s.cursor + z + 1) z),
        { s.ent with bitPos := cursorAfter s (2 * z + 1) })) ∧
    ((∀ j < 32, packetBit s (s.cursor + j) = false) →
      ue s.bsmem s.ent = .ok (none, { s.ent with bitPos := cursorAfter s 32 })) := by
  have h := atCursor_zero s
  have hp := uePrefix_ok hf hw uePrefixBound (lz := 0) h
  simp only [Nat.add_zero, Nat.zero_add] at hp
  refine ⟨fun z hz h0 h1 => ?_, fun h0 => ?_⟩
  · rw [ue, hp.1 z hz h0 h1]
    simp only
    rw [readbits_ok hf hw z h.move]
    have e1 : s.cursor + (z + 1) = s.cursor + z + 1 := by omega
    have e2 : z + 1 + z = 2 * z + 1 := by omega
    rw [e1, e2]
  · rw [ue, hp.2 h0]
    rfl

/-- What a bit read leaves alone: everything but BITPOS (any packet). -/
theorem nextbit_frame {bs : Memory Byte} {e e' : Entropy} {b : Bool} (h : nextbit bs e = .ok (b, e')) :
    e' = { e with bitPos := e'.bitPos } := by
  unfold nextbit at h
  split at h
  · cases h
  · simp only [Except.ok.injEq, Prod.mk.injEq] at h
    rw [← h.2]
    rfl

theorem readbitsFrom_frame {bs : Memory Byte} (k : Nat) :
    ∀ {v r : Nat} {e e' : Entropy}, readbitsFrom bs k v e = .ok (r, e') → e' = { e with bitPos := e'.bitPos } := by
  induction k with
  | zero => intro v r e e' h; simp only [readbitsFrom, Except.ok.injEq, Prod.mk.injEq] at h; rw [← h.2]
  | succ k ih =>
    intro v r e e' h
    rw [readbitsFrom] at h
    split at h
    · cases h
    · next b e1 h1 =>
      have := ih h
      rw [nextbit_frame h1] at this
      exact this

theorem uePrefix_frame {bs : Memory Byte} (k : Nat) :
    ∀ {lz : Nat} {r : Option Nat} {e e' : Entropy}, uePrefix bs k lz e = .ok (r, e') →
      e' = { e with bitPos := e'.bitPos } := by
  induction k with
  | zero => intro lz r e e' h; simp only [uePrefix, Except.ok.injEq, Prod.mk.injEq] at h; rw [← h.2]
  | succ k ih =>
    intro lz r e e' h
    rw [uePrefix] at h
    split at h
    · cases h
    · next e1 h1 =>
      simp only [Except.ok.injEq, Prod.mk.injEq] at h
      rw [← h.2]
      exact nextbit_frame h1
    · next e1 h1 =>
      have := ih h
      rw [nextbit_frame h1] at this
      exact this

theorem ue_frame {bs : Memory Byte} {r : Option Nat} {e e' : Entropy} (h : ue bs e = .ok (r, e')) :
    e' = { e with bitPos := e'.bitPos } := by
  unfold ue at h
  split at h
  · cases h
  · next e1 h1 =>
    simp only [Except.ok.injEq, Prod.mk.injEq] at h
    rw [← h.2]
    exact uePrefix_frame _ h1
  · next lz e1 h1 =>
    split at h
    · cases h
    · next v e2 h2 =>
      simp only [Except.ok.injEq, Prod.mk.injEq] at h
      rw [← h.2]
      have a := uePrefix_frame _ h1
      have b := readbitsFrom_frame _ h2
      rw [a] at b
      exact b

end Sys2Proof.Machine
end

