-- ==== Sys2Proof/Laws/Config.lean ====
section
/-! SUPPORT. The OPEN parameters of the machine after reset are legal, whatever their values
(92_eei_decisions.md section 2). -/

namespace Sys2Proof

theorem chipLumaRow_ok (row : Nat) (h : row % 4 = 0) :
    (Config.chipLumaRow row).length = 8 ∧ (Config.chipLumaRow row).sum = 64 := by
  unfold Config.chipLumaRow
  by_cases h0 : row = 0
  · simp [h0]
  · simp only [h0, h, if_true, if_false, List.length_cons, List.length_nil, List.sum_cons, List.sum_nil]
    refine ⟨trivial, ?_⟩
    ring

theorem chipChromaRow_ok (row : Nat) (h : row % 4 = 0) :
    (Config.chipChromaRow row).length = 4 ∧ (Config.chipChromaRow row).sum = 64 := by
  unfold Config.chipChromaRow
  by_cases h0 : row = 0
  · simp [h0]
  · simp only [h0, h, if_true, if_false, List.length_cons, List.length_nil, List.sum_cons, List.sum_nil]
    refine ⟨trivial, ?_⟩
    ring

theorem coefRowOk_map (f : Nat → List Int) (n taps row : Nat) (hr : row < n)
    (h : (f row).length = taps ∧ (f row).sum = 64) : coefRowOk ((List.range n).map f) taps row = true := by
  unfold coefRowOk
  have e : ((List.range n).map f).getD row [] = f row := by
    rw [List.getD_eq_getElem?_getD, List.getElem?_map, List.getElem?_range hr]; rfl
  rw [e]
  simp [h.1, h.2]

/-- The parameters of the machine after reset meet the constraints of 92_eei_decisions.md section 2. -/
theorem chip_wf : Config.chip.wf = true := by
  have hl : ∀ r < 16, r % 4 = 0 → coefRowOk Config.chip.lumaCoef 8 r = true :=
    fun r hr h4 => coefRowOk_map _ 16 8 r hr (chipLumaRow_ok r h4)
  have hc : ∀ r < 32, r % 4 = 0 → coefRowOk Config.chip.chromaCoef 4 r = true :=
    fun r hr h4 => coefRowOk_map _ 32 4 r hr (chipChromaRow_ok r h4)
  have h1 : Config.chip.lumaCoef.getD 0 [] = [0, 0, 0, 64, 0, 0, 0, 0] := rfl
  have h2 : Config.chip.chromaCoef.getD 0 [] = [0, 64, 0, 0] := rfl
  have b1 : Config.chip.bsSize = Config.openBsSize % 2 ^ 28 + 1 := rfl
  have b2 : Config.chip.pbCap = Config.openPbCap % 255 + 1 := rfl
  have b3 : Config.chip.maxRefList = Config.openMaxRefList % 255 + 1 := rfl
  have b4 : Config.chip.maxW = 8 * (Config.openMaxW % 512 + 1) := rfl
  have b5 : Config.chip.maxH = 8 * (Config.openMaxH % 512 + 1) := rfl
  have l1 : Config.chip.lumaCoef.length = 16 := by simp [Config.chip]
  have l2 : Config.chip.chromaCoef.length = 32 := by simp [Config.chip]
  have l3 : Config.chip.dfTbl.length = 4 := by simp [Config.chip]
  have l4 : Config.chip.chromaQpMap.length = 52 := by simp [Config.chip]
  have a1 : Config.chip.dfTbl.all (fun r => r.length == 52) = true := by simp [Config.chip]
  have a2 : Config.chip.chromaQpMap.all (fun q => decide (q ≤ 51)) = true := by
    decide
  simp only [Config.wf, h1, h2, l1, l2, l3, l4, a1, a2, List.all_cons, List.all_nil, hl 0 (by omega) rfl,
    hl 4 (by omega) rfl, hl 8 (by omega) rfl, hl 12 (by omega) rfl, hc 0 (by omega) rfl, hc 4 (by omega) rfl,
    hc 8 (by omega) rfl, hc 12 (by omega) rfl, hc 16 (by omega) rfl, hc 20 (by omega) rfl, hc 24 (by omega) rfl,
    hc 28 (by omega) rfl, b1, b2, b3, b4, b5, Bool.and_true, Bool.and_eq_true, decide_eq_true_eq, beq_iff_eq]
  simp only [and_true]
  omega

end Sys2Proof
end

