-- ==== Sys2Proof/Laws/MotionComp.lean ====
section
/-! SUPPORT. What the motion-compensation primitives answer where the reference plane is written: the reference
sample, the tap sums, `interp`, and the fills of the MC buffers (42_mc.md). -/

namespace Sys2Proof.Machine

variable {s : State} {c : Comp} {k : Nat}

/-- A sample in range is read as its value. -/
theorem readSample_ok {y x : Nat} (h : SampleReady s k c y x) :
    readSample s k c y x = .ok (sampleVal s k c y x) ∧ 0 ≤ sampleVal s k c y x ∧
      sampleVal s k c y x < 2 ^ s.cfg.bitDepth.toNat := by
  unfold SampleReady at h
  unfold readSample sampleVal
  split at h
  · exact h.elim
  · next v hv =>
    simp only [hv, if_neg (Nat.not_le.2 h), Option.getD_some]
    refine ⟨trivial, by omega, ?_⟩
    exact_mod_cast h

/-- The clamped coordinates of a non-empty plane lie inside it. -/
theorem clamp_lt {n : Nat} (h : 0 < n) (v : Int) : (min ((n : Int) - 1) (max 0 v)).toNat < n := by omega

/-- `ref(c, k, X, Y)` on a written plane (R153). -/
theorem refSample_ok (hp : PlaneReady s k c) (hw : 0 < (planeSize s.cfg c).1) (hh : 0 < (planeSize s.cfg c).2)
    (x y : Int) :
    refSample s c k x y = .ok (refVal s c k x y) ∧ 0 ≤ refVal s c k x y ∧
      refVal s c k x y < 2 ^ s.cfg.bitDepth.toNat := by
  have := readSample_ok (hp _ _ (clamp_lt hh y) (clamp_lt hw x))
  unfold refSample refVal
  exact this

/-- A tap sum of values that are all read. -/
theorem tapSum_ok {f : Nat → Except Fault Int} {g : Nat → Int} :
    ∀ (cs : List Int) (n : Nat), (∀ t, n ≤ t → t < n + cs.length → f t = .ok (g t)) →
      tapSum f cs n = .ok (∑ t ∈ Finset.range cs.length, cs.getD t 0 * g (n + t)) := by
  intro cs
  induction cs with
  | nil => intro n _; simp [tapSum]
  | cons a cs ih =>
    intro n h
    rw [tapSum, h n (le_refl _) (by simp)]
    simp only
    rw [ih (n + 1) (fun t h1 h2 => h t (by omega) (by simp; omega)), List.length_cons, Finset.sum_range_succ']
    simp only [List.getD_cons_succ, List.getD_cons_zero, Nat.add_zero]
    congr 1
    rw [add_comm]
    congr 1
    refine Finset.sum_congr rfl fun t _ => ?_
    congr 2
    omega

/-- A tap sum over the coefficients of a fraction. -/
theorem tapSum_coefs {f : Nat → Except Fault Int} {g : Nat → Int} (fr : Nat) (h : ∀ t < taps c, f t = .ok (g t)) :
    tapSum f (coefs s.config c fr) 0 = .ok (∑ t ∈ Finset.range (taps c), tapVal s c fr t * g t) := by
  have hl : (coefs s.config c fr).length = taps c := by simp [coefs]
  rw [tapSum_ok (g := g) _ _ (fun t _ h2 => h t (by omega)), hl]
  congr 1
  refine Finset.sum_congr rfl fun t ht => ?_
  rw [Finset.mem_range] at ht
  simp [coefs, tapVal, List.getD_eq_getElem?_getD, ht]

theorem clipVal_range (s : State) (v : Int) : 0 ≤ clipVal s v ∧ clipVal s v < 2 ^ s.cfg.bitDepth.toNat := by
  unfold clipVal
  have : (1 : Int) ≤ 2 ^ s.cfg.bitDepth.toNat := one_le_pow₀ (by norm_num)
  omega

theorem clipB_eq (s : State) (v : Int) : clipB s.cfg.bitDepth.toNat v = clipVal s v := rfl

/-- `interp` on a written plane: its value, which lies within the bit depth (R156, R163). -/
theorem interpAt_ok (hp : PlaneReady s k c) (hw : 0 < (planeSize s.cfg c).1) (hh : 0 < (planeSize s.cfg c).2)
    (h8 : 8 ≤ s.cfg.bitDepth.toNat) (h10 : s.cfg.bitDepth.toNat ≤ 10) (x y : Nat) (mv : Int × Int) (i j : Nat) :
    interpAt s c k x y mv i j = .ok (toSample (interpVal s c k x y mv.1 mv.2 i j)) ∧
      0 ≤ interpVal s c k x y mv.1 mv.2 i j ∧
      interpVal s c k x y mv.1 mv.2 i j < 2 ^ s.cfg.bitDepth.toNat := by
  have hr := refSample_ok hp hw hh
  have eq : ((fracs c : Nat) : Int) = if c = .y then 4 else 8 := by unfold fracs; split <;> rfl
  have eo : ((tapOrigin c : Nat) : Int) = if c = .y then 3 else 1 := by unfold tapOrigin; split <;> rfl
  have et : taps c = if c = .y then 8 else 4 := rfl
  have ex : (x : Int) + mvInt c mv.1 + j = (x : Int) + mv.1 / (if c = .y then 4 else 8) + j := by unfold mvInt; rw [eq]
  have ey : (y : Int) + mvInt c mv.2 + i = (y : Int) + mv.2 / (if c = .y then 4 else 8) + i := by unfold mvInt; rw [eq]
  have efx : mvFrac c mv.1 = (mv.1 % (if c = .y then 4 else 8)).toNat := by unfold mvFrac; rw [eq]
  have efy : mvFrac c mv.2 = (mv.2 % (if c = .y then 4 else 8)).toNat := by unfold mvFrac; rw [eq]
  have hs1 : ∀ v : Int, roundShift (s.cfg.bitDepth.toNat - 8) v =
      (v + if s.cfg.bitDepth.toNat = 8 then 0 else 2 ^ (s.cfg.bitDepth.toNat - 9)) / 2 ^ (s.cfg.bitDepth.toNat - 8) := by
    intro v
    unfold roundShift
    have : s.cfg.bitDepth.toNat - 8 - 1 = s.cfg.bitDepth.toNat - 9 := by omega
    rw [this]
    by_cases hb : s.cfg.bitDepth.toNat = 8
    · simp [hb]
    · rw [if_neg hb, if_neg (by omega)]
  have hs2 : ∀ v : Int, roundShift (20 - s.cfg.bitDepth.toNat) v =
      (v + 2 ^ (19 - s.cfg.bitDepth.toNat)) / 2 ^ (20 - s.cfg.bitDepth.toNat) := by
    intro v
    unfold roundShift
    rw [if_neg (by omega)]
    have : 20 - s.cfg.bitDepth.toNat - 1 = 19 - s.cfg.bitDepth.toNat := by omega
    rw [this]
  have hs6 : ∀ v : Int, roundShift 6 v = (v + 32) / 64 := by intro v; unfold roundShift; norm_num
  unfold interpAt interpVal
  simp only [efx, efy, ← et, ← eo, ex, ey]
  clear efx efy ex ey eq eo et
  generalize (if c = Comp.y then (4 : Int) else 8) = q
  split
  · refine ⟨?_, (hr _ _).2⟩
    rw [(hr _ _).1]; rfl
  · split
    · refine ⟨?_, clipVal_range _ _⟩
      rw [tapSum_coefs (g := fun t => refVal s c k ((x : Int) + mv.1 / q + j + t - tapOrigin c)
        ((y : Int) + mv.2 / q + i)) _ (fun t _ => by rw [add_sub_cancel_right]; exact (hr _ _).1)]
      simp only [Except.map, hs6, clipB_eq]
    · split
      · refine ⟨?_, clipVal_range _ _⟩
        rw [tapSum_coefs (g := fun t => refVal s c k ((x : Int) + mv.1 / q + j)
          ((y : Int) + mv.2 / q + i + t - tapOrigin c)) _
          (fun t _ => by rw [add_sub_cancel_right]; exact (hr _ _).1)]
        simp only [Except.map, hs6, clipB_eq]
      · refine ⟨?_, clipVal_range _ _⟩
        have inner := fun r => tapSum_coefs (s := s) (c := c)
          (f := fun t => refSample s c k ((x : Int) + mv.1 / q + j + t - tapOrigin c)
            ((y : Int) + mv.2 / q + i + r - tapOrigin c))
          (g := fun t => refVal s c k _ _) (mv.1 % q).toNat (fun t _ => (hr _ _).1)
        rw [tapSum_coefs (g := fun r => roundShift (s.cfg.bitDepth.toNat - 8) _) _
          (fun r _ => by rw [inner ((r : Nat) : Int)]; rfl)]
        simp only [Except.map, hs1, hs2, clipB_eq]

/-- A value within the bit depth is kept by a sample cell. -/
theorem toSample_toNat {v : Int} {b : Nat} (h0 : 0 ≤ v) (h : v < 2 ^ b) (hb : b ≤ 16) :
    ((toSample v).toNat : Int) = v := by
  unfold toSample
  rw [BitVec.toNat_ofInt]
  have : (2 : Int) ^ b ≤ 2 ^ 16 := pow_le_pow_right₀ (by norm_num) hb
  norm_num at this ⊢
  omega

theorem blockCells_pred_inj {l : ListIx} {h w : Nat} (hh : h ≤ 64) (hw : w ≤ 64) :
    ∀ p ∈ blockCells h w, ∀ q ∈ blockCells h w, predKey l c p.1 p.2 = predKey l c q.1 q.2 → p = q := by
  rintro ⟨i, j⟩ hp ⟨i', j'⟩ hq h
  rw [mem_blockCells] at hp hq
  rw [predKey_inj (by omega) (by omega) (by omega) (by omega)] at h
  exact Prod.ext h.2.2.1 h.2.2.2

theorem blockCells_predOut_inj {h w : Nat} (hh : h ≤ 64) (hw : w ≤ 64) :
    ∀ p ∈ blockCells h w, ∀ q ∈ blockCells h w, predOutKey c p.1 p.2 = predOutKey c q.1 q.2 → p = q := by
  rintro ⟨i, j⟩ hp ⟨i', j'⟩ hq h
  rw [mem_blockCells] at hp hq
  rw [predOutKey_inj (by omega) (by omega) (by omega) (by omega)] at h
  exact Prod.ext h.2.1 h.2.2

/-- Everything `predict` does where the reference plane is written: the block of PRED[l][c] holds the interpolated
values and every other cell is as before (R157). -/
theorem predict_ok (hp : PlaneReady s k c) (hw : 0 < (planeSize s.cfg c).1) (hh : 0 < (planeSize s.cfg c).2)
    (h8 : 8 ≤ s.cfg.bitDepth.toNat) (h10 : s.cfg.bitDepth.toNat ≤ 10) (l : ListIx) (x y : Nat) {w h : Nat}
    (hw64 : w ≤ 64) (hh64 : h ≤ 64) (mv : Int × Int) :
    ∃ m, predict s l c k x y w h mv = .ok (s.setPred m) ∧
      (∀ i < h, ∀ j < w, m.read (predKey l c i j) = some (toSample (interpVal s c k x y mv.1 mv.2 i j))) ∧
      ∀ a, (∀ i < h, ∀ j < w, a ≠ predKey l c i j) → m.read a = s.pred.read a := by
  have hi := interpAt_ok hp hw hh h8 h10 x y mv
  obtain ⟨m, hm⟩ := fillCells_total (key := predKey l c) (blockCells h w)
    (fun p _ => ⟨_, (hi p.1 p.2).1⟩) s.pred
  obtain ⟨h1, h2⟩ := fillCells_ok _ _ _ hm (blockCells_pred_inj hh64 hw64)
  refine ⟨m, by simp [predict, hm], ?_, ?_⟩
  · intro i hi' j hj
    obtain ⟨v, hv, hr⟩ := h1 (i, j) (by rw [mem_blockCells]; exact ⟨hi', hj⟩)
    rw [(hi i j).1] at hv
    cases hv
    exact hr
  · intro a ha
    refine h2 a ?_
    rintro ⟨i, j⟩ hm'
    rw [mem_blockCells] at hm'
    exact ha i hm'.1 j hm'.2

/-- Everything `output` does where its function answers: the block of PREDOUT[c] holds the values and every other
cell is as before (R158, R159). -/
theorem output_ok {w h : Nat} (hw64 : w ≤ 64) (hh64 : h ≤ 64) {f : Nat → Nat → Except Fault Sample}
    {g : Nat → Nat → Sample} (hf : ∀ i < h, ∀ j < w, f i j = .ok (g i j)) :
    ∃ m, output s c w h f = .ok (s.setPredOut m) ∧
      (∀ i < h, ∀ j < w, m.read (predOutKey c i j) = some (g i j)) ∧
      ∀ a, (∀ i < h, ∀ j < w, a ≠ predOutKey c i j) → m.read a = s.predOut.read a := by
  obtain ⟨m, hm⟩ := fillCells_total (f := f) (key := predOutKey c) (blockCells h w)
    (fun p hp => by
      obtain ⟨i, j⟩ := p
      rw [mem_blockCells] at hp
      exact ⟨_, hf i hp.1 j hp.2⟩) s.predOut
  obtain ⟨h1, h2⟩ := fillCells_ok _ _ _ hm (blockCells_predOut_inj hh64 hw64)
  refine ⟨m, by simp [output, hm], ?_, ?_⟩
  · intro i hi j hj
    obtain ⟨v, hv, hr⟩ := h1 (i, j) (by rw [mem_blockCells]; exact ⟨hi, hj⟩)
    rw [hf i hi j hj] at hv
    cases hv
    exact hr
  · intro a ha
    refine h2 a ?_
    rintro ⟨i, j⟩ hm'
    rw [mem_blockCells] at hm'
    exact ha i hm'.1 j hm'.2

/-- Everything a read of a PRED cell can answer (R53, R83, R158). -/
theorem readPred_cases (s : State) (l : ListIx) (c : Comp) (i j : Nat) :
    (s.predVal l c i j = none ∧ readPred s l c i j = .error (.unwrittenPred l c i j)) ∨
    ∃ v, s.pred.read (predKey l c i j) = some v ∧ s.predVal l c i j = some (v.toNat : Int) ∧
      (2 ^ s.cfg.bitDepth.toNat ≤ v.toNat ∧ readPred s l c i j = .error (.predTooLarge l c i j) ∨
        v.toNat < 2 ^ s.cfg.bitDepth.toNat ∧ readPred s l c i j = .ok v) := by
  unfold readPred State.predVal
  cases h : s.pred.read (predKey l c i j) with
  | none => exact .inl ⟨rfl, rfl⟩
  | some v =>
    refine .inr ⟨v, rfl, rfl, ?_⟩
    by_cases hv : 2 ^ s.cfg.bitDepth.toNat ≤ v.toNat
    · exact .inl ⟨hv, if_pos hv⟩
    · exact .inr ⟨by omega, if_neg hv⟩

/-- A written cell within the bit depth. -/
theorem readPred_ok {l : ListIx} {i j : Nat} {a : Sample} (ha : s.pred.read (predKey l c i j) = some a)
    (h : a.toNat < 2 ^ s.cfg.bitDepth.toNat) : readPred s l c i j = .ok a := by
  simp [readPred, ha, Nat.not_le.2 h]

/-- The average of two written cells. -/
theorem avgAt_ok {i j : Nat} {a b : Sample} (ha : s.pred.read (predKey .l0 c i j) = some a)
    (hb : s.pred.read (predKey .l1 c i j) = some b) (ha' : a.toNat < 2 ^ s.cfg.bitDepth.toNat)
    (hb' : b.toNat < 2 ^ s.cfg.bitDepth.toNat) :
    avgAt s c i j = .ok (BitVec.ofNat 16 ((a.toNat + b.toNat + 1) / 2)) := by
  simp [avgAt, readPred_ok ha ha', readPred_ok hb hb']

/-- The cell of an interpolated value lies within the bit depth (R163). -/
theorem interpVal_cell_lt (hp : PlaneReady s k c) (hw : 0 < (planeSize s.cfg c).1) (hh : 0 < (planeSize s.cfg c).2)
    (h8 : 8 ≤ s.cfg.bitDepth.toNat) (h10 : s.cfg.bitDepth.toNat ≤ 10) (x y : Nat) (mv : Int × Int) (i j : Nat) :
    (toSample (interpVal s c k x y mv.1 mv.2 i j)).toNat < 2 ^ s.cfg.bitDepth.toNat := by
  obtain ⟨-, h0, h1⟩ := interpAt_ok hp hw hh h8 h10 x y mv i j
  have := toSample_toNat h0 h1 (by omega)
  zify
  omega

/-- One component of `clipmv` (R152). -/
theorem clipMvAxis_eq (p n : Nat) (mv : Int) (size m : Nat) : clipMvAxis p n mv size m = clippedMv p n mv size m := rfl

/-- One component of MC_CU from one list (R159): the block of PRED[l][c] holds the interpolated values, PREDOUT[c] the
same, every other cell is as before. -/
theorem mcCuComp_one (hp : PlaneReady s k c) (hw : 0 < (planeSize s.cfg c).1) (hh : 0 < (planeSize s.cfg c).2)
    (h8 : 8 ≤ s.cfg.bitDepth.toNat) (h10 : s.cfg.bitDepth.toNat ≤ 10) (l : ListIx) (x y : Nat) {size : Nat}
    (hs : size ≤ 64) (mv : Int × Int) :
    ∃ m m', mcCuComp x y size [⟨l, k, mv⟩] c s = .ok ((s.setPred m).setPredOut m') ∧
      (∀ i < inComp c size, ∀ j < inComp c size,
        m.read (predKey l c i j) =
          some (toSample (interpVal s c k (inComp c x) (inComp c y) mv.1 mv.2 i j)) ∧
        m'.read (predOutKey c i j) =
          some (toSample (interpVal s c k (inComp c x) (inComp c y) mv.1 mv.2 i j))) ∧
      (∀ a, (∀ i < inComp c size, ∀ j < inComp c size, a ≠ predKey l c i j) → m.read a = s.pred.read a) ∧
      ∀ a, (∀ i < inComp c size, ∀ j < inComp c size, a ≠ predOutKey c i j) → m'.read a = s.predOut.read a := by
  have hsz : inComp c size ≤ 64 := by unfold inComp; split <;> omega
  obtain ⟨m, hm, h1, h2⟩ := predict_ok hp hw hh h8 h10 l (inComp c x) (inComp c y) hsz hsz mv
  obtain ⟨m', hm', h3, h4⟩ := output_ok (s := s.setPred m) (c := c) hsz hsz (f := readPred (s.setPred m) l c)
    (g := fun i j => toSample (interpVal s c k (inComp c x) (inComp c y) mv.1 mv.2 i j))
    (fun i hi j hj => readPred_ok (s := s.setPred m) (h1 i hi j hj) (interpVal_cell_lt hp hw hh h8 h10 _ _ mv i j))
  refine ⟨m, m', ?_, fun i hi j hj => ⟨h1 i hi j hj, h3 i hi j hj⟩, h2, h4⟩
  unfold inComp at hm hm'
  simp only [mcCuComp, foldE, hm]
  exact hm'

/-- One component of a bi-predicted MC_CU (R159, R162): both blocks of PRED hold their interpolated values, PREDOUT[c]
the average of the two cells, every other cell is as before. -/
theorem mcCuComp_two {k' : Nat} (hp : PlaneReady s k c) (hp' : PlaneReady s k' c) (hw : 0 < (planeSize s.cfg c).1)
    (hh : 0 < (planeSize s.cfg c).2) (h8 : 8 ≤ s.cfg.bitDepth.toNat) (h10 : s.cfg.bitDepth.toNat ≤ 10) (x y : Nat)
    {size : Nat} (hs : size ≤ 64) (mv mv' : Int × Int) :
    ∃ m m', mcCuComp x y size [⟨.l0, k, mv⟩, ⟨.l1, k', mv'⟩] c s = .ok ((s.setPred m).setPredOut m') ∧
      (∀ i < inComp c size, ∀ j < inComp c size,
        m.read (predKey .l0 c i j) =
          some (toSample (interpVal s c k (inComp c x) (inComp c y) mv.1 mv.2 i j)) ∧
        m.read (predKey .l1 c i j) =
          some (toSample (interpVal s c k' (inComp c x) (inComp c y) mv'.1 mv'.2 i j)) ∧
        m'.read (predOutKey c i j) =
          some (BitVec.ofNat 16 (((toSample (interpVal s c k (inComp c x) (inComp c y) mv.1 mv.2 i j)).toNat +
            (toSample (interpVal s c k' (inComp c x) (inComp c y) mv'.1 mv'.2 i j)).toNat + 1) / 2))) ∧
      (∀ a, (∀ l, ∀ i < inComp c size, ∀ j < inComp c size, a ≠ predKey l c i j) → m.read a = s.pred.read a) ∧
      ∀ a, (∀ i < inComp c size, ∀ j < inComp c size, a ≠ predOutKey c i j) → m'.read a = s.predOut.read a := by
  have hsz : inComp c size ≤ 64 := by unfold inComp; split <;> omega
  obtain ⟨m, hm, h1, h2⟩ := predict_ok hp hw hh h8 h10 .l0 (inComp c x) (inComp c y) hsz hsz mv
  obtain ⟨n, hn, h3, h4⟩ := predict_ok (s := s.setPred m) hp' hw hh h8 h10 .l1 (inComp c x) (inComp c y) hsz hsz mv'
  have h0 : ∀ i < inComp c size, ∀ j < inComp c size, n.read (predKey .l0 c i j) =
      some (toSample (interpVal s c k (inComp c x) (inComp c y) mv.1 mv.2 i j)) := by
    intro i hi j hj
    rw [h4 _ (fun i' hi' j' hj' e => by
      rw [predKey_inj (by omega) (by omega) (by omega) (by omega)] at e; cases e.1)]
    exact h1 i hi j hj
  obtain ⟨m', hm', h5, h6⟩ := output_ok (s := s.setPred n) (c := c) hsz hsz (f := avgAt (s.setPred n) c)
    (g := fun i j => BitVec.ofNat 16
      (((toSample (interpVal s c k (inComp c x) (inComp c y) mv.1 mv.2 i j)).toNat +
        (toSample (interpVal s c k' (inComp c x) (inComp c y) mv'.1 mv'.2 i j)).toNat + 1) / 2))
    (fun i hi j hj => avgAt_ok (s := s.setPred n) (h0 i hi j hj) (h3 i hi j hj)
      (interpVal_cell_lt hp hw hh h8 h10 _ _ mv i j) (interpVal_cell_lt hp' hw hh h8 h10 _ _ mv' i j))
  refine ⟨n, m', ?_, fun i hi j hj => ⟨h0 i hi j hj, h3 i hi j hj, h5 i hi j hj⟩, ?_, h6⟩
  · unfold inComp at hm hn hm'
    simp only [mcCuComp, foldE, hm, hn]
    exact hm'
  · intro a ha
    rw [h4 a (ha .l1)]
    exact h2 a (ha .l0)

/-- The prediction of MC_CU in the terms of `mcCuComp_one` and `mcCuComp_two`. -/
theorem cuPrediction_eq (s : State) (l : ListIx) (k : Nat) (c : Comp) (i j : Nat) :
    cuPrediction s l k c i j = interpVal s c k (inComp c (lo16 s.arg0)) (inComp c (hi16 s.arg0))
      (clipMv s.cfg (lo16 s.arg0) (hi16 s.arg0) (byteOf s.arg1 0) (byteOf s.arg1 0) (cuVector s l)).1
      (clipMv s.cfg (lo16 s.arg0) (hi16 s.arg0) (byteOf s.arg1 0) (byteOf s.arg1 0) (cuVector s l)).2 i j := by
  simp only [cuPrediction, clipMv, clipMvAxis_eq]

/-- The values a written plane predicts lie within the bit depth and do not see the MC buffers. -/
@[simp] theorem interpVal_setPred (s : State) (m : Memory Sample) : interpVal (s.setPred m) = interpVal s := rfl

@[simp] theorem interpVal_setPredOut (s : State) (m : Memory Sample) : interpVal (s.setPredOut m) = interpVal s := rfl

end Sys2Proof.Machine
end

