-- ==== Sys2Proof/Laws/Operands.lean ====
section
/-! SUPPORT. What the operand checks say, what legal registers bound, and the assembly of position operands
(30_encoding.md R88). -/

namespace Sys2Proof.Machine

variable {s : State}

theorem noPicture_eq_false {g : Cfg} : noPicture g = false ↔ g.picW ≠ 0 ∧ g.picH ≠ 0 := by simp [noPicture]

theorem noPicture_eq_true {g : Cfg} : noPicture g = true ↔ g.picW = 0 ∨ g.picH = 0 := by simp [noPicture]

theorem sizeOk_iff {w h : Nat} : sizeOk w h = true ↔ 1 ≤ w ∧ w ≤ 64 ∧ 1 ≤ h ∧ h ≤ 64 := by
  simp only [sizeOk, Bool.and_eq_true, decide_eq_true_eq]; omega

theorem cuSizeOk_iff {n : Nat} : cuSizeOk n = true ↔ n = 4 ∨ n = 8 ∨ n = 16 ∨ n = 32 ∨ n = 64 := by
  simp only [cuSizeOk, Bool.or_eq_true, beq_iff_eq]; omega

theorem lumaPosOk_iff {g : Cfg} {x y : Nat} :
    lumaPosOk g x y = true ↔ x % 4 = 0 ∧ y % 4 = 0 ∧ x < g.picW.toNat ∧ y < g.picH.toNat := by
  simp only [lumaPosOk, Bool.and_eq_true, decide_eq_true_eq, beq_iff_eq]; omega

/-- The two checks of a CU's operands together (R65). -/
theorem cuPlaced_iff {x y n : Nat} : CuPlaced s x y n ↔ cuSizeOk n = true ∧ lumaPosOk s.cfg x y = true := by
  rw [cuSizeOk_iff, lumaPosOk_iff]; rfl

@[simp] theorem compOf_num (c : Comp) : compOf (BitVec.ofNat 2 c.num) = some c := by cases c <;> rfl

theorem curSlot_eq_none : s.curSlot = none ↔ s.cfg.curSlot = noSlot := by
  unfold State.curSlot; split <;> simp_all

theorem curSlot_eq_some (h : s.cfg.curSlot ≠ noSlot) : s.curSlot = some s.cfg.curSlot.toNat := by
  simp [State.curSlot, h]

/-- Legal registers: the bit depth (R32). -/
theorem RegistersOk.depth (h : RegistersOk s) : 8 ≤ s.cfg.bitDepth.toNat ∧ s.cfg.bitDepth.toNat ≤ 10 :=
  h.2.1 2 _ (by decide) rfl

/-- Legal parameters bound the picture size (R7, R30). -/
theorem RegistersOk.sizes (h : RegistersOk s) :
    s.cfg.picW.toNat % 8 = 0 ∧ s.cfg.picW.toNat ≤ 4096 ∧ s.cfg.picH.toNat % 8 = 0 ∧ s.cfg.picH.toNat ≤ 4096 ∧
      s.config.maxW ≤ 4096 ∧ s.config.maxH ≤ 4096 ∧ 1 ≤ s.config.pbCap ∧ s.config.pbCap ≤ 255 ∧
      s.config.bsSize ≤ 2 ^ 28 := by
  obtain ⟨hw, hc, -⟩ := h
  have h0 : s.cfg.picW.toNat = 0 ∨ (s.cfg.picW.toNat % 8 = 0 ∧ s.cfg.picW.toNat ≤ s.config.maxW) := hc 0 _ (by decide) rfl
  have h1 : s.cfg.picH.toNat = 0 ∨ (s.cfg.picH.toNat % 8 = 0 ∧ s.cfg.picH.toNat ≤ s.config.maxH) := hc 1 _ (by decide) rfl
  simp only [Config.wf, Bool.and_eq_true, decide_eq_true_eq, beq_iff_eq] at hw
  omega

theorem lo16_posWord {x y : Nat} (hx : x < 65536) : lo16 (posWord x y) = x := by
  unfold lo16 posWord
  rw [BitVec.extractLsb'_append_eq_right]
  simp; omega

theorem hi16_posWord {x y : Nat} (hy : y < 65536) : hi16 (posWord x y) = y := by
  unfold hi16 posWord
  rw [BitVec.extractLsb'_append_eq_left]
  simp; omega

theorem lo16_lt (a : Word) : lo16 a < 65536 := (a.extractLsb' 0 16).isLt

theorem hi16_lt (a : Word) : hi16 a < 65536 := (a.extractLsb' 16 16).isLt

end Sys2Proof.Machine
end

