-- ==== Sys2Proof/Laws/Deblock.lean ====
section
/-! SUPPORT. What the deblocking primitives do: sample writes, line filters, segments, the edge strength
(43_deblock.md). -/

namespace Sys2Proof.Machine

variable {s : State} {k : Nat} {c : Comp} {d : Dir} {x y : Nat}

/-! ### Sample writes -/

@[simp] theorem setPlane_plane (p : Picture) (c c' : Comp) (m : Memory Sample) :
    (p.setPlane c m).plane c' = if c' = c then m else p.plane c' := by
  cases c <;> cases c' <;> rfl

theorem sampleAt_setPics (s : State) (p : List Picture) (k : Nat) (c : Comp) (y x : Nat) :
    (s.setPics p).sampleAt k c y x = (p[k]?).bind (fun q => (q.plane c).read (cellKey y x)) := by
  unfold State.sampleAt
  simp only [State.setPics_pics]
  cases p[k]? <;> rfl

theorem sampleAt_eq (s : State) (k : Nat) (c : Comp) (y x : Nat) :
    s.sampleAt k c y x = (s.pics[k]?).bind (fun q => (q.plane c).read (cellKey y x)) := by
  unfold State.sampleAt
  cases s.pics[k]? <;> rfl

/-- A sample that is written lies in a picture that exists. -/
theorem SampleReady.lt {y x : Nat} (h : SampleReady s k c y x) : k < s.pics.length := by
  unfold SampleReady State.sampleAt at h
  by_contra hk
  rw [List.getElem?_eq_none (by omega)] at h
  exact h

/-- A read after a sample write. -/
theorem sampleAt_writeSample (hk : k < s.pics.length) {x x' : Nat} (hx : x < 65536) (hx' : x' < 65536) (c c' : Comp)
    (y y' k' : Nat) (v : Sample) :
    (s.writeSample k c y x v).sampleAt k' c' y' x' =
      if k' = k ∧ c' = c ∧ y' = y ∧ x' = x then some v else s.sampleAt k' c' y' x' := by
  unfold State.writeSample
  rw [sampleAt_setPics, sampleAt_eq, List.getElem?_modify]
  by_cases hkk : k = k'
  · subst hkk
    rw [List.getElem?_eq_getElem hk]
    simp only [if_true, Option.map_eq_map, Option.map_some, Option.bind_some, setPlane_plane, true_and]
    by_cases hc : c' = c
    · subst hc
      simp only [if_true, true_and, Memory.read_write, cellKey_inj hx' hx]
    · simp [hc]
  · rw [if_neg (fun h => hkk h.1.symm)]
    cases s.pics[k']? <;> simp [hkk]

@[simp] theorem writeSample_length (s : State) (k : Nat) (c : Comp) (y x : Nat) (v : Sample) :
    (s.writeSample k c y x v).pics.length = s.pics.length := by
  simp [State.writeSample]

theorem mapsOf_writeSample (s : State) (k : Nat) (c : Comp) (y x : Nat) (v : Sample) (k' : Nat) :
    (s.writeSample k c y x v).mapsOf k' = s.mapsOf k' := by
  unfold State.mapsOf State.writeSample
  simp only [State.setPics_pics, List.getElem?_modify]
  cases s.pics[k']? with
  | none => simp
  | some p => by_cases h : k = k' <;> cases c <;> simp [h, Picture.setPlane]

/-- A sample write changes the pictures only. -/
theorem writeSample_setPics (s : State) (k : Nat) (c : Comp) (y x : Nat) (v : Sample) :
    ∃ p, s.writeSample k c y x v = s.setPics p := ⟨_, rfl⟩

/-! ### Lines -/

/-- The n-th sample of a filtered line. -/
def Line.nth (l : Line) : Nat → Int
  | 0 => l.a
  | 1 => l.b
  | 2 => l.c
  | _ => l.d

/-- Write the samples `ns` of line i from `v`. -/
def writeLine (k : Nat) (c : Comp) (d : Dir) (x y i : Nat) (ns : List Nat) (v : Nat → Int) (s : State) : State :=
  ns.foldl (fun s n => writeLineSample k c d x y i n (v n) s) s

/-- Filter line i: read its four samples, write the samples `ns` of the filtered line. -/
def filterLine (k : Nat) (c : Comp) (d : Dir) (x y : Nat) (ns : List Nat) (f : Line → Line) (i : Nat) (s : State) :
    Except Fault State :=
  match readLine s k c d x y i with
  | .error e => .error e
  | .ok l => .ok (writeLine k c d x y i ns (f l).nth s)

theorem filterLumaLine_eq (k : Nat) (d : Dir) (x y : Nat) (st : Int) (i : Nat) (s : State) :
    filterLumaLine k d x y st i s =
      filterLine k .y d x y [0, 1, 2, 3] (lineLuma s.cfg.bitDepth.toNat st) i s := rfl

theorem filterChromaLine_eq (k : Nat) (c : Comp) (d : Dir) (x y : Nat) (st : Int) (i : Nat) (s : State) :
    filterChromaLine k c d x y st i s =
      filterLine k c d x y [1, 2] (lineChroma s.cfg.bitDepth.toNat st) i s := rfl

/-- The positions of a segment are within the coordinate range and its first Q-side sample is off the boundary. -/
def SegmentPlaced (d : Dir) (x y : Nat) : Prop :=
  match d with
  | .vertical => 2 ≤ x ∧ x + 2 ≤ 65536
  | .horizontal => 2 ≤ y ∧ x + 4 ≤ 65536

theorem linePos_lt (h : SegmentPlaced d x y) {i n : Nat} (hi : i < 4) (hn : n < 4) : (linePos d x y i n).2 < 65536 := by
  cases d <;> simp only [linePos, SegmentPlaced] at * <;> omega

theorem linePos_inj (h : SegmentPlaced d x y) {i n i' n' : Nat} :
    linePos d x y i n = linePos d x y i' n' ↔ i = i' ∧ n = n' := by
  cases d <;> simp only [linePos, SegmentPlaced, Prod.mk.injEq] at * <;> omega

/-- The four old samples of line i. -/
def oldLine (s : State) (k : Nat) (c : Comp) (d : Dir) (x y i : Nat) : Line :=
  let v := fun n => sampleVal s k c (linePos d x y i n).1 (linePos d x y i n).2
  ⟨v 0, v 1, v 2, v 3⟩

theorem readLine_ok {i : Nat} (h : ∀ n < 4, SampleReady s k c (linePos d x y i n).1 (linePos d x y i n).2) :
    readLine s k c d x y i = .ok (oldLine s k c d x y i) := by
  unfold readLine readLineSample
  rw [(readSample_ok (h 0 (by omega))).1, (readSample_ok (h 1 (by omega))).1, (readSample_ok (h 2 (by omega))).1,
    (readSample_ok (h 3 (by omega))).1]
  rfl

/-- What writing some samples of a line does. -/
theorem writeLine_ok (hp : SegmentPlaced d x y) {i : Nat} (hi : i < 4) (v : Nat → Int) :
    ∀ (ns : List Nat), (∀ n ∈ ns, n < 4) → ∀ s : State, k < s.pics.length →
      ∃ p, writeLine k c d x y i ns v s = s.setPics p ∧ p.length = s.pics.length ∧
        (∀ k', (s.setPics p).mapsOf k' = s.mapsOf k') ∧
        ∀ k' c' row col, col < 65536 → (s.setPics p).sampleAt k' c' row col =
          if k' = k ∧ c' = c ∧ ∃ n ∈ ns, (row, col) = linePos d x y i n then
            some (toSample (v (if d = .vertical then col + 2 - x else row + 2 - y)))
          else s.sampleAt k' c' row col := by
  intro ns
  induction ns with
  | nil =>
    intro _ s _
    exact ⟨s.pics, rfl, rfl, fun _ => rfl, by intro k' c' row col _; rw [if_neg (by simp)]; rfl⟩
  | cons n ns ih =>
    intro hn s hk
    have hn4 := hn n (by simp)
    obtain ⟨p, h1, h2, h3, h4⟩ := ih (fun m hm => hn m (by simp [hm])) (writeLineSample k c d x y i n (v n) s)
      (by unfold writeLineSample; simpa using hk)
    refine ⟨p, ?_, ?_, ?_, ?_⟩
    · exact h1
    · rw [h2]; unfold writeLineSample; simp
    · intro k'
      have := h3 k'
      unfold writeLineSample at this
      rw [mapsOf_writeSample] at this
      exact this
    · intro k' c' row col hcol
      have := h4 k' c' row col hcol
      unfold writeLineSample at this
      rw [sampleAt_writeSample hk (linePos_lt hp hi hn4) hcol] at this
      refine Eq.trans this ?_
      by_cases hex : k' = k ∧ c' = c ∧ ∃ m ∈ ns, (row, col) = linePos d x y i m
      · obtain ⟨a, b, m, hm, e⟩ := id hex
        rw [if_pos hex]
        exact (if_pos ⟨a, b, m, by simp [hm], e⟩).symm
      · rw [if_neg hex]
        by_cases hh : k' = k ∧ c' = c ∧ row = (linePos d x y i n).1 ∧ col = (linePos d x y i n).2
        · rw [if_pos hh, if_pos ⟨hh.1, hh.2.1, n, by simp, Prod.ext hh.2.2.1 hh.2.2.2⟩]
          obtain ⟨-, -, e1, e2⟩ := hh
          congr 3
          cases d <;> simp only [linePos, SegmentPlaced] at * <;> simp <;> omega
        · rw [if_neg hh, if_neg]
          rintro ⟨a, b, m, hm, e⟩
          rcases List.mem_cons.1 hm with rfl | hm
          · exact hh ⟨a, b, by rw [← e], by rw [← e]⟩
          · exact hex ⟨a, b, m, hm, e⟩

/-- What filtering a list of lines does where their samples are written: each listed line's samples `ns` are those of
its filtered old line, and no other sample or map changes. -/
theorem filterLines_ok (hp : SegmentPlaced d x y) {ns : List Nat} (hns : ∀ n ∈ ns, n < 4)
    (F : State → Line → Line) (hF : ∀ s p, F (s.setPics p) = F s) :
    ∀ (is : List Nat), is.Nodup → (∀ i ∈ is, i < 4) → ∀ s : State, k < s.pics.length →
      (∀ i ∈ is, ∀ n < 4, SampleReady s k c (linePos d x y i n).1 (linePos d x y i n).2) →
      ∃ p, foldE (fun i s => filterLine k c d x y ns (F s) i s) is s = .ok (s.setPics p) ∧
        p.length = s.pics.length ∧ (∀ k', (s.setPics p).mapsOf k' = s.mapsOf k') ∧
        (∀ i ∈ is, ∀ n ∈ ns, (s.setPics p).sampleAt k c (linePos d x y i n).1 (linePos d x y i n).2 =
          some (toSample ((F s (oldLine s k c d x y i)).nth n))) ∧
        ∀ k' c' row col, col < 65536 →
          ¬(k' = k ∧ c' = c ∧ ∃ i ∈ is, ∃ n ∈ ns, (row, col) = linePos d x y i n) →
          (s.setPics p).sampleAt k' c' row col = s.sampleAt k' c' row col := by
  intro is
  induction is with
  | nil =>
    intro _ _ s _ _
    exact ⟨s.pics, rfl, rfl, fun _ => rfl, by simp, by intros; rfl⟩
  | cons i is ih =>
    intro hnd hi s hk hr
    have hi4 := hi i (by simp)
    obtain ⟨p, h1, h2, h3, h4⟩ := writeLine_ok (c := c) hp hi4 (F s (oldLine s k c d x y i)).nth ns hns s hk
    have hother : ∀ i' ∈ is, ∀ n < 4, (s.setPics p).sampleAt k c (linePos d x y i' n).1 (linePos d x y i' n).2 =
        s.sampleAt k c (linePos d x y i' n).1 (linePos d x y i' n).2 := by
      intro i' hi' n hn
      rw [h4 _ _ _ _ (linePos_lt hp (hi i' (by simp [hi'])) hn), if_neg]
      rintro ⟨-, -, m, hm, e⟩
      have := (linePos_inj hp).1 e
      exact (List.nodup_cons.1 hnd).1 (this.1 ▸ hi')
    have hready : ∀ i' ∈ is, ∀ n < 4, SampleReady (s.setPics p) k c (linePos d x y i' n).1 (linePos d x y i' n).2 := by
      intro i' hi' n hn
      have := hr i' (by simp [hi']) n hn
      unfold SampleReady at *
      rw [hother i' hi' n hn]
      exact this
    obtain ⟨q, g1, g2, g3, g4, g5⟩ := ih (List.nodup_cons.1 hnd).2 (fun j hj => hi j (by simp [hj])) (s.setPics p)
      (by show k < p.length; omega) hready
    refine ⟨q, ?_, ?_, ?_, ?_, ?_⟩
    · rw [foldE_cons_ok]
      refine ⟨s.setPics p, ?_, g1⟩
      unfold filterLine
      rw [readLine_ok (fun n hn => hr i (by simp) n hn)]
      simp only
      rw [h1]
    · rw [g2]; exact h2
    · intro k'; exact (g3 k').trans (h3 k')
    · intro i' hi' n hn
      rcases List.mem_cons.1 hi' with rfl | hi'
      · refine (g5 _ _ _ _ (linePos_lt hp hi4 (hns n hn)) ?_).trans ?_
        · rintro ⟨-, -, j, hj, m, hm, e⟩
          have := (linePos_inj hp).1 e
          exact (List.nodup_cons.1 hnd).1 (this.1 ▸ hj)
        · rw [h4 _ _ _ _ (linePos_lt hp hi4 (hns n hn)), if_pos ⟨rfl, rfl, n, hn, rfl⟩]
          congr 3
          have := hns n hn
          cases d <;> simp only [linePos, SegmentPlaced] at * <;> simp <;> omega
      · have := g4 i' hi' n hn
        rw [hF] at this
        refine this.trans ?_
        have e : oldLine (s.setPics p) k c d x y i' = oldLine s k c d x y i' := by
          unfold oldLine sampleVal
          simp only [hother i' hi' 0 (by omega), hother i' hi' 1 (by omega), hother i' hi' 2 (by omega),
            hother i' hi' 3 (by omega)]
        rw [e]
    · intro k' c' row col hcol hno
      refine (g5 k' c' row col hcol ?_).trans ?_
      · rintro ⟨a, b, j, hj, m, hm, e⟩
        exact hno ⟨a, b, j, by simp [hj], m, hm, e⟩
      · rw [h4 k' c' row col hcol, if_neg]
        rintro ⟨a, b, m, hm, e⟩
        exact hno ⟨a, b, i, by simp, m, hm, e⟩

/-- The luma line filter in the terms of R179. -/
theorem lineLuma_eq (s : State) (st : Int) (l : Line) :
    lineLuma s.cfg.bitDepth.toNat st l =
      ⟨clipVal s (lumaLineVal l.a l.b l.c l.d st).1, clipVal s (lumaLineVal l.a l.b l.c l.d st).2.1,
        clipVal s (lumaLineVal l.a l.b l.c l.d st).2.2.1, clipVal s (lumaLineVal l.a l.b l.c l.d st).2.2.2⟩ := by
  simp only [lineLuma, lineCore, lumaLineVal, clipB_eq, clip3]
  generalize (l.a - 4 * l.b + 4 * l.c - l.d).tdiv 8 = dd
  have e : ((dd.natAbs : Nat) : Int) = |dd| := Int.natCast_natAbs dd
  rw [e]
  have hs : dd.sign * max 0 (|dd| - max 0 (2 * (|dd| - st))) =
      if 0 ≤ dd then max 0 (|dd| - max 0 (2 * (|dd| - st))) else -max 0 (|dd| - max 0 (2 * (|dd| - st))) := by
    rcases lt_trichotomy dd 0 with h1 | h1 | h1
    · rw [Int.sign_eq_neg_one_of_neg h1, if_neg (by omega)]; ring
    · subst h1; simp; try omega
    · rw [Int.sign_eq_one_of_pos h1, if_pos (by omega)]; ring
  rw [hs]

/-- The chroma line filter: the inner samples as luma, the outer ones kept. -/
theorem lineChroma_eq (s : State) (st : Int) (l : Line) :
    lineChroma s.cfg.bitDepth.toNat st l =
      ⟨l.a, clipVal s (lumaLineVal l.a l.b l.c l.d st).2.1, clipVal s (lumaLineVal l.a l.b l.c l.d st).2.2.1, l.d⟩ := by
  have := lineLuma_eq s st l
  simp only [lineLuma, lineChroma, Line.mk.injEq] at this ⊢
  simp [this.2.1, this.2.2.1]

/-- What a luma segment does where its samples are written (R180). -/
theorem lumaSegment_ok (hp : SegmentPlaced d x y) (st : Nat) (hr : SegmentReady s k .y d x y 4) :
    ∃ p, lumaSegment k d x y st s = .ok (s.setPics p) ∧ p.length = s.pics.length ∧
      (∀ k', (s.setPics p).mapsOf k' = s.mapsOf k') ∧
      (∀ i < 4, ∀ n < 4, (s.setPics p).sampleAt k .y (linePos d x y i n).1 (linePos d x y i n).2 =
        some (toSample ((lineLuma s.cfg.bitDepth.toNat st (oldLine s k .y d x y i)).nth n))) ∧
      ∀ k' c' row col, col < 65536 →
        ¬(k' = k ∧ c' = .y ∧ ∃ i < 4, ∃ n < 4, (row, col) = linePos d x y i n) →
        (s.setPics p).sampleAt k' c' row col = s.sampleAt k' c' row col := by
  have hk : k < s.pics.length := (hr 0 0 (by omega) (by omega)).lt
  have mem4 : ∀ {i : Nat}, i ∈ [0, 1, 2, 3] ↔ i < 4 := by intro i; simp; omega
  obtain ⟨p, h1, h2, h3, h4, h5⟩ := filterLines_ok (c := .y) hp (ns := [0, 1, 2, 3]) (fun n hn => mem4.1 hn)
    (fun s => lineLuma s.cfg.bitDepth.toNat st) (fun _ _ => rfl) [0, 1, 2, 3] (by decide) (fun i hi => mem4.1 hi) s hk
    (fun i hi n hn => hr i n (mem4.1 hi) hn)
  refine ⟨p, h1, h2, h3, fun i hi n hn => h4 i (mem4.2 hi) n (mem4.2 hn), ?_⟩
  intro k' c' row col hcol hno
  refine h5 k' c' row col hcol ?_
  rintro ⟨a, b, i, hi, n, hn, e⟩
  exact hno ⟨a, b, i, mem4.1 hi, n, mem4.1 hn, e⟩

/-- What a chroma segment does where its samples are written (R181). -/
theorem chromaSegment_ok (hp : SegmentPlaced d x y) (st : Nat) (hr : SegmentReady s k c d x y 2) :
    ∃ p, chromaSegment k c d x y st s = .ok (s.setPics p) ∧ p.length = s.pics.length ∧
      (∀ k', (s.setPics p).mapsOf k' = s.mapsOf k') ∧
      (∀ i < 2, ∀ n, n = 1 ∨ n = 2 → (s.setPics p).sampleAt k c (linePos d x y i n).1 (linePos d x y i n).2 =
        some (toSample ((lineChroma s.cfg.bitDepth.toNat st (oldLine s k c d x y i)).nth n))) ∧
      ∀ k' c' row col, col < 65536 →
        ¬(k' = k ∧ c' = c ∧ ∃ i < 2, ∃ n, (n = 1 ∨ n = 2) ∧ (row, col) = linePos d x y i n) →
        (s.setPics p).sampleAt k' c' row col = s.sampleAt k' c' row col := by
  have hk : k < s.pics.length := (hr 0 0 (by omega) (by omega)).lt
  have mem2 : ∀ {i : Nat}, i ∈ [0, 1] ↔ i < 2 := by intro i; simp; omega
  obtain ⟨p, h1, h2, h3, h4, h5⟩ := filterLines_ok (c := c) hp (ns := [1, 2]) (by simp)
    (fun s => lineChroma s.cfg.bitDepth.toNat st) (fun _ _ => rfl) [0, 1] (by decide)
    (fun i hi => by have := mem2.1 hi; omega) s hk (fun i hi n hn => hr i n (mem2.1 hi) hn)
  refine ⟨p, h1, h2, h3, fun i hi n hn => h4 i (mem2.2 hi) n (by simpa using hn), ?_⟩
  intro k' c' row col hcol hno
  refine h5 k' c' row col hcol ?_
  rintro ⟨a, b, i, hi, n, hn, e⟩
  exact hno ⟨a, b, i, mem2.1 hi, n, by simpa using hn, e⟩

/-! ### What the deblocking primitives depend on -/

/-- Two states a deblocking command cannot tell apart. -/
def SameForDeblock (a b : State) : Prop :=
  a.pics = b.pics ∧ a.cfg = b.cfg ∧ a.config = b.config ∧ a.cuLow = b.cuLow ∧ a.cuCod = b.cuCod ∧ a.dpb = b.dpb

/-- The strength depends on the maps, the CU map and the lists alone (R176). -/
theorem bs_congr {a b : State} (h : SameForDeblock a b) (k : Nat) (p q : Nat × Nat) : bs a k p q = bs b k p q := by
  obtain ⟨h1, -, -, h4, -, h6⟩ := h
  simp only [bs, eitherCu, readCuLow, blockRefs, readRefi, motionBs, farAt, readMv, h1, h4, h6]

/-- A strength is 0, 1, 2 or 3 (R176). -/
theorem bs_le {p q : Nat × Nat} {n : Nat} (h : bs s k p q = .ok n) : n ≤ 3 := by
  unfold bs motionBs at h
  split at h <;> (try cases h) <;> try omega
  split at h <;> (try cases h) <;> try omega
  split at h <;> (try cases h)
  split at h <;> (try cases h)
  dsimp only at h
  split at h
  · cases h; omega
  · unfold Except.map at h
    split at h
    · cases h
    · cases h; dsimp only; split <;> omega

theorem readLine_congr {a b : State} (h1 : a.pics = b.pics) (h2 : a.cfg = b.cfg) (k : Nat) (c : Comp) (d : Dir)
    (x y i : Nat) : readLine a k c d x y i = readLine b k c d x y i := by
  simp only [readLine, readLineSample, readSample, State.sampleAt, h1, h2]

theorem writeLine_congr {i : Nat} : ∀ (ns : List Nat) (v : Nat → Int) (a b : State), a.pics = b.pics →
    ∃ p, writeLine k c d x y i ns v a = a.setPics p ∧ writeLine k c d x y i ns v b = b.setPics p := by
  intro ns v
  induction ns with
  | nil => intro a b hab; exact ⟨a.pics, rfl, by rw [hab]; rfl⟩
  | cons n ns ih =>
    intro a b hab
    obtain ⟨p, e1, e2⟩ := ih (writeLineSample k c d x y i n (v n) a) (writeLineSample k c d x y i n (v n) b)
      (by simp only [writeLineSample, State.writeSample, State.setPics_pics, hab])
    exact ⟨p, e1, e2⟩

theorem filterLine_congr {ns : List Nat} {F : Line → Line} {i : Nat} {a b a' : State} (h1 : a.pics = b.pics)
    (h2 : a.cfg = b.cfg) (h : filterLine k c d x y ns F i a = .ok a') :
    ∃ p, a' = a.setPics p ∧ filterLine k c d x y ns F i b = .ok (b.setPics p) := by
  unfold filterLine at *
  rw [readLine_congr h1 h2] at h
  cases hr : readLine b k c d x y i with
  | error e => rw [hr] at h; cases h
  | ok l =>
    rw [hr] at h
    simp only [Except.ok.injEq] at h ⊢
    obtain ⟨p, e1, e2⟩ := writeLine_congr (k := k) (c := c) (d := d) (x := x) (y := y) (i := i) ns (F l).nth a b h1
    exact ⟨p, by rw [← h, e1], e2⟩

theorem filterLines_congr {ns : List Nat} (F : Nat → Line → Line) : ∀ (is : List Nat) {a b a' : State},
    a.pics = b.pics → a.cfg = b.cfg →
    foldE (fun i s => filterLine k c d x y ns (F s.cfg.bitDepth.toNat) i s) is a = .ok a' →
    ∃ p, a' = a.setPics p ∧
      foldE (fun i s => filterLine k c d x y ns (F s.cfg.bitDepth.toNat) i s) is b = .ok (b.setPics p) := by
  intro is
  induction is with
  | nil => intro a b a' h1 h2 h; cases h; exact ⟨a.pics, rfl, by rw [h1]; rfl⟩
  | cons i is ih =>
    intro a b a' h1 h2 h
    obtain ⟨m, g1, g2⟩ := foldE_cons_ok.1 h
    obtain ⟨p, rfl, e2⟩ := filterLine_congr h1 h2 g1
    obtain ⟨q, rfl, e3⟩ := ih (a := a.setPics p) (b := b.setPics p) rfl h2 g2
    refine ⟨q, rfl, foldE_cons_ok.2 ⟨_, ?_, e3⟩⟩
    rw [← h2]; exact e2

/-- A luma segment reads and writes the pictures alone, at the configured bit depth (R180). -/
theorem lumaSegment_congr {st : Int} {a b a' : State} (h1 : a.pics = b.pics) (h2 : a.cfg = b.cfg)
    (h : lumaSegment k d x y st a = .ok a') :
    ∃ p, a' = a.setPics p ∧ lumaSegment k d x y st b = .ok (b.setPics p) :=
  filterLines_congr (ns := [0, 1, 2, 3]) (c := .y) (fun D => lineLuma D st) [0, 1, 2, 3] h1 h2 h

/-- A chroma segment reads and writes the pictures alone, at the configured bit depth (R181). -/
theorem chromaSegment_congr {st : Int} {a b a' : State} (h1 : a.pics = b.pics) (h2 : a.cfg = b.cfg)
    (h : chromaSegment k c d x y st a = .ok a') :
    ∃ p, a' = a.setPics p ∧ chromaSegment k c d x y st b = .ok (b.setPics p) :=
  filterLines_congr (ns := [1, 2]) (fun D => lineChroma D st) [0, 1] h1 h2 h

end Sys2Proof.Machine
end

