-- ==== Sys2Proof/Laws/Dpb.lean ====
section
/-! SUPPORT. What the DPB primitives do: slot updates, demotion, flush, the POC order and the list walks
(44_dpb.md). -/

namespace Sys2Proof.Machine

variable {d : Dpb} {s : State} {j k : Nat}

/-! ### Slots -/

theorem slot_of_ge (h : d.slots.length ≤ k) : d.slot k = {} := by
  unfold Dpb.slot
  rw [List.getD_eq_getElem?_getD, List.getElem?_eq_none h]; rfl

/-- A slot whose record is not the one of an unallocated slot exists. -/
theorem lt_of_slot_ne (h : d.slot k ≠ {}) : k < d.slots.length := by
  by_contra hk
  exact h (slot_of_ge (by omega))

/-- What a slot update does to every slot that exists. -/
theorem slot_modifySlot (hk : k < d.slots.length) (f : Slot → Slot) (j : Nat) :
    (d.modifySlot k f).slot j = if j = k then f (d.slot k) else d.slot j := by
  unfold Dpb.slot Dpb.modifySlot
  simp only [List.getD_eq_getElem?_getD, List.getElem?_modify, Option.map_eq_map]
  by_cases h : k = j
  · subst h
    rw [List.getElem?_eq_getElem hk]
    simp
  · rw [if_neg (fun e => h e.symm)]
    cases d.slots[j]? <;> simp [h]

/-- A slot update that leaves an empty record as it is needs no bound. -/
theorem slot_modifySlot' (f : Slot → Slot) (hf : f {} = {}) (j : Nat) :
    (d.modifySlot k f).slot j = if j = k then f (d.slot k) else d.slot j := by
  by_cases hk : k < d.slots.length
  · exact slot_modifySlot hk f j
  · have e : d.modifySlot k f = d := by
      unfold Dpb.modifySlot
      rw [List.modify_eq_self (by omega)]
    rw [e]
    split
    · next h => subst h; rw [slot_of_ge (by omega), hf]
    · rfl

@[simp] theorem modifySlot_length (d : Dpb) (k : Nat) (f : Slot → Slot) :
    (d.modifySlot k f).slots.length = d.slots.length := by simp [Dpb.modifySlot]

@[simp] theorem modifySlot_pool (d : Dpb) (k : Nat) (f : Slot → Slot) : (d.modifySlot k f).pool = d.pool := rfl
@[simp] theorem modifySlot_refseq (d : Dpb) (k : Nat) (f : Slot → Slot) : (d.modifySlot k f).refseq = d.refseq := rfl
@[simp] theorem modifySlot_list0 (d : Dpb) (k : Nat) (f : Slot → Slot) : (d.modifySlot k f).list0 = d.list0 := rfl
@[simp] theorem modifySlot_list1 (d : Dpb) (k : Nat) (f : Slot → Slot) : (d.modifySlot k f).list1 = d.list1 := rfl

/-- `BORROW(k) = 0`: no list entry names slot k (R49). -/
theorem borrow_eq_zero : d.borrow k = 0 ↔ ∀ l, ∀ e ∈ d.list l, e.slot ≠ k := by
  unfold Dpb.borrow
  rw [List.countP_eq_zero]
  constructor
  · intro h l e he
    have := h e (by cases l <;> simp_all [Dpb.list])
    simpa using this
  · intro h e he
    rcases List.mem_append.1 he with he | he
    · simpa using h .l0 e he
    · simpa using h .l1 e he

/-- The test of DPB_GET (R200). -/
theorem reusable_iff : s.dpb.reusable k = true ↔ Reusable s k := by
  simp only [Dpb.reusable, Reusable, Bool.and_eq_true, Bool.not_eq_true', beq_iff_eq, borrow_eq_zero, and_assoc]

/-! ### Demotion and the IDR flush -/

/-- What demoting one picture does (R203). -/
theorem demote_spec (d : Dpb) (j : Nat) :
    (d.demote j).slots.length = d.slots.length ∧ (d.demote j).list0 = d.list0 ∧ (d.demote j).list1 = d.list1 ∧
    (d.demote j).pool = d.pool.filter (fun i => i != j) ++ [j] ∧
    (d.demote j).refseq = d.refseq.filter (fun i => i != j) ∧
    ∀ k, (d.demote j).slot k = if k = j then { d.slot j with isRef := false } else d.slot k :=
  ⟨by simp [Dpb.demote, Dpb.modifySlot], rfl, rfl, rfl, rfl,
    fun k => slot_modifySlot' (d := d) (k := j) (fun r => { r with isRef := false }) rfl k⟩

/-- What demoting a list of distinct pictures does, in order (R203). -/
theorem demoteAll_spec : ∀ (l : List Nat) (d : Dpb), l.Nodup →
    (l.foldl Dpb.demote d).slots.length = d.slots.length ∧ (l.foldl Dpb.demote d).list0 = d.list0 ∧
    (l.foldl Dpb.demote d).list1 = d.list1 ∧
    (l.foldl Dpb.demote d).pool = d.pool.filter (fun i => decide (i ∉ l)) ++ l ∧
    (l.foldl Dpb.demote d).refseq = d.refseq.filter (fun i => decide (i ∉ l)) ∧
    ∀ k, (l.foldl Dpb.demote d).slot k = if k ∈ l then { d.slot k with isRef := false } else d.slot k := by
  intro l
  induction l with
  | nil => intro d _; simp
  | cons j l ih =>
    intro d hl
    obtain ⟨hj, hl⟩ := List.nodup_cons.1 hl
    obtain ⟨a1, a2, a3, a4, a5, a6⟩ := ih (d.demote j) hl
    obtain ⟨b1, b2, b3, b4, b5, b6⟩ := demote_spec d j
    have hf : ∀ m : List Nat, (m.filter (fun i => i != j)).filter (fun i => decide (i ∉ l)) =
        m.filter (fun i => decide (i ∉ j :: l)) := by
      intro m
      rw [List.filter_filter]
      refine List.filter_congr (fun i _ => ?_)
      simp only [List.mem_cons, not_or, Bool.decide_and, Bool.and_comm]
      by_cases h : i = j <;> simp [h]
    refine ⟨by simpa [List.foldl_cons] using a1.trans b1, a2.trans b2, a3.trans b3, ?_, ?_, ?_⟩
    · rw [List.foldl_cons, a4, b4, List.filter_append, hf]
      simp [hj]
    · rw [List.foldl_cons, a5, b5, hf]
    · intro k
      rw [List.foldl_cons, a6, b6]
      by_cases h1 : k = j
      · subst h1; simp [hj]
      · by_cases h2 : k ∈ l <;> simp [h1, h2]

/-- Rule (b) demotes from the head until fewer than `cap` references are left (R202). -/
theorem demoteOldest_spec (cap : Nat) : ∀ (n : Nat) (d : Dpb), d.refseq.Nodup → d.refseq.length ≤ n →
    Dpb.demoteOldest cap n d = (d.refseq.take (d.refseq.length - (cap - 1))).foldl Dpb.demote d := by
  intro n
  induction n with
  | zero =>
    intro d _ h
    have : d.refseq = [] := List.eq_nil_of_length_eq_zero (by omega)
    simp [this, Dpb.demoteOldest]
  | succ n ih =>
    intro d hd h
    unfold Dpb.demoteOldest
    cases hr : d.refseq with
    | nil => simp
    | cons j l =>
      rw [hr] at hd h
      obtain ⟨hj, hl⟩ := List.nodup_cons.1 hd
      have hq : (d.demote j).refseq = l := by
        rw [(demote_spec d j).2.2.2.2.1, hr, List.filter_cons_of_neg (by simp)]
        exact List.filter_eq_self.2 (fun i hi => by
          have : i ≠ j := fun e => hj (e ▸ hi)
          simpa using this)
      simp only
      split
      · next hc =>
        rw [ih _ (by rw [hq]; exact hl) (by rw [hq]; simpa using h), hq]
        have e : (j :: l).length - (cap - 1) = (l.length - (cap - 1)) + 1 ∨
            ((j :: l).length - (cap - 1) = 1 ∧ l.length - (cap - 1) = 0) := by
          simp only [List.length_cons] at *; omega
        rcases e with e | ⟨e1, e2⟩
        · rw [e]; rfl
        · rw [e1, e2]; rfl
      · next hc =>
        have e : (j :: l).length - (cap - 1) = 0 := by simp only [List.length_cons] at *; omega
        rw [e]; rfl

/-- What the IDR flush does (R202). -/
theorem flush_spec (d : Dpb) :
    d.flush.slots.length = d.slots.length ∧ d.flush.list0 = d.list0 ∧ d.flush.list1 = d.list1 ∧
    d.flush.pool = d.pool ∧ d.flush.refseq = [] ∧
    ∀ k, d.flush.slot k = if k ∈ d.pool then { d.slot k with isRef := false } else d.slot k := by
  have key : ∀ (l : List Nat) (d : Dpb),
      (l.foldl (fun d j => d.modifySlot j fun r => { r with isRef := false }) d).slots.length = d.slots.length ∧
      (l.foldl (fun d j => d.modifySlot j fun r => { r with isRef := false }) d).list0 = d.list0 ∧
      (l.foldl (fun d j => d.modifySlot j fun r => { r with isRef := false }) d).list1 = d.list1 ∧
      (l.foldl (fun d j => d.modifySlot j fun r => { r with isRef := false }) d).pool = d.pool ∧
      ∀ k, (l.foldl (fun d j => d.modifySlot j fun r => { r with isRef := false }) d).slot k =
        if k ∈ l then { d.slot k with isRef := false } else d.slot k := by
    intro l
    induction l with
    | nil => intro d; simp
    | cons j l ih =>
      intro d
      obtain ⟨a1, a2, a3, a4, a5⟩ := ih (d.modifySlot j fun r => { r with isRef := false })
      refine ⟨by rw [List.foldl_cons, a1]; simp, a2, a3, a4, fun k => ?_⟩
      rw [List.foldl_cons, a5, slot_modifySlot' _ rfl]
      by_cases h1 : k = j
      · subst h1; simp
      · by_cases h2 : k ∈ l <;> simp [h1, h2]
  obtain ⟨a1, a2, a3, a4, a5⟩ := key d.pool d
  exact ⟨a1, a2, a3, a4, rfl, a5⟩

/-! ### The POC order -/

/-- Inserting skips the slots with a larger POC and stops at the first one whose POC is not larger. -/
theorem insertByPoc_split (d : Dpb) (j : Nat) : ∀ l₁ l₂ : List Nat,
    (∀ i ∈ l₁, (d.slot j).poc.toNat < (d.slot i).poc.toNat) →
    (∀ i ∈ l₂, (d.slot i).poc.toNat ≤ (d.slot j).poc.toNat) →
    d.insertByPoc j (l₁ ++ l₂) = l₁ ++ j :: l₂
  | [], [], _, _ => rfl
  | [], i :: l₂, _, h => by
    show (if _ then _ else _) = _
    rw [if_pos (h i (by simp))]; rfl
  | i :: l₁, l₂, h, h' => by
    show (if _ then _ else _) = _
    rw [if_neg (by have := h i (by simp); omega)]
    exact congrArg (i :: ·) (insertByPoc_split d j l₁ l₂ (fun a ha => h a (by simp [ha])) h')

/-- The view of R204 is the stable sort of REFSEQ by POC, largest first. -/
theorem view_eq_refView (s : State) : s.dpb.view = s.refView := by
  unfold Dpb.view State.refView
  generalize s.dpb.refseq = l
  induction l with
  | nil => simp
  | cons j l ih =>
    have htr : ∀ a b c : Nat, decide (s.pocOf b ≤ s.pocOf a) = true → decide (s.pocOf c ≤ s.pocOf b) = true →
        decide (s.pocOf c ≤ s.pocOf a) = true := by simp only [decide_eq_true_eq]; omega
    have hto : ∀ a b : Nat, (decide (s.pocOf b ≤ s.pocOf a) || decide (s.pocOf a ≤ s.pocOf b)) = true := by
      simp only [Bool.or_eq_true, decide_eq_true_eq]; omega
    obtain ⟨l₁, l₂, h1, h2, h3⟩ := List.mergeSort_cons htr hto j l
    have hs := List.pairwise_mergeSort htr hto (j :: l)
    rw [h1] at hs
    rw [List.foldr_cons, ih, h1, h2]
    refine insertByPoc_split _ _ _ _ ?_ ?_
    · intro i hi
      have := h3 i hi
      rw [Bool.not_eq_true', decide_eq_false_iff_not] at this
      exact Nat.lt_of_not_le this
    · intro i hi
      have := (List.pairwise_cons.1 (List.pairwise_append.1 hs).2.1).1 i hi
      exact of_decide_eq_true this

/-- The view has the members of REFSEQ. -/
theorem view_perm (s : State) : s.dpb.view.Perm s.dpb.refseq := by
  rw [view_eq_refView]
  exact List.mergeSort_perm _ _

/-! ### The walks of DPB_REFP -/

theorem skip_eq (s : State) (poc lip j : Nat) : s.dpb.skip poc lip j = !(Unskipped s poc lip j) := by
  rw [Unskipped, Bool.not_not]; rfl

/-- The P-slice walk of a list whose candidates all count, from `out` (R205). -/
theorem walkP_later (s : State) (m poc lip lid : Nat) (f : Nat → Bool) : ∀ (l out : List Nat),
    (∀ n j, s.dpb.okP poc lid (out.length + n) j = (decide (s.pocOf j < poc) && f j)) →
    s.dpb.walkP m poc lip lid l out =
      out ++ ((l.filter (fun j => Unskipped s poc lip j && decide (s.pocOf j < poc))).filter f).take
        (m - out.length) := by
  intro l
  induction l with
  | nil => intro out _; simp [Dpb.walkP]
  | cons j l ih =>
    intro out hok
    unfold Dpb.walkP
    rw [skip_eq]
    have h0 := hok 0 j
    rw [Nat.add_zero] at h0
    by_cases hm : m ≤ out.length
    · rw [if_pos hm, Nat.sub_eq_zero_of_le hm]; simp
    rw [if_neg hm]
    cases hu : Unskipped s poc lip j with
    | false => simp [ih out hok, hu]
    | true =>
      simp only [Bool.not_true, Bool.false_eq_true, if_false, h0, hu, Bool.true_and, List.filter_cons]
      cases hp : decide (s.pocOf j < poc) with
      | false => simp [ih out hok]
      | true =>
        cases hf : f j with
        | false => simp [ih out hok, hf]
        | true =>
          have hok' : ∀ n i, s.dpb.okP poc lid ((out ++ [j]).length + n) i = (decide (s.pocOf i < poc) && f i) := by
            intro n i
            have := hok (1 + n) i
            rwa [show (out ++ [j]).length + n = out.length + (1 + n) by simp; omega]
          simp only [Bool.true_and, if_true, List.filter_cons, hf]
          rw [ih _ hok', List.append_assoc, show m - out.length = (m - (out ++ [j]).length) + 1 by simp; omega]
          rfl

/-- The P-slice walk (R205). -/
theorem walkP_eq (s : State) (m poc lip lid : Nat) :
    s.dpb.walkP m poc lip lid s.dpb.view [] = (s.forP poc lip lid).take m := by
  unfold State.forP State.past
  rw [← view_eq_refView]
  by_cases h0 : lid = 0
  · subst h0
    rw [walkP_later s m poc lip 0 (fun _ => true) _ [] (by intro n j; simp [Dpb.okP]; rfl)]
    simp
  by_cases h1 : lid = 1
  · subst h1
    rw [walkP_later s m poc lip 1 (fun j => decide (s.tidOf j ≤ 1)) _ []
      (by intro n j; simp [Dpb.okP]; rfl)]
    simp
  rw [if_neg h0, if_neg h1]
  generalize s.dpb.view = l
  induction l with
  | nil => simp [Dpb.walkP]
  | cons j l ih =>
    have hlater : ∀ n i, s.dpb.okP poc lid ([j].length + n) i =
        (decide (s.pocOf i < poc) && decide (s.tidOf i ≤ 1)) := by
      intro n i
      have h2 : (([j].length + n == 0) : Bool) = false := by simp
      simp only [Dpb.okP, if_neg h0, if_neg h1, h2, Bool.false_or]
      rfl
    unfold Dpb.walkP
    rw [skip_eq]
    by_cases hm : m = 0
    · subst hm; simp
    rw [if_neg (by simp; omega)]
    cases hu : Unskipped s poc lip j with
    | false => simp [ih, hu]
    | true =>
      have hok : s.dpb.okP poc lid ([] : List Nat).length j = decide (s.pocOf j < poc) := by
        simp [Dpb.okP, h0, h1]; rfl
      rw [hok]
      simp only [Bool.not_true, Bool.false_eq_true, if_false, hu, Bool.true_and, List.filter_cons]
      by_cases hp : s.pocOf j < poc
      · rw [if_pos (by simpa using hp), if_pos (by simpa using hp), List.nil_append,
          walkP_later s m poc lip lid _ l [j] hlater]
        obtain ⟨m, rfl⟩ := Nat.exists_eq_succ_of_ne_zero hm
        simp
      · rw [if_neg (by simpa using hp), if_neg (by simpa using hp)]
        exact ih

/-- A B-slice walk picks layer by layer from the candidates of its direction (R206). -/
theorem walkB_eq (s : State) (poc lip : Nat) (before : Bool) : ∀ (l : List Nat) (m nl : Nat),
    s.dpb.walkB poc lip before l m nl =
      layerPicks s.tidOf m nl (l.filter (fun j => Unskipped s poc lip j &&
        (if before then decide (s.pocOf j < poc) else decide (poc < s.pocOf j)))) := by
  intro l
  induction l with
  | nil => intro m nl; cases m <;> simp [Dpb.walkB, layerPicks]
  | cons j l ih =>
    intro m nl
    unfold Dpb.walkB
    rw [skip_eq]
    cases m with
    | zero => simp [layerPicks]
    | succ m =>
      rw [if_neg (by omega)]
      cases hu : Unskipped s poc lip j with
      | false => simp [ih, hu]
      | true =>
        simp only [Bool.not_true, Bool.false_eq_true, if_false, List.filter_cons, hu, Bool.true_and]
        have hok : s.dpb.okB poc before nl j = ((if before then decide (s.pocOf j < poc) else decide (poc < s.pocOf j)) &&
            decide (s.tidOf j ≤ nl)) := rfl
        rw [hok]
        cases hd : (if before then decide (s.pocOf j < poc) else decide (poc < s.pocOf j)) with
        | false => simp [ih]
        | true =>
          by_cases ht : s.tidOf j ≤ nl
          · simp only [Bool.true_and, ht, decide_true, if_true]
            rw [layerPicks, List.dropWhile_cons, if_neg (by simp; omega)]
            simp only
            rw [ih]; rfl
          · simp only [Bool.true_and, ht, decide_false, Bool.false_eq_true, if_false, if_true]
            rw [ih, layerPicks, layerPicks, List.dropWhile_cons, if_pos (by simp; omega)]

/-- List 0 of a B slice (R206). -/
theorem listB0_eq (s : State) (m poc lip lid : Nat) : s.dpb.listB0 m poc lip lid = s.forB0 m poc lip lid := by
  unfold Dpb.listB0 State.forB0 State.past
  rw [walkB_eq, view_eq_refView]; rfl

/-- List 1 of a B slice (R206). -/
theorem listB1_eq (s : State) (m poc lip lid : Nat) : s.dpb.listB1 m poc lip lid = s.forB1 m poc lip lid := by
  unfold Dpb.listB1 State.forB1 State.past State.future
  simp only [walkB_eq, view_eq_refView, if_true, Bool.false_eq_true, if_false]
  split
  · rfl
  · next h =>
    rw [Nat.sub_eq_zero_of_le (Nat.le_of_not_lt h), layerPicks, List.append_nil]

/-! ### Output -/

@[simp] theorem minPoc_eq_none (d : Dpb) : ∀ l : List Nat, d.minPoc l = none ↔ l = []
  | [] => by simp [Dpb.minPoc]
  | j :: l => by
    unfold Dpb.minPoc
    cases d.minPoc l with
    | none => simp
    | some k => simp only; split <;> simp

/-- The picture DPB_OUT selects is one of the list, with a POC no larger than any other's (R207). -/
theorem minPoc_le (d : Dpb) : ∀ (l : List Nat) (k : Nat), d.minPoc l = some k →
    k ∈ l ∧ ∀ j ∈ l, (d.slot k).poc.toNat ≤ (d.slot j).poc.toNat
  | [], _, h => by simp [Dpb.minPoc] at h
  | j :: l, k, h => by
    unfold Dpb.minPoc at h
    cases hm : d.minPoc l with
    | none =>
      rw [hm] at h
      obtain rfl : j = k := by simpa using h
      have : l = [] := (minPoc_eq_none d l).1 hm
      simp [this]
    | some i =>
      obtain ⟨h1, h2⟩ := minPoc_le d l i hm
      rw [hm] at h
      simp only at h
      split at h
      · next hc =>
        obtain rfl : j = k := by simpa using h
        refine ⟨by simp, fun a ha => ?_⟩
        rcases List.mem_cons.1 ha with rfl | ha
        · exact le_rfl
        · exact hc.trans (h2 a ha)
      · next hc =>
        obtain rfl : i = k := by simpa using h
        refine ⟨by simp [h1], fun a ha => ?_⟩
        rcases List.mem_cons.1 ha with rfl | ha
        · omega
        · exact h2 a ha

/-- It is the first of those with the smallest POC (R207). -/
theorem minPoc_of_split (d : Dpb) (k : Nat) (post : List Nat)
    (h2 : ∀ j ∈ post, (d.slot k).poc.toNat ≤ (d.slot j).poc.toNat) : ∀ pre : List Nat,
    (∀ j ∈ pre, (d.slot k).poc.toNat < (d.slot j).poc.toNat) → d.minPoc (pre ++ k :: post) = some k
  | [], _ => by
    show (match d.minPoc post with | none => _ | some i => _) = _
    cases hm : d.minPoc post with
    | none => rfl
    | some i => simp only; rw [if_pos (h2 i (minPoc_le d post i hm).1)]
  | j :: pre, h1 => by
    show (match d.minPoc (pre ++ k :: post) with | none => _ | some i => _) = _
    rw [minPoc_of_split d k post h2 pre (fun a ha => h1 a (by simp [ha]))]
    simp only
    rw [if_neg (by have := h1 j (by simp); omega)]

end Sys2Proof.Machine
end

