-- ==== Sys2Proof/Laws/PerInstr.lean ====
section
/-! SUPPORT. Statements for all commands, made per command: the encoding of a command carries the fields of its
format and keeps every reserved bit 0 (30_encoding.md R86, R87, R93). -/

namespace Sys2Proof.Laws

/-- The encoding of the command has an assigned opcode, and every bit of it that its format reserves is 0. -/
def ReservedClear.Statement (i : Instr) : Prop :=
  ∃ m, formatMask (opcodeOf (encode i)) = some m ∧ fieldsOf (encode i) &&& ~~~m = 0

theorem opcodeOf_mkWord (o : BitVec 8) (f : BitVec 24) : opcodeOf (mkWord o f) = o := by
  unfold opcodeOf mkWord
  rw [BitVec.extractLsb'_append_eq_left]

theorem fieldsOf_mkWord (o : BitVec 8) (f : BitVec 24) : fieldsOf (mkWord o f) = f := by
  unfold fieldsOf mkWord
  rw [BitVec.extractLsb'_append_eq_right]

theorem clear_of_bits {f m : BitVec 24} (h : ∀ i, i < 24 → (f.getLsbD i && !m.getLsbD i) = false) : f &&& ~~~m = 0 := by
  ext i hi
  simpa [BitVec.getLsbD_eq_getElem hi] using h i hi

/-- The form in which the lemmas below are proved. -/
theorem clear_of {i : Instr} {o : BitVec 8} {f m : BitVec 24} (h : encode i = mkWord o f)
    (hm : formatMask o = some m) (hf : f &&& ~~~m = 0) : ReservedClear.Statement i :=
  ⟨m, by rw [h, opcodeOf_mkWord, hm], by rw [h, fieldsOf_mkWord, hf]⟩

theorem ReservedClear.nop : ReservedClear.Statement .nop := clear_of rfl rfl rfl

theorem ReservedClear.reset : ReservedClear.Statement .reset := clear_of rfl rfl rfl

theorem ReservedClear.cfgWr (idx : BitVec 8) :
    ReservedClear.Statement (.cfgWr idx) :=
  clear_of rfl rfl <| clear_of_bits fun i hi => by
    repeat rw [BitVec.getLsbD_append]
    interval_cases i <;> simp

theorem ReservedClear.cfgRd (idx : BitVec 8) :
    ReservedClear.Statement (.cfgRd idx) :=
  clear_of rfl rfl <| clear_of_bits fun i hi => by
    repeat rw [BitVec.getLsbD_append]
    interval_cases i <;> simp

theorem ReservedClear.statClr : ReservedClear.Statement .statClr := clear_of rfl rfl rfl

theorem ReservedClear.brInit : ReservedClear.Statement .brInit := clear_of rfl rfl rfl

theorem ReservedClear.brRead (n : BitVec 6) :
    ReservedClear.Statement (.brRead n) :=
  clear_of rfl rfl <| clear_of_bits fun i hi => by
    repeat rw [BitVec.getLsbD_append]
    interval_cases i <;> simp

theorem ReservedClear.brRead1 : ReservedClear.Statement .brRead1 := clear_of rfl rfl rfl

theorem ReservedClear.brReadUe : ReservedClear.Statement .brReadUe := clear_of rfl rfl rfl

theorem ReservedClear.brReadSe : ReservedClear.Statement .brReadSe := clear_of rfl rfl rfl

theorem ReservedClear.brAligned : ReservedClear.Statement .brAligned := clear_of rfl rfl rfl

theorem ReservedClear.brConsumed : ReservedClear.Statement .brConsumed := clear_of rfl rfl rfl

theorem ReservedClear.sbacInit (f : Bool) :
    ReservedClear.Statement (.sbacInit f) :=
  clear_of rfl rfl <| clear_of_bits fun i hi => by
    repeat rw [BitVec.getLsbD_append]
    interval_cases i <;> simp

theorem ReservedClear.ctxWr (ctx : BitVec 8) :
    ReservedClear.Statement (.ctxWr ctx) :=
  clear_of rfl rfl <| clear_of_bits fun i hi => by
    repeat rw [BitVec.getLsbD_append]
    interval_cases i <;> simp

theorem ReservedClear.ctxRd (ctx : BitVec 8) :
    ReservedClear.Statement (.ctxRd ctx) :=
  clear_of rfl rfl <| clear_of_bits fun i hi => by
    repeat rw [BitVec.getLsbD_append]
    interval_cases i <;> simp

theorem ReservedClear.decBin (ctx : BitVec 8) :
    ReservedClear.Statement (.decBin ctx) :=
  clear_of rfl rfl <| clear_of_bits fun i hi => by
    repeat rw [BitVec.getLsbD_append]
    interval_cases i <;> simp

theorem ReservedClear.decBinEp : ReservedClear.Statement .decBinEp := clear_of rfl rfl rfl

theorem ReservedClear.decBinTrm : ReservedClear.Statement .decBinTrm := clear_of rfl rfl rfl

theorem ReservedClear.decUnary (cb : BitVec 8) (nc : BitVec 4) (ep : Bool) :
    ReservedClear.Statement (.decUnary cb nc ep) :=
  clear_of rfl rfl <| clear_of_bits fun i hi => by
    repeat rw [BitVec.getLsbD_append]
    interval_cases i <;> simp

theorem ReservedClear.decTunary (cb : BitVec 8) (nc : BitVec 4) (ep : Bool) (max : BitVec 8) :
    ReservedClear.Statement (.decTunary cb nc ep max) :=
  clear_of rfl rfl <| clear_of_bits fun i hi => by
    repeat rw [BitVec.getLsbD_append]
    interval_cases i <;> simp

theorem ReservedClear.mcClipmv : ReservedClear.Statement .mcClipmv := clear_of rfl rfl rfl

theorem ReservedClear.mcPred (c : BitVec 2) (l : ListIx) :
    ReservedClear.Statement (.mcPred c l) :=
  clear_of rfl rfl <| clear_of_bits fun i hi => by
    repeat rw [BitVec.getLsbD_append]
    interval_cases i <;> simp

theorem ReservedClear.mcAvg (c : BitVec 2) :
    ReservedClear.Statement (.mcAvg c) :=
  clear_of rfl rfl <| clear_of_bits fun i hi => by
    repeat rw [BitVec.getLsbD_append]
    interval_cases i <;> simp

theorem ReservedClear.mcCu : ReservedClear.Statement .mcCu := clear_of rfl rfl rfl

theorem ReservedClear.dfBs : ReservedClear.Statement .dfBs := clear_of rfl rfl rfl

theorem ReservedClear.dfLuma (d : Dir) :
    ReservedClear.Statement (.dfLuma d) :=
  clear_of rfl rfl <| clear_of_bits fun i hi => by
    repeat rw [BitVec.getLsbD_append]
    interval_cases i <;> simp

theorem ReservedClear.dfChroma (d : Dir) (c : BitVec 2) :
    ReservedClear.Statement (.dfChroma d c) :=
  clear_of rfl rfl <| clear_of_bits fun i hi => by
    repeat rw [BitVec.getLsbD_append]
    interval_cases i <;> simp

theorem ReservedClear.dfClr : ReservedClear.Statement .dfClr := clear_of rfl rfl rfl

theorem ReservedClear.dfCu (d : Dir) :
    ReservedClear.Statement (.dfCu d) :=
  clear_of rfl rfl <| clear_of_bits fun i hi => by
    repeat rw [BitVec.getLsbD_append]
    interval_cases i <;> simp

theorem ReservedClear.dpbGet : ReservedClear.Statement .dpbGet := clear_of rfl rfl rfl

theorem ReservedClear.dpbPut (idr : Bool) (no : Bool) (ref : Bool) (tid : BitVec 3) :
    ReservedClear.Statement (.dpbPut idr no ref tid) :=
  clear_of rfl rfl <| clear_of_bits fun i hi => by
    repeat rw [BitVec.getLsbD_append]
    interval_cases i <;> simp

theorem ReservedClear.dpbRefp (m : BitVec 8) (st : BitVec 2) (lid : BitVec 3) :
    ReservedClear.Statement (.dpbRefp m st lid) :=
  clear_of rfl rfl <| clear_of_bits fun i hi => by
    repeat rw [BitVec.getLsbD_append]
    interval_cases i <;> simp

theorem ReservedClear.dpbOut : ReservedClear.Statement .dpbOut := clear_of rfl rfl rfl

theorem ReservedClear.dpbListRd (i : BitVec 8) (l : ListIx) :
    ReservedClear.Statement (.dpbListRd i l) :=
  clear_of rfl rfl <| clear_of_bits fun i hi => by
    repeat rw [BitVec.getLsbD_append]
    interval_cases i <;> simp

theorem ReservedClear.dpbNumref : ReservedClear.Statement .dpbNumref := clear_of rfl rfl rfl

theorem ReservedClear.dpbSlotRd (k : BitVec 8) :
    ReservedClear.Statement (.dpbSlotRd k) :=
  clear_of rfl rfl <| clear_of_bits fun i hi => by
    repeat rw [BitVec.getLsbD_append]
    interval_cases i <;> simp

end Sys2Proof.Laws
end

