-- ==== Sys2Proof/Laws/Sbac.lean ====
section
/-! SUPPORT. What the primitives of the SBAC engine do: renormalisation, the context-coded bin, the bypass bin, the
alignment bits, the runs of 1 bins (41_sbac.md). -/

namespace Sys2Proof.Machine

variable {s : State}

@[simp] theorem setRv_range (e : Entropy) (r v : Nat) : (e.setRv r v).range = BitVec.ofNat 15 r := rfl
@[simp] theorem setRv_value (e : Entropy) (r v : Nat) : (e.setRv r v).value = BitVec.ofNat 16 v := rfl
@[simp] theorem setRv_bsBase (e : Entropy) (r v : Nat) : (e.setRv r v).bsBase = e.bsBase := rfl
@[simp] theorem setRv_bsLen (e : Entropy) (r v : Nat) : (e.setRv r v).bsLen = e.bsLen := rfl
@[simp] theorem setRv_bitPos (e : Entropy) (r v : Nat) : (e.setRv r v).bitPos = e.bitPos := rfl
@[simp] theorem setRv_ctx (e : Entropy) (r v : Nat) : (e.setRv r v).ctx = e.ctx := rfl

/-- The registers after k doublings that start with RANGE R, VALUE V and the cursor n bits on. -/
def doubled (s : State) (e : Entropy) (n R V k : Nat) : Entropy :=
  { e with
    range := BitVec.ofNat 15 (R * 2 ^ k)
    value := BitVec.ofNat 16 (V * 2 ^ k + packetBits s (s.cursor + n) k)
    bitPos := cursorAfter s (n + k) }

/-- `renorm()` on a written packet (R131): k doublings, the least that bring RANGE to 8192. -/
theorem renormUpTo_ok (hf : PacketFits s) (hw : PacketWritten s) (f : Nat) :
    ∀ {n : Nat} {e : Entropy}, AtCursor s n e → rangeBound ≤ e.range.toNat * 2 ^ f →
      ∃ k ≤ f, renormUpTo s.bsmem f e = .ok (doubled s e n e.range.toNat e.value.toNat k) ∧
        8192 ≤ e.range.toNat * 2 ^ k ∧ (k = 0 ∨ e.range.toNat * 2 ^ k < 16384) := by
  induction f with
  | zero =>
    intro n e h hr
    refine ⟨0, le_refl _, ?_, by simpa [rangeBound] using hr, .inl rfl⟩
    simp [renormUpTo, doubled, packetBits, ← h.pos]
  | succ f ih =>
    intro n e h hr
    rw [renormUpTo]
    by_cases hlt : e.range.toNat < rangeBound
    · rw [if_pos hlt, nextbit_ok hf hw h]
      simp only
      have hR : (BitVec.ofNat 15 (2 * e.range.toNat)).toNat = 2 * e.range.toNat := by
        simp only [rangeBound] at hlt
        rw [BitVec.toNat_ofNat]; omega
      have hc : AtCursor s (n + 1) (Entropy.setRv { e with bitPos := cursorAfter s (n + 1) } (2 * e.range.toNat)
          (2 * e.value.toNat + (packetBit s (s.cursor + n)).toNat)) := ⟨h.base, h.len, rfl⟩
      obtain ⟨k, hk, h1, h2, h3⟩ := ih hc (by
        simp only [setRv_range, hR]
        have : e.range.toNat * 2 ^ (f + 1) = 2 * e.range.toNat * 2 ^ f := by ring
        omega)
      simp only [setRv_range, hR] at h1 h2 h3
      refine ⟨k + 1, by omega, ?_, ?_, ?_⟩
      · rw [h1]
        congr 1
        unfold doubled
        have e1 : 2 * e.range.toNat * 2 ^ k = e.range.toNat * 2 ^ (k + 1) := by ring
        have e2 : n + 1 + k = n + (k + 1) := by omega
        have e3 : s.cursor + (n + 1) = s.cursor + n + 1 := by omega
        have e4 : BitVec.ofNat 16 ((BitVec.ofNat 16 (2 * e.value.toNat + (packetBit s (s.cursor + n)).toNat)).toNat *
            2 ^ k + packetBits s (s.cursor + n + 1) k) =
            BitVec.ofNat 16 (e.value.toNat * 2 ^ (k + 1) + packetBits s (s.cursor + n) (k + 1)) := by
          apply BitVec.eq_of_toNat_eq
          simp only [BitVec.toNat_ofNat]
          rw [packetBits_first, Nat.add_mod, Nat.mod_mul_mod, ← Nat.add_mod]
          congr 1
          ring
        simp only [setRv_value, e1, e2, e3, e4]
        rfl
      · have : e.range.toNat * 2 ^ (k + 1) = 2 * e.range.toNat * 2 ^ k := by ring
        omega
      · right
        have e1 : e.range.toNat * 2 ^ (k + 1) = 2 * e.range.toNat * 2 ^ k := by ring
        rw [e1]
        rcases h3 with rfl | h3
        · simp only [rangeBound] at hlt; simp; omega
        · exact h3
    · rw [if_neg hlt]
      refine ⟨0, by omega, ?_, ?_, .inl rfl⟩
      · simp [doubled, packetBits, ← h.pos]
      · simp only [rangeBound] at hlt; omega

theorem renorm_ok (hf : PacketFits s) (hw : PacketWritten s) {n : Nat} {e : Entropy} (h : AtCursor s n e)
    (hr : 1 ≤ e.range.toNat) :
    ∃ k, renorm s.bsmem e = .ok (doubled s e n e.range.toNat e.value.toNat k) ∧
      8192 ≤ e.range.toNat * 2 ^ k ∧ (k = 0 ∨ e.range.toNat * 2 ^ k < 16384) := by
  obtain ⟨k, -, h1⟩ := renormUpTo_ok hf hw 13 h (by simp only [rangeBound]; omega)
  exact ⟨k, h1⟩

/-- What renormalisation leaves alone and where RANGE ends (any packet). -/
theorem renormUpTo_frame {bs : Memory Byte} (f : Nat) :
    ∀ {e e' : Entropy}, renormUpTo bs f e = .ok e' →
      e' = { e with range := e'.range, value := e'.value, bitPos := e'.bitPos } ∧
        (rangeBound ≤ e.range.toNat * 2 ^ f → 8192 ≤ e'.range.toNat) ∧
        (e.range.toNat < 16384 → e'.range.toNat < 16384) ∧ (e.range.toNat ≤ 16384 → e'.range.toNat ≤ 16384) := by
  induction f with
  | zero =>
    intro e e' h
    simp only [renormUpTo, Except.ok.injEq] at h
    subst h
    simp [rangeBound]
  | succ f ih =>
    intro e e' h
    rw [renormUpTo] at h
    split at h
    · next hlt =>
      split at h
      · cases h
      · next b e1 h1 =>
        have hfr := nextbit_frame h1
        have hR : (BitVec.ofNat 15 (2 * e.range.toNat)).toNat = 2 * e.range.toNat := by
          simp only [rangeBound] at hlt
          rw [BitVec.toNat_ofNat]; omega
        obtain ⟨a, b', c, d⟩ := ih h
        simp only [setRv_range, hR] at b' c d
        simp only [rangeBound] at hlt b' ⊢
        refine ⟨?_, ?_, ?_, ?_⟩
        · rw [hfr] at a
          exact a
        · intro hb
          apply b'
          have : e.range.toNat * 2 ^ (f + 1) = 2 * e.range.toNat * 2 ^ f := by ring
          omega
        · intro _; exact c (by omega)
        · intro _; exact d (by omega)
    · next hlt =>
      simp only [Except.ok.injEq] at h
      subst h
      simp only [rangeBound] at hlt
      exact ⟨rfl, fun _ => by omega, id, id⟩

theorem ctxState_eq (m : CtxModel) : ctxState m = m.toNat / 2 := by
  simp only [ctxState, BitVec.extractLsb'_toNat, Nat.shiftRight_eq_div_pow]
  have := m.isLt
  omega

theorem mkCtx_toNat {st : Nat} (mps : Bool) (h : st < 512) : (mkCtx st mps).toNat = 2 * st + mps.toNat := by
  have hb : mps.toNat < 2 ^ 1 := by cases mps <;> simp
  have e1 : (BitVec.ofNat 9 st).toNat = st := by rw [BitVec.toNat_ofNat]; omega
  have e2 : (BitVec.ofBool mps).toNat = mps.toNat := by cases mps <;> rfl
  rw [mkCtx, BitVec.toNat_append, e1, e2, ← Nat.shiftLeft_add_eq_or_of_lt hb, Nat.shiftLeft_eq]
  omega

/-- An LPS leaves a legal model (R130). -/
theorem adaptLps_legal {st : Nat} (mps : Bool) (_h : st < 512) : ctxLegal (adaptLps st mps) := by
  unfold adaptLps ctxLegal
  have hb : ∀ b : Bool, b.toNat ≤ 1 := by intro b; cases b <;> simp
  have h1 := hb mps
  have h2 := hb (!mps)
  simp only
  split
  · rw [mkCtx_toNat _ (by omega)]; omega
  · rw [mkCtx_toNat _ (by omega)]; omega

/-- An MPS leaves a legal model legal (R130). -/
theorem adaptMps_legal {st : Nat} (mps : Bool) (h : st ≤ 256) : ctxLegal (adaptMps st mps) := by
  unfold adaptMps ctxLegal
  have : mps.toNat ≤ 1 := by cases mps <;> simp
  rw [mkCtx_toNat _ (by omega)]
  omega

theorem ctxState_lt (m : CtxModel) : ctxState m < 512 := by
  rw [ctxState_eq]; have := m.isLt; omega

/-- The LPS sub-range is smaller than RANGE (R130). -/
theorem lpsRange_lt (m : CtxModel) {r : Nat} (h : lpsFloor < r) : lpsRange (ctxState m) r < r := by
  have := ctxState_lt m
  unfold lpsRange
  apply max_lt h
  rw [Nat.div_lt_iff_lt_mul (by norm_num), Nat.mul_comm]
  exact Nat.mul_lt_mul_of_pos_left this (by unfold lpsFloor at h; omega)

/-- `bin(c)` on a written packet (R129): the LPS or the MPS branch, then k doublings. -/
theorem bin_ok (hf : PacketFits s) (hw : PacketWritten s) {n c : Nat} {e : Entropy} {m : CtxModel}
    (h : AtCursor s n e) (hm : e.ctx.read c = some m) (hr : lpsFloor < e.range.toNat) :
    (lpsRange (ctxState m) e.range.toNat + e.value.toNat < e.range.toNat →
      ∃ k, bin s.bsmem c e = .ok (ctxMps m,
          doubled s { e with ctx := e.ctx.write c (adaptMps (ctxState m) (ctxMps m)) } n
            (e.range.toNat - lpsRange (ctxState m) e.range.toNat) e.value.toNat k) ∧
        8192 ≤ (e.range.toNat - lpsRange (ctxState m) e.range.toNat) * 2 ^ k ∧
        (k = 0 ∨ (e.range.toNat - lpsRange (ctxState m) e.range.toNat) * 2 ^ k < 16384)) ∧
    (e.range.toNat ≤ lpsRange (ctxState m) e.range.toNat + e.value.toNat →
      ∃ k, bin s.bsmem c e = .ok (!ctxMps m,
          doubled s { e with ctx := e.ctx.write c (adaptLps (ctxState m) (ctxMps m)) } n
            (lpsRange (ctxState m) e.range.toNat)
            (e.value.toNat - (e.range.toNat - lpsRange (ctxState m) e.range.toNat)) k) ∧
        8192 ≤ lpsRange (ctxState m) e.range.toNat * 2 ^ k ∧
        (k = 0 ∨ lpsRange (ctxState m) e.range.toNat * 2 ^ k < 16384)) := by
  have hlt := lpsRange_lt m hr
  have hge : lpsFloor ≤ lpsRange (ctxState m) e.range.toNat := le_max_left _ _
  have hR := e.range.isLt
  have hV := e.value.isLt
  have hfl : ¬ e.range.toNat ≤ lpsFloor := by omega
  generalize hL : lpsRange (ctxState m) e.range.toNat = L at *
  refine ⟨fun hv => ?_, fun hv => ?_⟩
  · have hn : ¬ e.range.toNat - L ≤ e.value.toNat := by omega
    have hc : AtCursor s n { e.setRv (e.range.toNat - L) e.value.toNat with
        ctx := e.ctx.write c (adaptMps (ctxState m) (ctxMps m)) } := ⟨h.base, h.len, h.pos⟩
    obtain ⟨k, h1, h2⟩ := renorm_ok hf hw hc (by simp; omega)
    have e1 : (BitVec.ofNat 15 (e.range.toNat - L)).toNat = e.range.toNat - L := by rw [BitVec.toNat_ofNat]; omega
    have e2 : (BitVec.ofNat 16 e.value.toNat).toNat = e.value.toNat := by simp
    simp only [setRv_range, e1] at h2
    refine ⟨k, ?_, h2⟩
    unfold bin
    simp only [hm, hfl, if_false, hL, hn]
    rw [h1]
    simp only [setRv_range, setRv_value, e1, e2]
    rfl
  · have hn : e.range.toNat - L ≤ e.value.toNat := by omega
    have hc : AtCursor s n { e.setRv L (e.value.toNat - (e.range.toNat - L)) with
        ctx := e.ctx.write c (adaptLps (ctxState m) (ctxMps m)) } := ⟨h.base, h.len, h.pos⟩
    unfold lpsFloor at hge
    obtain ⟨k, h1, h2⟩ := renorm_ok hf hw hc (by simp; omega)
    have e1 : (BitVec.ofNat 15 L).toNat = L := by rw [BitVec.toNat_ofNat]; omega
    have e2 : (BitVec.ofNat 16 (e.value.toNat - (e.range.toNat - L))).toNat = e.value.toNat - (e.range.toNat - L) := by
      rw [BitVec.toNat_ofNat]; omega
    simp only [setRv_range, e1] at h2
    refine ⟨k, ?_, h2⟩
    unfold bin
    simp only [hm, hfl, if_false, hL, hn, if_true]
    rw [h1]
    simp only [setRv_range, setRv_value, e1, e2]
    rfl

/-- Everything `bin(c)` can do, whatever the packet: it names its context, changes only RANGE, VALUE, BITPOS and
that context, keeps a legal model legal (R130) and ends with 8192 <= RANGE < 16384 from a RANGE of at most 16384
(R137). -/
theorem bin_cases {bs : Memory Byte} {c : Nat} {e e' : Entropy} {b : Bool} (h : bin bs c e = .ok (b, e')) :
    ∃ m m', e.ctx.read c = some m ∧ lpsFloor < e.range.toNat ∧
      e' = { e with range := e'.range, value := e'.value, bitPos := e'.bitPos, ctx := e.ctx.write c m' } ∧
      (ctxLegal m → ctxLegal m') ∧ 8192 ≤ e'.range.toNat ∧
      (e.range.toNat ≤ 16384 → e'.range.toNat < 16384) := by
  unfold bin at h
  split at h
  · cases h
  · next m hm =>
    split at h
    · cases h
    · next hfl =>
      have hr : lpsFloor < e.range.toNat := by omega
      have hlt := lpsRange_lt m hr
      have hge : lpsFloor ≤ lpsRange (ctxState m) e.range.toNat := le_max_left _ _
      have hR := e.range.isLt
      generalize hL : lpsRange (ctxState m) e.range.toNat = L at *
      simp only at h
      split at h
      · cases h
      · next e1 h1 =>
        simp only [Except.ok.injEq, Prod.mk.injEq] at h
        obtain ⟨-, rfl⟩ := h
        have hleg : ctxLegal m → ctxState m ≤ 256 := by rw [ctxState_eq]; exact id
        obtain ⟨a, b', c', -⟩ := renormUpTo_frame 13 h1
        unfold lpsFloor at hge
        by_cases hn : e.range.toNat - L ≤ e.value.toNat
        · simp only [hn, if_true, setRv_range, rangeBound, BitVec.toNat_ofNat] at a b' c'
          refine ⟨m, adaptLps (ctxState m) (ctxMps m), hm, hr, a, fun _ => adaptLps_legal _ (ctxState_lt m),
            b' (by omega), fun _ => c' (by omega)⟩
        · simp only [hn, if_false, setRv_range, rangeBound, BitVec.toNat_ofNat] at a b' c'
          refine ⟨m, adaptMps (ctxState m) (ctxMps m), hm, hr, a, fun hl => adaptMps_legal _ (hleg hl),
            b' (by omega), fun _ => c' (by unfold lpsFloor at hr; omega)⟩

/-- `ep()` on a written packet (R133). -/
theorem ep_ok (hf : PacketFits s) (hw : PacketWritten s) {n : Nat} {e : Entropy} (h : AtCursor s n e) :
    ep s.bsmem e = .ok (decide (e.range.toNat / 2 ≤ e.value.toNat),
      { e with
        range := BitVec.ofNat 15 (2 * (e.range.toNat / 2))
        value := BitVec.ofNat 16 (2 * (if e.range.toNat / 2 ≤ e.value.toNat then e.value.toNat - e.range.toNat / 2
          else e.value.toNat) + (packetBit s (s.cursor + n)).toNat)
        bitPos := cursorAfter s (n + 1) }) := by
  simp only [ep, nextbit_ok hf hw h]
  rfl

/-- Everything `ep()` can do, whatever the packet: RANGE loses its low bit, no context changes. -/
theorem ep_cases {bs : Memory Byte} {e e' : Entropy} {b : Bool} (h : ep bs e = .ok (b, e')) :
    e' = { e with range := e'.range, value := e'.value, bitPos := e'.bitPos } ∧
      e'.range.toNat = 2 * (e.range.toNat / 2) := by
  unfold ep at h
  simp only at h
  split at h
  · cases h
  · next x e1 h1 =>
    simp only [Except.ok.injEq, Prod.mk.injEq] at h
    obtain ⟨-, rfl⟩ := h
    have hfr := nextbit_frame h1
    have hR := e.range.isLt
    refine ⟨?_, ?_⟩
    · rw [hfr]; rfl
    · simp only [setRv_range, BitVec.toNat_ofNat]; omega

/-- The alignment bits of a written packet. -/
theorem alignBits_ok (hf : PacketFits s) (hw : PacketWritten s) (k : Nat) :
    ∀ {n : Nat} {bad : Bool} {e : Entropy}, AtCursor s n e →
      alignBits s.bsmem k bad e =
        .ok (bad || decide (∃ j < k, packetBit s (s.cursor + n + j) = true), { e with bitPos := cursorAfter s (n + k) }) := by
  induction k with
  | zero => intro n bad e h; simp [alignBits, ← h.pos]
  | succ k ih =>
    intro n bad e h
    rw [alignBits, nextbit_ok hf hw h]
    simp only
    rw [ih h.move, Bool.or_assoc]
    have e2 : n + 1 + k = n + (k + 1) := by omega
    rw [e2]
    congr 3
    rw [Bool.eq_iff_iff]
    simp only [Bool.or_eq_true, decide_eq_true_eq]
    constructor
    · rintro (h0 | ⟨j, hj, h1⟩)
      · exact ⟨0, by omega, by simpa using h0⟩
      · exact ⟨j + 1, by omega, by rw [← h1]; congr 1; omega⟩
    · rintro ⟨j, hj, h1⟩
      cases j with
      | zero => left; simpa using h1
      | succ j => right; exact ⟨j, by omega, by rw [← h1]; congr 1; omega⟩

theorem alignBits_frame {bs : Memory Byte} (k : Nat) :
    ∀ {bad r : Bool} {e e' : Entropy}, alignBits bs k bad e = .ok (r, e') → e' = { e with bitPos := e'.bitPos } := by
  induction k with
  | zero => intro bad r e e' h; simp only [alignBits, Except.ok.injEq, Prod.mk.injEq] at h; rw [← h.2]
  | succ k ih =>
    intro bad r e e' h
    rw [alignBits] at h
    split at h
    · cases h
    · next b e1 h1 =>
      have := ih h
      rw [nextbit_frame h1] at this
      exact this

/-- `n` bins in a row are 1, the first having number `k`, and lead from `e` to `e'`. -/
def EngineOnes (f : Nat → Entropy → Except Fault (Bool × Entropy)) : Nat → Nat → Entropy → Entropy → Prop
  | 0, _, e, e' => e' = e
  | n + 1, k, e, e' => ∃ e₁, f k e = .ok (true, e₁) ∧ EngineOnes f n (k + 1) e₁ e'

/-- A run of n 1 bins and a 0 bin after it end a unary symbol; n 1 bins reach a limit of n; a bin after them that stops
with a fault stops the symbol with it (R135, R136). -/
theorem unaryFrom_run {f : Nat → Entropy → Except Fault (Bool × Entropy)} (n : Nat) :
    ∀ {lim k : Nat} {e e₁ : Entropy}, EngineOnes f n k e e₁ →
      (∀ e₂, n < lim → f (k + n) e₁ = .ok (false, e₂) → unaryFrom f lim k e = .ok (some (k + n), e₂)) ∧
      unaryFrom f n k e = .ok (none, e₁) ∧
      ∀ x, n < lim → f (k + n) e₁ = .error x → unaryFrom f lim k e = .error x := by
  induction n with
  | zero =>
    intro lim k e e₁ h
    cases h
    refine ⟨fun e₂ hl h0 => ?_, rfl, fun x hl h0 => ?_⟩ <;>
      (obtain ⟨l, rfl⟩ : ∃ l, lim = l + 1 := ⟨lim - 1, by omega⟩
       simp only [Nat.add_zero] at h0 ⊢
       simp [unaryFrom, h0])
  | succ n ih =>
    intro lim k e e₁ h
    obtain ⟨e', h1, h2⟩ := h
    refine ⟨fun e₂ hl h0 => ?_, ?_, fun x hl h0 => ?_⟩
    · obtain ⟨l, rfl⟩ : ∃ l, lim = l + 1 := ⟨lim - 1, by omega⟩
      have e1 : k + (n + 1) = k + 1 + n := by omega
      rw [e1] at h0 ⊢
      simp only [unaryFrom, h1]
      exact (ih h2).1 e₂ (by omega) h0
    · simp only [unaryFrom, h1]
      exact (ih (lim := 0) h2).2.1
    · obtain ⟨l, rfl⟩ : ∃ l, lim = l + 1 := ⟨lim - 1, by omega⟩
      have e1 : k + (n + 1) = k + 1 + n := by omega
      rw [e1] at h0
      simp only [unaryFrom, h1]
      exact (ih h2).2.2 x (by omega) h0

/-- An invariant of every bin is one of a unary symbol. -/
theorem unaryFrom_inv {f : Nat → Entropy → Except Fault (Bool × Entropy)} (P : Entropy → Prop)
    (hf : ∀ k e b e', P e → f k e = .ok (b, e') → P e') (n : Nat) :
    ∀ {k : Nat} {e e' : Entropy} {r : Option Nat}, P e → unaryFrom f n k e = .ok (r, e') → P e' := by
  induction n with
  | zero => intro k e e' r hp h; simp only [unaryFrom, Except.ok.injEq, Prod.mk.injEq] at h; rw [← h.2]; exact hp
  | succ n ih =>
    intro k e e' r hp h
    rw [unaryFrom] at h
    split at h
    · cases h
    · next e1 h1 =>
      simp only [Except.ok.injEq, Prod.mk.injEq] at h
      rw [← h.2]
      exact hf _ _ _ _ hp h1
    · next e1 h1 => exact ih (hf _ _ _ _ hp h1) h

end Sys2Proof.Machine
end

