-- ==== Sys2Proof/Tests/Slice0.lean ====
section
/-! SUPPORT. Tests: ill-formed commands, the words of R94, one step per command with the results of
95_test_vectors.md (each test names its vector or the rule whose example it is), and one witness per statement
that has hypotheses. -/

namespace Sys2Proof.Tests

set_option Elab.async false

open Sys2Proof Sys2Proof.Machine

/-! ### Well-formedness: each check refuses an ill-formed command -/

theorem test_wf_cfg_index : Instr.wellFormed (.cfgWr 0x0A) = false ∧ Instr.wellFormed (.cfgRd 0x0B) = false := by decide
theorem test_wf_br_read : Instr.wellFormed (.brRead 0) = false ∧ Instr.wellFormed (.brRead 33) = false := by decide
theorem test_wf_unary : Instr.wellFormed (.decUnary 250 10 false) = false ∧ Instr.wellFormed (.decUnary 1 0 true) = false ∧
    Instr.wellFormed (.decUnary 0 0 false) = false := by decide
theorem test_wf_tunary : Instr.wellFormed (.decTunary 0 1 true 4) = false ∧
    Instr.wellFormed (.decTunary 253 4 false 4) = false := by decide
theorem test_wf_component : Instr.wellFormed (.mcPred 3 .l0) = false ∧ Instr.wellFormed (.mcAvg 3) = false ∧
    Instr.wellFormed (.dfChroma .vertical 0) = false ∧ Instr.wellFormed (.dfChroma .vertical 3) = false := by decide
theorem test_wf_slice_type : Instr.wellFormed (.dpbRefp 1 3 0) = false := by decide

/-! ### Decoding: words written out from R87 and R89 -/

theorem test_decode_system : decode 0x00000000 = .ok .nop ∧ decode 0x01000000 = .ok .reset ∧
    decode 0x02000008 = .ok (.cfgWr 8) ∧ decode 0x03000006 = .ok (.cfgRd 6) ∧ decode 0x04000000 = .ok .statClr := by decide
theorem test_decode_reader : decode 0x10000000 = .ok .brInit ∧ decode 0x1100001F = .ok (.brRead 31) ∧
    decode 0x12000000 = .ok .brRead1 ∧ decode 0x13000000 = .ok .brReadUe ∧ decode 0x14000000 = .ok .brReadSe ∧
    decode 0x15000000 = .ok .brAligned ∧ decode 0x16000000 = .ok .brConsumed := by decide
theorem test_decode_sbac : decode 0x20000001 = .ok (.sbacInit true) ∧ decode 0x21000005 = .ok (.ctxWr 5) ∧
    decode 0x220000FF = .ok (.ctxRd 255) ∧ decode 0x23000080 = .ok (.decBin 128) ∧ decode 0x24000000 = .ok .decBinEp ∧
    decode 0x25000000 = .ok .decBinTrm ∧ decode 0x26000AFA = .ok (.decUnary 250 10 false) ∧
    decode 0x27051200 = .ok (.decTunary 0 2 true 5) := by decide
theorem test_decode_mc : decode 0x30000000 = .ok .mcClipmv ∧ decode 0x31000005 = .ok (.mcPred 1 .l1) ∧
    decode 0x32000002 = .ok (.mcAvg 2) ∧ decode 0x33000000 = .ok .mcCu := by decide
theorem test_decode_df : decode 0x40000000 = .ok .dfBs ∧ decode 0x41000001 = .ok (.dfLuma .horizontal) ∧
    decode 0x42000004 = .ok (.dfChroma .vertical 2) ∧ decode 0x43000000 = .ok .dfClr ∧
    decode 0x44000000 = .ok (.dfCu .vertical) := by decide
theorem test_decode_dpb : decode 0x50000000 = .ok .dpbGet ∧ decode 0x51000007 = .ok (.dpbPut true true true 0) ∧
    decode 0x5100003A = .ok (.dpbPut false true false 7) ∧ decode 0x52000E02 = .ok (.dpbRefp 2 2 3) ∧
    decode 0x53000000 = .ok .dpbOut ∧ decode 0x54000102 = .ok (.dpbListRd 2 .l1) ∧ decode 0x55000000 = .ok .dpbNumref ∧
    decode 0x56000003 = .ok (.dpbSlotRd 3) := by decide
/-- V-SY7, V-SY8, V-SY9. -/
theorem test_decode_illegal : decode 0x05000000 = .error .unassigned ∧ decode 0xF0000000 = .error .customSpace ∧
    decode 0x10000001 = .error .reservedBit := by decide

/-! ### Small machines -/

/-- The luma test table of 95_test_vectors.md on the rows R154 can select. -/
def lumaRow (r : Nat) : List Int :=
  match r with
  | 4 => [0, 1, -5, 52, 20, -5, 1, 0]
  | 8 => [0, 2, -10, 40, 40, -10, 2, 0]
  | 12 => [0, 1, -5, 20, 52, -5, 1, 0]
  | _ => [0, 0, 0, 64, 0, 0, 0, 0]

/-- The chroma test table: linear interpolation. -/
def chromaRow (r : Nat) : List Int := [0, 64 - 2 * (r : Int), 2 * (r : Int), 0]

/-- Small legal parameters with the test tables of 95_test_vectors.md. -/
def tiny : Config where
  bsSize := 64
  pbCap := 8
  maxRefList := 4
  maxW := 16
  maxH := 16
  lumaCoef := (List.range 16).map lumaRow
  chromaCoef := (List.range 32).map chromaRow
  dfTbl := [(List.range 52).map (· / 4 + 2), (List.range 52).map (· / 6 + 1), (List.range 52).map (· / 8),
    (List.range 52).map (fun _ => 0)]
  chromaQpMap := List.range 52

/-- After reset, with these parameters. -/
def blank : State := State.resetOf tiny

/-- A bitstream memory that holds `l` from address `a` on. -/
def bytesAt : Nat → List Byte → Memory Byte
  | _, [] => []
  | a, b :: l => (a, b) :: bytesAt (a + 1) l

/-- The reader at the start of the packet `l` at address 0. -/
def packet (l : List Byte) : State :=
  { blank with bsmem := bytesAt 0 l, ent := { bsLen := BitVec.ofNat 32 l.length } }

/-- The same packet after SBAC_INIT read 14 bits of value `v`, with model `m` in contexts 0 to 2. -/
def primed (l : List Byte) (v : BitVec 16) (m : CtxModel) : State :=
  { packet l with
    ent := { bsLen := BitVec.ofNat 32 l.length, bitPos := 14, value := v, ctx := [(0, m), (1, m), (2, m)] } }

/-- The two sides P and Q of an edge in slot 2 of an 8 x 8 sequence, with the lists of 95_test_vectors.md. -/
def edge (p q : BitVec 31) (rp rq : Byte × Byte) (mp mq : MotionVec × MotionVec) : State :=
  { blank with
    cfg := { picW := 8, picH := 8, curSlot := 2 }, arg1 := 1
    cuLow := [(cellKey 0 0, p), (cellKey 0 1, q)]
    dpb := { slots := [], list0 := [⟨1, 8⟩, ⟨0, 0⟩], list1 := [⟨0, 0⟩, ⟨1, 8⟩] }
    pics := [{}, {}, {
      mv0 := [(cellKey 0 0, mp.1), (cellKey 0 1, mq.1)], mv1 := [(cellKey 0 0, mp.2), (cellKey 0 1, mq.2)]
      refi0 := [(cellKey 0 0, rp.1), (cellKey 0 1, rq.1)], refi1 := [(cellKey 0 0, rp.2), (cellKey 0 1, rq.2)] }] }

/-- A plane of w x h samples. -/
def planeOf (w h : Nat) (f : Nat → Nat → Nat) : Memory Sample :=
  (blockCells h w).map (fun p => (cellKey p.1 p.2, BitVec.ofNat 16 (f p.1 p.2)))

/-- The set-up of V-MC1 to V-MC13: a 16 x 16 reference in slot 0, alone in list 0. -/
def mcState : State :=
  { blank with
    cfg := { picW := 16, picH := 16 }
    dpb := { slots := [], list0 := [⟨0, 0⟩] }
    pics := [{ y := planeOf 16 16 (fun y x => 16 * y + x), cb := planeOf 8 8 (fun y x => 10 * y + x) }] }

/-- The outcome is a next state that passes a test. -/
def nextHas (r : Result) (f : State → Bool) : Bool :=
  match r with
  | .next t => f t
  | _ => false

/-! ### One step per command -/

/-- V-SY1. -/
theorem test_nop : nextHas (exec .nop { blank with code := .engineHalted, sticky := true })
    (fun t => t.statusWord == 0x100) = true := by decide
/-- V-SY11. -/
theorem test_reset : nextHas (exec .reset { packet [0xA5] with sticky := true, arg0 := 3, cfg := { picW := 16 } })
    (fun t => t.cfg.picW == 0 && t.cfg.curSlot == 0xFFFFFFFF && t.ent.range == 16384 && t.statusWord == 0 &&
      t.bsmem == [(0, 0xA5)]) = true := by decide
/-- V-SY3. -/
theorem test_cfg_wr_unsupported : nextHas (exec (.cfgWr 2) { blank with arg0 := 12 })
    (fun t => t.code == .unsupported && t.cfg.bitDepth == 8) = true := by decide
/-- R234: a new picture width discards the DPB. -/
theorem test_cfg_wr_reinit :
    nextHas (exec (.cfgWr 0) { blank with arg0 := 8, cfg := { picW := 16, picH := 8, curSlot := 0 } })
      (fun t => t.code == .ok && t.cfg.picW == 8 && t.cfg.curSlot == 0xFFFFFFFF && t.dpb == Dpb.resetOf tiny) = true := by
  decide
/-- V-SY2. -/
theorem test_cfg_rd : nextHas (exec (.cfgRd 6) blank) (fun t => t.code == .ok && t.res0 == 1) = true := by decide
/-- V-SY6 with V-SY13. -/
theorem test_cfg_rd_reserved : nextHas (exec (.cfgRd 11) { blank with res0 := 7 })
    (fun t => t.code == .illegalCommand && t.res0 == 7) = true := by decide
/-- V-SY10. -/
theorem test_stat_clr : nextHas (exec .statClr { blank with code := .malformedBitstream, sticky := true })
    (fun t => t.statusWord == 0) = true := by decide
/-- V-BR24. -/
theorem test_br_init : nextHas (exec .brInit { packet [0xA5] with sticky := true, arg1 := 1 })
    (fun t => t.statusWord == 0 && t.ent.bitPos == 0 && t.ent.bsLen == 1) = true := by decide
/-- V-BR23. -/
theorem test_br_init_outside : nextHas (exec .brInit { packet [0xA5] with sticky := true, arg0 := 63, arg1 := 2 })
    (fun t => t.code == .illegalCommand && t.sticky && t.ent.bsLen == 1) = true := by decide
/-- V-BR19, first read. -/
theorem test_br_read : nextHas (exec (.brRead 32) (packet [0x12, 0x34, 0x56, 0x78, 0x9A]))
    (fun t => t.res0 == 0x12345678 && t.ent.bitPos == 32) = true := by decide +kernel
/-- V-BR21, second read: from bit 3. -/
theorem test_br_read_straddle :
    nextHas (exec (.brRead 32) { packet [0x12, 0x34, 0x56, 0x78, 0x9A] with ent := { bsLen := 5, bitPos := 3 } })
      (fun t => t.res0 == 0x91A2B3C4) = true := by decide +kernel
/-- The example of R109. -/
theorem test_br_read1 : nextHas (exec .brRead1 (packet [0x80])) (fun t => t.res0 == 1 && t.ent.bitPos == 1) = true := by
  decide +kernel
/-- V-BR4. -/
theorem test_br_read_ue : nextHas (exec .brReadUe (packet [0x20])) (fun t => t.res0 == 3 && t.ent.bitPos == 5) = true := by
  decide +kernel
/-- V-BR14. -/
theorem test_br_read_ue_malformed : nextHas (exec .brReadUe { packet [0, 0, 0, 0, 0x80] with res0 := 9 })
    (fun t => t.statusWord == 0x101 && t.ent.bitPos == 32 && t.res0 == 9) = true := by decide +kernel
/-- V-BR11. -/
theorem test_br_read_se : nextHas (exec .brReadSe (packet [0x28])) (fun t => t.res0 == 0xFFFFFFFE && t.ent.bitPos == 5) = true := by
  decide +kernel
/-- V-BR17. -/
theorem test_br_read_se_min : nextHas (exec .brReadSe (packet [0, 0, 0, 1, 0xFF, 0xFF, 0xFF, 0xFE]))
    (fun t => t.res0 == 0x80000001 && t.ent.bitPos == 63) = true := by decide +kernel
/-- The example of R113. -/
theorem test_br_aligned : nextHas (exec .brAligned { packet [0] with ent := { bitPos := 3 } }) (fun t => t.res0 == 0) = true := by
  decide
/-- The example of R114. -/
theorem test_br_consumed : nextHas (exec .brConsumed { packet [0] with ent := { bitPos := 16 } }) (fun t => t.res0 == 2) = true := by
  decide
/-- P2, step 2. -/
theorem test_sbac_init : nextHas (exec (.sbacInit true) (packet [0x5A, 0x3C, 0x96, 0xE1]))
    (fun t => t.ent.range == 16384 && t.ent.value == 5775 && t.ent.bitPos == 14 &&
      t.ent.ctx.read 255 == some 0x200) = true := by decide +kernel
/-- V-SB24, the write. -/
theorem test_ctx_wr : nextHas (exec (.ctxWr 5) { blank with arg0 := 0xC8 }) (fun t => t.ent.ctx.read 5 == some 0xC8) = true := by
  decide
/-- V-SB23. -/
theorem test_ctx_wr_illegal : nextHas (exec (.ctxWr 0) { blank with arg0 := 0x202 })
    (fun t => t.code == .illegalCommand && t.ent.ctx.read 0 == none) = true := by decide
/-- V-SB24, the read. -/
theorem test_ctx_rd : nextHas (exec (.ctxRd 5) { blank with ent := { ctx := [(5, 0xC8)] } }) (fun t => t.res0 == 0xC8) = true := by
  decide
/-- R127: a context never written is a model fault. -/
theorem test_ctx_rd_unwritten : exec (.ctxRd 5) blank = .fault (.unwrittenContext 5) := rfl
/-- V-SB7: the MPS path. -/
theorem test_dec_bin_mps : nextHas (exec (.decBin 0) (primed [0x80, 0, 0, 0] 8192 0x0C8))
    (fun t => t.res0 == 0 && t.ent.range == 13184 && t.ent.value == 8192 && t.ent.ctx.read 0 == some 0x0C2) = true := by
  decide +kernel
/-- V-SB5: the LPS path with 5 renormalisation steps. -/
theorem test_dec_bin_lps : nextHas (exec (.decBin 0) (primed [0xFF, 0xFF, 0xFF, 0xFF] 16383 0x002))
    (fun t => t.res0 == 1 && t.ent.range == 13984 && t.ent.value == 13983 && t.ent.ctx.read 0 == some 0x022 &&
      t.ent.bitPos == 19) = true := by decide +kernel
/-- V-SB10. -/
theorem test_dec_bin_ep : nextHas (exec .decBinEp (primed [0x80, 0, 0, 0] 8192 0))
    (fun t => t.res0 == 1 && t.ent.range == 16384 && t.ent.value == 0 && t.ent.bitPos == 15) = true := by decide +kernel
/-- V-SB12: an odd RANGE. -/
theorem test_dec_bin_ep_odd :
    nextHas (exec .decBinEp { packet [0, 0] with ent := { bsLen := 2, range := 12345, value := 6172 } })
      (fun t => t.res0 == 1 && t.ent.range == 12344 && t.ent.value == 0 && t.ent.bitPos == 1) = true := by decide +kernel
/-- V-SB14. -/
theorem test_dec_bin_trm : nextHas (exec .decBinTrm (primed [0xFF, 0xFC, 0] 16383 0))
    (fun t => t.res0 == 1 && t.ent.range == 16383 && t.ent.bitPos == 16 && t.statusWord == 0) = true := by decide +kernel
/-- V-SB15. -/
theorem test_dec_bin_trm_malformed : nextHas (exec .decBinTrm (primed [0xFF, 0xFD, 0] 16383 0))
    (fun t => t.statusWord == 0x101 && t.ent.bitPos == 16) = true := by decide +kernel
/-- V-SB18. -/
theorem test_dec_unary : nextHas (exec (.decUnary 0 3 false) (primed [0, 0, 0, 0] 0 0x200))
    (fun t => t.res0 == 0 && t.ent.ctx.read 0 == some 0x1F0) = true := by decide +kernel
/-- V-SB17. -/
theorem test_dec_tunary :
    nextHas (exec (.decTunary 0 2 false 5) (primed [0xFF, 0xFF, 0xFF, 0xFF, 0xFF, 0xFF, 0xFF, 0xFF] 16383 0x200))
      (fun t => t.res0 == 2 && t.ent.ctx == [(0, 0x1F1), (1, 0x201), (2, 0x200)] && t.ent.range == 15872 &&
        t.ent.value == 15871) = true := by decide +kernel
/-- V-SB19. -/
theorem test_dec_tunary_one : nextHas (exec (.decTunary 0 3 false 1) (primed [0, 0, 0, 0] 0 0x200))
    (fun t => t.res0 == 0 && t.ent.bitPos == 14) = true := by decide
/-- V-MC16. -/
theorem test_mc_clipmv_left : nextHas (exec .mcClipmv { mcState with arg1 := 0x0000FC18, arg2 := 0x0808 })
    (fun t => t.res0 == 0x0000FF00) = true := by decide +kernel
/-- V-MC17. -/
theorem test_mc_clipmv_right :
    nextHas (exec .mcClipmv { mcState with arg0 := 0x00080008, arg1 := 0x03E803E8, arg2 := 0x0808 })
      (fun t => t.res0 == 0x01000100) = true := by decide +kernel
/-- V-MC5: the two-axis path. -/
theorem test_mc_pred_luma :
    nextHas (exec (.mcPred 0 .l0) { mcState with arg0 := 0x00040004, arg1 := 0x00020002, arg2 := 0x0102 })
      (fun t => t.predVal .l0 .y 0 0 == some 77 && t.predVal .l0 .y 0 1 == some 78) = true := by decide +kernel
/-- V-MC12: two-axis chroma. -/
theorem test_mc_pred_chroma :
    nextHas (exec (.mcPred 1 .l0) { mcState with arg0 := 0x00020002, arg1 := 0x00050003, arg2 := 0x0202 })
      (fun t => t.predVal .l0 .cb 0 0 == some 29 && t.predVal .l0 .cb 1 1 == some 40) = true := by decide +kernel
/-- V-MC20. -/
theorem test_mc_avg :
    nextHas (exec (.mcAvg 0) { blank with
        arg2 := 0x0101, pred := [(predKey .l0 .y 0 0, 100), (predKey .l1 .y 0 0, 45)] })
      (fun t => t.predOutVal .y 0 0 == some 73) = true := by decide +kernel
/-- R83, D48: a cell above the maximum of the bit depth is a model fault. -/
theorem test_mc_avg_too_large :
    exec (.mcAvg 0) { blank with arg2 := 0x0101, pred := [(predKey .l0 .y 0 0, 256), (predKey .l1 .y 0 0, 45)] } =
      .fault (.predTooLarge .l0 .y 0 0) := rfl
/-- R7, D31: the default of CHROMA_QP_MAP. -/
theorem test_default_qp_map : State.reset.config.chromaQpMap = List.range 52 := rfl
/-- P4 in small: two constant references, 100 and 51 in luma, average to 76. -/
theorem test_mc_cu :
    nextHas (exec .mcCu { blank with
        cfg := { picW := 8, picH := 8 }, arg0 := 0x00040004, arg1 := 4, arg3 := 2
        dpb := { slots := [], list0 := [⟨0, 0⟩], list1 := [⟨1, 4⟩] }
        pics := [{ y := planeOf 8 8 (fun _ _ => 100), cb := planeOf 4 4 (fun _ _ => 50), cr := planeOf 4 4 (fun _ _ => 60) },
          { y := planeOf 8 8 (fun _ _ => 51), cb := planeOf 4 4 (fun _ _ => 51), cr := planeOf 4 4 (fun _ _ => 61) }] })
      (fun t => t.predOutVal .y 3 3 == some 76 && t.predOutVal .cr 1 1 == some 61 && t.predOutVal .y 0 4 == none) = true := by
  decide +kernel
/-- V-BS9. -/
theorem test_df_bs_far :
    nextHas (exec .dfBs (edge 0x1E0000 0x1E0000 (0, 0) (1, 1) (⟨0, 0⟩, ⟨8, 0⟩) (⟨0, 0⟩, ⟨8, 0⟩)))
      (fun t => t.res0 == 2) = true := by decide +kernel
/-- V-BS10. -/
theorem test_df_bs_near :
    nextHas (exec .dfBs (edge 0x1E0000 0x1E0000 (0, 1) (0, 1) (⟨0, 0⟩, ⟨8, 0⟩) (⟨8, 0⟩, ⟨0, 0⟩)))
      (fun t => t.res0 == 3) = true := by decide +kernel
/-- V-DF11. -/
theorem test_df_luma :
    nextHas (exec (.dfLuma .vertical) { blank with
        cfg := { picW := 16, picH := 16, curSlot := 0 }, arg0 := 8, arg1 := 4
        pics := [{ y := planeOf 10 4 (fun _ x => if x < 8 then 20 else 40) }] })
      (fun t => (List.range 5).map (fun n => t.sampleAt 0 .y 3 (n + 5)) ==
        [some 20, some 20, some 21, some 39, some 40]) = true := by decide +kernel
/-- V-DF9 as a chroma segment: the outer samples stay. -/
theorem test_df_chroma :
    nextHas (exec (.dfChroma .horizontal 2) { blank with
        cfg := { picW := 16, picH := 16, curSlot := 0 }, arg0 := 0x00040002, arg1 := 30
        pics := [{ cr := planeOf 4 6 (fun y _ => if y < 4 then 0 else 40) }] })
      (fun t => (List.range 4).map (fun n => t.sampleAt 0 .cr (n + 2) 3) == [some 0, some 15, some 25, some 40]) = true := by
  decide +kernel
/-- The example of R182. -/
theorem test_df_clr :
    nextHas (exec .dfClr { blank with
        cfg := { picW := 8, picH := 8 }, cuLow := [(0, 0x00200000)], cuCod := [(0, true)] })
      (fun t => t.cuCod.read 0 == some false && t.cuLow == [(0, 0x00200000)]) = true := by decide +kernel
/-- R183 on the picture boundary: nothing is filtered, the CU is marked. -/
theorem test_df_cu_boundary :
    nextHas (exec (.dfCu .vertical) { blank with cfg := { picW := 8, picH := 8, curSlot := 0 }, arg1 := 8 })
      (fun t => t.code == .ok && t.cuCod == [(cellKey 0 0, true), (cellKey 0 1, true), (cellKey 1 0, true),
        (cellKey 1 1, true)]) = true := by decide +kernel
/-- R185: an unmarked neighbour leaves the edge as it is. -/
theorem test_df_cu_unmarked :
    nextHas (exec (.dfCu .horizontal) { blank with
        cfg := { picW := 8, picH := 8, curSlot := 0 }, arg0 := 0x00040000, arg1 := 4, cuCod := [(cellKey 0 0, false)] })
      (fun t => t.code == .ok && t.cuCod == [(cellKey 0 0, false), (cellKey 1 0, true)]) = true := by decide +kernel
/-- V-DPB1. -/
theorem test_dpb_get : nextHas (exec .dpbGet { blank with cfg := { picW := 8, picH := 8, maxPb := 1 } })
    (fun t => t.res0 == 0 && t.cfg.curSlot == 0 && (t.dpb.slot 0).state == .detached) = true := by decide +kernel
/-- V-DPB2. -/
theorem test_dpb_get_full :
    nextHas (exec .dpbGet { blank with
        cfg := { picW := 8, picH := 8, maxPb := 1, curSlot := 0 }, dpb := { slots := [{ state := .detached }] } })
      (fun t => t.code == .outOfBuffers) = true := by decide +kernel
/-- Slots 0 to 3 of the hierarchical lists of 95_test_vectors.md. -/
def hier : List Slot :=
  [{ state := .pool, isRef := true, needOut := true, poc := 0 },
    { state := .pool, isRef := true, needOut := true, poc := 8 },
    { state := .pool, isRef := true, needOut := true, tid := 1, poc := 4 },
    { state := .pool, isRef := true, needOut := true, tid := 2, poc := 2 }]
/-- V-DPB11. -/
theorem test_dpb_put :
    nextHas (exec (.dpbPut false true true 0) { blank with
        arg0 := 4, arg1 := 16, arg2 := 8, cfg := { maxNumRef := 4, curSlot := 4 }
        dpb := { slots := hier ++ [{ state := .detached }], pool := [0, 1, 2, 3], refseq := [0, 1, 2, 3] } })
      (fun t => t.dpb.refseq == [0, 1, 4] && t.dpb.pool == [0, 1, 2, 3, 4] && t.cfg.curSlot == 0xFFFFFFFF &&
        !(t.dpb.slot 2).isRef) = true := by decide +kernel
/-- V-DPB13. -/
theorem test_dpb_put_gap :
    nextHas (exec (.dpbPut false true true 0) { blank with dpb := { slots := [{ state := .detached }] } })
      (fun t => t.code == .illegalCommand) = true := by decide +kernel
/-- V-DPB5. -/
theorem test_dpb_refp_b :
    nextHas (exec (.dpbRefp 2 2 2) { blank with arg0 := 6, dpb := { slots := hier, refseq := [0, 1, 2, 3] } })
      (fun t => t.dpb.list0 == [⟨2, 4⟩, ⟨0, 0⟩] && t.dpb.list1 == [⟨1, 8⟩, ⟨2, 4⟩]) = true := by decide +kernel
/-- V-DPB9. -/
theorem test_dpb_refp_p :
    nextHas (exec (.dpbRefp 3 1 0) { blank with arg0 := 9, arg1 := 4, dpb := { slots := hier, refseq := [0, 1, 2, 3] } })
      (fun t => t.dpb.list0 == [⟨1, 8⟩, ⟨2, 4⟩] && t.dpb.list1 == []) = true := by decide +kernel
/-- V-DPB3, the output. -/
theorem test_dpb_out :
    nextHas (exec .dpbOut { blank with
        dpb := { slots := [{ state := .pool, isRef := true, needOut := true }], pool := [0], refseq := [0] } })
      (fun t => t.res0 == 0 && t.res1 == 0 && t.cfg.nextOutPoc == 1 && !(t.dpb.slot 0).needOut) = true := by decide +kernel
/-- V-DPB14. -/
theorem test_dpb_out_early :
    nextHas (exec .dpbOut { blank with dpb := { slots := [{ state := .pool, needOut := true, poc := 2 }], pool := [0] } })
      (fun t => t.code == .outputNotAvailable && t.cfg.nextOutPoc == 0) = true := by decide +kernel
/-- The example of R208. -/
theorem test_dpb_list_rd :
    nextHas (exec (.dpbListRd 1 .l0) { blank with dpb := { slots := [], list0 := [⟨1, 1⟩, ⟨0, 0⟩] }, res0 := 5, res1 := 5 })
      (fun t => t.res0 == 0 && t.res1 == 0) = true := by decide +kernel
/-- The example of R209. -/
theorem test_dpb_numref :
    nextHas (exec .dpbNumref { blank with dpb := { slots := [], list0 := [⟨1, 1⟩, ⟨0, 0⟩] } })
      (fun t => t.res0 == 2 && t.res1 == 0) = true := by decide +kernel
/-- V-DPB15. -/
theorem test_dpb_slot_rd :
    nextHas (exec (.dpbSlotRd 0) { blank with dpb := { slots := [{ state := .pool }], pool := [1, 0], refseq := [1] } })
      (fun t => t.res0 == 0x00FF0101 && t.res1 == 0) = true := by decide +kernel

/-! ### Checkers for the premises of the statements -/

/-- A memory with a value at each position of an h x w area. -/
def cellsOf {α : Type} (w h : Nat) (f : Nat → Nat → α) : Memory α :=
  (blockCells h w).map (fun p => (cellKey p.1 p.2, f p.1 p.2))

theorem read_map {α : Type} (l : List (Nat × Nat)) (f : Nat × Nat → α) {r c : Nat} (hc : c < 65536)
    (hl : ∀ p ∈ l, p.2 < 65536) (hm : (r, c) ∈ l) :
    Memory.read (l.map (fun p => (cellKey p.1 p.2, f p))) (cellKey r c) = some (f (r, c)) := by
  induction l with
  | nil => simp at hm
  | cons p l ih =>
    rw [List.map_cons, Memory.read]
    by_cases h : cellKey r c = cellKey p.1 p.2
    · rw [if_pos h]
      obtain ⟨h1, h2⟩ := (cellKey_inj hc (hl p (by simp))).1 h
      subst h1; subst h2; rfl
    · rw [if_neg h]
      refine ih (fun q hq => hl q (by simp [hq])) ?_
      rcases List.mem_cons.1 hm with e | e
      · subst e; exact absurd rfl h
      · exact e

theorem read_cellsOf {α : Type} {w h r c : Nat} (f : Nat → Nat → α) (hw : w ≤ 65536) (hr : r < h) (hc : c < w) :
    (cellsOf w h f).read (cellKey r c) = some (f r c) :=
  read_map (blockCells h w) (fun p => f p.1 p.2) (lt_of_lt_of_le hc hw)
    (fun p hp => lt_of_lt_of_le ((mem_blockCells (i := p.1) (j := p.2)).1 hp).2 hw) (mem_blockCells.2 ⟨hr, hc⟩)

/-- CFG_WR accepts exactly the legal values (R232). -/
theorem cfgLegal_of_check {c : Config} {idx : BitVec 8} {v : Word} (h : cfgWrError c idx v = none) :
    cfgLegal c idx v := by
  unfold cfgWrError at h
  unfold cfgLegal
  split at h <;> rename_i e <;> (try simp only [e]) <;> (try trivial)
  all_goals (split at h <;> (try cases h) <;> try omega)
  all_goals (split at h <;> (try cases h) <;> omega)

/-- A check of `CfgOk`. -/
def cfgOkB (s : State) : Bool :=
  (List.range 10).all fun n =>
    match s.cfg.get (BitVec.ofNat 8 n) with
    | none => true
    | some v => cfgWrError s.config (BitVec.ofNat 8 n) v == none

/-- A check of `RegistersOk`. -/
def registersOkB (s : State) : Bool :=
  s.config.wf && cfgOkB s && decide (s.ent.range.toNat ≤ 16384) &&
    s.ent.ctx.all (fun p => decide (p.2.toNat / 2 ≤ 256)) &&
    decide (s.ent.bsBase.toNat + s.ent.bsLen.toNat ≤ s.config.bsSize)

theorem mem_of_read {α : Type} : ∀ (m : Memory α) {k : Nat} {v : α}, m.read k = some v → (k, v) ∈ m
  | [], _, _, h => by simp [Memory.read] at h
  | (a, w) :: m, k, v, h => by
    unfold Memory.read at h
    split at h
    · next e => cases h; subst e; simp
    · exact List.mem_cons_of_mem _ (mem_of_read m h)

theorem registersOk_of {s : State} (h : registersOkB s = true) : RegistersOk s := by
  simp only [registersOkB, Bool.and_eq_true, decide_eq_true_eq, List.all_eq_true] at h
  obtain ⟨⟨⟨⟨h1, h2⟩, h3⟩, h4⟩, h5⟩ := h
  refine ⟨h1, ?_, h3, ?_, h5⟩
  · intro idx v hi hv
    have := (List.all_eq_true.1 h2) idx.toNat (by simpa using hi)
    rw [BitVec.ofNat_toNat, BitVec.setWidth_eq, hv] at this
    exact cfgLegal_of_check (by simpa using this)
  · intro c m hm
    exact h4 _ (mem_of_read _ hm)

/-- A check of `DpbOk`. -/
def dpbOkB (s : State) : Bool :=
  s.dpb.slots.length == s.config.pbCap && s.pics.length == s.config.pbCap && decide s.dpb.pool.Nodup &&
  decide s.dpb.refseq.Nodup && s.dpb.pool.all (fun k => decide (k < s.config.pbCap)) &&
  s.dpb.refseq.all (fun k => decide (k < s.config.pbCap)) &&
  (List.range s.config.pbCap).all (fun k =>
    let r := s.dpb.slot k
    decide (k ∈ s.dpb.pool) == (r.state == .pool) && decide (k ∈ s.dpb.refseq) == (r.state == .pool && r.isRef) &&
      (r.state == .pool || (!r.isRef && !r.needOut))) &&
  s.dpb.list0.all (fun e => (s.dpb.slot e.slot).state == .pool) &&
  s.dpb.list1.all (fun e => (s.dpb.slot e.slot).state == .pool) &&
  decide (s.dpb.list0.length ≤ s.config.maxRefList) && decide (s.dpb.list1.length ≤ s.config.maxRefList) &&
  (s.cfg.curSlot == noSlot ||
    ((s.dpb.slot s.cfg.curSlot.toNat).state == .detached && s.cfg.picW != 0 && s.cfg.picH != 0))

theorem dpbOk_of {s : State} (h : dpbOkB s = true) : DpbOk s := by
  simp only [dpbOkB, Bool.and_eq_true, Bool.or_eq_true, decide_eq_true_eq, List.all_eq_true, beq_iff_eq, bne_iff_ne,
    List.mem_range, Bool.not_eq_true'] at h
  obtain ⟨⟨⟨⟨⟨⟨⟨⟨⟨⟨⟨a1, a2⟩, a3⟩, a4⟩, a5⟩, a6⟩, a7⟩, a8⟩, a9⟩, a10⟩, a11⟩, a12⟩ := h
  have far : ∀ k, s.config.pbCap ≤ k → s.dpb.slot k = {} := fun k hk => slot_of_ge (by omega)
  refine ⟨a1, a2, a3, ?_, a4, ?_, ?_, ?_, ?_, ?_⟩
  · intro k
    by_cases hk : k < s.config.pbCap
    · have := (a7 k hk).1.1
      by_cases h1 : k ∈ s.dpb.pool <;> simp_all
    · rw [far k (by omega)]
      exact ⟨fun hm => absurd (a5 k hm) hk, fun hm => by cases hm⟩
  · intro k
    by_cases hk : k < s.config.pbCap
    · have := (a7 k hk).1.2
      by_cases h1 : k ∈ s.dpb.refseq <;> simp_all
    · rw [far k (by omega)]
      exact ⟨fun hm => absurd (a6 k hm) hk, fun hm => by cases hm.1⟩
  · intro k hp
    by_cases hk : k < s.config.pbCap
    · rcases (a7 k hk).2 with h1 | h1
      · exact absurd h1 hp
      · exact h1
    · rw [far k (by omega)]; exact ⟨rfl, rfl⟩
  · intro l e he
    cases l
    · exact a8 e he
    · exact a9 e he
  · intro l
    cases l
    · exact a10
    · exact a11
  · rcases a12 with h1 | ⟨⟨h1, h2⟩, h3⟩
    · exact .inl h1
    · exact .inr ⟨h1, h2, h3⟩

/-- The packet `l` at address 0 fits and is written. -/
theorem packet_ready {s : State} (l : List Byte) (hb : s.ent.bsBase = 0) (hl : s.ent.bsLen.toNat = l.length)
    (hs : s.config.bsSize = 64) (hle : l.length ≤ 64) (hm : s.bsmem = bytesAt 0 l) : PacketFits s ∧ PacketWritten s := by
  have key : ∀ (l : List Byte) (n a : Nat), n ≤ a → a < n + l.length → ((bytesAt n l).read a).isSome = true := by
    intro l
    induction l with
    | nil => intro n a h1 h2; simp at h2; omega
    | cons b l ih =>
      intro n a h1 h2
      unfold bytesAt Memory.read
      split
      · rfl
      · exact ih _ _ (by omega) (by simp at h2; omega)
  refine ⟨⟨by rw [hb, hs]; simp; omega, by omega⟩, ?_⟩
  intro a _ h2
  rw [hm]
  exact key l 0 a (by omega) (by rw [hb, hl] at h2; simpa using h2)

/-- The state an outcome leads to. -/
def after (r : Result) : State :=
  match r with
  | .next t => t
  | _ => blank

theorem eq_after {r : Result} {f : State → Bool} (h : nextHas r f = true) : r = .next (after r) ∧ f (after r) = true := by
  cases r <;> simp_all [nextHas, after]

/-- A 16 x 16 sequence: slot 0 is a reference, slot 1 may be reused, slot 2 is the current picture, with its planes and
maps written. -/
def video : State :=
  { blank with
    cfg := { picW := 16, picH := 16, maxPb := 8, maxNumRef := 4, curSlot := 2 }
    dpb := {
      slots := [{ state := .pool, isRef := true, needOut := true }, { state := .pool, poc := 1 }, { state := .detached },
        {}, {}, {}, {}, {}]
      pool := [0, 1], refseq := [0], list0 := [⟨0, 0⟩], list1 := [⟨0, 0⟩] }
    pics := [
      { y := cellsOf 16 16 (fun _ _ => 100), cb := cellsOf 8 8 (fun _ _ => 50), cr := cellsOf 8 8 (fun _ _ => 60) }, {},
      { y := cellsOf 16 16 (fun _ _ => 90), cb := cellsOf 8 8 (fun _ _ => 40), cr := cellsOf 8 8 (fun _ _ => 70)
        mv0 := cellsOf 4 4 (fun _ _ => ⟨0, 0⟩), mv1 := cellsOf 4 4 (fun _ _ => ⟨0, 0⟩)
        refi0 := cellsOf 4 4 (fun _ _ => 0), refi1 := cellsOf 4 4 (fun _ _ => 0xFF) },
      {}, {}, {}, {}, {}]
    cuLow := cellsOf 4 4 (fun _ _ => 0x1E0000), cuCod := cellsOf 4 4 (fun _ _ => true) }

/-- What the samples of `video` need not care for. -/
def videoWith (arg0 arg1 arg2 arg3 : Word) : State :=
  { video with arg0 := arg0, arg1 := arg1, arg2 := arg2, arg3 := arg3 }

theorem video_registers (a b c d : Word) : RegistersOk (videoWith a b c d) :=
  registersOk_of (show registersOkB video = true by decide +kernel)

theorem video_dpb (a b c d : Word) : DpbOk (videoWith a b c d) := by
  have h : DpbOk video := dpbOk_of (by decide +kernel)
  exact ⟨h.slots_length, h.pics_length, h.pool_nodup, h.mem_pool, h.refseq_nodup, h.mem_refseq, h.not_pool, h.borrowed,
    h.numref_le, h.current⟩

theorem sampleReady_of {s : State} {k : Nat} {p : Comp} {y x w h : Nat} {v : Sample} (hw : w ≤ 65536)
    (e : s.sampleAt k p y x = (cellsOf w h (fun _ _ => v)).read (cellKey y x)) (hy : y < h) (hx : x < w)
    (hv : v.toNat < 2 ^ s.cfg.bitDepth.toNat) : SampleReady s k p y x := by
  unfold SampleReady
  rw [e, read_cellsOf _ hw hy hx]
  exact hv

theorem video_plane' {k : Nat} (hk : k = 0 ∨ k = 2) (p : Comp) : PlaneReady video k p := by
  intro y x hy hx
  rcases hk with rfl | rfl <;> cases p
  · exact sampleReady_of (w := 16) (h := 16) (v := 100) (by decide) rfl (lt_of_lt_of_eq hy (by decide)) (lt_of_lt_of_eq hx (by decide))
      (by decide)
  · exact sampleReady_of (w := 8) (h := 8) (v := 50) (by decide) rfl (lt_of_lt_of_eq hy (by decide)) (lt_of_lt_of_eq hx (by decide))
      (by decide)
  · exact sampleReady_of (w := 8) (h := 8) (v := 60) (by decide) rfl (lt_of_lt_of_eq hy (by decide)) (lt_of_lt_of_eq hx (by decide))
      (by decide)
  · exact sampleReady_of (w := 16) (h := 16) (v := 90) (by decide) rfl (lt_of_lt_of_eq hy (by decide)) (lt_of_lt_of_eq hx (by decide))
      (by decide)
  · exact sampleReady_of (w := 8) (h := 8) (v := 40) (by decide) rfl (lt_of_lt_of_eq hy (by decide)) (lt_of_lt_of_eq hx (by decide))
      (by decide)
  · exact sampleReady_of (w := 8) (h := 8) (v := 70) (by decide) rfl (lt_of_lt_of_eq hy (by decide)) (lt_of_lt_of_eq hx (by decide))
      (by decide)

theorem video_plane (a b c d : Word) {k : Nat} (hk : k = 0 ∨ k = 2) (p : Comp) : PlaneReady (videoWith a b c d) k p :=
  video_plane' hk p

theorem video_segment (a b c d : Word) (p : Comp) (e : Dir) {x y n : Nat}
    (h : ∀ i < n, ∀ m < 4, (linePos e x y i m).1 < (planeSize video.cfg p).2 ∧
      (linePos e x y i m).2 < (planeSize video.cfg p).1) : SegmentReady (videoWith a b c d) 2 p e x y n :=
  fun i m hi hm => video_plane a b c d (.inr rfl) p _ _ (h i hi m hm).1 (h i hi m hm).2

theorem video_block (a b c d : Word) {row col : Nat} (hr : row < 4) (hc : col < 4) :
    BlockReady (videoWith a b c d) 2 row col := by
  have key : ∀ {α : Type} (v : α), ((cellsOf 4 4 (fun _ _ => v)).read (cellKey row col)).isSome = true := by
    intro α v
    rw [read_cellsOf _ (by decide) hr hc]; rfl
  refine ⟨key (0x1E0000 : BitVec 31), _, rfl, ?_⟩
  intro l
  cases l
  · exact ⟨key (⟨0, 0⟩ : MotionVec), key (0 : Byte)⟩
  · exact ⟨key (⟨0, 0⟩ : MotionVec), key (0xFF : Byte)⟩

/-! ### Witnesses: a concrete state and operands that meet the hypotheses of each statement, clause by clause -/

theorem witness_DecodeEncodeAgree : decode 0x11000020 = .ok (.brRead 32) := by decide

/-- The words at both ends of each unassigned range; a reserved bit of BR_INIT; an excluded field value. -/
theorem witness_IllegalCommandsOnlySetCode :
    ([0x05, 0x0F, 0x17, 0x1F, 0x28, 0x2F, 0x34, 0x3F, 0x45, 0x4F, 0x57, 0xFF] : List Word).all (fun o =>
      let n := ((o <<< 24).extractLsb' 24 8).toNat
      decide ((0x05 ≤ n ∧ n ≤ 0x0F) ∨ (0x17 ≤ n ∧ n ≤ 0x1F) ∨ (0x28 ≤ n ∧ n ≤ 0x2F) ∨ (0x34 ≤ n ∧ n ≤ 0x3F) ∨
        (0x45 ≤ n ∧ n ≤ 0x4F) ∨ 0x57 ≤ n)) = true ∧
    (0x10000001#32).extractLsb' 24 8 = 0x10 ∧ (0x10000001#32).extractLsb' 0 24 &&& ~~~(0 : BitVec 24) ≠ 0 ∧
    Instr.wellFormed (.brRead 0) = false ∧ blank.config.maxRefList < (5 : BitVec 8).toNat ∧
    blank.config.pbCap ≤ (8 : BitVec 8).toNat ∧ (blank.dpb.list .l0).length ≤ (0 : BitVec 8).toNat := by decide

theorem witness_StepRunsDecodedCommand :
    { blank with host := [.regWrite 0 0x11000003] }.host = .regWrite 0 0x11000003 :: [] ∧
      decode 0x11000003 = .ok (.brRead 3) ∧ blank.host = [] := by decide

theorem witness_HostRegisterBank :
    { blank with host := [.regRead 63] }.host = .regRead 63 :: [] ∧
      { blank with host := [.regWrite 5 1] }.host = .regWrite 5 1 :: [] ∧ 5 ≤ (5 : BitVec 6).toNat := by decide

/-- Packet at addresses 8 to 11: the bytes before and after it, its first and last byte, a byte to read. -/
def bsState (a : HostAction) : State := { blank with host := [a], ent := { bsBase := 8, bsLen := 4 }, bsmem := [(8, 0xA5)] }

theorem witness_HostBitstreamMemory :
    (bsState (.bsWrite 7 1)).host = .bsWrite 7 1 :: [] ∧ 7 < blank.config.bsSize ∧
    7 < (bsState (.bsWrite 7 1)).ent.bsBase.toNat ∧
    (bsState (.bsWrite 12 1)).ent.bsBase.toNat + (bsState (.bsWrite 12 1)).ent.bsLen.toNat ≤ 12 ∧
    (bsState (.bsWrite 11 1)).ent.bsBase.toNat ≤ 11 ∧
    11 < (bsState (.bsWrite 11 1)).ent.bsBase.toNat + (bsState (.bsWrite 11 1)).ent.bsLen.toNat ∧
    (bsState (.bsRead 8)).bsmem.read 8 = some 0xA5 ∧ (bsState (.bsRead 9)).bsmem.read 9 = none := by decide

/-- Sample (15, 15) and block (3, 3) of slot 2, DETACHED, and of slot 0, in POOL, of a 16 x 16 sequence at 8 bits. -/
theorem witness_HostPictureWrites :
    { video with host := [.sampleWrite 2 .y 15 15 255] }.host = .sampleWrite 2 .y 15 15 255 :: [] ∧
    15 < (planeSize video.cfg .y).2 ∧ 15 < (planeSize video.cfg .y).1 ∧ 2 < video.pics.length ∧
    2 ^ video.cfg.bitDepth.toNat ≤ (256 : Sample).toNat ∧ (255 : Sample).toNat < 2 ^ video.cfg.bitDepth.toNat ∧
    (video.dpb.slot 0).state = .pool ∧ (video.dpb.slot 2).state = .detached ∧
    { video with host := [.mvWrite 2 3 3 .l1 ⟨1, 2⟩] }.host = .mvWrite 2 3 3 .l1 ⟨1, 2⟩ :: [] ∧
    { video with host := [.refiWrite 0 3 3 .l0 0xFF] }.host = .refiWrite 0 3 3 .l0 0xFF :: [] ∧
    3 < video.cfg.picH.toNat / 4 ∧ 3 < video.cfg.picW.toNat / 4 := by decide

/-- Reads of slot 2, which holds a picture, of its first list, and of slot 1 of a block with no picture. -/
theorem witness_HostPictureReads :
    { video with host := [.sampleRead 2 .y 15 15] }.host = .sampleRead 2 .y 15 15 :: [] ∧
    (video.dpb.slot 2).state ≠ .unalloc ∧ 15 < (planeSize video.cfg .y).2 ∧ 15 < (planeSize video.cfg .y).1 ∧
    (video.sampleAt 2 .y 15 15).isSome = true ∧ (blank.dpb.slot 1).state = .unalloc ∧
    3 < video.cfg.picH.toNat / 4 ∧ 3 < video.cfg.picW.toNat / 4 ∧ video.mvAt 2 .l0 3 3 = some ⟨0, 0⟩ ∧
    video.refiAt 2 .l1 3 3 = some 0xFF ∧
    (let s : State := { video with pics := [{}, {}, {}], host := [.refiRead 2 3 3 .l0] }
     s.sampleAt 2 .y 15 15 = none ∧ s.mvAt 2 .l0 3 3 = none ∧ s.refiAt 2 .l0 3 3 = none) := by decide +kernel

theorem witness_HostMapsAndBuffers :
    3 < blank.config.maxH / 4 ∧ 3 < blank.config.maxW / 4 ∧ blank.config.maxW ≤ 4096 ∧
    { blank with host := [.cuWrite 3 3 1] }.host = .cuWrite 3 3 1 :: [] ∧
    { blank with host := [.cuRead 3 3] }.host = .cuRead 3 3 :: [] ∧
    Memory.read [(cellKey 3 3, (1 : BitVec 31))] (cellKey 3 3) = some 1 ∧
    Memory.read [(cellKey 3 3, true)] (cellKey 3 3) = some true ∧
    { blank with host := [.predRead .l1 .cr 63 63] }.host = .predRead .l1 .cr 63 63 :: [] ∧
    { blank with host := [.predOutRead .y 0 0] }.host = .predOutRead .y 0 0 :: [] := by decide

theorem witness_CompletionCodes : exec .nop blank = .next { blank with code := .ok } ∧
    decode 0xF0000000 = .error .customSpace := ⟨rfl, by decide⟩

/-- One command per code: OK, ILLEGAL_COMMAND, UNEXPECTED_STATE with and without the lists, MALFORMED_BITSTREAM of
the bit reader and of the terminating bin. -/
theorem witness_EffectsByCode :
    (∃ t, exec .nop blank = .next t ∧ t.code = .ok) ∧ (∃ t, exec (.brRead 0) blank = .next t ∧ t.code = .illegalCommand) ∧
    (∃ t, exec (.dpbRefp 1 1 0) blank = .next t ∧ t.code = .unexpectedState) ∧
    (∃ t, exec .dpbOut blank = .next t ∧ t.code = .unexpectedState) ∧
    (∃ t, exec .brReadUe (packet [0, 0, 0, 0, 0x80]) = .next t ∧ t.code = .malformedBitstream) ∧
    ∃ t, exec .decBinTrm (primed [0xFF, 0xFD, 0] 16383 0) = .next t ∧ t.code = .malformedBitstream :=
  ⟨⟨_, rfl, rfl⟩, ⟨_, rfl, rfl⟩, ⟨_, rfl, rfl⟩, ⟨_, rfl, rfl⟩,
    ⟨_, (eq_after (f := fun t => t.code == .malformedBitstream) (by decide +kernel)).1, by decide +kernel⟩,
    ⟨_, (eq_after (f := fun t => t.code == .malformedBitstream) (by decide +kernel)).1, by decide +kernel⟩⟩

theorem witness_StickyHaltsEntropyPath :
    { blank with sticky := true }.sticky = true ∧ entropyPath .decBinEp = true ∧ Instr.wellFormed .decBinEp = true ∧
    entropyPath .brReadUe = true ∧ Instr.statClr ∈ [Instr.statClr, .reset] ∧ entropyPath .nop = false ∧
    Instr.nop ∉ [Instr.statClr, .reset, .brInit] ∧ ∃ t, exec .brInit blank = .next t ∧ t.code = .ok :=
  ⟨rfl, rfl, rfl, rfl, by decide, rfl, by decide, _, rfl, rfl⟩

theorem witness_OperandsAndParametersKept : (∃ t, exec .nop blank = .next t ∧ Instr.nop ≠ .reset) ∧
    ∃ t, step blank = .next t := ⟨⟨_, rfl, by decide⟩, _, rfl⟩

theorem witness_StoredPicturesNotWritten :
    DpbOk (videoWith 0 0 0 0) ∧ (∃ t, step (videoWith 0 0 0 0) = .next t ∧ (t.dpb.slot 0).state = .pool) ∧
      ((videoWith 0 0 0 0).dpb.slot 0).state = .pool := ⟨video_dpb _ _ _ _, ⟨_, rfl, rfl⟩, rfl⟩

/-- A legal value of PIC_W that keeps it, one that changes it, and a value each exclusion clause stops, at the bounds. -/
theorem witness_CfgWrWritesRegister :
    cfgLegal blank.config 0 { blank with arg0 := 16 }.arg0 ∧
    ¬((0 : BitVec 8) = 0 ∧ { blank with arg0 := 0 }.arg0 ≠ blank.cfg.picW ∨ (0 : BitVec 8) = 1 ∧ blank.arg0 ≠ blank.cfg.picH) ∧
    ((0 : BitVec 8) = 0 ∧ { blank with arg0 := 16 }.arg0 ≠ blank.cfg.picW) ∧
    ((2 : BitVec 8).toNat = 2 ∧ (7 : Word).toNat < 8 ∧ 10 < (11 : Word).toNat) ∧
    ((3 : BitVec 8).toNat = 3 ∧ (2 : Word).toNat = 2 ∧ 3 < (4 : Word).toNat) ∧
    ((9 : BitVec 8).toNat ≠ 2 ∧ (9 : BitVec 8).toNat ≠ 3 ∧ ¬cfgLegal blank.config 9 1025) ∧
    ¬cfgLegal blank.config 0x0A 0 := by
  refine ⟨cfgLegal_of_check (by decide), by decide, by decide, by decide, by decide, ⟨by decide, by decide, ?_⟩, ?_⟩
  · show ¬((1025 : Word).toNat ≤ 1024); decide
  · exact fun h => h

theorem witness_CfgRdReadsRegister : (0x0A : BitVec 8).toNat < 0x0B ∧ 0x0B ≤ (0x0B : BitVec 8).toNat := by decide

/-- A packet that ends where BSMEM ends, and one that ends a byte later. -/
theorem witness_BrInitStartsPacket :
    (60 : Word).toNat + (4 : Word).toNat ≤ blank.config.bsSize ∧ blank.config.bsSize < (61 : Word).toNat + (4 : Word).toNat := by
  decide

theorem witness_BrReadReturnsBits :
    (PacketFits (packet [0xA5]) ∧ PacketWritten (packet [0xA5])) ∧ (packet [0xA5]).sticky = false ∧
    (1 ≤ (1 : BitVec 6).toNat ∧ (32 : BitVec 6).toNat ≤ 32) ∧ ((0 : BitVec 6).toNat = 0 ∧ 32 < (33 : BitVec 6).toNat) ∧
    { packet [0xA5] with sticky := true }.sticky = true :=
  ⟨packet_ready _ rfl rfl rfl (by decide) rfl, rfl, by decide, by decide, rfl⟩

/-- Prefixes of 0 and of 31 zeros, and of 32. -/
theorem witness_BrReadUeDecodes :
    (PacketFits (packet [0x80]) ∧ PacketWritten (packet [0x80])) ∧ packetBit (packet [0x80]) 0 = true ∧
    (PacketFits (packet [0, 0, 0, 1]) ∧ PacketWritten (packet [0, 0, 0, 1])) ∧
    ((∀ j < 31, packetBit (packet [0, 0, 0, 1]) (0 + j) = false) ∧ packetBit (packet [0, 0, 0, 1]) (0 + 31) = true) ∧
    (PacketFits (packet [0, 0, 0, 0]) ∧ PacketWritten (packet [0, 0, 0, 0])) ∧
    ∀ j < 32, packetBit (packet [0, 0, 0, 0]) (0 + j) = false :=
  ⟨packet_ready _ rfl rfl rfl (by decide) rfl, by decide, packet_ready _ rfl rfl rfl (by decide) rfl,
    by decide +kernel, packet_ready _ rfl rfl rfl (by decide) rfl, by decide +kernel⟩

/-- The code of 4, for BR_READ_SE. -/
theorem witness_BrReadSeDecodes :
    (PacketFits (packet [0x28]) ∧ PacketWritten (packet [0x28])) ∧
    (∀ j < 2, packetBit (packet [0x28]) (0 + j) = false) ∧ packetBit (packet [0x28]) (0 + 2) = true ∧
    4 = 2 ^ 2 - 1 + packetBits (packet [0x28]) (0 + 2 + 1) 2 ∧
    (PacketFits (packet []) ∧ PacketWritten (packet [])) ∧ ∀ j < 32, packetBit (packet []) (0 + j) = false :=
  ⟨packet_ready _ rfl rfl rfl (by decide) rfl, by decide +kernel, by decide +kernel, by decide +kernel,
    packet_ready _ rfl rfl rfl (by decide) rfl, by decide +kernel⟩

/-- v = 2^32 - 2, the code of z = -(2^31 - 1); and v = 0. -/
theorem witness_ExpGolombRoundTrip :
    (let l : List Byte := [0, 0, 0, 1, 0xFF, 0xFF, 0xFF, 0xFE]
     (PacketFits (packet l) ∧ PacketWritten (packet l)) ∧
      ((∀ j < Nat.log2 (2 ^ 32 - 2 + 1), packetBit (packet l) (0 + j) = false) ∧
        packetBit (packet l) (0 + Nat.log2 (2 ^ 32 - 2 + 1)) = true ∧
        packetBits (packet l) (0 + Nat.log2 (2 ^ 32 - 2 + 1) + 1) (Nat.log2 (2 ^ 32 - 2 + 1)) =
          2 ^ 32 - 2 + 1 - 2 ^ Nat.log2 (2 ^ 32 - 2 + 1))) ∧
    ((2 ^ 32 - 2 : Nat) : Int) = (if 0 < (-(2 ^ 31 - 1) : Int) then 2 * (-(2 ^ 31 - 1)) - 1 else -2 * (-(2 ^ 31 - 1))) ∧
    packetBit (packet [0x80]) (0 + Nat.log2 (0 + 1)) = true ∧
      packetBits (packet [0x80]) (0 + Nat.log2 (0 + 1) + 1) (Nat.log2 (0 + 1)) = 0 + 1 - 2 ^ Nat.log2 (0 + 1) :=
  ⟨⟨packet_ready _ rfl rfl rfl (by decide) rfl, by decide +kernel⟩, by decide, by decide +kernel, by decide +kernel⟩

/-- Two states that differ outside the packet. -/
theorem witness_BitReaderDependsOnPacket :
    (packet [0xA5]).ent.bsBase = { packet [0xA5] with arg3 := 1, bsmem := [(0, 0xA5), (9, 0)] }.ent.bsBase ∧
    (∀ a, 0 ≤ a → a < 0 + 1 → (packet [0xA5]).bsmem.read a =
      { packet [0xA5] with arg3 := 1, bsmem := [(0, 0xA5), (9, 0)] }.bsmem.read a) ∧
    (packet [0xA5]).arg1 = { packet [0xA5] with arg3 := 1, bsmem := [(0, 0xA5), (9, 0)] }.arg1 ∧
    (∃ t, exec .brInit (packet [0xA5]) = .next t ∧ t.code = .ok) ∧
    ∃ t, exec (.brRead 8) (packet [0xA5]) = .next t ∧ t.code = .ok ∧ Instr.brRead 8 ≠ .brInit :=
  ⟨rfl, by intro a _ h; interval_cases a; rfl, rfl, ⟨_, rfl, rfl⟩,
    _, (eq_after (f := fun t => t.code == .ok) (by decide +kernel)).1, by decide +kernel, by decide⟩

theorem witness_SbacInitPrimesEngine :
    (PacketFits (packet [0x5A, 0x3C]) ∧ PacketWritten (packet [0x5A, 0x3C])) ∧ (packet [0x5A, 0x3C]).sticky = false :=
  ⟨packet_ready _ rfl rfl rfl (by decide) rfl, rfl⟩

/-- A model at the upper bound, one with STATE 257, a value with bit 10 set; a written and an unwritten context. -/
theorem witness_ContextAccess :
    ((0x201 : Word).toNat < 1024 ∧ (0x201 : Word).toNat / 2 ≤ 256) ∧ 256 < (0x202 : Word).toNat / 2 ∧
    1024 ≤ (0x400 : Word).toNat ∧ { blank with ent := { ctx := [(5, 0xC8)] } }.ent.ctx.read (5 : BitVec 8).toNat = some 0xC8 ∧
    blank.ent.ctx.read (5 : BitVec 8).toNat = none := by decide

/-- A primed engine with contexts 0 to 2 written. -/
theorem primed_ready (v : BitVec 16) (m : CtxModel) :
    PacketFits (primed [0xFF, 0xFD, 0, 0x80] v m) ∧ PacketWritten (primed [0xFF, 0xFD, 0, 0x80] v m) :=
  packet_ready [0xFF, 0xFD, 0, 0x80] rfl rfl rfl (by decide) rfl

/-- The MPS branch, V < R - L, and the LPS branch; a context never written; RANGE 437. -/
theorem witness_DecBinDecodes :
    (blank.sticky = false ∧ blank.ent.ctx.read (255 : BitVec 8).toNat = none) ∧
    (let s : State := { blank with ent := { range := 437, ctx := [(0, 0x200)] } }
     s.sticky = false ∧ s.ent.ctx.read (0 : BitVec 8).toNat = some 0x200 ∧ s.ent.range.toNat ≤ 437) ∧
    (PacketFits (primed [0xFF, 0xFD, 0, 0x80] 0 0x200) ∧ PacketWritten (primed [0xFF, 0xFD, 0, 0x80] 0 0x200)) ∧
    (primed [0xFF, 0xFD, 0, 0x80] 0 0x200).ent.ctx.read 2 = some 0x200 ∧
    437 < (primed [0xFF, 0xFD, 0, 0x80] 0 0x200).ent.range.toNat ∧
    (0 : BitVec 16).toNat < 16384 - max 437 (256 * 16384 / 512) ∧
    (PacketFits (primed [0xFF, 0xFD, 0, 0x80] 8192 0x200) ∧ PacketWritten (primed [0xFF, 0xFD, 0, 0x80] 8192 0x200)) ∧
    16384 - max 437 (256 * 16384 / 512) ≤ (8192 : BitVec 16).toNat :=
  ⟨by decide, by decide, primed_ready _ _, rfl, by decide, by decide, primed_ready _ _, by decide⟩

theorem witness_AdaptationKeepsModelsLegal :
    Memory.read [(0, (0x200 : CtxModel))] 0 = some 0x200 ∧ (0x200 : CtxModel).toNat / 2 ≤ 256 ∧
    (bin [] 0 { range := 16384, ctx := [(0, 0x200)] }).toOption.isSome = true ∧ 437 < 438 ∧ 438 ≤ 16384 := by
  decide +kernel

/-- Each kind of bin answers a next state from a RANGE of 16384. -/
theorem witness_RangeAfterBins :
    (primed [0, 0, 0, 0] 0 0x200).sticky = false ∧ (primed [0, 0, 0, 0] 0 0x200).ent.range.toNat ≤ 16384 ∧
    8192 ≤ (primed [0, 0, 0, 0] 0 0x200).ent.range.toNat ∧
    nextHas (exec (.decBin 0) (primed [0, 0, 0, 0] 0 0x200)) (fun _ => true) = true ∧
    Instr.wellFormed (.decUnary 0 1 false) = true ∧
    nextHas (exec (.decUnary 0 1 false) (primed [0, 0, 0, 0] 0 0x200)) (fun _ => true) = true ∧
    Instr.wellFormed (.decTunary 0 1 false 2) = true ∧
    nextHas (exec (.decTunary 0 1 false 2) (primed [0, 0, 0, 0] 0 0x200)) (fun _ => true) = true ∧
    nextHas (exec .decBinEp (primed [0, 0, 0, 0] 0 0x200)) (fun _ => true) = true ∧
    nextHas (exec .decBinTrm (primed [0, 0, 0, 0] 0 0x200)) (fun t => t.code == .ok && t.res0 == 0) = true := by
  decide +kernel

theorem witness_DecBinEpDecodes :
    (PacketFits (primed [0xFF, 0xFD, 0, 0x80] 0 0) ∧ PacketWritten (primed [0xFF, 0xFD, 0, 0x80] 0 0)) ∧
      (primed [0xFF, 0xFD, 0, 0x80] 0 0).sticky = false := ⟨primed_ready _ _, rfl⟩

/-- RANGE 0; a terminating bin with alignment bits 00 and with 01; a bin 0. -/
theorem witness_DecBinTrmDecodes :
    ({ packet [] with ent := { range := 0 } }).ent.range.toNat = 0 ∧
    (PacketFits (primed [0xFF, 0xFC] 16383 0) ∧ PacketWritten (primed [0xFF, 0xFC] 16383 0)) ∧
    1 ≤ (primed [0xFF, 0xFC] 16383 0).ent.range.toNat ∧ (primed [0xFF, 0xFC] 16383 0).cursor ≤ 2 ^ 32 - 8 ∧
    16384 - 1 ≤ (16383 : BitVec 16).toNat ∧ (∀ j < (8 - 14 % 8) % 8, packetBit (primed [0xFF, 0xFC] 16383 0) (14 + j) = false) ∧
    (∃ j < (8 - 14 % 8) % 8, packetBit (primed [0xFF, 0xFD] 16383 0) (14 + j) = true) ∧ (16382 : BitVec 16).toNat < 16384 - 1 :=
  ⟨rfl, packet_ready [0xFF, 0xFC] rfl rfl rfl (by decide) rfl, by decide, by decide, by decide, by decide +kernel,
    by decide +kernel, by decide⟩

/-- With RANGE 2 and VALUE 2 on an empty packet every bypass bin is 1 and leaves both as they are. -/
def onesState (b : Word) (r : Word) : State := { packet [] with res0 := r, ent := { bitPos := b, range := 2, value := 2 } }

theorem onesState_bin (b r : Word) : ∃ b', exec .decBinEp (onesState b r) = .next (onesState b' 1) := by
  have h := packet_ready (s := onesState b r) [] rfl rfl rfl (by decide) rfl
  have e := ep_ok h.1 h.2 (atCursor_zero (onesState b r))
  have hb : packetBit (onesState b r) ((onesState b r).cursor + 0) = false := if_neg (Nat.not_lt_zero _)
  have hr : (onesState b r).ent.range.toNat = 2 := rfl
  have hv : (onesState b r).ent.value.toNat = 2 := rfl
  rw [hb, hr, hv] at e
  refine ⟨cursorAfter (onesState b r) 1, ?_⟩
  show execDecBinEp (onesState b r) = _
  unfold execDecBinEp unlessHalted
  rw [if_neg (show ¬((onesState b r).sticky = true) from Bool.false_ne_true), e]
  rfl

theorem onesState_run (n : Nat) : ∀ (k : Nat) (b r : Word), ∃ b' r', OnesRun 0 0 true n k (onesState b r) (onesState b' r') := by
  induction n with
  | zero => intro k b r; exact ⟨b, r, rfl⟩
  | succ n ih =>
    intro k b r
    obtain ⟨b1, h1⟩ := onesState_bin b r
    obtain ⟨b2, r2, h2⟩ := ih (k + 1) b1 1
    exact ⟨b2, r2, _, h1, rfl, h2⟩

/-- 65535 ones, and a first bin 0. -/
theorem witness_DecUnaryRunsBins :
    (onesState 0 0).sticky = false ∧ (if true then (0 : BitVec 8) = 0 ∧ (0 : BitVec 4) = 0 else False) ∧
    (∃ u, OnesRun 0 0 true 65535 0 (onesState 0 0) u) ∧
    (OnesRun 0 1 false 0 0 (primed [0, 0, 0, 0] 0 0x200) (primed [0, 0, 0, 0] 0 0x200) ∧
      ∃ t, exec (binCommand 0 1 false 0) (primed [0, 0, 0, 0] 0 0x200) = .next t ∧ t.res0 = 0) ∧
    ((1 : BitVec 4) ≠ 0 ∧ (0 : BitVec 8).toNat + (1 : BitVec 4).toNat ≤ 256) ∧
    (OnesRun 0 1 false 0 0 blank blank ∧ exec (binCommand 0 1 false 0) blank = .fault (.unwrittenContext 0)) := by
  obtain ⟨b, r, h⟩ := onesState_run 65535 0 0 0
  exact ⟨rfl, by decide, ⟨_, h⟩, ⟨rfl, _, (eq_after (f := fun t => t.res0 == 0) (by decide +kernel)).1, by decide +kernel⟩,
    by decide, rfl, rfl⟩

/-- MAX 1; MAX 255 with 254 ones; MAX 2 with a first bin 0. -/
theorem witness_DecTunaryRunsBins :
    (1 : BitVec 8).toNat ≤ 1 ∧ 2 ≤ (255 : BitVec 8).toNat ∧
    (∃ u, OnesRun 0 0 true ((255 : BitVec 8).toNat - 1) 0 (onesState 0 0) u) ∧ 0 < (2 : BitVec 8).toNat - 1 ∧
    (∃ t, exec (binCommand 0 1 false 0) (primed [0, 0, 0, 0] 0 0x200) = .next t ∧ t.res0 = 0) ∧
    exec (binCommand 0 1 false 0) blank = .fault (.unwrittenContext 0) := by
  obtain ⟨b, r, h⟩ := onesState_run 254 0 0 0
  exact ⟨by decide, by decide, ⟨_, h⟩, by decide,
    ⟨_, (eq_after (f := fun t => t.res0 == 0) (by decide +kernel)).1, by decide +kernel⟩, rfl⟩

/-- A context never written; RANGE 437; and a command that completes. -/
theorem witness_UnaryCompletes :
    (blank.sticky = false ∧ blank.ent.ctx.read (0 : BitVec 8).toNat = none ∧ 2 ≤ (2 : BitVec 8).toNat) ∧
    (let s : State := { blank with ent := { range := 437, ctx := [(0, 0x200)] } }
     s.sticky = false ∧ s.ent.ctx.read (0 : BitVec 8).toNat = some 0x200 ∧ s.ent.range.toNat ≤ 437) ∧
    (PacketFits (primed [0xFF, 0xFD, 0, 0x80] 0 0x200) ∧ PacketWritten (primed [0xFF, 0xFD, 0, 0x80] 0 0x200)) ∧
    UnaryReady (primed [0xFF, 0xFD, 0, 0x80] 0 0x200) 0 3 false ∧ UnaryReady blank 0 0 true ∧
    ((3 : BitVec 4) ≠ 0 ∧ (0 : BitVec 8).toNat + (3 : BitVec 4).toNat ≤ 256) ∧
    (0 : BitVec 16).toNat < (16384 : BitVec 15).toNat / 2 ∧ (0x200 : CtxModel).getLsbD 0 = false ∧
    max 437 ((0x200 : CtxModel).toNat / 2 * 16384 / 512) + 0 < 16384 := by
  refine ⟨by decide, by decide, primed_ready _ _, fun _ => ⟨by decide, ?_⟩, (fun h => by cases h), by decide, by decide,
    by decide, by decide⟩
  intro c _ h
  have : c < 3 := by simpa using h
  interval_cases c <;> rfl

/-- Operands at the bounds: the last luma position and a 64 x 1 block. -/
theorem witness_McClipmvClips :
    (let s := videoWith 0x000F000F 0 0x0140 0
     s.cfg.picW ≠ 0 ∧ s.cfg.picH ≠ 0 ∧ hi16 s.arg2 = 0 ∧ 1 ≤ byteOf s.arg2 0 ∧ byteOf s.arg2 0 ≤ 64 ∧
      1 ≤ byteOf s.arg2 1 ∧ byteOf s.arg2 1 ≤ 64 ∧ lo16 s.arg0 < s.cfg.picW.toNat ∧ hi16 s.arg0 < s.cfg.picH.toNat) ∧
    ¬(videoWith 0x00000010 0 0x0101 0).cfg.picW.toNat > lo16 (videoWith 0x00000010 0 0x0101 0).arg0 := by decide

theorem witness_McPredInterpolates :
    RegistersOk (videoWith 0x00070007 0x00030005 0x00000140 0) ∧ PlaneReady (videoWith 0x00070007 0x00030005 0x00000140 0) 0 .cr ∧
    (let s := videoWith 0x00070007 0x00030005 0x00000140 0
     s.cfg.picW ≠ 0 ∧ s.cfg.picH ≠ 0 ∧ byteOf s.arg2 3 = 0 ∧ 1 ≤ byteOf s.arg2 0 ∧ byteOf s.arg2 0 ≤ 64 ∧
      1 ≤ byteOf s.arg2 1 ∧ byteOf s.arg2 1 ≤ 64 ∧ (s.dpb.list .l0)[byteOf s.arg2 2]? = some ⟨0, 0⟩ ∧
      lo16 s.arg0 < (planeSize s.cfg .cr).1 ∧ hi16 s.arg0 < (planeSize s.cfg .cr).2) :=
  ⟨video_registers _ _ _ _, video_plane _ _ _ _ (.inl rfl) _, by decide⟩

theorem witness_IntegerMotionCopies :
    RegistersOk (videoWith 0 0 0 0) ∧ PlaneReady (videoWith 0 0 0 0) 0 .y ∧ 0 < (planeSize (videoWith 0 0 0 0).cfg .y).1 ∧
    0 < (planeSize (videoWith 0 0 0 0).cfg .y).2 ∧ (-64 : Int) % (if Comp.y = .y then 4 else 8) = 0 ∧
    (8 : Int) % (if Comp.cb = .y then 4 else 8) = 0 :=
  ⟨video_registers _ _ _ _, video_plane _ _ _ _ (.inl rfl) _, by decide, by decide, by decide, by decide⟩

/-- Both cells written; list 1 never written; a cell above the maximum at 8 bits. -/
theorem witness_McAvgAverages :
    (let s : State := { blank with arg2 := 0x0101, pred := [(predKey .l0 .y 0 0, 100), (predKey .l1 .y 0 0, 255)] }
     hi16 s.arg2 = 0 ∧ 1 ≤ byteOf s.arg2 0 ∧ byteOf s.arg2 0 ≤ 64 ∧ 1 ≤ byteOf s.arg2 1 ∧ byteOf s.arg2 1 ≤ 64 ∧
      byteOf s.arg2 0 = 1 ∧ byteOf s.arg2 1 = 1 ∧ s.predVal .l0 .y 0 0 = some 100 ∧ s.predVal .l1 .y 0 0 = some 255 ∧
      (255 : Int) < 2 ^ s.cfg.bitDepth.toNat) ∧
    (64 ≤ 64 ∧ byteOf 0x4040 0 = 64 ∧ byteOf 0x4040 1 = 64) ∧ blank.predVal .l1 .y 63 63 = none ∧
    (let s : State := { blank with pred := [(predKey .l1 .y 0 0, 256)] }
     s.predVal .l1 .y 0 0 = some 256 ∧ (2 : Int) ^ s.cfg.bitDepth.toNat ≤ 256) := by decide +kernel

/-- List 0 alone; list 1 alone; the degenerate case. -/
theorem witness_McCuFromOneList :
    (∀ a1 a3, RegistersOk (videoWith 0x000C000C a1 0 a3) ∧ ∀ c, PlaneReady (videoWith 0x000C000C a1 0 a3) 0 c) ∧
    CuPlaced (videoWith 0x000C000C 0x00FF0004 0 0) 12 12 4 ∧
    (let s := videoWith 0x000C000C 0x00FF0004 0 0
     byteOf s.arg1 0 = 4 ∧ byteOf s.arg1 3 = 0 ∧ cuRefIndex s .l0 = 0 ∧ (s.dpb.list .l0)[(cuRefIndex s .l0).toNat]? = some ⟨0, 0⟩ ∧
      cuRefIndex s .l1 = -1) ∧
    (let s := videoWith 0x000C000C 0x0000FF04 0 0
     cuRefIndex s .l1 = 0 ∧ (s.dpb.list .l1)[(cuRefIndex s .l1).toNat]? = some ⟨0, 0⟩ ∧ cuRefIndex s .l0 = -1) ∧
    (let s := videoWith 0x000C000C 0x00000004 0 0
     0 ≤ cuRefIndex s .l1 ∧ cuVector s .l0 = cuVector s .l1 ∧ s.dpb.list1[(cuRefIndex s .l1).toNat]? = some ⟨0, 0⟩) :=
  ⟨fun _ _ => ⟨video_registers _ _ _ _, video_plane _ _ _ _ (.inl rfl)⟩, ⟨.inl rfl, by decide⟩, by decide, by decide,
    by decide⟩

theorem witness_McCuFromTwoLists :
    RegistersOk (videoWith 0 64 0 4) ∧ CuPlaced (videoWith 0 64 0 4) 0 0 64 ∧ (∀ c, PlaneReady (videoWith 0 64 0 4) 0 c) ∧
    (let s := videoWith 0 64 0 4
     byteOf s.arg1 3 = 0 ∧ cuRefIndex s .l0 = 0 ∧ s.dpb.list0[(cuRefIndex s .l0).toNat]? = some ⟨0, 0⟩ ∧
      cuRefIndex s .l1 = 0 ∧ s.dpb.list1[(cuRefIndex s .l1).toNat]? = some ⟨0, 0⟩ ∧ cuVector s .l0 ≠ cuVector s .l1) :=
  ⟨video_registers _ _ _ _, ⟨.inr (.inr (.inr (.inr rfl))), by decide⟩, video_plane _ _ _ _ (.inl rfl), by decide⟩

/-- No picture size; no current picture; and one excluded operand of each command, at its bound. -/
theorem witness_OperandErrors :
    blank.cfg.picW = 0 ∧ Instr.mcCu ∈ [Instr.mcClipmv, .mcCu, .dpbGet] ∧ blank.cfg.curSlot = 0xFFFFFFFF ∧
    byteOf (videoWith 0 0 0x00010101 0).arg2 2 = ((videoWith 0 0 0x00010101 0).dpb.list .l0).length ∧
    64 < byteOf (videoWith 0 0 0x0141 0).arg2 0 ∧ byteOf (videoWith 0 0 0x0041 0).arg2 1 < 1 ∧
    cuRefIndex (videoWith 0 0x00FE0004 0 0) .l1 < -1 ∧ (∀ l, cuRefIndex (videoWith 0 0x00FFFF04 0 0) l = -1) ∧
    ¬CuPlaced (videoWith 0 5 0 0) 0 0 5 ∧ video.cfg.curSlot ≠ 0xFFFFFFFF ∧
    video.cfg.picW.toNat / 4 ≤ lo16 (videoWith 4 0 0 0).arg0 ∧
    ¬((lo16 (1 : Word) = lo16 (1 : Word) + 1 ∧ hi16 (1 : Word) = hi16 (1 : Word)) ∨
      (lo16 (1 : Word) = lo16 (1 : Word) ∧ hi16 (1 : Word) = hi16 (1 : Word) + 1)) ∧
    (Dir.vertical = .vertical ∧ lo16 (0 : Word) = 0) ∧ lo16 (2 : Word) % 4 ≠ 0 ∧ (0x100 : Word).extractLsb' 8 24 ≠ 0 := by
  refine ⟨by decide, by decide, by decide, by decide, by decide, by decide, by decide, ?_, ?_, by decide, by decide,
    by decide, by decide, by decide, by decide⟩
  · intro l; cases l <;> decide
  · rintro ⟨h, -⟩; omega

/-- An intra side, a coded side, vectors 4 apart, and equal motion. -/
theorem witness_DfBsStrength :
    (∀ p q, BlockReady (edge p q (0, 0xFF) (0, 0xFF) (⟨0, 0⟩, ⟨0, 0⟩) (⟨0, 4⟩, ⟨0, 0⟩)) 2 0 0 ∧
      BlockReady (edge p q (0, 0xFF) (0, 0xFF) (⟨0, 0⟩, ⟨0, 0⟩) (⟨0, 4⟩, ⟨0, 0⟩)) 2 0 1) ∧
    (cuVal (edge 0x8000 0 (0, 0xFF) (0, 0xFF) (⟨0, 0⟩, ⟨0, 0⟩) (⟨0, 4⟩, ⟨0, 0⟩)) 0 0).getLsbD 15 = true ∧
    (cuVal (edge 0 0x1000000 (0, 0xFF) (0, 0xFF) (⟨0, 0⟩, ⟨0, 0⟩) (⟨0, 4⟩, ⟨0, 0⟩)) 0 1).getLsbD 24 = true ∧
    MotionFar (edge 0 0 (0, 0xFF) (0, 0xFF) (⟨0, 0⟩, ⟨0, 0⟩) (⟨0, 4⟩, ⟨0, 0⟩)) 2 (0, 0) (0, 1) ∧
    ¬MotionFar (edge 0 0 (0, 0xFF) (0, 0xFF) (⟨0, 0⟩, ⟨0, 0⟩) (⟨3, -3⟩, ⟨0, 0⟩)) 2 (0, 0) (0, 1) ∧
    (let s := edge 0 0 (0, 0xFF) (0, 0xFF) (⟨0, 0⟩, ⟨0, 0⟩) (⟨0, 4⟩, ⟨0, 0⟩)
     s.cfg.curSlot ≠ 0xFFFFFFFF ∧ lo16 s.arg1 < s.cfg.picW.toNat / 4 ∧ lo16 s.arg1 = lo16 s.arg0 + 1 ∧
      hi16 s.arg1 = hi16 s.arg0) := by
  refine ⟨fun p q => ⟨⟨rfl, _, rfl, fun l => by cases l <;> exact ⟨rfl, rfl⟩⟩, ⟨rfl, _, rfl, fun l => by cases l <;> exact ⟨rfl, rfl⟩⟩⟩,
    by decide, by decide, ?_, ?_, by decide⟩
  · unfold MotionFar FarApart; decide
  · unfold MotionFar FarApart; decide

/-- A vertical segment at the right of the picture and a horizontal one at the bottom. -/
theorem witness_DfLumaFiltersLines :
    RegistersOk (videoWith 0x0000000C 4 0 0) ∧ SegmentReady (videoWith 0x0000000C 4 0 0) 2 .y .vertical 12 0 4 ∧
    SegmentReady (videoWith 0x000C0000 4 0 0) 2 .y .horizontal 0 12 4 ∧ video.cfg.curSlot = 2 ∧
    (lo16 0x0000000C % 4 = 0 ∧ hi16 0x0000000C % 4 = 0 ∧ lo16 0x0000000C < video.cfg.picW.toNat ∧
      hi16 0x000C0000 < video.cfg.picH.toNat ∧ lo16 0x0000000C ≠ 0 ∧ hi16 0x000C0000 ≠ 0) :=
  ⟨video_registers _ _ _ _, video_segment _ _ _ _ _ _ (by decide), video_segment _ _ _ _ _ _ (by decide), rfl, by decide⟩

theorem witness_DfChromaFiltersLines :
    RegistersOk (videoWith 0x00060004 4 0 0) ∧ SegmentReady (videoWith 0x00060004 4 0 0) 2 .cb .vertical 4 6 2 ∧
    SegmentReady (videoWith 0x00040006 4 0 0) 2 .cr .horizontal 6 4 2 ∧ video.cfg.curSlot ≠ 0xFFFFFFFF ∧
    (lo16 0x00060004 % 4 = 0 ∧ hi16 0x00060004 % 2 = 0 ∧ lo16 0x00060004 ≠ 0 ∧ lo16 0x00060004 < video.cfg.picW.toNat / 2 ∧
      hi16 0x00060004 < video.cfg.picH.toNat / 2) :=
  ⟨video_registers _ _ _ _, video_segment _ _ _ _ _ _ (by decide), video_segment _ _ _ _ _ _ (by decide), by decide,
    by decide⟩

/-- V-DF3, V-DF6 and V-DF4: each of the three cases, within 8 bits. -/
theorem witness_UnfilteredLines :
    ((0 : Int) = 0 ∧ (255 : Int) < 2 ^ 8) ∧ ((10 : Int) - 4 * 12 + 4 * 14 - 16).tdiv 8 = 0 ∧
    2 * (8 : Int) ≤ |((0 : Int) - 4 * 0 + 4 * 100 - 100).tdiv 8| := by decide

theorem witness_DfClrClearsCoded : RegistersOk (videoWith 0 0 0 0) := video_registers _ _ _ _

/-- The left edge of the CU at (8, 0): one segment, on the chroma grid, in a picture that holds its samples. -/
def cuState : State :=
  { blank with
    cfg := { picW := 16, picH := 8, curSlot := 2 }, arg0 := 8, arg1 := 4
    dpb := { slots := [], list0 := [⟨1, 8⟩, ⟨0, 0⟩] }
    cuLow := [(cellKey 0 1, 0x1E8000), (cellKey 0 2, 0x1E0000)], cuCod := [(cellKey 0 1, true), (cellKey 0 2, false)]
    pics := [{}, {}, {
      y := planeOf 10 4 (fun _ x => if x < 8 then 20 else 40)
      cb := planeOf 6 2 (fun _ x => if x < 4 then 10 else 20)
      cr := planeOf 6 2 (fun _ x => if x < 4 then 20 else 10) }] }

def cuBs : State := after (exec .dfBs { cuState with arg0 := posWord 1 0, arg1 := posWord 2 0 })
def cuLuma : State := after (exec (.dfLuma .vertical) { cuState with arg0 := posWord 8 0, arg1 := 9 })
def cuCb : State := after (exec (.dfChroma .vertical 1) { cuLuma with arg0 := posWord 4 0, arg1 := 9 })
def cuCr : State := after (exec (.dfChroma .vertical 2) cuCb)

theorem witness_DfCuRunsSegments :
    RegistersOk cuState ∧ cuState.cfg.curSlot ≠ 0xFFFFFFFF ∧ cuState.arg1.extractLsb' 8 24 = 0 ∧ CuPlaced cuState 8 0 4 ∧
    edgeAt .vertical 8 0 ≠ 0 ∧ EdgeRun .vertical 8 0 (List.range (4 / 4)) cuState cuCr ∧ edgeAt .vertical 0 0 = 0 := by
  refine ⟨registersOk_of (by decide +kernel), by decide, by decide, ⟨.inl rfl, by decide⟩, by decide, ?_, rfl⟩
  have hb := eq_after (r := exec .dfBs { cuState with arg0 := posWord 1 0, arg1 := posWord 2 0 })
    (f := fun t => t.code == .ok && t.res0 == 0) (by decide +kernel)
  have hl := eq_after (r := exec (.dfLuma .vertical) { cuState with arg0 := posWord 8 0, arg1 := 9 })
    (f := fun t => t.code == .ok) (by decide +kernel)
  have h1 := eq_after (r := exec (.dfChroma .vertical 1) { cuLuma with arg0 := posWord 4 0, arg1 := 9 })
    (f := fun t => t.code == .ok) (by decide +kernel)
  have h2 := eq_after (r := exec (.dfChroma .vertical 2) cuCb) (f := fun t => t.code == .ok) (by decide +kernel)
  simp only [Bool.and_eq_true, beq_iff_eq] at hb hl h1 h2
  have hn : ¬(cuState.cfg.picW.toNat ≤ 8 ∨ cuState.cfg.picH.toNat ≤ 0 ∨ cuState.cuCod.read (cellKey 0 1) = some false) := by
    decide
  have hseg : SegmentRun .vertical 8 0 cuState cuCr := by
    refine ⟨cuBs, 0x1E0000, hb.1, hb.2.1, by decide, ?_⟩
    have e1 : thresholdVal cuState cuBs.res0.toNat (min ((0x1E0000 : BitVec 31).extractLsb' 16 7).toNat 51) = 9 := by
      show thresholdVal cuState (after _).res0.toNat _ = 9
      rw [hb.2.2]; decide
    have e2 : thresholdVal cuState cuBs.res0.toNat
        (cuState.config.chromaQpMap.getD (min ((0x1E0000 : BitVec 31).extractLsb' 16 7).toNat 51) 0) = 9 := by
      show thresholdVal cuState (after _).res0.toNat _ = 9
      rw [hb.2.2]; decide
    rw [e1, e2]
    refine ⟨by decide, by decide, cuLuma, ?_, ?_⟩
    · rw [if_neg (by decide)]; exact hl
    · rw [if_pos (by decide)]; exact ⟨cuCb, h1.1, h1.2, h2.1, h2.2⟩
  show EdgeRun .vertical 8 0 [0] cuState cuCr
  unfold EdgeRun
  refine (if_neg hn).mpr ⟨by decide, cuCr, hseg, rfl⟩

theorem witness_DfCuCompletes :
    RegistersOk (videoWith 0x00080008 8 0 0) ∧ video.cfg.curSlot ≠ 0xFFFFFFFF ∧ (8 : Word).extractLsb' 8 24 = 0 ∧
    CuPlaced (videoWith 0x00080008 8 0 0) 8 8 8 ∧ EdgeReady (videoWith 0x00080008 8 0 0) 2 8 8 8 := by
  refine ⟨video_registers _ _ _ _, by decide, by decide, ⟨.inr (.inl rfl), by decide⟩, ?_, video_plane _ _ _ _ (.inr rfl)⟩
  intro row col hr hc _ _ _ _
  refine ⟨video_block _ _ _ _ hr hc, ?_⟩
  show ((cellsOf 4 4 (fun _ _ => true)).read (cellKey row col)).isSome = true
  rw [read_cellsOf (w := 4) (h := 4) _ (by decide) hr hc]; rfl

/-- Slot 1 is reusable and slot 0 is not; with slot 0 alone in POOL slot 1 is free; with MAX_PB 2 nothing is left. -/
def getState (maxPb : Word) : State :=
  { videoWith 0 0 0 0 with
    cfg := { picW := 16, picH := 16, maxPb := maxPb, curSlot := 2 }
    dpb := { slots := [{ state := .pool, isRef := true }, {}, { state := .detached }, {}, {}, {}, {}, {}], pool := [0], refseq := [0] } }

theorem witness_DpbGetAcquires :
    (DpbOk (videoWith 0 0 0 0) ∧ RegistersOk (videoWith 0 0 0 0) ∧ video.dpb.pool = [0] ++ 1 :: [] ∧
      Reusable (videoWith 0 0 0 0) 1 ∧ ∀ j ∈ [0], ¬Reusable (videoWith 0 0 0 0) j) ∧
    (∀ n, DpbOk (getState n)) ∧ RegistersOk (getState 8) ∧ RegistersOk (getState 2) ∧
    (∀ n, ∀ j ∈ (getState n).dpb.pool, ¬Reusable (getState n) j) ∧
    ((getState 8).allocated < (getState 8).cfg.maxPb.toNat ∧ ((getState 8).dpb.slot 1).state = .unalloc ∧
      ∀ j < 1, ((getState 8).dpb.slot j).state ≠ .unalloc) ∧
    (getState 2).cfg.maxPb.toNat ≤ (getState 2).allocated := by
  refine ⟨⟨video_dpb _ _ _ _, video_registers _ _ _ _, rfl, reusable_iff.1 (by decide), ?_⟩, fun n => ?_,
    registersOk_of (by decide +kernel), registersOk_of (by decide +kernel), ?_, by decide +kernel, by decide +kernel⟩
  · intro j hj
    rw [← reusable_iff]
    obtain rfl : j = 0 := by simpa using hj
    decide
  · have h : DpbOk (getState 8) := dpbOk_of (by decide +kernel)
    exact ⟨h.slots_length, h.pics_length, h.pool_nodup, h.mem_pool, h.refseq_nodup, h.mem_refseq, h.not_pool, h.borrowed,
      h.numref_le, h.current⟩
  · intro n j hj
    obtain rfl : j = 0 := by simpa [getState] using hj
    intro h
    exact absurd h.1 (show ¬((getState 0).dpb.slot 0).isRef = false by decide)

/-- Slot 2 is DETACHED, slot 0 is not; gap 0 and gap 8. -/
theorem witness_DpbPutStores :
    DpbOk (videoWith 2 8 8 0) ∧ RegistersOk (videoWith 2 8 8 0) ∧ 2 = (videoWith 2 8 8 0).arg0.toNat ∧
    ((videoWith 2 8 8 0).dpb.slot 2).state = .detached ∧ ((videoWith 0 8 8 0).dpb.slot 0).state ≠ .detached ∧
    (videoWith 2 8 0 0).arg2 = 0 ∧ (videoWith 2 8 8 0).arg2 ≠ 0 :=
  ⟨video_dpb _ _ _ _, video_registers _ _ _ _, rfl, rfl, by decide, rfl, by decide⟩

/-- The hierarchical references of 95_test_vectors.md at POC 6 and at POC 0. -/
def refState (poc : Word) : State := { blank with arg0 := poc, dpb := { slots := hier, refseq := [0, 1, 2, 3] } }

theorem witness_DpbRefpBuildsLists :
    blank.config.maxRefList < (5 : BitVec 8).toNat ∧ (4 : BitVec 8).toNat ≤ blank.config.maxRefList ∧
    ((refState 6).forP 6 0 0).take 2 ≠ [] ∧ ((refState 0).forP 0 0 0).take 2 = [] ∧
    (refState 6).forB0 2 6 0 2 ≠ [] ∧ (refState 6).forB1 2 6 0 2 ≠ [] ∧ (refState 0).forB0 2 0 0 2 = [] := by
  refine ⟨by decide, by decide, ?_, ?_, ?_, ?_, ?_⟩
  · rw [← walkP_eq]; decide +kernel
  · rw [← walkP_eq]; decide +kernel
  · rw [← listB0_eq]; decide +kernel
  · rw [← listB1_eq]; decide +kernel
  · rw [← listB0_eq]; decide +kernel

theorem witness_DpbRefpDistinctPocs :
    ((refState 6).dpb.refseq.map (fun j => ((refState 6).dpb.slot j).poc)).Nodup ∧
    ∃ t, exec (.dpbRefp 2 2 2) (refState 6) = .next t ∧ t.code ≠ .illegalCommand :=
  ⟨by decide, _, (eq_after (f := fun t => t.code == .ok) (by decide +kernel)).1, by decide +kernel⟩

/-- A due picture between two others; none waiting; one waiting that is not due. -/
def outState (next : Word) : State :=
  { blank with
    cfg := { nextOutPoc := next }
    dpb := {
      slots := [{ state := .pool, needOut := true, poc := 6 }, { state := .pool, needOut := true, poc := 4 },
        { state := .pool, needOut := true, poc := 4 }]
      pool := [0, 1, 2] } }

theorem witness_DpbOutSelects :
    ((outState 4).dpb.pool = [0] ++ 1 :: [2] ∧ ((outState 4).dpb.slot 1).needOut = true ∧
      (outState 4).pocOf 1 ≤ (outState 4).cfg.nextOutPoc.toNat ∧
      (∀ j ∈ [0], ((outState 4).dpb.slot j).needOut = true → (outState 4).pocOf 1 < (outState 4).pocOf j) ∧
      ∀ j ∈ [2], ((outState 4).dpb.slot j).needOut = true → (outState 4).pocOf 1 ≤ (outState 4).pocOf j) ∧
    (∀ j ∈ blank.dpb.pool, (blank.dpb.slot j).needOut = false) ∧
    ((∃ j ∈ (outState 3).dpb.pool, ((outState 3).dpb.slot j).needOut = true) ∧
      ∀ j ∈ (outState 3).dpb.pool, ((outState 3).dpb.slot j).needOut = true →
        (outState 3).cfg.nextOutPoc.toNat < (outState 3).pocOf j) := by decide

theorem witness_DpbListReads :
    (video.dpb.list .l1)[(0 : BitVec 8).toNat]? = some ⟨0, 0⟩ ∧ (video.dpb.list .l1).length ≤ (1 : BitVec 8).toNat := by decide

theorem witness_DpbSlotRead :
    DpbOk (videoWith 0 0 0 0) ∧ RegistersOk (videoWith 0 0 0 0) ∧ (7 : BitVec 8).toNat < video.config.pbCap ∧
      video.config.pbCap ≤ (8 : BitVec 8).toNat := ⟨video_dpb _ _ _ _, video_registers _ _ _ _, by decide, by decide⟩

/-- One state for the three invariants: it meets them, and a command runs from it. -/
theorem witness_StepKeepsInvariants :
    (let s := { videoWith 0 0 0 0 with host := [.regWrite 0 0x50000000] }
     RegistersOk s ∧ DpbOk s ∧ MemoriesOk s ∧ ∃ t, step s = .next t ∧ t.res0 = 1) := by
  have h := video_dpb 0 0 0 0
  refine ⟨video_registers 0 0 0 0, ⟨h.slots_length, h.pics_length, h.pool_nodup, h.mem_pool, h.refseq_nodup, h.mem_refseq,
    h.not_pool, h.borrowed, h.numref_le, h.current⟩, ?_, _, (eq_after (f := fun t => t.res0 == 1) (by decide +kernel)).1,
    by decide +kernel⟩
  unfold MemoriesOk
  decide +kernel

end Sys2Proof.Tests
end

/-! The register bank as the host reads and writes it (10_state.md R22 to R27): what each word number
answers to a read and what a write to it does. -/

namespace Sys2Proof.Machine

variable {s : State} {n : BitVec 6}

/-- A step takes the host's next action (R6, R68). -/
theorem step_of_host_cons {a : HostAction} {rest : List HostAction} (h : s.host = a :: rest) :
    step s = hostStep a { s with host := rest } := by
  simp only [step, nextStep, h]

/-! ### STATUS -/

/-- STATUS as a number: CODE, and STICKY with the weight of bit 8 (R26). There are eight codes and two values of
STICKY to check. -/
theorem State.statusWord_eq (s : State) :
    s.statusWord = BitVec.ofNat 32 (s.code.num + if s.sticky then 256 else 0) := by
  unfold State.statusWord
  cases s.code <;> cases s.sticky <;> rfl

/-! ### Reads -/

/-- The words above STATUS are reserved (R22). -/
theorem hostRegValue_reserved (h : 8 ≤ n.toNat) (s : State) : hostRegValue n s = 0 := by
  unfold hostRegValue
  split
  case h_8 => rfl
  all_goals omega

/-- The whole bank as the host reads it, by word number. -/
theorem hostRegValue_eq (n : BitVec 6) (s : State) :
    hostRegValue n s =
      if n = 1 then s.arg0 else if n = 2 then s.arg1 else if n = 3 then s.arg2 else if n = 4 then s.arg3
      else if n = 5 then s.res0 else if n = 6 then s.res1 else if n = 7 then s.statusWord else 0 := by
  split_ifs
  case neg =>
    have hn : n = 0 ∨ 8 ≤ n.toNat := by bv_omega
    obtain rfl | hn := hn
    · rfl
    · exact hostRegValue_reserved hn s
  all_goals subst n; rfl

/-- A host read of the bank changes nothing but the word the host last read. -/
theorem step_regRead {rest : List HostAction} (h : s.host = .regRead n :: rest) :
    step s = .next { s with host := rest, hostData := hostRegValue n { s with host := rest } } :=
  step_of_host_cons h

/-! ### Writes -/

theorem hostRegWrite_cmd (v : Word) (s : State) : hostRegWrite 0 v s = runCommand v s := rfl
theorem hostRegWrite_arg0 (v : Word) (s : State) : hostRegWrite 1 v s = .next { s with arg0 := v } := rfl
theorem hostRegWrite_arg1 (v : Word) (s : State) : hostRegWrite 2 v s = .next { s with arg1 := v } := rfl
theorem hostRegWrite_arg2 (v : Word) (s : State) : hostRegWrite 3 v s = .next { s with arg2 := v } := rfl
theorem hostRegWrite_arg3 (v : Word) (s : State) : hostRegWrite 4 v s = .next { s with arg3 := v } := rfl

/-- RES0, RES1, STATUS and the reserved words ignore a write (R22). -/
theorem hostRegWrite_ignored (h : 5 ≤ n.toNat) (v : Word) (s : State) : hostRegWrite n v s = .next s := by
  unfold hostRegWrite
  split
  case h_6 => rfl
  all_goals omega

theorem step_regWrite {v : Word} {rest : List HostAction} (h : s.host = .regWrite n v :: rest) :
    step s = hostRegWrite n v { s with host := rest } :=
  step_of_host_cons h

/-- Settles O5: a read answers by `hostRegValue_eq`, STATUS written as a number; a write is the equation of its word
number. -/
theorem hostRegisterBank : Obligations.HostRegisterBank := by
  unfold Obligations.HostRegisterBank
  intro s rest n v
  constructor
  · intro h
    rw [step_regRead h, hostRegValue_eq, State.statusWord_eq]
  · intro h
    rw [step_regWrite h]
    refine ⟨?cmd, ?arg0, ?arg1, ?arg2, ?arg3, fun hn => hostRegWrite_ignored hn v _⟩
    case cmd => rintro rfl; exact hostRegWrite_cmd v _
    case arg0 => rintro rfl; exact hostRegWrite_arg0 v _
    case arg1 => rintro rfl; exact hostRegWrite_arg1 v _
    case arg2 => rintro rfl; exact hostRegWrite_arg2 v _
    case arg3 => rintro rfl; exact hostRegWrite_arg3 v _

end Sys2Proof.Machine

/-! The words and field values that are no legal command (30_encoding.md R87 to R91): the decoder answers an error
to an unassigned opcode and to a reserved bit, and each meaning rejects the field values that its rule excludes. -/

namespace Sys2Proof

/-! ### Words the decoder rejects -/

/-- The opcodes that the table of R89 leaves unassigned, the custom space 0xF0 to 0xFF among them, have no format. -/
theorem formatMask_unassigned {o : BitVec 8}
    (h : (0x05 ≤ o.toNat ∧ o.toNat ≤ 0x0F) ∨ (0x17 ≤ o.toNat ∧ o.toNat ≤ 0x1F) ∨ (0x28 ≤ o.toNat ∧ o.toNat ≤ 0x2F) ∨
      (0x34 ≤ o.toNat ∧ o.toNat ≤ 0x3F) ∨ (0x45 ≤ o.toNat ∧ o.toNat ≤ 0x4F) ∨ 0x57 ≤ o.toNat) :
    formatMask o = none := by
  unfold formatMask
  split
  case h_37 => rfl
  all_goals omega

theorem decode_of_no_format {w : Word} (h : formatMask (opcodeOf w) = none) : ∃ e, decode w = .error e :=
  ⟨if 0xF0 ≤ (opcodeOf w).toNat then .customSpace else .unassigned, by simp only [decode, h]⟩

/-- A 1 outside the field bits of the opcode's format (R87). -/
theorem decode_of_reserved_bit {w : Word} {mask : BitVec 24} (hmask : formatMask (opcodeOf w) = some mask)
    (hbit : fieldsOf w &&& ~~~mask ≠ 0) : decode w = .error .reservedBit := by
  simp only [decode, hmask, if_pos hbit]

/-! ### Field values that a rule excludes -/

/-- DEC_UNARY and DEC_TUNARY take CB = NC = 0 for bypass bins, and at least one context, none past the last, for
the others (R135, R136). -/
theorem unaryFieldsOk_eq_false {cb : BitVec 8} {nc : BitVec 4} {bypass : Bool} :
    unaryFieldsOk cb nc bypass = false ↔
      (bypass = true ∧ (cb.toNat ≠ 0 ∨ nc.toNat ≠ 0)) ∨
        (bypass = false ∧ (nc.toNat = 0 ∨ numCtx ≤ cb.toNat + nc.toNat - 1)) := by
  cases bypass
  case false => simp [unaryFieldsOk, ← BitVec.toNat_inj, Decidable.imp_iff_not_or]
  case true => simp [unaryFieldsOk, ← BitVec.toNat_inj, Decidable.imp_iff_not_or]

namespace Machine

variable {s : State}

/-! ### The commands that complete with ILLEGAL_COMMAND for them -/

theorem runCommand_of_decode_error {w : Word} {e : DecodeError} (h : decode w = .error e) (s : State) :
    runCommand w s = raise .illegalCommand s := by
  simp only [runCommand, h]

/-- CUR_SLOT and the reserved indices take no write (R40, R41). -/
theorem cfgWrError_unwritable {idx : BitVec 8} (h : 0x0A ≤ idx.toNat) (c : Config) (v : Word) :
    cfgWrError c idx v = some .illegalCommand := by
  unfold cfgWrError
  split
  case h_11 => rfl
  all_goals omega

theorem Cfg.get_reserved {idx : BitVec 8} (h : 0x0B ≤ idx.toNat) (g : Cfg) : g.get idx = none := by
  unfold Cfg.get
  split
  case h_12 => rfl
  all_goals omega

theorem execCfgWr_unwritable {idx : BitVec 8} (h : 0x0A ≤ idx.toNat) (s : State) :
    execCfgWr idx s = raise .illegalCommand s := by
  simp only [execCfgWr, cfgWrError_unwritable h]

theorem execCfgRd_reserved {idx : BitVec 8} (h : 0x0B ≤ idx.toNat) (s : State) :
    execCfgRd idx s = raise .illegalCommand s := by
  simp only [execCfgRd, Cfg.get_reserved h]

theorem execBrRead_illegal_count {n : BitVec 6} (h : n.toNat = 0 ∨ 32 < n.toNat) (s : State) :
    execBrRead n s = raise .illegalCommand s :=
  if_pos h

theorem execDecUnary_illegal_fields {cb : BitVec 8} {nc : BitVec 4} {bypass : Bool}
    (h : unaryFieldsOk cb nc bypass = false) (s : State) : execDecUnary cb nc bypass s = raise .illegalCommand s := by
  rw [execDecUnary, ← ite_or, if_pos (unaryFieldsOk_eq_false.1 h)]

theorem execDecTunary_illegal_fields {cb : BitVec 8} {nc : BitVec 4} {bypass : Bool}
    (h : unaryFieldsOk cb nc bypass = false) (mx : BitVec 8) (s : State) :
    execDecTunary cb nc bypass mx s = raise .illegalCommand s := by
  rw [execDecTunary, ← ite_or, if_pos (unaryFieldsOk_eq_false.1 h)]

theorem execMcPred_no_component (l : ListIx) (s : State) : execMcPred 3 l s = raise .illegalCommand s := rfl

theorem execMcAvg_no_component (s : State) : execMcAvg 3 s = raise .illegalCommand s := rfl

/-- DF_CHROMA filters Cb or Cr (R181). -/
theorem execDfChroma_not_chroma {c : BitVec 2} (h : c = 0 ∨ c = 3) (d : Dir) (s : State) :
    execDfChroma d c s = raise .illegalCommand s := by
  obtain rfl | rfl := h <;> rfl

theorem execDpbRefp_illegal_fields {m : BitVec 8} {st : BitVec 2} (h : s.config.maxRefList < m.toNat ∨ st.toNat = 3)
    (lid : BitVec 3) : execDpbRefp m st lid s = raise .illegalCommand s :=
  if_pos h

theorem execDpbListRd_past_end {k : BitVec 8} {l : ListIx} (h : (s.dpb.list l).length ≤ k.toNat) :
    execDpbListRd k l s = raise .illegalCommand s := by
  simp only [execDpbListRd, List.getElem?_eq_none h]

theorem execDpbSlotRd_past_cap {k : BitVec 8} (h : s.config.pbCap ≤ k.toNat) :
    execDpbSlotRd k s = raise .illegalCommand s :=
  if_pos h

/-- R90, second part: the meanings reject every field value that is ill formed in itself. Only the commands below
have such a value. -/
theorem exec_of_not_wellFormed {i : Instr} (h : i.wellFormed = false) (s : State) :
    exec i s = raise .illegalCommand s := by
  cases i
  case cfgWr idx => exact execCfgWr_unwritable (by simpa [Instr.wellFormed] using h) s
  case cfgRd idx => exact execCfgRd_reserved (by simpa [Instr.wellFormed] using h) s
  case brRead n =>
    refine execBrRead_illegal_count ?_ s
    simpa [Instr.wellFormed, ← BitVec.toNat_inj, Decidable.imp_iff_not_or] using h
  case decUnary cb nc bypass => exact execDecUnary_illegal_fields h s
  case decTunary cb nc bypass mx => exact execDecTunary_illegal_fields h mx s
  case mcPred c l =>
    obtain rfl : c = 3 := by simpa [Instr.wellFormed] using h
    exact execMcPred_no_component l s
  case mcAvg c =>
    obtain rfl : c = 3 := by simpa [Instr.wellFormed] using h
    exact execMcAvg_no_component s
  case dfChroma d c =>
    refine execDfChroma_not_chroma ?_ d s
    have hc : c ≠ 1 ∧ c ≠ 2 := by simpa [Instr.wellFormed] using h
    bv_omega
  case dpbRefp m st lid =>
    obtain rfl : st = 3 := by simpa [Instr.wellFormed] using h
    exact execDpbRefp_illegal_fields (.inr rfl) lid
  all_goals exact Bool.noConfusion h

/-- Settles O3: the decoder rejects the words of the first two parts, by opcode and by format, and the meanings reject
the field values of the third; `raise` sets CODE alone. -/
theorem illegalCommandsOnlySetCode : Obligations.IllegalCommandsOnlySetCode := by
  unfold Obligations.IllegalCommandsOnlySetCode
  intro s
  refine ⟨?unassigned, ?reserved, ?fields⟩
  case unassigned =>
    intro w ho
    obtain ⟨e, he⟩ := decode_of_no_format (formatMask_unassigned ho)
    exact runCommand_of_decode_error he s
  case reserved =>
    intro w p hp hopc hbit
    -- The rows listed are the decoder's own; `List.all` keeps `decide` to them.
    have hmask : formatMask p.1 = some p.2 :=
      (List.all_iff_forall_prop (p := fun q => formatMask q.1 = some q.2)).1 (by decide) p hp
    rw [← hopc] at hmask
    exact runCommand_of_decode_error (decode_of_reserved_bit hmask hbit) s
  case fields =>
    rintro i (hwf | ⟨m, st, lid, rfl, hm⟩ | ⟨k, rfl, hk⟩ | ⟨k, l, rfl, hk⟩)
    · exact exec_of_not_wellFormed hwf s
    · exact execDpbRefp_illegal_fields (.inl hm) lid
    · exact execDpbSlotRd_past_cap hk
    · exact execDpbListRd_past_end hk

end Machine
end Sys2Proof

/-! The bit reader's commands (40_bitreader.md R107 to R114): what each of them does to the registers, the bits of the
packet being those of `Laws/BitReader.lean`. -/

namespace Sys2Proof.Machine

variable {s : State} {n : BitVec 6}

/-! ### The packet and the cursor (R108, R113, R114) -/

theorem execBrInit_of_fits (h : s.arg0.toNat + s.arg1.toNat ≤ s.config.bsSize) :
    execBrInit s =
      finish ((s.setEnt { s.ent with bsBase := s.arg0, bsLen := s.arg1, bitPos := 0 }).setSticky false) :=
  if_neg (Nat.not_lt.2 h)

theorem execBrInit_of_too_long (h : s.config.bsSize < s.arg0.toNat + s.arg1.toNat) :
    execBrInit s = raise .illegalCommand s :=
  if_pos h

/-- The cursor is a 32-bit word, so the byte count of R114 needs no wrap. -/
theorem consumed_le (s : State) : (s.cursor + 7) / 8 ≤ 2 ^ 29 := by
  have := cursor_lt s
  omega

/-- Settles O18: the packet fits in BSMEM or is too long for it. -/
theorem brInitStartsPacket : Obligations.BrInitStartsPacket := by
  unfold Obligations.BrInitStartsPacket
  exact ⟨rfl, fun _ => ⟨execBrInit_of_fits, execBrInit_of_too_long⟩⟩

/-- Settles O23: both commands answer by their equations; the bound is that of `consumed_le`. -/
theorem brCursorQueries : Obligations.BrCursorQueries := by
  unfold Obligations.BrCursorQueries
  exact ⟨rfl, rfl, fun s => ⟨rfl, rfl, consumed_le s⟩⟩

/-! ### Fixed-length reads (R107, R109) -/

/-- The word of BR_READ carries N in its low bits (R89): one word for each of the 64 values of the field. -/
theorem encode_brRead : ∀ n : BitVec 6, encode (.brRead n) = 0x11000000#32 ||| n.zeroExtend 32 := by decide

theorem packetBits_one (s : State) (i : Nat) : packetBits s i 1 = (packetBit s i).toNat := by
  simp [packetBits]

theorem readbits_one (bs : Memory Byte) (e : Entropy) :
    readbits bs 1 e = (nextbit bs e).map fun r => (r.1.toNat, r.2) := by
  unfold readbits readbitsFrom
  cases nextbit bs e with
  | error f => rfl
  | ok r => simp [readbitsFrom, Except.map]

/-- A legal N leaves the STICKY check and the read itself. -/
theorem execBrRead_legal_count (h1 : 1 ≤ n.toNat) (h32 : n.toNat ≤ 32) (s : State) :
    execBrRead n s = unlessHalted s
      (orFault (readbits s.bsmem n.toNat s.ent) fun r => finish ((s.setEnt r.2).setRes0 (natWord r.1))) :=
  if_neg (by omega)

theorem execBrRead_halted (h1 : 1 ≤ n.toNat) (h32 : n.toNat ≤ 32) (hs : s.sticky = true) :
    execBrRead n s = raise .engineHalted s := by
  rw [execBrRead_legal_count h1 h32, unlessHalted_halted hs, raise_eq]

theorem execBrRead_ok (hf : PacketFits s) (hw : PacketWritten s) (hs : s.sticky = false) (h1 : 1 ≤ n.toNat)
    (h32 : n.toNat ≤ 32) :
    execBrRead n s = finish ((s.setEnt { s.ent with bitPos := cursorAfter s n.toNat }).setRes0
      (natWord (packetBits s s.cursor n.toNat))) := by
  have hread := readbits_ok hf hw n.toNat (atCursor_zero s)
  rw [Nat.add_zero, Nat.zero_add] at hread
  rw [execBrRead_legal_count h1 h32, unlessHalted_running hs, hread, orFault_ok]

/-- R109: BR_READ1 and BR_READ with N = 1 read the same bit, and the same fault where its byte is not written. -/
theorem execBrRead1_eq (s : State) : execBrRead1 s = execBrRead 1 s := by
  rw [execBrRead_legal_count (n := 1) (by decide) (by decide), show (1 : BitVec 6).toNat = 1 from rfl, readbits_one,
    execBrRead1]
  cases nextbit s.bsmem s.ent <;> rfl

/-- Settles O19: a count is illegal or legal, and a legal one is halted by STICKY or reads; BR_READ1 is the count 1. -/
theorem brReadReturnsBits : Obligations.BrReadReturnsBits := by
  unfold Obligations.BrReadReturnsBits
  refine ⟨encode_brRead, rfl, fun s => ⟨?illegal, ?halted, ?read, ?read1, execBrRead1_eq s⟩⟩
  case illegal => exact fun n h => execBrRead_illegal_count h s
  case halted => exact fun n h1 h32 hs => execBrRead_halted h1 h32 hs
  case read => exact fun n hf hw hs h1 h32 => execBrRead_ok hf hw hs h1 h32
  case read1 =>
    intro hf hw hs
    rw [← packetBits_one]
    exact (execBrRead1_eq s).trans (execBrRead_ok (n := 1) hf hw hs (by decide) (by decide))

/-! ### Exp-Golomb reads (R110 to R112) -/

/-- BR_READ_UE and BR_READ_SE read one unsigned code and differ in the result `f` they make of its value. -/
def readCode (f : Nat → Word) (s : State) : Result :=
  unlessHalted s
    (orFault (ue s.bsmem s.ent) fun r =>
      match r.1 with
      | none => raiseMalformed r.2 s
      | some v => finish ((s.setEnt r.2).setRes0 (f v)))

theorem execBrReadUe_eq (s : State) : execBrReadUe s = readCode natWord s := rfl

theorem execBrReadSe_eq (s : State) : execBrReadSe s = readCode (fun v => intWord (zigzag v)) s := rfl

theorem zigzag_eq (v : Nat) : zigzag v = if v % 2 = 1 then ((v : Int) + 1) / 2 else -((v : Int) / 2) := by
  simp [zigzag]

theorem readCode_halted {f : Nat → Word} (hs : s.sticky = true) : readCode f s = raise .engineHalted s := by
  rw [readCode, unlessHalted_halted hs, raise_eq]

theorem readCode_value {f : Nat → Word} (hf : PacketFits s) (hw : PacketWritten s) (hs : s.sticky = false) {z : Nat}
    (hz : z < 32) (hzeros : ∀ j < z, packetBit s (s.cursor + j) = false) (hone : packetBit s (s.cursor + z) = true) :
    readCode f s = finish ((s.setEnt { s.ent with bitPos := cursorAfter s (2 * z + 1) }).setRes0
      (f (2 ^ z - 1 + packetBits s (s.cursor + z + 1) z))) := by
  rw [readCode, unlessHalted_running hs, (ue_ok hf hw).1 z hz hzeros hone, orFault_ok]

theorem readCode_malformed {f : Nat → Word} (hf : PacketFits s) (hw : PacketWritten s) (hs : s.sticky = false)
    (hzeros : ∀ j < 32, packetBit s (s.cursor + j) = false) :
    readCode f s = raiseMalformed { s.ent with bitPos := cursorAfter s 32 } s := by
  rw [readCode, unlessHalted_running hs, (ue_ok hf hw).2 hzeros, orFault_ok]

/-- Settles O20: the cases of `readCode`, the result being the value itself. -/
theorem brReadUeDecodes : Obligations.BrReadUeDecodes := by
  unfold Obligations.BrReadUeDecodes
  refine ⟨rfl, fun s hs => (execBrReadUe_eq s).trans (readCode_halted hs), fun s hf hw hs => ⟨?value, ?malformed⟩⟩
  case value =>
    intro z hz hzeros hone
    exact (execBrReadUe_eq s).trans (readCode_value hf hw hs hz hzeros hone)
  case malformed =>
    intro hzeros
    exact (execBrReadUe_eq s).trans (readCode_malformed hf hw hs hzeros)

/-- Settles O21: the cases of `readCode`, the result being the signed value of the code. -/
theorem brReadSeDecodes : Obligations.BrReadSeDecodes := by
  unfold Obligations.BrReadSeDecodes
  refine ⟨rfl, fun s hs => (execBrReadSe_eq s).trans (readCode_halted hs), fun s hf hw hs => ⟨?value, ?malformed⟩⟩
  case value =>
    rintro z hz hzeros hone v rfl
    rw [← zigzag_eq]
    exact (execBrReadSe_eq s).trans (readCode_value hf hw hs hz hzeros hone)
  case malformed =>
    intro hzeros
    exact (execBrReadSe_eq s).trans (readCode_malformed hf hw hs hzeros)

end Sys2Proof.Machine

/-! The SBAC engine's commands that decode no context-coded bin (41_sbac.md R126 to R128, R133): what each of them does
to the registers and the context memory. -/

namespace Sys2Proof.Machine

variable {s : State}

/-! ### One context model (R126, R127) -/

/-- The word of format CX carries the context index in its low bits (R87). -/
theorem mkWord_index (o c : BitVec 8) :
    mkWord o ((0 : BitVec 16) ++ c) = (o ++ (0 : BitVec 24)) ||| c.zeroExtend 32 := by
  apply BitVec.eq_of_getLsbD_eq
  intro i hi
  simp only [mkWord, BitVec.getLsbD_or, BitVec.getLsbD_append, BitVec.getLsbD_setWidth, BitVec.ofNat_eq_ofNat,
    BitVec.getLsbD_zero]
  by_cases h8 : i < 8
  · simp [h8, hi, show i < 24 by omega]
  · simp [h8, BitVec.getLsbD_of_ge c i (by omega)]

/-- ARG0 is a context model when its reserved bits are 0 and its STATE is at most 256. -/
theorem ctxArg_legal_iff (v : Word) :
    (v.extractLsb' 10 22 = 0 ∧ ctxState (v.extractLsb' 0 10) ≤ 256) ↔ v.toNat < 1024 ∧ v.toNat / 2 ≤ 256 := by
  have hv := v.isLt
  rw [ctxState_eq, ← BitVec.toNat_inj]
  simp only [BitVec.extractLsb'_toNat, Nat.shiftRight_eq_div_pow, BitVec.ofNat_eq_ofNat, BitVec.toNat_ofNat]
  omega

theorem execCtxWr_eq (c : BitVec 8) (s : State) :
    execCtxWr c s =
      if s.arg0.toNat < 1024 ∧ s.arg0.toNat / 2 ≤ 256 then
        finish (s.setEnt { s.ent with ctx := s.ent.ctx.write c.toNat (s.arg0.extractLsb' 0 10) })
      else raise .illegalCommand s := by
  rw [← if_congr (ctxArg_legal_iff s.arg0) rfl rfl, ite_and, execCtxWr, ite_not]
  simp only [← not_lt, ite_not]

theorem execCtxRd_written {c : BitVec 8} {m : CtxModel} (h : s.ent.ctx.read c.toNat = some m) :
    execCtxRd c s = finish (s.setRes0 (m.zeroExtend 32)) := by
  simp only [execCtxRd, h]

theorem execCtxRd_unwritten {c : BitVec 8} (h : s.ent.ctx.read c.toNat = none) :
    execCtxRd c s = .fault (.unwrittenContext c.toNat) := by
  simp only [execCtxRd, h]

/-- Settles O26: ARG0 is a legal model or is not, and a context has been written or has not; neither command looks at
STICKY. -/
theorem contextAccess : Obligations.ContextAccess := by
  unfold Obligations.ContextAccess
  refine ⟨fun c => ⟨mkWord_index 0x21 c, mkWord_index 0x22 c⟩, fun c s => ⟨?write, ?illegal, ?read, ?unwritten⟩⟩
  case write =>
    intro hbits hstate
    exact ⟨_, (execCtxWr_eq c s).trans (if_pos ⟨hbits, hstate⟩), rfl, fun b => Memory.read_write ..⟩
  case illegal =>
    intro h
    exact (execCtxWr_eq c s).trans (if_neg (by omega))
  case read => exact fun m h => execCtxRd_written h
  case unwritten => exact execCtxRd_unwritten

/-! ### The start of the decoder (R128) -/

/-- A memory that lists each of its addresses with the value of a function there. -/
theorem Memory.read_map {α : Type} (f : Nat → α) (l : List Nat) (k : Nat) :
    Memory.read (l.map fun a => (a, f a)) k = if k ∈ l then some (f k) else none := by
  induction l with
  | nil => simp
  | cons a l ih =>
    rw [List.map_cons, Memory.read, ih]
    by_cases h : k = a
    · simp [h]
    · simp [h]

/-- The context memory that SBAC_INIT with F = 1 leaves: every context holds the one model. -/
def uniformContexts (m : CtxModel) : Memory CtxModel := (List.range numCtx).map fun c => (c, m)

theorem uniformContexts_read (m : CtxModel) {c : Nat} (h : c < 256) : (uniformContexts m).read c = some m := by
  exact (Memory.read_map (fun _ => m) _ c).trans (if_pos (List.mem_range.2 h))

theorem execSbacInit_halted (f : Bool) (h : s.sticky = true) : execSbacInit f s = raise .engineHalted s := by
  rw [execSbacInit, unlessHalted_halted h, raise_eq]

theorem execSbacInit_ok (f : Bool) (hf : PacketFits s) (hw : PacketWritten s) (h : s.sticky = false) :
    execSbacInit f s = finish (s.setEnt { s.ent with
      bitPos := cursorAfter s 14
      range := BitVec.ofNat 15 rangeInit
      value := BitVec.ofNat 16 (packetBits s s.cursor 14)
      ctx := if f then uniformContexts (s.cfg.ctxInit.extractLsb' 0 10) else s.ent.ctx }) := by
  have hread := readbits_ok hf hw 14 (atCursor_zero s)
  rw [Nat.add_zero, Nat.zero_add] at hread
  rw [execSbacInit, unlessHalted_running h, hread, orFault_ok]
  rfl

/-- Settles O25: SBAC_INIT is halted by STICKY or reads the 14 bits, which VALUE holds without wrapping. -/
theorem sbacInitPrimesEngine : Obligations.SbacInitPrimesEngine := by
  unfold Obligations.SbacInitPrimesEngine
  refine ⟨by decide, fun f s h => execSbacInit_halted f h, fun f s hf hw h => ?_⟩
  refine ⟨_, execSbacInit_ok f hf hw h, rfl, rfl, rfl, rfl, rfl, ?value, ?all, ?kept⟩
  case value =>
    have hlt := packetBits_lt s s.cursor 14
    exact Nat.mod_eq_of_lt (by omega)
  case all =>
    rintro rfl c hc
    exact uniformContexts_read _ hc
  case kept => rintro rfl; rfl

/-! ### The bypass bin (R133) -/

theorem execDecBinEp_halted (h : s.sticky = true) : execDecBinEp s = raise .engineHalted s := by
  rw [execDecBinEp, unlessHalted_halted h, raise_eq]

/-- The bin that DEC_BIN_EP answers, as the word RES0 holds. -/
theorem natWord_decide (p : Prop) [Decidable p] : natWord (decide p).toNat = if p then 1 else 0 := by
  by_cases hp : p
  · simp [hp, natWord]
  · simp [hp, natWord]

theorem execDecBinEp_ok (hf : PacketFits s) (hw : PacketWritten s) (h : s.sticky = false) :
    execDecBinEp s = finish ((s.setEnt { s.ent with
        range := BitVec.ofNat 15 (2 * (s.ent.range.toNat / 2))
        value := BitVec.ofNat 16 (2 * (if s.ent.range.toNat / 2 ≤ s.ent.value.toNat then
          s.ent.value.toNat - s.ent.range.toNat / 2 else s.ent.value.toNat) + (packetBit s s.cursor).toNat)
        bitPos := cursorAfter s 1 }).setRes0 (if s.ent.range.toNat / 2 ≤ s.ent.value.toNat then 1 else 0)) := by
  rw [execDecBinEp, unlessHalted_running h, ep_ok hf hw (atCursor_zero s), orFault_ok, ← natWord_decide]
  rfl

/-- Settles O30: DEC_BIN_EP is halted by STICKY or decodes the bin of `ep_ok`. -/
theorem decBinEpDecodes : Obligations.DecBinEpDecodes := by
  unfold Obligations.DecBinEpDecodes
  exact ⟨rfl, fun s h => execDecBinEp_halted h, fun s hf hw h => execDecBinEp_ok hf hw h⟩

end Sys2Proof.Machine

/-! The deblocking filter's command that clears COD on the whole picture (43_deblock.md R182). -/

namespace Sys2Proof.Machine

variable {s : State}

/-- With legal registers the blocks of one row of the picture fit into a row of `cellKey`, so that a position outside the
picture area shares its word with none inside. -/
theorem fillCod_picture_read (h : RegistersOk s) (v : Bool) (m : Memory Bool) {row col : Nat} (hcol : col < 65536) :
    (fillCod 0 0 (s.cfg.picH.toNat / 4) (s.cfg.picW.toNat / 4) v m).read (cellKey row col) =
      if row < s.cfg.picH.toNat / 4 ∧ col < s.cfg.picW.toNat / 4 then some v else m.read (cellKey row col) := by
  obtain ⟨-, hpicW, -⟩ := h.sizes
  simpa using fillCod_read 0 0 (s.cfg.picH.toNat / 4) (s.cfg.picW.toNat / 4) v m row col hcol (by omega)

theorem execDfClr_eq (s : State) :
    execDfClr s =
      .next ((s.setCuCod (fillCod 0 0 (s.cfg.picH.toNat / 4) (s.cfg.picW.toNat / 4) false s.cuCod)).setCode .ok) :=
  finish_eq _

/-- Settles O46: by `execDfClr_eq` only CODE and the COD bits are written, and `fillCod_picture_read` says which of
these. -/
theorem dfClrClearsCoded : Obligations.DfClrClearsCoded := by
  unfold Obligations.DfClrClearsCoded
  refine ⟨rfl, fun s hs => ⟨_, execDfClr_eq s, rfl, fun row col hcol => ?_⟩⟩
  exact fillCod_picture_read hs false s.cuCod hcol

end Sys2Proof.Machine

/-! The commands of the decoded picture buffer that read it and output from it (44_dpb.md R207 to R210). -/

namespace Sys2Proof.Machine

variable {s : State} {d : Dpb} {j k : Nat}

/-! ### Output (R207) -/

theorem mem_waiting : j ∈ d.waiting ↔ j ∈ d.pool ∧ (d.slot j).needOut = true :=
  List.mem_filter

theorem mem_due {next : Nat} :
    j ∈ d.due next ↔ (j ∈ d.pool ∧ (d.slot j).needOut = true) ∧ (d.slot j).poc.toNat ≤ next := by
  rw [Dpb.due, List.mem_filter, decide_eq_true_iff, mem_waiting]

theorem due_eq_filter (d : Dpb) (next : Nat) :
    d.due next = d.pool.filter fun j => decide ((d.slot j).poc.toNat ≤ next) && (d.slot j).needOut :=
  List.filter_filter

/-- The first of the due pictures with the smallest POC is what `minPoc` selects. -/
theorem minPoc_due_of_pool_split {pre post : List Nat} {next : Nat} (hpool : d.pool = pre ++ k :: post)
    (hout : (d.slot k).needOut = true) (hdue : (d.slot k).poc.toNat ≤ next)
    (hpre : ∀ i ∈ pre, (d.slot i).needOut = true → (d.slot k).poc.toNat < (d.slot i).poc.toNat)
    (hpost : ∀ i ∈ post, (d.slot i).needOut = true → (d.slot k).poc.toNat ≤ (d.slot i).poc.toNat) :
    d.minPoc (d.due next) = some k := by
  rw [due_eq_filter, hpool, List.filter_append, List.filter_cons_of_pos (by simp [hout, hdue])]
  refine minPoc_of_split d k _ (fun i hi => ?_) _ (fun i hi => ?_)
  all_goals
    rw [List.mem_filter, Bool.and_eq_true] at hi
    obtain ⟨hmem, -, hmark⟩ := hi
  · exact hpost i hmem hmark
  · exact hpre i hmem hmark

theorem execDpbOut_none_waiting (h : s.dpb.waiting = []) : execDpbOut s = raise .unexpectedState s :=
  if_pos h

theorem execDpbOut_none_due (hw : s.dpb.waiting ≠ []) (hd : s.dpb.due s.cfg.nextOutPoc.toNat = []) :
    execDpbOut s = raise .outputNotAvailable s := by
  rw [execDpbOut, if_neg hw, hd]
  rfl

theorem execDpbOut_selected (h : s.dpb.minPoc (s.dpb.due s.cfg.nextOutPoc.toNat) = some k) :
    execDpbOut s = finish
      ((((s.setDpb (s.dpb.modifySlot k fun r => { r with needOut := false })).setCfg
        { s.cfg with nextOutPoc := s.cfg.nextOutPoc + s.cfg.pocInc }).setRes0 (natWord k)).setRes1
          (s.dpb.slot k).poc) := by
  obtain ⟨hwaiting, -⟩ := mem_due.1 (minPoc_le _ _ _ h).1
  rw [execDpbOut, if_neg (List.ne_nil_of_mem (mem_waiting.2 hwaiting)), h]

/-- Settles O53: `minPoc` selects the picture the hypotheses describe; without one marked the first test of the command
fails, without one due the selection does. -/
theorem dpbOutSelects : Obligations.DpbOutSelects := by
  unfold Obligations.DpbOutSelects
  refine ⟨rfl, fun s => ⟨?selected, ?unmarked, ?notDue⟩⟩
  case selected =>
    intro pre k post hpool hout hdue hpre hpost
    have hmin := minPoc_due_of_pool_split hpool hout hdue hpre hpost
    exact ⟨_, execDpbOut_selected hmin, rfl, slot_modifySlot' _ rfl⟩
  case unmarked =>
    intro h
    have hnone : s.dpb.waiting = [] := List.filter_eq_nil_iff.2 fun j hj => by simp [h j hj]
    exact execDpbOut_none_waiting hnone
  case notDue =>
    rintro ⟨j, hj, hout⟩ h
    have hnone : s.dpb.due s.cfg.nextOutPoc.toNat = [] := by
      refine List.eq_nil_iff_forall_not_mem.2 fun i hi => ?_
      obtain ⟨⟨hmem, hmark⟩, hdue⟩ := mem_due.1 hi
      exact Nat.not_le.2 (h i hmem hmark) hdue
    exact execDpbOut_none_due (List.ne_nil_of_mem (mem_waiting.2 ⟨hj, hout⟩)) hnone

/-! ### The reference lists (R208, R209) -/

/-- The low byte of a command word stands apart from the fields above it (R87). -/
theorem mkWord_append_byte (o : BitVec 8) (f : BitVec 16) (c : BitVec 8) :
    mkWord o (f ++ c) = (o ++ f ++ (0 : BitVec 8)) ||| c.zeroExtend 32 := by
  apply BitVec.eq_of_getLsbD_eq
  intro p hp
  simp only [mkWord, BitVec.getLsbD_or, BitVec.getLsbD_append, BitVec.getLsbD_setWidth, BitVec.ofNat_eq_ofNat,
    BitVec.getLsbD_zero]
  by_cases h8 : p < 8
  · simp [h8, hp, show p < 24 by omega]
  · simp [h8, BitVec.getLsbD_of_ge c p (by omega), show p - 8 < 16 ↔ p < 24 by omega, Nat.sub_sub]

/-- The word of DPB_LIST_RD carries L above the entry's index (R87). -/
theorem encode_dpbListRd (i : BitVec 8) (l : ListIx) :
    encode (.dpbListRd i l) = 0x54000000#32 ||| (if l = .l1 then 0x100#32 else 0#32) ||| i.zeroExtend 32 := by
  cases l with
  | l0 => exact mkWord_append_byte 0x54 0 i
  | l1 => exact mkWord_append_byte 0x54 1 i

theorem execDpbListRd_entry {i : BitVec 8} {l : ListIx} {e : RefEntry} (h : (s.dpb.list l)[i.toNat]? = some e) :
    execDpbListRd i l s = finish ((s.setRes0 (natWord e.slot)).setRes1 e.poc) := by
  simp only [execDpbListRd, h]

/-- Settles O54: an index names an entry of the list or is past its end. -/
theorem dpbListReads : Obligations.DpbListReads := by
  unfold Obligations.DpbListReads
  exact ⟨encode_dpbListRd, rfl, fun s => ⟨fun i l => ⟨fun e => execDpbListRd_entry, execDpbListRd_past_end⟩, rfl⟩⟩

/-! ### A slot's record (R210) -/

theorem positionIn_eq (k : Nat) (l : List Nat) : positionIn k l = if k ∈ l then l.idxOf k else 255 := by
  unfold positionIn
  split
  next h =>
    have hk : k ∉ l := fun hk => by simpa using List.findIdx?_eq_none_iff.1 h k hk
    rw [if_neg hk]
  next p h =>
    obtain ⟨hlt, hidx⟩ := List.findIdx?_eq_some_iff_findIdx_eq.1 h
    have hk : k ∈ l := List.idxOf_lt_length_iff.1 (hidx.trans_lt hlt)
    rw [if_pos hk]
    exact hidx.symm

theorem positionIn_lt {l : List Nat} (h : l.length ≤ 256) : positionIn k l < 256 := by
  rw [positionIn_eq]
  split
  next hk =>
    have := List.idxOf_lt_length_iff.2 hk
    omega
  next => decide

/-- A slot that is not UNALLOC is one of SLOT[0] to SLOT[PB_CAP - 1]. -/
theorem DpbOk.lt_pbCap (h : DpbOk s) (hk : (s.dpb.slot k).state ≠ .unalloc) : k < s.config.pbCap :=
  h.slots_length ▸ lt_of_slot_ne fun he => hk (by rw [he])

theorem length_le_of_nodup_of_lt {l : List Nat} {n : Nat} (hl : l.Nodup) (h : ∀ j ∈ l, j < n) : l.length ≤ n := by
  simpa using hl.length_le_of_subset (l₂ := List.range n) fun j hj => List.mem_range.2 (h j hj)

theorem DpbOk.pool_length_le (h : DpbOk s) : s.dpb.pool.length ≤ s.config.pbCap := by
  refine length_le_of_nodup_of_lt h.pool_nodup fun j hj => h.lt_pbCap ?_
  rw [(h.mem_pool j).1 hj]
  decide

theorem DpbOk.refseq_length_le (h : DpbOk s) : s.dpb.refseq.length ≤ s.config.pbCap := by
  refine length_le_of_nodup_of_lt h.refseq_nodup fun j hj => h.lt_pbCap ?_
  obtain ⟨hstate, -⟩ := (h.mem_refseq j).1 hj
  rw [hstate]
  decide

theorem borrow_eq_length (d : Dpb) (k : Nat) :
    d.borrow k = ((d.list .l0 ++ d.list .l1).filter (fun e => decide (e.slot = k))).length :=
  List.countP_eq_length_filter

/-- Bits put above others have the weight of what they stand above. -/
theorem toNat_append_eq_mul_add {m n : Nat} (x : BitVec m) (y : BitVec n) :
    (x ++ y).toNat = x.toNat * 2 ^ n + y.toNat := by
  rw [BitVec.toNat_append, ← Nat.shiftLeft_add_eq_or_of_lt y.isLt, Nat.shiftLeft_eq]

/-- The word of R210 as a number, when both positions fit their bytes. -/
theorem slotWord_eq (hpool : positionIn k d.pool < 256) (hrefseq : positionIn k d.refseq < 256) :
    slotWord d k = BitVec.ofNat 32 (min (d.borrow k) 255 * 2 ^ 24 + positionIn k d.refseq * 2 ^ 16 +
      positionIn k d.pool * 2 ^ 8 + (d.slot k).tid.toNat * 16 + (d.slot k).needOut.toNat * 8 +
      (d.slot k).isRef.toNat * 4 + (d.slot k).state.num) := by
  have hborrow : min (d.borrow k) 255 < 256 := by omega
  have hstate : (d.slot k).state.num < 4 := by cases (d.slot k).state <;> decide
  apply BitVec.eq_of_toNat_eq
  simp only [slotWord, toNat_append_eq_mul_add, BitVec.toNat_ofNat, BitVec.toNat_ofBool, BitVec.ofNat_eq_ofNat]
  have := (d.slot k).needOut.toNat_lt
  have := (d.slot k).isRef.toNat_lt
  have := (d.slot k).tid.isLt
  omega

theorem execDpbSlotRd_of_lt {i : BitVec 8} {w : Word} (hi : i.toNat < s.config.pbCap)
    (hw : slotWord s.dpb i.toNat = w) :
    execDpbSlotRd i s = .next { s with code := .ok, res0 := w, res1 := (s.dpb.slot i.toNat).poc } := by
  subst hw
  exact if_neg (Nat.not_le.2 hi)

/-- Settles O55: the DPB's lists hold at most PB_CAP slots, so a position fits its byte and `slotWord_eq` gives the word
as a number. -/
theorem dpbSlotRead : Obligations.DpbSlotRead := by
  unfold Obligations.DpbSlotRead
  refine ⟨mkWord_index 0x56, fun i s hd hr => ⟨execDpbSlotRd_past_cap, fun hi => ?_⟩⟩
  obtain ⟨-, -, -, -, -, -, -, hcap, -⟩ := hr.sizes
  have hpool := hd.pool_length_le
  have hrefseq := hd.refseq_length_le
  have hword := slotWord_eq (d := s.dpb) (k := i.toNat) (positionIn_lt (by omega)) (positionIn_lt (by omega))
  rw [positionIn_eq, positionIn_eq, borrow_eq_length] at hword
  refine execDpbSlotRd_of_lt hi (hword.trans (congrArg (BitVec.ofNat 32) (Nat.add_left_cancel_iff.2 ?_)))
  cases (s.dpb.slot i.toNat).state
  case unalloc => rfl
  case pool => rfl
  case detached => rfl

end Sys2Proof.Machine

/-! The system commands that change no configuration register: NOP, STAT_CLR and CFG_RD (45_system.md R230, R233,
R235). -/

namespace Sys2Proof.Machine

variable {idx : BitVec 8}

/-! ### NOP and STAT_CLR (R230, R235) -/

theorem execNop_eq (s : State) : execNop s = .next (s.setCode .ok) := finish_eq s

theorem execStatClr_eq (s : State) : execStatClr s = .next ((s.setSticky false).setCode .ok) :=
  finish_eq (s.setSticky false)

/-- Settles O14: both commands answer by their equations, and `setCode` and `setSticky` each write one field. -/
theorem nopAndStatClr : Obligations.NopAndStatClr := by
  unfold Obligations.NopAndStatClr
  exact ⟨rfl, rfl, fun s => ⟨execNop_eq s, execStatClr_eq s⟩⟩

/-! ### CFG_RD (R233) -/

/-- The configuration registers in the order of their indices (R30 to R40). -/
def Cfg.registers (g : Cfg) : List Word :=
  [g.picW, g.picH, g.bitDepth, g.chromaFormat, g.maxPb, g.maxNumRef, g.pocInc, g.nextOutPoc, g.ctxInit,
    g.mvClipMargin, g.curSlot]

/-- Reading by a legal index is reading the list of registers: one case for each of the eleven indices. -/
theorem Cfg.get_of_lt (h : idx.toNat < 0x0B) (g : Cfg) : g.get idx = some (g.registers.getD idx.toNat 0) := by
  unfold Cfg.get
  generalize idx.toNat = i at h
  interval_cases i
  all_goals rfl

theorem execCfgRd_register (h : idx.toNat < 0x0B) (s : State) :
    execCfgRd idx s = .next ((s.setRes0 (s.cfg.registers.getD idx.toNat 0)).setCode .ok) := by
  simp only [execCfgRd, Cfg.get_of_lt h, finish_eq]

/-- Settles O17: an index below 0x0B names a register of the list, any other is reserved. -/
theorem cfgRdReadsRegister : Obligations.CfgRdReadsRegister := by
  unfold Obligations.CfgRdReadsRegister
  refine ⟨mkWord_index 0x03, fun idx s => ⟨?register, ?reserved⟩⟩
  case register => exact fun h => execCfgRd_register h s
  case reserved => exact fun h => execCfgRd_reserved h s

end Sys2Proof.Machine

/-! The encoding of the commands (30_encoding.md R86 to R94): decoding and encoding agree. -/

namespace Sys2Proof

variable {w : Word} {i : Instr} {o : BitVec 8} {f m : BitVec 24}

/-! ### What the decoder answers -/

/-- A command word is its opcode over its fields (R86). -/
theorem mkWord_opcodeOf_fieldsOf (w : Word) : mkWord (opcodeOf w) (fieldsOf w) = w := by
  apply BitVec.eq_of_toNat_eq
  have := w.isLt
  simp only [mkWord, opcodeOf, fieldsOf, Machine.toNat_append_eq_mul_add, BitVec.extractLsb'_toNat,
    Nat.shiftRight_eq_div_pow]
  omega

/-- A word decodes to i exactly when no reserved bit of its format is set and its fields name i (R85, R87). -/
theorem decode_eq_ok_iff :
    decode w = .ok i ↔ ∃ m, formatMask (opcodeOf w) = some m ∧ fieldsOf w &&& ~~~m = 0 ∧
      decodeFields (opcodeOf w) (fieldsOf w) = some i := by
  unfold decode
  cases formatMask (opcodeOf w) with
  | none => simp
  | some m =>
    simp only [Option.some.injEq, exists_eq_left']
    by_cases h : fieldsOf w &&& ~~~m = 0
    · rw [if_neg (not_not.2 h)]
      cases decodeFields (opcodeOf w) (fieldsOf w) <;> simp [h]
    · rw [if_pos h]
      simp only [reduceCtorEq, h, false_and]

/-! ### Fields as numbers -/

/-- A reserved bit of a word that keeps them 0. -/
theorem reserved_bit_clear (h : f &&& ~~~m = 0) {j : Nat} (hj : m.getLsbD j = false) : f.getLsbD j = false := by
  by_cases h24 : j < 24
  · have hbit : (f &&& ~~~m).getLsbD j = false := by rw [h]; exact BitVec.getLsbD_zero
    rw [BitVec.getLsbD_and, BitVec.getLsbD_not, hj, decide_eq_true h24] at hbit
    exact (Bool.and_true _).symm.trans hbit
  · exact BitVec.getLsbD_of_ge f j (by omega)

/-- Fields that keep the reserved bits 0 are at most the mask of the format. -/
theorem toNat_le_of_reserved_clear (h : f &&& ~~~m = 0) : f.toNat ≤ m.toNat := by
  have hsub : f &&& m = f := by
    apply BitVec.eq_of_getLsbD_eq
    intro j _
    rw [BitVec.getLsbD_and]
    cases hj : m.getLsbD j with
    | false => rw [reserved_bit_clear h hj]; rfl
    | true => exact Bool.and_true _
  calc f.toNat = f.toNat &&& m.toNat := by rw [← BitVec.toNat_and, hsub]
    _ ≤ m.toNat := Nat.and_le_right

/-- A bit as a number. -/
theorem toNat_ofBool_getLsbD {n : Nat} (x : BitVec n) (j : Nat) :
    (BitVec.ofBool (x.getLsbD j)).toNat = x.toNat / 2 ^ j % 2 := by
  rw [BitVec.toNat_ofBool, BitVec.getLsbD, Nat.toNat_testBit]

theorem bool_eq_iff_toNat (a b : Bool) : a = b ↔ (BitVec.ofBool a).toNat = (BitVec.ofBool b).toNat := by
  cases a <;> cases b <;> decide

theorem dirOfBit_eq_iff {b : Bool} {d : Dir} : dirOfBit b = d ↔ b = bitOfDir d := by cases b <;> cases d <;> decide

theorem listOfBit_eq_iff {b : Bool} {l : ListIx} : listOfBit b = l ↔ b = bitOfList l := by
  cases b <;> cases l <;> decide

@[simp] theorem bitOfDir_dirOfBit (b : Bool) : bitOfDir (dirOfBit b) = b := by cases b <;> rfl

@[simp] theorem bitOfList_listOfBit (b : Bool) : bitOfList (listOfBit b) = b := by cases b <;> rfl

/-! ### Decoding and encoding -/

/-- Fields put side by side are taken apart again: as numbers, by division with remainder. -/
theorem decodeFields_encode (i : Instr) : decodeFields (opcodeOf (encode i)) (fieldsOf (encode i)) = some i := by
  cases i
  all_goals rw [encode, Laws.opcodeOf_mkWord, Laws.fieldsOf_mkWord]
  case nop | reset | statClr | brInit | brRead1 | brReadUe | brReadSe | brAligned | brConsumed | decBinEp | decBinTrm
      | mcClipmv | mcCu | dfBs | dfClr | dpbGet | dpbOut | dpbNumref => rfl
  all_goals
    simp only [decodeFields, BitVec.ofNat_eq_ofNat, BitVec.toNat_ofNat, Nat.reducePow, Nat.reduceMod, Option.some.injEq,
      Instr.cfgWr.injEq, Instr.cfgRd.injEq, Instr.brRead.injEq, Instr.sbacInit.injEq, Instr.ctxWr.injEq,
      Instr.ctxRd.injEq, Instr.decBin.injEq, Instr.decUnary.injEq, Instr.decTunary.injEq, Instr.mcPred.injEq,
      Instr.mcAvg.injEq, Instr.dfLuma.injEq, Instr.dfChroma.injEq, Instr.dfCu.injEq, Instr.dpbPut.injEq,
      Instr.dpbRefp.injEq, Instr.dpbListRd.injEq, Instr.dpbSlotRd.injEq, listOfBit_eq_iff, dirOfBit_eq_iff]
    simp only [← BitVec.toNat_inj, bool_eq_iff_toNat, toNat_ofBool_getLsbD, BitVec.extractLsb'_toNat,
      Nat.shiftRight_eq_div_pow, Machine.toNat_append_eq_mul_add]
    omega

/-- The fields a word names are encoded as they stand in it, when its reserved bits are 0 (R87, R94). -/
theorem encode_of_decodeFields (hm : formatMask o = some m) (hf : f &&& ~~~m = 0) (h : decodeFields o f = some i) :
    encode i = mkWord o f := by
  have ho : o = BitVec.ofNat 8 o.toNat := by simp
  have hle := toNat_le_of_reserved_clear hf
  unfold decodeFields at h
  unfold formatMask at hm
  generalize o.toNat = n at *
  subst ho
  split at h
  case h_37 => cases h
  all_goals
    obtain rfl : _ = i := Option.some.inj h
    obtain rfl : _ = m := Option.some.inj hm
    refine congrArg (mkWord _) ?_
    simp only [bitOfDir_dirOfBit, bitOfList_listOfBit, ← BitVec.toNat_inj, Machine.toNat_append_eq_mul_add,
      BitVec.extractLsb'_toNat, toNat_ofBool_getLsbD, Nat.shiftRight_eq_div_pow] at hle ⊢
    simp only [BitVec.ofNat_eq_ofNat, BitVec.toNat_ofNat] at hle ⊢
  case h_20 =>
    -- DEC_TUNARY alone has reserved bits between its fields.
    have hbit (j : Nat) (hj : (0xFF1FFF : BitVec 24).getLsbD j = false) : f.toNat / 2 ^ j % 2 = 0 := by
      rw [← toNat_ofBool_getLsbD, reserved_bit_clear hf hj]; rfl
    have h13 := hbit 13 rfl
    have h14 := hbit 14 rfl
    have h15 := hbit 15 rfl
    omega
  all_goals omega

/-- The encoding of every command keeps the reserved bits of its format 0 (R87): `Laws/PerInstr.lean`, command by
command. -/
theorem reservedClear_encode : ∀ i : Instr, Laws.ReservedClear.Statement i
  | .nop => Laws.ReservedClear.nop
  | .reset => Laws.ReservedClear.reset
  | .cfgWr a => Laws.ReservedClear.cfgWr a
  | .cfgRd a => Laws.ReservedClear.cfgRd a
  | .statClr => Laws.ReservedClear.statClr
  | .brInit => Laws.ReservedClear.brInit
  | .brRead a => Laws.ReservedClear.brRead a
  | .brRead1 => Laws.ReservedClear.brRead1
  | .brReadUe => Laws.ReservedClear.brReadUe
  | .brReadSe => Laws.ReservedClear.brReadSe
  | .brAligned => Laws.ReservedClear.brAligned
  | .brConsumed => Laws.ReservedClear.brConsumed
  | .sbacInit a => Laws.ReservedClear.sbacInit a
  | .ctxWr a => Laws.ReservedClear.ctxWr a
  | .ctxRd a => Laws.ReservedClear.ctxRd a
  | .decBin a => Laws.ReservedClear.decBin a
  | .decBinEp => Laws.ReservedClear.decBinEp
  | .decBinTrm => Laws.ReservedClear.decBinTrm
  | .decUnary a b c => Laws.ReservedClear.decUnary a b c
  | .decTunary a b c d => Laws.ReservedClear.decTunary a b c d
  | .mcClipmv => Laws.ReservedClear.mcClipmv
  | .mcPred a b => Laws.ReservedClear.mcPred a b
  | .mcAvg a => Laws.ReservedClear.mcAvg a
  | .mcCu => Laws.ReservedClear.mcCu
  | .dfBs => Laws.ReservedClear.dfBs
  | .dfLuma a => Laws.ReservedClear.dfLuma a
  | .dfChroma a b => Laws.ReservedClear.dfChroma a b
  | .dfClr => Laws.ReservedClear.dfClr
  | .dfCu a => Laws.ReservedClear.dfCu a
  | .dpbGet => Laws.ReservedClear.dpbGet
  | .dpbPut a b c d => Laws.ReservedClear.dpbPut a b c d
  | .dpbRefp a b c => Laws.ReservedClear.dpbRefp a b c
  | .dpbOut => Laws.ReservedClear.dpbOut
  | .dpbListRd a b => Laws.ReservedClear.dpbListRd a b
  | .dpbNumref => Laws.ReservedClear.dpbNumref
  | .dpbSlotRd a => Laws.ReservedClear.dpbSlotRd a

theorem decode_encode (i : Instr) : decode (encode i) = .ok i := by
  obtain ⟨m, hm, hclear⟩ := reservedClear_encode i
  exact decode_eq_ok_iff.2 ⟨m, hm, hclear, decodeFields_encode i⟩

theorem encode_of_decode (h : decode w = .ok i) : encode i = w := by
  obtain ⟨m, hm, hclear, hfields⟩ := decode_eq_ok_iff.1 h
  rw [encode_of_decodeFields hm hclear hfields, mkWord_opcodeOf_fieldsOf]

/-- Settles O2: fields put into a word are read back from it, and the reserved bits, which carry no field, are 0 in both
directions. -/
theorem decodeEncodeAgree : Obligations.DecodeEncodeAgree := by
  unfold Obligations.DecodeEncodeAgree
  exact ⟨decode_encode, fun _ _ => encode_of_decode⟩

/-- Settles O1: thirteen closed words, decoded by evaluation. -/
theorem knownWordsDecode : Obligations.KnownWordsDecode := by
  unfold Obligations.KnownWordsDecode
  decide

namespace Machine

/-- The word that `withFetchWord` places is the one it is given, when that has 32 bits. -/
theorem withFetchWord_toNat (s : State) (w : Word) :
    s.withFetchWord 32 w.toNat = { s with host := .regWrite 0 w :: s.host } := by
  have hw : BitVec.ofNat 32 (w.toNat % 2 ^ 32) = w := by
    rw [Nat.mod_eq_of_lt w.isLt, BitVec.ofNat_toNat, BitVec.setWidth_eq]
  rw [State.withFetchWord, hw]
  rfl

theorem runCommand_of_decode_ok {w : Word} {i : Instr} (h : decode w = .ok i) (s : State) :
    runCommand w s = exec i s := by
  simp only [runCommand, h]

theorem step_of_host_nil {s : State} (h : s.host = []) : step s = .next s := by
  simp only [step, nextStep, h]

/-- The write of a command's word to CMD runs the command (R23, R85). -/
theorem step_command {s : State} {w : Word} {rest : List HostAction} {i : Instr} (h : s.host = .regWrite 0 w :: rest)
    (hw : decode w = .ok i) : step s = exec i { s with host := rest } := by
  rw [step_regWrite h, hostRegWrite_cmd, runCommand_of_decode_ok hw]

/-- Settles O4: the step is `step_command`, and an encoded command is placed as the word that decodes to it. -/
theorem stepRunsDecodedCommand : Obligations.StepRunsDecodedCommand := by
  unfold Obligations.StepRunsDecodedCommand
  refine ⟨fun s w rest i h hw => step_command h hw, fun s i => ?_, fun s => step_of_host_nil⟩
  rw [withFetchWord_toNat]
  exact step_command rfl (decode_encode i)

end Machine
end Sys2Proof

/-! The commands of the decoded picture buffer that hand out, store and list pictures (44_dpb.md R200 to R206, R213):
what each of them does to the slots, to POOL, to REFSEQ and to the reference lists. -/

namespace Sys2Proof.Machine

variable {s : State} {d : Dpb} {j k : Nat}

/-! ### The demotions of DPB_PUT (R202, R203) -/

/-- The references that DPB_PUT demotes (R202). -/
def State.gone (s : State) (idr : Bool) (tid : BitVec 3) (gap cap : Nat) : List Nat :=
  if idr then s.dpb.refseq else if tid = 0 then s.demoted gap cap else []

/-- Those of them that move to the back of POOL: the IDR flush moves none (R202). -/
def State.moved (s : State) (idr : Bool) (tid : BitVec 3) (gap cap : Nat) : List Nat :=
  if idr then [] else s.gone idr tid gap cap

/-- `d'` is `d` after the pictures of `gone` lost their reference marks, those of `moved` going to the back of POOL. -/
structure Dpb.Demotes (d d' : Dpb) (gone moved : List Nat) : Prop where
  length : d'.slots.length = d.slots.length
  list0 : d'.list0 = d.list0
  list1 : d'.list1 = d.list1
  pool : d'.pool = d.pool.filter (fun j => decide (j ∉ moved)) ++ moved
  refseq : d'.refseq = d.refseq.filter (fun j => decide (j ∉ gone))
  slot : ∀ j, d'.slot j = if j ∈ gone then { d.slot j with isRef := false } else d.slot j

/-- Rule (a) tests the layer and the POC as bit vectors, `State.demoted` as numbers (R203). -/
theorem offGap_eq (s : State) (gap j : Nat) :
    s.dpb.offGap gap j = decide (s.tidOf j ≠ 0 ∨ s.pocOf j % gap ≠ 0) := by
  have htid : (s.dpb.slot j).tid = 0 ↔ s.tidOf j = 0 := BitVec.toNat_eq
  rw [Bool.eq_iff_iff, decide_eq_true_iff, Dpb.offGap, Bool.or_eq_true, bne_iff_ne, bne_iff_ne, ne_eq, htid]
  rfl

/-- Rules (a) and (b) together demote the pictures of `State.demoted`, one after another. -/
theorem demoteOldest_demoteOffGap (hd : s.dpb.refseq.Nodup) (gap cap : Nat) :
    Dpb.demoteOldest cap (s.dpb.demoteOffGap gap).refseq.length (s.dpb.demoteOffGap gap) =
      (s.demoted gap cap).foldl Dpb.demote s.dpb := by
  have hoff : s.dpb.demoteOffGap gap =
      (s.dpb.refseq.filter fun j => decide (s.tidOf j ≠ 0 ∨ s.pocOf j % gap ≠ 0)).foldl Dpb.demote s.dpb := by
    unfold Dpb.demoteOffGap
    rw [List.filter_congr fun j _ => offGap_eq s gap j]
  obtain ⟨-, -, -, -, hrefseq, -⟩ := demoteAll_spec _ s.dpb
    (hd.filter fun j => decide (s.tidOf j ≠ 0 ∨ s.pocOf j % gap ≠ 0))
  have hrest : (s.dpb.demoteOffGap gap).refseq =
      s.dpb.refseq.filter fun j => decide (s.tidOf j = 0 ∧ s.pocOf j % gap = 0) := by
    rw [hoff, hrefseq]
    refine List.filter_congr fun j hj => ?_
    simp [List.mem_filter, hj]
  rw [demoteOldest_spec cap _ _ (hrest ▸ hd.filter _) le_rfl, hrest, hoff, State.demoted, List.foldl_append]

theorem mem_refseq_of_mem_demoted {gap cap : Nat} (h : j ∈ s.demoted gap cap) : j ∈ s.dpb.refseq := by
  obtain h | h := List.mem_append.1 h
  · exact List.mem_of_mem_filter h
  · exact List.mem_of_mem_filter (List.mem_of_mem_take h)

theorem demoted_nodup (hd : s.dpb.refseq.Nodup) (gap cap : Nat) : (s.demoted gap cap).Nodup := by
  refine (hd.filter _).append ((hd.filter _).sublist (List.take_sublist _ _)) fun j hoff hrest => ?_
  have hoff := (List.mem_filter.1 hoff).2
  have hrest := (List.mem_filter.1 (List.mem_of_mem_take hrest)).2
  rw [decide_eq_true_iff] at hoff hrest
  omega

/-- A stored picture out of REFSEQ bears no reference mark, so that the flush of all of POOL changes those of REFSEQ
alone. -/
theorem flush_demotes (hd : DpbOk s) : s.dpb.Demotes s.dpb.flush s.dpb.refseq [] := by
  obtain ⟨hlength, hlist0, hlist1, hpool, hrefseq, hslot⟩ := flush_spec s.dpb
  refine ⟨hlength, hlist0, hlist1, by simp [hpool], ?_, fun j => ?_⟩
  · rw [hrefseq, eq_comm, List.filter_eq_nil_iff]
    simp
  · rw [hslot]
    by_cases hp : j ∈ s.dpb.pool
    · rw [if_pos hp]
      split
      next => rfl
      next hr =>
        have : (s.dpb.slot j).isRef = false := by
          simpa [hd.mem_refseq, (hd.mem_pool j).1 hp] using hr
        rw [← this]
    · rw [if_neg hp, if_neg fun hr => hp ((hd.mem_pool j).2 ((hd.mem_refseq j).1 hr).1)]

/-- What DPB_PUT does to the pictures already stored (R202). -/
theorem mark_demotes (hd : DpbOk s) (idr : Bool) (tid : BitVec 3) (gap cap : Nat) :
    s.dpb.Demotes (s.dpb.mark idr tid gap cap) (s.gone idr tid gap cap) (s.moved idr tid gap cap) := by
  unfold Dpb.mark State.moved State.gone
  split_ifs
  case pos => exact flush_demotes hd
  case pos =>
    simp only [demoteOldest_demoteOffGap hd.refseq_nodup]
    obtain ⟨hlength, hlist0, hlist1, hpool, hrefseq, hslot⟩ :=
      demoteAll_spec _ s.dpb (demoted_nodup hd.refseq_nodup gap cap)
    exact ⟨hlength, hlist0, hlist1, hpool, hrefseq, hslot⟩
  case neg => exact ⟨rfl, rfl, rfl, by simp, by simp, by simp⟩

/-! ### DPB_PUT (R202) -/

/-- The record that DPB_PUT stores (R202). -/
def storedSlot (no ref : Bool) (tid : BitVec 3) (poc : Word) : Slot :=
  { state := .pool, isRef := ref, needOut := no, tid := tid, poc := poc }

/-- The DPB that DPB_PUT of slot k leaves (R202). -/
def State.stored (s : State) (idr no ref : Bool) (tid : BitVec 3) : Dpb :=
  (s.dpb.mark idr tid s.arg2.toNat s.cfg.maxNumRef.toNat).store s.arg0.toNat (storedSlot no ref tid s.arg1)

theorem execDpbPut_not_detached {idr no ref : Bool} {tid : BitVec 3}
    (h : (s.dpb.slot s.arg0.toNat).state ≠ .detached) : execDpbPut idr no ref tid s = raise .illegalCommand s :=
  if_pos h

theorem execDpbPut_no_gap {no ref : Bool} (h : s.arg2 = 0) :
    execDpbPut false no ref 0 s = raise .illegalCommand s := by
  unfold execDpbPut
  simp only [h, and_self, if_true, ite_self]

theorem execDpbPut_stores {idr no ref : Bool} {tid : BitVec 3} (hstate : (s.dpb.slot s.arg0.toNat).state = .detached)
    (hcap : s.arg0.toNat < s.config.pbCap) (hgap : idr = true ∨ tid ≠ 0 ∨ s.arg2 ≠ 0) :
    execDpbPut idr no ref tid s = finish ((s.setDpb (s.stored idr no ref tid)).setCfg
      { s.cfg with curSlot := if s.cfg.curSlot = s.arg0 then noSlot else s.cfg.curSlot }) := by
  have hgap' : ¬(idr = false ∧ tid = 0 ∧ s.arg2 = 0) := by
    rintro ⟨rfl, htid, harg⟩
    obtain h | h | h := hgap
    · cases h
    · exact h htid
    · exact h harg
  rw [execDpbPut, if_neg (not_not.2 hstate), if_neg (Nat.not_le.2 hcap), if_neg hgap']
  rfl

/-- Storing changes the slot stored and appends it to the lists (R202). -/
theorem store_slot {r : Slot} (hk : k < d.slots.length) (j : Nat) :
    (d.store k r).slot j = if j = k then r else d.slot j :=
  slot_modifySlot hk (fun _ => r) j

/-- What DPB_PUT leaves in each slot (R202). -/
theorem stored_slot (hd : DpbOk s) (hcap : s.arg0.toNat < s.config.pbCap) (idr no ref : Bool) (tid : BitVec 3)
    (j : Nat) :
    (s.stored idr no ref tid).slot j =
      if j = s.arg0.toNat then storedSlot no ref tid s.arg1
      else if j ∈ s.gone idr tid s.arg2.toNat s.cfg.maxNumRef.toNat then { s.dpb.slot j with isRef := false }
      else s.dpb.slot j := by
  have hm := mark_demotes hd idr tid s.arg2.toNat s.cfg.maxNumRef.toNat
  rw [State.stored, store_slot (by rw [hm.length, hd.slots_length]; exact hcap), hm.slot]

/-- What DPB_PUT leaves of the ordered lists (R202). -/
theorem stored_eq (hd : DpbOk s) (idr no ref : Bool) (tid : BitVec 3) :
    s.stored idr no ref tid = { s.dpb with
      slots := (s.stored idr no ref tid).slots
      pool := s.dpb.pool.filter (fun j => decide (j ∉ s.moved idr tid s.arg2.toNat s.cfg.maxNumRef.toNat)) ++
        s.moved idr tid s.arg2.toNat s.cfg.maxNumRef.toNat ++ [s.arg0.toNat]
      refseq := s.dpb.refseq.filter (fun j => decide (j ∉ s.gone idr tid s.arg2.toNat s.cfg.maxNumRef.toNat)) ++
        if ref then [s.arg0.toNat] else [] } := by
  have hm := mark_demotes hd idr tid s.arg2.toNat s.cfg.maxNumRef.toNat
  simp only [State.stored, Dpb.store, storedSlot, hm.list0, hm.list1, hm.pool, hm.refseq, Dpb.modifySlot]
  cases ref <;> simp

/-- Settles O50: a put is rejected for its slot or for its gap, or stores the record, and `mark_demotes` says what
becomes of the references already stored. -/
theorem dpbPutStores : Obligations.DpbPutStores := by
  unfold Obligations.DpbPutStores
  rintro idr no ref tid s k hd - rfl
  refine ⟨fun h => execDpbPut_not_detached h, ?noGap, fun hstate hgap => ?stores⟩
  case noGap =>
    rintro rfl rfl h
    exact execDpbPut_no_gap h
  case stores =>
    have hcap := hd.lt_pbCap (k := s.arg0.toNat) (by rw [hstate]; decide)
    refine ⟨_, execDpbPut_stores hstate hcap hgap, ?_, stored_slot hd hcap idr no ref tid⟩
    exact congrArg (fun d => (((s.setDpb d).setCfg _).setCode .ok)) (stored_eq hd idr no ref tid)

/-! ### DPB_GET (R200, R201) -/

/-- The DPB that DPB_GET leaves when it allocates slot k (R201). -/
def Dpb.allocate (d : Dpb) (k : Nat) : Dpb := d.modifySlot k fun _ => freshSlot

theorem execDpbGet_no_picture (h : noPicture s.cfg = true) : execDpbGet s = raise .illegalCommand s :=
  if_pos h

theorem execDpbGet_reuses (h : noPicture s.cfg = false) (hk : s.dpb.pool.find? s.dpb.reusable = some k) :
    execDpbGet s = finish
      (((s.setDpb (s.dpb.detach k)).setCfg { s.cfg with curSlot := natWord k }).setRes0 (natWord k)) := by
  rw [execDpbGet, h, hk]
  rfl

theorem execDpbGet_allocates (h : noPicture s.cfg = false) (hnone : s.dpb.pool.find? s.dpb.reusable = none)
    (hcount : s.dpb.nalloc < s.cfg.maxPb.toNat) (hk : s.dpb.firstFree = some k) :
    execDpbGet s = finish ((((s.setDpb (s.dpb.allocate k)).setPics (s.pics.set k {})).setCfg
      { s.cfg with curSlot := natWord k }).setRes0 (natWord k)) := by
  rw [execDpbGet, h, hnone]
  simp only [Bool.false_eq_true, if_false, if_pos hcount, hk]
  rfl

theorem execDpbGet_full (h : noPicture s.cfg = false) (hnone : s.dpb.pool.find? s.dpb.reusable = none)
    (hcount : s.cfg.maxPb.toNat ≤ s.dpb.nalloc ∨ s.dpb.firstFree = none) :
    execDpbGet s = raise .outOfBuffers s := by
  rw [execDpbGet, h, hnone]
  simp only [Bool.false_eq_true, if_false]
  split
  next hlt =>
    obtain hge | hfree := hcount
    · omega
    · rw [hfree]
  next => rfl

theorem find_reusable_eq_none (h : ∀ j ∈ s.dpb.pool, ¬Reusable s j) : s.dpb.pool.find? s.dpb.reusable = none :=
  List.find?_eq_none.2 fun j hj hr => h j hj (reusable_iff.1 hr)

theorem find_reusable_of_pool_split {pre post : List Nat} (hpool : s.dpb.pool = pre ++ k :: post) (hk : Reusable s k)
    (hpre : ∀ j ∈ pre, ¬Reusable s j) : s.dpb.pool.find? s.dpb.reusable = some k :=
  List.find?_eq_some_iff_append.2 ⟨reusable_iff.2 hk, pre, post, hpool, fun j hj => by
    rw [Bool.not_eq_true', ← Bool.not_eq_true, reusable_iff]
    exact hpre j hj⟩

/-- The slots one by one. -/
theorem slots_eq_map_slot (d : Dpb) : d.slots = (List.range d.slots.length).map d.slot := by
  refine List.ext_getElem (by simp) fun j hj _ => ?_
  simp [Dpb.slot, hj]

/-- NALLOC counts the slots that hold a picture (R49). -/
theorem nalloc_eq_allocated (hd : DpbOk s) : s.dpb.nalloc = s.allocated := by
  unfold Dpb.nalloc State.allocated
  rw [slots_eq_map_slot, List.countP_map, hd.slots_length]
  refine List.countP_congr fun j _ => ?_
  simp

theorem firstFree_eq_some_iff : d.firstFree = some k ↔
    k < d.slots.length ∧ (d.slot k).state = .unalloc ∧ ∀ j < k, (d.slot j).state ≠ .unalloc := by
  have hslot : ∀ j (h : j < d.slots.length), d.slot j = d.slots[j] := fun j h => by simp [Dpb.slot, h]
  unfold Dpb.firstFree
  rw [List.findIdx?_eq_some_iff_getElem]
  constructor
  · rintro ⟨hlt, hfree, hmin⟩
    refine ⟨hlt, by simpa [hslot k hlt] using hfree, fun j hj => ?_⟩
    simpa [hslot j (hj.trans hlt)] using hmin j hj
  · rintro ⟨hlt, hfree, hmin⟩
    refine ⟨hlt, by simpa [hslot k hlt] using hfree, fun j hj => ?_⟩
    simpa [hslot j (hj.trans hlt)] using hmin j hj

/-- A slot of POOL exists. -/
theorem DpbOk.lt_of_mem_pool (hd : DpbOk s) (hk : k ∈ s.dpb.pool) : k < s.dpb.slots.length := by
  rw [hd.slots_length]
  exact hd.lt_pbCap (by rw [(hd.mem_pool k).1 hk]; decide)

theorem detach_slot (hk : k < d.slots.length) (j : Nat) :
    (d.detach k).slot j = if j = k then { d.slot k with state := .detached } else d.slot j :=
  slot_modifySlot hk _ j

theorem detach_pool (d : Dpb) (k : Nat) : (d.detach k).pool = d.pool.filter (fun j => j != k) := rfl

/-- Taking the one occurrence of k out of POOL. -/
theorem filter_ne_split {pre post : List Nat} (h : (pre ++ k :: post).Nodup) :
    (pre ++ k :: post).filter (fun j => j != k) = pre ++ post := by
  have hk := (List.nodup_middle.1 h)
  rw [List.nodup_cons, List.mem_append, not_or] at hk
  obtain ⟨⟨hpre, hpost⟩, -⟩ := hk
  have hall : ∀ l : List Nat, k ∉ l → l.filter (fun j => j != k) = l := fun l hl =>
    List.filter_eq_self.2 fun j hj => bne_iff_ne.2 fun he => hl (he ▸ hj)
  rw [List.filter_append, List.filter_cons_of_neg (by simp), hall pre hpre, hall post hpost]

theorem allocate_slot (hk : k < d.slots.length) (j : Nat) :
    (d.allocate k).slot j = if j = k then freshSlot else d.slot j :=
  slot_modifySlot hk (fun _ => freshSlot) j

/-- Settles O49: the search of POOL finds the first reusable slot or none, and then NALLOC decides. -/
theorem dpbGetAcquires : Obligations.DpbGetAcquires := by
  unfold Obligations.DpbGetAcquires
  intro s hd hr hw hh
  have hpic := noPicture_eq_false.2 ⟨hw, hh⟩
  refine ⟨?reuses, ?allocates, fun hnone hcount => ?full⟩
  case reuses =>
    intro pre k post hpool hk hpre
    have hlt := hd.lt_of_mem_pool (k := k) (by simp [hpool])
    have hleft : (s.dpb.detach k).pool = pre ++ post := by
      rw [detach_pool, hpool, filter_ne_split (hpool ▸ hd.pool_nodup)]
    refine ⟨_, execDpbGet_reuses hpic (find_reusable_of_pool_split hpool hk hpre), ?_, detach_slot hlt⟩
    rw [← hleft]
    rfl
  case allocates =>
    intro k hnone hcount hk hstate hmin
    have hlt : k < s.dpb.slots.length := hd.slots_length ▸ hk
    have hfree := firstFree_eq_some_iff.2 ⟨hlt, hstate, hmin⟩
    have hpick : (s.pics.set k {})[k]? = some {} := by simp [hd.pics_length, hk]
    refine ⟨_, execDpbGet_allocates hpic (find_reusable_eq_none hnone) (nalloc_eq_allocated hd ▸ hcount) hfree, ?_,
      allocate_slot hlt, fun j hj => ?_, fun c y x => ?_, fun l a p hp => ?_⟩
    · unfold State.setCode State.setRes0 State.setCfg State.setPics State.setDpb
      rfl
    · exact List.getElem?_set_ne (Ne.symm hj)
    · refine (sampleAt_eq _ k c y x).trans ?_
      show ((s.pics.set k {})[k]?).bind _ = none
      rw [hpick]
      cases c <;> rfl
    · obtain rfl : {} = p := Option.some.inj (hpick.symm.trans hp)
      cases l <;> exact ⟨rfl, rfl⟩
  case full =>
    exact execDpbGet_full hpic (find_reusable_eq_none hnone) (.inl (nalloc_eq_allocated hd ▸ hcount))

/-! ### DPB_REFP (R204 to R206, R213) -/

/-- The lists DPB_REFP leaves (R204). -/
def State.withLists (s : State) (l0 l1 : List Nat) : State :=
  s.setDpb { s.dpb with list0 := s.entriesOf l0, list1 := s.entriesOf l1 }

/-- DPB_REFP by its slice type, in the terms of the rules (R204 to R206). -/
theorem execDpbRefp_eq {m : BitVec 8} (hm : m.toNat ≤ s.config.maxRefList) (lid : BitVec 3) :
    execDpbRefp m 0 lid s = finish (s.withLists [] []) ∧
    execDpbRefp m 1 lid s =
      (let l := (s.forP s.arg0.toNat s.arg1.toNat lid.toNat).take m.toNat
      if l = [] then raise .unexpectedState (s.withLists [] []) else finish (s.withLists l [])) ∧
    execDpbRefp m 2 lid s =
      (let l0 := s.forB0 m.toNat s.arg0.toNat s.arg1.toNat lid.toNat
      let l1 := s.forB1 m.toNat s.arg0.toNat s.arg1.toNat lid.toNat
      if l0 = [] ∨ l1 = [] then raise .unexpectedState (s.withLists [] []) else finish (s.withLists l0 l1)) := by
  have hm' : ∀ st : BitVec 2, st.toNat ≠ 3 → ¬(s.config.maxRefList < m.toNat ∨ st.toNat = 3) := by omega
  refine ⟨if_neg (hm' 0 (by decide)), ?_, ?_⟩
  · rw [execDpbRefp, if_neg (hm' 1 (by decide)), walkP_eq]
    rfl
  · rw [execDpbRefp, if_neg (hm' 2 (by decide)), listB0_eq, listB1_eq]
    rfl

/-- Settles O51: the equations of `execDpbRefp_eq`, a required list being empty or not. -/
theorem dpbRefpBuildsLists : Obligations.DpbRefpBuildsLists := by
  unfold Obligations.DpbRefpBuildsLists
  intro m st lid s
  refine ⟨fun h => execDpbRefp_illegal_fields (h.imp_right (congrArg BitVec.toNat)) lid, fun hm => ?_⟩
  obtain ⟨hI, hP, hB⟩ := execDpbRefp_eq hm lid
  refine ⟨?_, ?_, ?_, ?_, ?_⟩
  · rintro rfl; exact hI
  · rintro rfl h; exact hP.trans (if_neg h)
  · rintro rfl h; exact hP.trans (if_pos h)
  · rintro rfl h0 h1; exact hB.trans (if_neg (not_or.2 ⟨h0, h1⟩))
  · rintro rfl h; exact hB.trans (if_pos h)

/-- What DPB_REFP can answer: ILLEGAL_COMMAND, or a state with the lists of the slice type, which are empty when it
answers UNEXPECTED_STATE. -/
theorem execDpbRefp_cases {m : BitVec 8} {st : BitVec 2} {lid : BitVec 3} {t : State}
    (h : execDpbRefp m st lid s = .next t) :
    (t = s.setCode .illegalCommand) ∨
    (m.toNat ≤ s.config.maxRefList ∧ (t = (s.withLists [] []).setCode .ok ∨
      t = (s.withLists [] []).setCode .unexpectedState ∨
      t = (s.withLists ((s.forP s.arg0.toNat s.arg1.toNat lid.toNat).take m.toNat) []).setCode .ok ∨
      t = (s.withLists (s.forB0 m.toNat s.arg0.toNat s.arg1.toNat lid.toNat)
        (s.forB1 m.toNat s.arg0.toNat s.arg1.toNat lid.toNat)).setCode .ok)) := by
  by_cases hbad : s.config.maxRefList < m.toNat ∨ st.toNat = 3
  · rw [execDpbRefp_illegal_fields hbad lid, raise_eq] at h
    cases h
    exact .inl rfl
  · obtain ⟨hm, hst⟩ := not_or.1 hbad
    obtain ⟨hI, hP, hB⟩ := execDpbRefp_eq (Nat.not_lt.1 hm) lid
    refine .inr ⟨Nat.not_lt.1 hm, ?_⟩
    obtain rfl | rfl | rfl : st = 0 ∨ st = 1 ∨ st = 2 := by bv_omega
    · cases hI.symm.trans h
      exact .inl rfl
    · rw [hP] at h
      dsimp only at h
      split at h
      · cases h; exact .inr (.inl rfl)
      · cases h; exact .inr (.inr (.inl rfl))
    · rw [hB] at h
      dsimp only at h
      split at h
      · cases h; exact .inr (.inl rfl)
      · cases h; exact .inr (.inr (.inr rfl))

/-- The picks of a walk are candidates, in their order. -/
theorem layerPicks_sublist (tid : Nat → Nat) : ∀ (m bound : Nat) (cand : List Nat),
    (layerPicks tid m bound cand).Sublist cand
  | 0, _, _ => List.nil_sublist _
  | m + 1, bound, cand => by
    have hdrop := List.dropWhile_sublist (fun j => decide (bound < tid j)) (l := cand)
    unfold layerPicks
    cases h : cand.dropWhile (fun j => decide (bound < tid j)) with
    | nil => exact List.nil_sublist _
    | cons j rest =>
      rw [h] at hdrop
      exact ((layerPicks_sublist tid m (tid j - 1) rest).cons_cons j).trans hdrop

theorem layerPicks_length_le (tid : Nat → Nat) : ∀ (m bound : Nat) (cand : List Nat),
    (layerPicks tid m bound cand).length ≤ m
  | 0, _, _ => Nat.le_refl 0
  | m + 1, bound, cand => by
    unfold layerPicks
    split
    · exact Nat.zero_le _
    · next j rest _ => exact Nat.succ_le_succ (layerPicks_length_le tid m (tid j - 1) rest)

theorem forP_sublist_past (s : State) (poc lip lid : Nat) : (s.forP poc lip lid).Sublist (s.past poc lip) := by
  unfold State.forP
  split_ifs
  · exact List.Sublist.refl _
  · exact List.filter_sublist
  · cases s.past poc lip with
    | nil => exact List.Sublist.refl _
    | cons j js => exact List.filter_sublist.cons_cons j

theorem refView_perm (s : State) : s.refView.Perm s.dpb.refseq := List.mergeSort_perm _ _

theorem mem_past {poc lip : Nat} (h : j ∈ s.past poc lip) : j ∈ s.dpb.refseq ∧ s.pocOf j < poc := by
  obtain ⟨hmem, htest⟩ := List.mem_filter.1 h
  exact ⟨(refView_perm s).mem_iff.1 hmem, of_decide_eq_true (Bool.and_eq_true_iff.1 htest).2⟩

theorem mem_future {poc lip : Nat} (h : j ∈ s.future poc lip) : j ∈ s.dpb.refseq ∧ poc < s.pocOf j := by
  obtain ⟨hmem, htest⟩ := List.mem_filter.1 h
  exact ⟨(refView_perm s).mem_iff.1 (List.mem_reverse.1 hmem), of_decide_eq_true (Bool.and_eq_true_iff.1 htest).2⟩

/-- The POCs of a list of slots. -/
def State.pocs (s : State) (l : List Nat) : List Word := l.map fun j => (s.dpb.slot j).poc

theorem map_poc_entriesOf (s : State) (l : List Nat) : (s.entriesOf l).map RefEntry.poc = s.pocs l := by
  unfold State.entriesOf State.pocs
  rw [List.map_map]
  rfl

theorem pocs_past_nodup (h : (s.pocs s.dpb.refseq).Nodup) (poc lip : Nat) : (s.pocs (s.past poc lip)).Nodup :=
  (((refView_perm s).map _).nodup_iff.2 h).sublist (List.filter_sublist.map _)

theorem pocs_future_nodup (h : (s.pocs s.dpb.refseq).Nodup) (poc lip : Nat) : (s.pocs (s.future poc lip)).Nodup :=
  ((((List.reverse_perm _).trans (refView_perm s)).map _).nodup_iff.2 h).sublist (List.filter_sublist.map _)

/-- In list 1 of a B slice the pictures after the current one come before those before it. -/
theorem pocs_forB1_nodup (h : (s.pocs s.dpb.refseq).Nodup) (m poc lip lid : Nat) :
    (s.pocs (s.forB1 m poc lip lid)).Nodup := by
  unfold State.forB1 State.pocs
  rw [List.map_append]
  refine ((pocs_future_nodup h poc lip).sublist ((layerPicks_sublist ..).map _)).append
    ((pocs_past_nodup h poc lip).sublist ((layerPicks_sublist ..).map _)) fun p hfuture hpast => ?_
  obtain ⟨i, hi, rfl⟩ := List.mem_map.1 hfuture
  obtain ⟨j, hj, hp⟩ := List.mem_map.1 hpast
  have hi := (mem_future ((layerPicks_sublist ..).subset hi)).2
  have hj := (mem_past ((layerPicks_sublist ..).subset hj)).2
  have : s.pocOf j = s.pocOf i := congrArg BitVec.toNat hp
  omega

/-- Settles O52: each list is empty, or its entries are picked from REFSEQ in the order of their POCs, the fallback of
list 1 on the other side of the current picture. -/
theorem dpbRefpDistinctPocs : Obligations.DpbRefpDistinctPocs := by
  unfold Obligations.DpbRefpDistinctPocs
  intro m st lid s t hdistinct h hcode l
  have hpast (l0 : List Nat) (poc lip : Nat) (hl : l0.Sublist (s.past poc lip)) : (s.pocs l0).Nodup :=
    (pocs_past_nodup hdistinct poc lip).sublist (hl.map _)
  obtain rfl | ⟨-, rfl | rfl | rfl | rfl⟩ := execDpbRefp_cases h
  · exact absurd rfl hcode
  · cases l <;> exact List.nodup_nil
  · cases l <;> exact List.nodup_nil
  · cases l
    · exact map_poc_entriesOf s _ ▸ hpast _ _ _ ((List.take_sublist _ _).trans (forP_sublist_past ..))
    · exact List.nodup_nil
  · cases l
    · exact map_poc_entriesOf s _ ▸ hpast _ _ _ (layerPicks_sublist ..)
    · exact map_poc_entriesOf s _ ▸ pocs_forB1_nodup hdistinct ..

end Sys2Proof.Machine

/-! What the bit reader and the SBAC engine may do to their registers, whatever the packet (40_bitreader.md R106,
41_sbac.md R129 to R137): the cursor never moves back, and an engine with legal registers keeps them legal. -/

namespace Sys2Proof.Machine

variable {s : State} {bs : Memory Byte} {e e' e₁ : Entropy} {b : Bool}

/-! ### The cursor never moves back (R106) -/

theorem advance_bitPos_le (e : Entropy) : e.bitPos.toNat ≤ e.advance.bitPos.toNat := by
  unfold Entropy.advance
  dsimp only
  split
  · have h1 : (1 : Word).toNat = 1 := rfl
    rw [BitVec.toNat_add, h1]
    omega
  · exact le_rfl

theorem nextbit_bitPos_le (h : nextbit bs e = .ok (b, e')) : e.bitPos.toNat ≤ e'.bitPos.toNat := by
  unfold nextbit at h
  split at h
  · cases h
  · cases h
    exact advance_bitPos_le e

theorem readbitsFrom_bitPos_le : ∀ {n v r : Nat} {e e' : Entropy}, readbitsFrom bs n v e = .ok (r, e') →
    e.bitPos.toNat ≤ e'.bitPos.toNat
  | 0, _, _, _, _, h => by cases h; exact le_rfl
  | n + 1, v, r, e, e', h => by
    rw [readbitsFrom] at h
    split at h
    · cases h
    · next hbit => exact (nextbit_bitPos_le hbit).trans (readbitsFrom_bitPos_le h)

theorem uePrefix_bitPos_le : ∀ {n lz : Nat} {r : Option Nat} {e e' : Entropy}, uePrefix bs n lz e = .ok (r, e') →
    e.bitPos.toNat ≤ e'.bitPos.toNat
  | 0, _, _, _, _, h => by cases h; exact le_rfl
  | n + 1, lz, r, e, e', h => by
    rw [uePrefix] at h
    split at h
    · cases h
    · next hbit => cases h; exact nextbit_bitPos_le hbit
    · next hbit => exact (nextbit_bitPos_le hbit).trans (uePrefix_bitPos_le h)

theorem ue_bitPos_le {r : Option Nat} (h : ue bs e = .ok (r, e')) : e.bitPos.toNat ≤ e'.bitPos.toNat := by
  unfold ue at h
  split at h
  · cases h
  · next hzeros => cases h; exact uePrefix_bitPos_le hzeros
  · next hzeros =>
    split at h
    · cases h
    · next hbits => cases h; exact (uePrefix_bitPos_le hzeros).trans (readbitsFrom_bitPos_le hbits)

theorem alignBits_bitPos_le : ∀ {n : Nat} {bad r : Bool} {e e' : Entropy}, alignBits bs n bad e = .ok (r, e') →
    e.bitPos.toNat ≤ e'.bitPos.toNat
  | 0, _, _, _, _, h => by cases h; exact le_rfl
  | n + 1, bad, r, e, e', h => by
    rw [alignBits] at h
    split at h
    · cases h
    · next hbit => exact (nextbit_bitPos_le hbit).trans (alignBits_bitPos_le h)

theorem renormUpTo_bitPos_le : ∀ {n : Nat} {e e' : Entropy}, renormUpTo bs n e = .ok e' →
    e.bitPos.toNat ≤ e'.bitPos.toNat
  | 0, _, _, h => by cases h; exact le_rfl
  | n + 1, e, e', h => by
    rw [renormUpTo] at h
    split at h
    · split at h
      · cases h
      · next hbit =>
        have hrest := renormUpTo_bitPos_le h
        exact (nextbit_bitPos_le hbit).trans hrest
    · cases h; exact le_rfl

theorem bin_bitPos_le {c : Nat} (h : bin bs c e = .ok (b, e')) : e.bitPos.toNat ≤ e'.bitPos.toNat := by
  unfold bin at h
  split at h
  · cases h
  · split at h
    · cases h
    · dsimp only at h
      split at h
      · cases h
      · next e₁ hrenorm =>
        cases h
        have := renormUpTo_bitPos_le hrenorm
        split at this <;> exact this

theorem ep_bitPos_le (h : ep bs e = .ok (b, e')) : e.bitPos.toNat ≤ e'.bitPos.toNat := by
  unfold ep at h
  dsimp only at h
  split at h
  · cases h
  · next hbit =>
    have hle := nextbit_bitPos_le hbit
    cases h
    exact hle

/-! ### What commands may do to the engine -/

/-- A command that reads bits in state s may leave the registers e: the packet is the same, the cursor is not further
back, and RANGE and the context memory are legal if they were, CTX_INIT being legal too (R106, R130, R137). -/
structure EngineMove (s : State) (e : Entropy) : Prop where
  base : e.bsBase = s.ent.bsBase
  len : e.bsLen = s.ent.bsLen
  pos : s.ent.bitPos.toNat ≤ e.bitPos.toNat
  range : s.ent.range.toNat ≤ 16384 → e.range.toNat ≤ 16384
  ctx_wf : s.ent.ctx.wf = true → e.ctx.wf = true
  ctx_legal : s.cfg.ctxInit.toNat ≤ 0x201 → (∀ c m, s.ent.ctx.read c = some m → ctxLegal m) →
    ∀ c m, e.ctx.read c = some m → ctxLegal m

/-- The memory that lists the addresses of a range in order is in canonical form. -/
theorem uniformContexts_wf (m : CtxModel) : (uniformContexts m).wf = true := by
  have key : ∀ n a, Memory.wf ((List.range' a n).map fun c => (c, m)) = true := by
    intro n
    induction n with
    | zero => intro a; rfl
    | succ n ih =>
      intro a
      rw [List.range'_succ, List.map_cons]
      refine (Memory.wf_cons _ _ _).2 ⟨fun c w m' h => ?_, ih (a + 1)⟩
      cases n with
      | zero => cases h
      | succ n => cases h; exact Nat.lt_succ_self a
  rw [uniformContexts, List.range_eq_range']
  exact key numCtx 0

/-- CTX_INIT at most 0x201 is a legal model (R38, R44). -/
theorem uniformContexts_legal {v : Word} (hv : v.toNat ≤ 0x201) {c : Nat} {m : CtxModel}
    (h : (uniformContexts (v.extractLsb' 0 10)).read c = some m) : ctxLegal m := by
  rw [uniformContexts, Memory.read_map] at h
  split at h
  · cases h
    unfold ctxLegal
    rw [BitVec.extractLsb'_toNat, Nat.shiftRight_eq_div_pow]
    omega
  · cases h

namespace EngineMove

theorem refl (s : State) : EngineMove s s.ent := ⟨rfl, rfl, le_rfl, id, id, fun _ h => h⟩

/-- Only the cursor moves. -/
theorem read (h : EngineMove s e) (he : e' = { e with bitPos := e'.bitPos }) (hp : e.bitPos.toNat ≤ e'.bitPos.toNat) :
    EngineMove s e' := by
  obtain ⟨hbase, hlen, hpos, hrange, hwf, hlegal⟩ := h
  rw [he]
  exact ⟨hbase, hlen, hpos.trans hp, hrange, hwf, hlegal⟩

/-- RANGE, VALUE and the cursor move. -/
theorem run (h : EngineMove s e) (he : e' = { e with range := e'.range, value := e'.value, bitPos := e'.bitPos })
    (hp : e.bitPos.toNat ≤ e'.bitPos.toNat) (hr : e.range.toNat ≤ 16384 → e'.range.toNat ≤ 16384) :
    EngineMove s e' := by
  obtain ⟨hbase, hlen, hpos, hrange, hwf, hlegal⟩ := h
  rw [he]
  exact ⟨hbase, hlen, hpos.trans hp, fun h => hr (hrange h), hwf, hlegal⟩

/-- One context takes another model. -/
theorem writeCtx (h : EngineMove s e) (c : Nat) {m : CtxModel}
    (hm : s.cfg.ctxInit.toNat ≤ 0x201 → (∀ c m, s.ent.ctx.read c = some m → ctxLegal m) → ctxLegal m) :
    EngineMove s { e with ctx := e.ctx.write c m } := by
  obtain ⟨hbase, hlen, hpos, hrange, hwf, hlegal⟩ := h
  refine ⟨hbase, hlen, hpos, hrange, fun h => Memory.wf_write _ _ _ (hwf h), fun hi h c' m' hread => ?_⟩
  rw [Memory.read_write] at hread
  split at hread
  · cases hread; exact hm hi h
  · exact hlegal hi h c' m' hread

theorem bin (h : EngineMove s e) {c : Nat} (hb : bin bs c e = .ok (b, e')) : EngineMove s e' := by
  obtain ⟨m, m', hread, -, he, hlegal, -, hrange⟩ := bin_cases hb
  have hw := h.writeCtx c (m := m') fun hi hall => hlegal (h.ctx_legal hi hall c m hread)
  have hpos := bin_bitPos_le hb
  exact hw.run he hpos fun hr => (hrange hr).le

theorem ep (h : EngineMove s e) (hb : ep bs e = .ok (b, e')) : EngineMove s e' := by
  obtain ⟨he, hrange⟩ := ep_cases hb
  exact h.run he (ep_bitPos_le hb) (by omega)

theorem unaryBin (h : EngineMove s e) {cb nc k : Nat} {bypass : Bool}
    (hb : unaryBin bs cb nc bypass k e = .ok (b, e')) : EngineMove s e' := by
  unfold Machine.unaryBin at hb
  split at hb
  · exact h.ep hb
  · exact h.bin hb

theorem unaryFrom (h : EngineMove s e) {cb nc n k : Nat} {bypass : Bool} {r : Option Nat}
    (hb : unaryFrom (Machine.unaryBin bs cb nc bypass) n k e = .ok (r, e')) : EngineMove s e' :=
  unaryFrom_inv (EngineMove s) (fun _ _ _ _ hm hstep => hm.unaryBin hstep) n h hb

/-- SBAC_INIT starts the engine anew and may set every context to CTX_INIT (R128). -/
theorem init (h : EngineMove s e) (f : Bool) (v : Nat) :
    EngineMove s { e.setRv rangeInit v with
      ctx := if f then uniformContexts (s.cfg.ctxInit.extractLsb' 0 10) else e.ctx } := by
  obtain ⟨hbase, hlen, hpos, -, hwf, hlegal⟩ := h
  refine ⟨hbase, hlen, hpos, fun _ => le_rfl, fun h => ?_, fun hi h c m hread => ?_⟩
  · cases f
    · exact hwf h
    · exact uniformContexts_wf _
  · cases f
    · exact hlegal hi h c m hread
    · exact uniformContexts_legal hi hread

end EngineMove

end Sys2Proof.Machine

/-! What the motion-compensation and the deblocking commands may write, whatever the contents of the memories: the
former the MC buffers, the latter the picture of one slot (20_memory.md R78). -/

namespace Sys2Proof.Machine

variable {s t u : State} {k : Nat}

/-! ### Edits of one picture -/

theorem Picture.wf_iff (p : Picture) : p.wf = true ↔
    (∀ c, (p.plane c).wf = true) ∧ (∀ l, (p.mv l).wf = true) ∧ ∀ l, (p.refi l).wf = true := by
  simp only [Picture.wf, Bool.and_eq_true]
  constructor
  · rintro ⟨⟨⟨⟨⟨⟨hy, hcb⟩, hcr⟩, hm0⟩, hm1⟩, hr0⟩, hr1⟩
    refine ⟨fun c => ?_, fun l => ?_, fun l => ?_⟩
    · cases c <;> assumption
    · cases l <;> assumption
    · cases l <;> assumption
  · rintro ⟨hp, hm, hr⟩
    exact ⟨⟨⟨⟨⟨⟨hp .y, hp .cb⟩, hp .cr⟩, hm .l0⟩, hm .l1⟩, hr .l0⟩, hr .l1⟩

@[simp] theorem setPlane_mv (p : Picture) (c : Comp) (m : Memory Sample) (l : ListIx) :
    (p.setPlane c m).mv l = p.mv l := by cases c <;> cases l <;> rfl

@[simp] theorem setPlane_refi (p : Picture) (c : Comp) (m : Memory Sample) (l : ListIx) :
    (p.setPlane c m).refi l = p.refi l := by cases c <;> cases l <;> rfl

@[simp] theorem setMv_plane (p : Picture) (l : ListIx) (m : Memory MotionVec) (c : Comp) :
    (p.setMv l m).plane c = p.plane c := by cases l <;> cases c <;> rfl

@[simp] theorem setMv_mv (p : Picture) (l l' : ListIx) (m : Memory MotionVec) :
    (p.setMv l m).mv l' = if l' = l then m else p.mv l' := by cases l <;> cases l' <;> rfl

@[simp] theorem setMv_refi (p : Picture) (l l' : ListIx) (m : Memory MotionVec) : (p.setMv l m).refi l' = p.refi l' := by
  cases l <;> cases l' <;> rfl

@[simp] theorem setRefi_plane (p : Picture) (l : ListIx) (m : Memory Byte) (c : Comp) :
    (p.setRefi l m).plane c = p.plane c := by cases l <;> cases c <;> rfl

@[simp] theorem setRefi_mv (p : Picture) (l l' : ListIx) (m : Memory Byte) : (p.setRefi l m).mv l' = p.mv l' := by
  cases l <;> cases l' <;> rfl

@[simp] theorem setRefi_refi (p : Picture) (l l' : ListIx) (m : Memory Byte) :
    (p.setRefi l m).refi l' = if l' = l then m else p.refi l' := by cases l <;> cases l' <;> rfl

theorem Picture.wf_writePlane {p : Picture} (h : p.wf = true) (c : Comp) (a : Nat) (v : Sample) :
    (p.setPlane c ((p.plane c).write a v)).wf = true := by
  obtain ⟨hp, hm, hr⟩ := (Picture.wf_iff p).1 h
  refine (Picture.wf_iff _).2 ⟨fun c' => ?_, fun l => by simpa using hm l, fun l => by simpa using hr l⟩
  rw [setPlane_plane]
  split
  · exact Memory.wf_write _ _ _ (hp c)
  · exact hp c'

theorem Picture.wf_writeMv {p : Picture} (h : p.wf = true) (l : ListIx) (a : Nat) (v : MotionVec) :
    (p.setMv l ((p.mv l).write a v)).wf = true := by
  obtain ⟨hp, hm, hr⟩ := (Picture.wf_iff p).1 h
  refine (Picture.wf_iff _).2 ⟨fun c => by simpa using hp c, fun l' => ?_, fun l' => by simpa using hr l'⟩
  rw [setMv_mv]
  split
  · exact Memory.wf_write _ _ _ (hm l)
  · exact hm l'

theorem Picture.wf_writeRefi {p : Picture} (h : p.wf = true) (l : ListIx) (a : Nat) (v : Byte) :
    (p.setRefi l ((p.refi l).write a v)).wf = true := by
  obtain ⟨hp, hm, hr⟩ := (Picture.wf_iff p).1 h
  refine (Picture.wf_iff _).2 ⟨fun c => by simpa using hp c, fun l' => by simpa using hm l', fun l' => ?_⟩
  rw [setRefi_refi]
  split
  · exact Memory.wf_write _ _ _ (hr l)
  · exact hr l'

/-- The pictures `p'` differ from `p` at most in picture k, whose memories keep their canonical form. -/
structure EditsPicture (k : Nat) (p p' : List Picture) : Prop where
  length : p'.length = p.length
  other : ∀ j, j ≠ k → p'[j]? = p[j]?
  wf : (∀ q ∈ p, q.wf = true) → ∀ q ∈ p', q.wf = true

theorem EditsPicture.refl (k : Nat) (p : List Picture) : EditsPicture k p p := ⟨rfl, fun _ _ => rfl, id⟩

theorem EditsPicture.trans {p q r : List Picture} (h : EditsPicture k p q) (h' : EditsPicture k q r) :
    EditsPicture k p r :=
  ⟨h'.length.trans h.length, fun j hj => (h'.other j hj).trans (h.other j hj), fun hp => h'.wf (h.wf hp)⟩

theorem editsPicture_modify (k : Nat) (p : List Picture) {f : Picture → Picture}
    (hf : ∀ q, q.wf = true → (f q).wf = true) : EditsPicture k p (p.modify k f) := by
  refine ⟨List.length_modify .., fun j hj => ?_, fun h q hq => ?_⟩
  · simp [Ne.symm hj]
  · obtain ⟨j, hj⟩ := List.mem_iff_getElem?.1 hq
    rw [List.getElem?_modify] at hj
    cases hp : p[j]? with
    | none => rw [hp] at hj; cases hj
    | some r =>
      have hr := h r (List.mem_of_getElem? hp)
      rw [hp] at hj
      split at hj
      · cases hj; exact hf r hr
      · cases hj; exact hr

/-- From s to t at most the picture of slot k changes. -/
def SlotEdited (k : Nat) (s t : State) : Prop := ∃ p, t = s.setPics p ∧ EditsPicture k s.pics p

theorem SlotEdited.refl (k : Nat) (s : State) : SlotEdited k s s := ⟨s.pics, rfl, .refl k s.pics⟩

theorem SlotEdited.trans (h : SlotEdited k s t) (h' : SlotEdited k t u) : SlotEdited k s u := by
  obtain ⟨p, rfl, hp⟩ := h
  obtain ⟨q, rfl, hq⟩ := h'
  exact ⟨q, rfl, hp.trans hq⟩

/-- A fold of edits of slot k is one. -/
theorem foldE_slotEdited {β : Type} {f : β → State → Except Fault State}
    (hf : ∀ b s t, f b s = .ok t → SlotEdited k s t) {l : List β} (h : foldE f l s = .ok t) : SlotEdited k s t :=
  foldE_inv (SlotEdited k s) (fun b _ _ hs hstep => hs.trans (hf b _ _ hstep)) l s t (.refl k s) h

theorem writeSample_slotEdited (s : State) (k : Nat) (c : Comp) (y x : Nat) (v : Sample) :
    SlotEdited k s (s.writeSample k c y x v) :=
  ⟨_, rfl, editsPicture_modify k s.pics fun _ hq => Picture.wf_writePlane hq c _ v⟩

theorem writeLine_slotEdited (c : Comp) (d : Dir) (x y i : Nat) (v : Nat → Int) : ∀ (ns : List Nat) (s : State),
    SlotEdited k s (writeLine k c d x y i ns v s)
  | [], s => .refl k s
  | n :: ns, s => (writeSample_slotEdited s k c _ _ (toSample (v n))).trans (writeLine_slotEdited c d x y i v ns _)

theorem filterLine_slotEdited {c : Comp} {d : Dir} {x y i : Nat} {ns : List Nat} {f : Line → Line}
    (h : filterLine k c d x y ns f i s = .ok t) : SlotEdited k s t := by
  unfold filterLine at h
  split at h
  · cases h
  · cases h; exact writeLine_slotEdited ..

theorem lumaSegment_slotEdited {d : Dir} {x y : Nat} {st : Int} (h : lumaSegment k d x y st s = .ok t) :
    SlotEdited k s t :=
  foldE_slotEdited (fun _ _ _ hline => filterLine_slotEdited (filterLumaLine_eq .. ▸ hline)) h

theorem chromaSegment_slotEdited {c : Comp} {d : Dir} {x y : Nat} {st : Int}
    (h : chromaSegment k c d x y st s = .ok t) : SlotEdited k s t :=
  foldE_slotEdited (fun _ _ _ hline => filterLine_slotEdited (filterChromaLine_eq .. ▸ hline)) h

theorem dfCuChroma_slotEdited {d : Dir} {sx sy stc : Nat} (h : dfCuChroma k d sx sy stc s = .ok t) :
    SlotEdited k s t := by
  unfold dfCuChroma at h
  split at h
  · cases h; exact .refl k s
  · exact foldE_slotEdited (fun _ _ _ hseg => chromaSegment_slotEdited hseg) h

/-- The luma part of one segment of DF_CU runs where its threshold is not 0 (R183). -/
theorem guardedLuma_slotEdited {d : Dir} {sx sy st : Nat}
    (h : (if st = 0 then .ok s else lumaSegment k d sx sy st s) = .ok t) : SlotEdited k s t := by
  split at h
  · cases h; exact .refl k s
  · exact lumaSegment_slotEdited h

theorem dfCuFilter_slotEdited {d : Dir} {e sx sy : Nat} {p q : Nat × Nat} (h : dfCuFilter k d e sx sy p q s = .ok t) :
    SlotEdited k s t := by
  unfold dfCuFilter at h
  split at h
  · cases h
  · split at h
    · cases h
    · dsimp only at h
      split at h
      · cases h
      · next hluma =>
        split at h
        · exact (guardedLuma_slotEdited hluma).trans (dfCuChroma_slotEdited h)
        · cases h; exact guardedLuma_slotEdited hluma

/-- Segment i of DF_CU by its place, its block before the edge and its coordinate across the edge (R183, R185). -/
theorem dfCuSegment_eq (k : Nat) (d : Dir) (x y i : Nat) (s : State) :
    dfCuSegment k d x y i s =
      (let sx := (segmentAt d x y i).1
      let sy := (segmentAt d x y i).2
      let p := beforeBlock d (sy / 4) (sx / 4)
      if s.cfg.picW.toNat ≤ sx ∨ s.cfg.picH.toNat ≤ sy then .ok s
      else
        match readCod s p.1 p.2 with
        | .error e => .error e
        | .ok false => .ok s
        | .ok true => dfCuFilter k d (edgeAt d x y) sx sy p (sy / 4, sx / 4) s) := by
  cases d <;> rfl

theorem dfCuSegment_slotEdited {d : Dir} {x y i : Nat} (h : dfCuSegment k d x y i s = .ok t) : SlotEdited k s t := by
  rw [dfCuSegment_eq] at h
  dsimp only at h
  split at h
  · cases h; exact .refl k s
  · split at h
    · cases h
    · cases h; exact .refl k s
    · exact dfCuFilter_slotEdited h

/-! ### Writes of the MC buffers -/

/-- From s to t at most the MC buffers change, and they keep their canonical form. -/
def BuffersWritten (s t : State) : Prop :=
  ∃ m m', t = (s.setPred m).setPredOut m' ∧ (s.pred.wf = true → m.wf = true) ∧ (s.predOut.wf = true → m'.wf = true)

theorem BuffersWritten.refl (s : State) : BuffersWritten s s := ⟨s.pred, s.predOut, rfl, id, id⟩

theorem BuffersWritten.trans (h : BuffersWritten s t) (h' : BuffersWritten t u) : BuffersWritten s u := by
  obtain ⟨m, m', rfl, hm, hm'⟩ := h
  obtain ⟨n, n', rfl, hn, hn'⟩ := h'
  exact ⟨n, n', rfl, fun h => hn (hm h), fun h => hn' (hm' h)⟩

theorem foldE_buffersWritten {β : Type} {f : β → State → Except Fault State}
    (hf : ∀ b s t, f b s = .ok t → BuffersWritten s t) {l : List β} (h : foldE f l s = .ok t) : BuffersWritten s t :=
  foldE_inv (BuffersWritten s) (fun b _ _ hs hstep => hs.trans (hf b _ _ hstep)) l s t (.refl s) h

theorem predict_buffersWritten {l : ListIx} {c : Comp} {x y w h : Nat} {mv : Int × Int}
    (hp : predict s l c k x y w h mv = .ok t) : BuffersWritten s t := by
  unfold predict at hp
  split at hp
  · cases hp
  · next m hm => cases hp; exact ⟨m, s.predOut, rfl, fun hwf => fillCells_wf hwf hm, id⟩

theorem output_buffersWritten {c : Comp} {w h : Nat} {f : Nat → Nat → Except Fault Sample}
    (hp : output s c w h f = .ok t) : BuffersWritten s t := by
  unfold output at hp
  split at hp
  · cases hp
  · next m hm => cases hp; exact ⟨s.pred, m, rfl, id, fun hwf => fillCells_wf hwf hm⟩

theorem mcCuComp_buffersWritten {x y size : Nat} {fetches : List Fetch} {c : Comp}
    (h : mcCuComp x y size fetches c s = .ok t) : BuffersWritten s t := by
  unfold mcCuComp at h
  dsimp only at h
  split at h
  · cases h
  · next hfetch =>
    refine (foldE_buffersWritten (fun _ _ _ hp => predict_buffersWritten hp) hfetch).trans ?_
    split at h
    · exact output_buffersWritten h
    · exact output_buffersWritten h

end Sys2Proof.Machine

/-! What a command can answer, said once for all 36 commands (60_exceptions.md R245, R249): `Completes` has one
constructor for each kind of effect, and `exec_completes` says that there is no other. The rules of the whole machine
follow from it case by case. -/

namespace Sys2Proof.Machine

variable {s t : State} {i : Instr} {P : State → Prop}

/-! ### Every next state of a result -/

/-- Whatever next state `r` answers has the property P. -/
def Answers (r : Result) (P : State → Prop) : Prop := ∀ t, r = .next t → P t

theorem answers_raise {c : Code} (h : P (s.setCode c)) : Answers (raise c s) P := by
  rintro t ⟨⟩
  exact h

theorem answers_finish (h : P (s.setCode .ok)) : Answers (finish s) P := answers_raise h

theorem answers_fault (f : Fault) : Answers (.fault f) P := fun _ h => nomatch h

theorem answers_orFault {α : Type} {r : Except Fault α} {k : α → Result} (h : ∀ a, r = .ok a → Answers (k a) P) :
    Answers (orFault r k) P := by
  intro t ht
  obtain ⟨a, ha, hk⟩ := orFault_next.1 ht
  exact h a ha t hk

theorem answers_ite {c : Prop} [Decidable c] {a b : Result} (ha : c → Answers a P) (hb : ¬c → Answers b P) :
    Answers (if c then a else b) P := by
  split
  next hc => exact ha hc
  next hc => exact hb hc

theorem answers_unlessHalted {r : Result} (hh : P (s.setCode .engineHalted)) (hr : Answers r P) :
    Answers (unlessHalted s r) P :=
  answers_ite (fun _ => answers_raise hh) fun _ => hr

/-! ### The kinds of effects -/

/-- The codes with which every command answers without having done anything else (R249). -/
def quietCodes : List Code := [.illegalCommand, .unsupported, .engineHalted, .outOfBuffers, .outputNotAvailable]

/-- The command may answer with the code alone. DPB_REFP empties the lists before it answers UNEXPECTED_STATE (R204). -/
def Rejects (i : Instr) (c : Code) : Prop :=
  c ∈ mayComplete i ∧ (c ∈ quietCodes ∨ c = .unexpectedState ∧ ∀ m st lid, i ≠ .dpbRefp m st lid)

/-- The engine's registers when command i meets a malformed bitstream (R110, R134, R135). -/
def MalformedIn (s : State) (e : Entropy) (i : Instr) : Prop :=
  ((i = .brReadUe ∨ i = .brReadSe) ∧ e = { s.ent with bitPos := e.bitPos }) ∨
  (i = .decBinTrm ∧ e.range.toNat + 1 = s.ent.range.toNat ∧ e.value = s.ent.value ∧ e.ctx = s.ent.ctx) ∨
  ∃ cb nc bypass, i = .decUnary cb nc bypass

/-- The states that command i may answer from s, by kind of effect. -/
inductive Completes (s : State) : Instr → State → Prop
  /-- The code alone. -/
  | rejected {i : Instr} {c : Code} (h : Rejects i c) : Completes s i (s.setCode c)
  /-- Result registers alone. -/
  | answered {i : Instr} (r0 r1 : Word) : Completes s i (((s.setRes0 r0).setRes1 r1).setCode .ok)
  /-- The bit reader and the SBAC engine ran. -/
  | engine {i : Instr} {e : Entropy} (r0 : Word) (h : EngineMove s e) :
      Completes s i (((s.setEnt e).setRes0 r0).setCode .ok)
  /-- They met a malformed bitstream. -/
  | malformed {i : Instr} {e : Entropy} (h : EngineMove s e) (hi : MalformedIn s e i) :
      Completes s i (((s.setEnt e).setSticky true).setCode .malformedBitstream)
  /-- Motion compensation. -/
  | predicted {i : Instr} {u : State} (h : BuffersWritten s u) : Completes s i (u.setCode .ok)
  /-- Deblocking of the current picture, with new COD bits. -/
  | filtered {i : Instr} {k : Nat} {u : State} {m : Memory Bool} (hk : s.curSlot = some k) (h : SlotEdited k s u)
      (hm : s.cuCod.wf = true → m.wf = true) : Completes s i ((u.setCuCod m).setCode .ok)
  /-- DF_CLR. -/
  | cleared {m : Memory Bool} (hm : s.cuCod.wf = true → m.wf = true) :
      Completes s .dfClr ((s.setCuCod m).setCode .ok)
  | reset : Completes s .reset
      ({ State.resetOf s.config with
        host := s.host, hostData := s.hostData, freeCount := s.freeCount, bsmem := s.bsmem }.setCode .ok)
  | stickyCleared : Completes s .statClr ((s.setSticky false).setCode .ok)
  | packetStarted (h : s.arg0.toNat + s.arg1.toNat ≤ s.config.bsSize) : Completes s .brInit
      (((s.setEnt { s.ent with bsBase := s.arg0, bsLen := s.arg1, bitPos := 0 }).setSticky false).setCode .ok)
  | configured {idx : BitVec 8} (h : cfgWrError s.config idx s.arg0 = none)
      (hsize : changesSize s.cfg idx s.arg0 = false) :
      Completes s (.cfgWr idx) ((s.setCfg (s.cfg.set idx s.arg0)).setCode .ok)
  | reinitialised {idx : BitVec 8} (h : cfgWrError s.config idx s.arg0 = none)
      (hsize : changesSize s.cfg idx s.arg0 = true) :
      Completes s (.cfgWr idx) ((reinit (s.setCfg (s.cfg.set idx s.arg0))).setCode .ok)
  | slotReused {k : Nat} (hpic : noPicture s.cfg = false) (hk : s.dpb.pool.find? s.dpb.reusable = some k) :
      Completes s .dpbGet ((((s.setDpb (s.dpb.detach k)).setCfg
        { s.cfg with curSlot := natWord k }).setRes0 (natWord k)).setCode .ok)
  | slotAllocated {k : Nat} (hpic : noPicture s.cfg = false) (hk : s.dpb.firstFree = some k) :
      Completes s .dpbGet (((((s.setDpb (s.dpb.allocate k)).setPics (s.pics.set k {})).setCfg
        { s.cfg with curSlot := natWord k }).setRes0 (natWord k)).setCode .ok)
  | pictureStored {idr no ref : Bool} {tid : BitVec 3} (hstate : (s.dpb.slot s.arg0.toNat).state = .detached)
      (hcap : s.arg0.toNat < s.config.pbCap) :
      Completes s (.dpbPut idr no ref tid) (((s.setDpb (s.stored idr no ref tid)).setCfg
        { s.cfg with curSlot := if s.cfg.curSlot = s.arg0 then noSlot else s.cfg.curSlot }).setCode .ok)
  | listsBuilt {m : BitVec 8} {st : BitVec 2} {lid : BitVec 3} {l0 l1 : List Nat} {c : Code}
      (hmem : ∀ j, j ∈ l0 ∨ j ∈ l1 → j ∈ s.dpb.refseq)
      (hlen : l0.length ≤ s.config.maxRefList ∧ l1.length ≤ s.config.maxRefList)
      (hc : c = .ok ∨ c = .unexpectedState ∧ l0 = [] ∧ l1 = []) :
      Completes s (.dpbRefp m st lid) ((s.withLists l0 l1).setCode c)
  | pictureOutput (k : Nat) : Completes s .dpbOut
      (((((s.setDpb (s.dpb.modifySlot k fun r => { r with needOut := false })).setCfg
        { s.cfg with nextOutPoc := s.cfg.nextOutPoc + s.cfg.pocInc }).setRes0 (natWord k)).setRes1
          (s.dpb.slot k).poc).setCode .ok)

/-! ### Rejections -/

theorem rejected_illegal (h : .illegalCommand ∈ mayComplete i) : Answers (raise .illegalCommand s) (Completes s i) :=
  answers_raise (.rejected ⟨h, .inl (by decide)⟩)

theorem halted (h : .engineHalted ∈ mayComplete i) : Completes s i (s.setCode .engineHalted) :=
  .rejected ⟨h, .inl (by decide)⟩

theorem rejected_code {c : Code} (h : c ∈ mayComplete i) (hc : c ∈ quietCodes) :
    Answers (raise c s) (Completes s i) :=
  answers_raise (.rejected ⟨h, .inl hc⟩)

/-- The answer of a command with one result word. -/
theorem answered_word (v : Word) : Completes s i ((s.setRes0 v).setCode .ok) := .answered v s.res1

theorem rejected_unexpected (h : .unexpectedState ∈ mayComplete i) (hi : ∀ m st lid, i ≠ .dpbRefp m st lid) :
    Answers (raise .unexpectedState s) (Completes s i) :=
  answers_raise (.rejected ⟨h, .inr ⟨rfl, hi⟩⟩)

/-! ### The commands, one by one -/

/-- A value is legal for its register exactly when CFG_WR finds no error in it (R30 to R39, R232). -/
theorem cfgWrError_eq_none_iff (c : Config) (idx : BitVec 8) (v : Word) :
    cfgWrError c idx v = none ↔ cfgLegal c idx v := by
  unfold cfgWrError cfgLegal
  split
  all_goals grind

/-- The codes with which CFG_WR rejects a value (R232). -/
theorem cfgWrError_code {c : Config} {idx : BitVec 8} {v : Word} {code : Code} (h : cfgWrError c idx v = some code) :
    code = .illegalCommand ∨ code = .unsupported := by
  unfold cfgWrError at h
  split at h
  all_goals grind

theorem execCfgWr_completes (idx : BitVec 8) (s : State) : Answers (execCfgWr idx s) (Completes s (.cfgWr idx)) := by
  unfold execCfgWr
  cases hv : cfgWrError s.config idx s.arg0 with
  | some c =>
    obtain rfl | rfl := cfgWrError_code hv
    · exact rejected_illegal (by simp [mayComplete])
    · exact rejected_code (by simp [mayComplete]) (by decide)
  | none =>
    dsimp only
    cases hsize : changesSize s.cfg idx s.arg0 with
    | false => exact answers_finish (.configured hv hsize)
    | true => exact answers_finish (.reinitialised hv hsize)

theorem execCfgRd_completes (idx : BitVec 8) (s : State) : Answers (execCfgRd idx s) (Completes s (.cfgRd idx)) := by
  unfold execCfgRd
  split
  · exact rejected_illegal (by simp [mayComplete])
  · next v _ => exact answers_finish (answered_word v)

theorem execBrInit_completes (s : State) : Answers (execBrInit s) (Completes s .brInit) :=
  answers_ite (fun _ => rejected_illegal (by simp [mayComplete]))
    fun h => answers_finish (.packetStarted (Nat.not_lt.1 h))

theorem execBrRead_completes (n : BitVec 6) (s : State) : Answers (execBrRead n s) (Completes s (.brRead n)) :=
  answers_ite (fun _ => rejected_illegal (by simp [mayComplete])) fun _ =>
    answers_unlessHalted (halted (by simp [mayComplete])) <| answers_orFault fun _ h =>
      answers_finish (.engine _ ((EngineMove.refl s).read (readbitsFrom_frame _ h) (readbitsFrom_bitPos_le h)))

theorem execBrRead1_completes (s : State) : Answers (execBrRead1 s) (Completes s .brRead1) :=
  answers_unlessHalted (halted (by simp [mayComplete])) <| answers_orFault fun _ h =>
    answers_finish (.engine _ ((EngineMove.refl s).read (nextbit_frame h) (nextbit_bitPos_le h)))

theorem readCode_completes (f : Nat → Word) (s : State) (hi : i = .brReadUe ∨ i = .brReadSe) :
    Answers (readCode f s) (Completes s i) := by
  refine answers_unlessHalted (halted ?_) <| answers_orFault fun r h => ?_
  · obtain rfl | rfl := hi <;> simp [mayComplete]
  · have hmove := (EngineMove.refl s).read (ue_frame h) (ue_bitPos_le h)
    split
    · exact answers_raise (.malformed hmove (.inl ⟨hi, ue_frame h⟩))
    · exact answers_finish (.engine _ hmove)

theorem execSbacInit_completes (f : Bool) (s : State) : Answers (execSbacInit f s) (Completes s (.sbacInit f)) :=
  answers_unlessHalted (halted (by simp [mayComplete])) <| answers_orFault fun r h =>
    answers_finish (.engine (e := { r.2.setRv rangeInit r.1 with
        ctx := if f then uniformContexts (s.cfg.ctxInit.extractLsb' 0 10) else r.2.ctx }) s.res0
      (((EngineMove.refl s).read (readbitsFrom_frame _ h) (readbitsFrom_bitPos_le h)).init f r.1))

theorem execCtxWr_completes (c : BitVec 8) (s : State) : Answers (execCtxWr c s) (Completes s (.ctxWr c)) := by
  rw [execCtxWr_eq]
  refine answers_ite (fun h => answers_finish (.engine s.res0 ((EngineMove.refl s).writeCtx c.toNat fun _ _ => ?_)))
    fun _ => rejected_illegal (by simp [mayComplete])
  unfold ctxLegal
  rw [BitVec.extractLsb'_toNat, Nat.shiftRight_eq_div_pow]
  omega

theorem execCtxRd_completes (c : BitVec 8) (s : State) : Answers (execCtxRd c s) (Completes s (.ctxRd c)) := by
  unfold execCtxRd
  split
  · exact answers_fault _
  · exact answers_finish (answered_word _)

theorem execDecBin_completes (c : BitVec 8) (s : State) : Answers (execDecBin c s) (Completes s (.decBin c)) :=
  answers_unlessHalted (halted (by simp [mayComplete])) <| answers_orFault fun _ h =>
    answers_finish (.engine _ ((EngineMove.refl s).bin h))

theorem execDecBinEp_completes (s : State) : Answers (execDecBinEp s) (Completes s .decBinEp) :=
  answers_unlessHalted (halted (by simp [mayComplete])) <| answers_orFault fun _ h =>
    answers_finish (.engine _ ((EngineMove.refl s).ep h))

theorem execDecBinTrm_completes (s : State) : Answers (execDecBinTrm s) (Completes s .decBinTrm) := by
  refine answers_unlessHalted (halted (by simp [mayComplete])) <| answers_ite (fun _ => answers_fault _) fun hr => ?_
  have hR := s.ent.range.isLt
  have hrange : (s.ent.setRv (s.ent.range.toNat - 1) s.ent.value.toNat).range.toNat + 1 = s.ent.range.toNat := by
    rw [setRv_range, BitVec.toNat_ofNat]
    omega
  have hmove : EngineMove s (s.ent.setRv (s.ent.range.toNat - 1) s.ent.value.toNat) :=
    (EngineMove.refl s).run rfl le_rfl (by omega)
  have hvalue : (s.ent.setRv (s.ent.range.toNat - 1) s.ent.value.toNat).value = s.ent.value := by
    rw [setRv_value, BitVec.ofNat_toNat, BitVec.setWidth_eq]
  have hctx : (s.ent.setRv (s.ent.range.toNat - 1) s.ent.value.toNat).ctx = s.ent.ctx := rfl
  dsimp only
  generalize s.ent.setRv (s.ent.range.toNat - 1) s.ent.value.toNat = e at *
  refine answers_ite (fun _ => answers_orFault fun r h => ?aligned) fun _ => answers_orFault fun e' h => ?renormalised
  case aligned =>
    have he := alignBits_frame _ h
    have hmove' := hmove.read he (alignBits_bitPos_le h)
    refine answers_ite (fun _ => answers_raise (.malformed hmove' (.inr (.inl ⟨rfl, ?_⟩)))) fun _ =>
      answers_finish (.engine 1 hmove')
    rw [he]
    exact ⟨hrange, hvalue, hctx⟩
  case renormalised =>
    obtain ⟨he, -, -, hle⟩ := renormUpTo_frame 13 h
    exact answers_finish (.engine 0 (hmove.run he (renormUpTo_bitPos_le h) hle))

theorem execDecUnary_completes (cb : BitVec 8) (nc : BitVec 4) (bypass : Bool) (s : State) :
    Answers (execDecUnary cb nc bypass s) (Completes s (.decUnary cb nc bypass)) := by
  refine answers_ite (fun _ => rejected_illegal (by simp [mayComplete])) fun _ =>
    answers_ite (fun _ => rejected_illegal (by simp [mayComplete])) fun _ =>
      answers_unlessHalted (halted (by simp [mayComplete])) <| answers_orFault fun r h => ?_
  have hmove := (EngineMove.refl s).unaryFrom h
  obtain ⟨_ | k, e⟩ := r
  · exact answers_raise (.malformed hmove (.inr (.inr ⟨cb, nc, bypass, rfl⟩)))
  · exact answers_finish (.engine (natWord k) hmove)

theorem execDecTunary_completes (cb : BitVec 8) (nc : BitVec 4) (bypass : Bool) (mx : BitVec 8) (s : State) :
    Answers (execDecTunary cb nc bypass mx s) (Completes s (.decTunary cb nc bypass mx)) :=
  answers_ite (fun _ => rejected_illegal (by simp [mayComplete])) fun _ =>
    answers_ite (fun _ => rejected_illegal (by simp [mayComplete])) fun _ =>
      answers_unlessHalted (halted (by simp [mayComplete])) <| answers_orFault fun _ h =>
        answers_finish (.engine _ ((EngineMove.refl s).unaryFrom h))

theorem execMcClipmv_completes (s : State) : Answers (execMcClipmv s) (Completes s .mcClipmv) :=
  have illegal : Answers (raise .illegalCommand s) (Completes s .mcClipmv) := rejected_illegal (by simp [mayComplete])
  answers_ite (fun _ => illegal) fun _ => answers_ite (fun _ => illegal) fun _ => answers_ite (fun _ => illegal) fun _ =>
    answers_ite (fun _ => illegal) fun _ => answers_finish (answered_word _)

theorem execMcPred_completes (c : BitVec 2) (l : ListIx) (s : State) :
    Answers (execMcPred c l s) (Completes s (.mcPred c l)) := by
  have illegal : Answers (raise .illegalCommand s) (Completes s (.mcPred c l)) :=
    rejected_illegal (by simp [mayComplete])
  unfold execMcPred
  split
  · exact illegal
  · refine answers_ite (fun _ => illegal) fun _ => answers_ite (fun _ => illegal) fun _ =>
      answers_ite (fun _ => illegal) fun _ => ?_
    split
    · exact illegal
    · exact answers_ite (fun _ => illegal) fun _ => answers_orFault fun _ h =>
        answers_finish (.predicted (predict_buffersWritten h))

theorem execMcAvg_completes (c : BitVec 2) (s : State) : Answers (execMcAvg c s) (Completes s (.mcAvg c)) := by
  have illegal : Answers (raise .illegalCommand s) (Completes s (.mcAvg c)) := rejected_illegal (by simp [mayComplete])
  unfold execMcAvg
  split
  · exact illegal
  · exact answers_ite (fun _ => illegal) fun _ => answers_ite (fun _ => illegal) fun _ => answers_orFault fun _ h =>
      answers_finish (.predicted (output_buffersWritten h))

theorem execMcCu_completes (s : State) : Answers (execMcCu s) (Completes s .mcCu) := by
  have illegal : Answers (raise .illegalCommand s) (Completes s .mcCu) := rejected_illegal (by simp [mayComplete])
  refine answers_ite (fun _ => illegal) fun _ => answers_ite (fun _ => illegal) fun _ =>
    answers_ite (fun _ => illegal) fun _ => answers_ite (fun _ => illegal) fun _ => ?_
  split
  · exact answers_ite (fun _ => illegal) fun _ => answers_orFault fun _ h =>
      answers_finish (.predicted (foldE_buffersWritten (fun _ _ _ hc => mcCuComp_buffersWritten hc) h))
  · exact illegal

/-- The answer of a deblocking command that leaves the COD bits as they are. -/
theorem filtered_keeping_cod {k : Nat} {u : State} (hk : s.curSlot = some k) (h : SlotEdited k s u) :
    Answers (finish u) (Completes s i) := by
  obtain ⟨p, rfl, hp⟩ := h
  exact answers_finish (.filtered (m := s.cuCod) hk ⟨p, rfl, hp⟩ id)

theorem execDfBs_completes (s : State) : Answers (execDfBs s) (Completes s .dfBs) := by
  have illegal : Answers (raise .illegalCommand s) (Completes s .dfBs) := rejected_illegal (by simp [mayComplete])
  unfold execDfBs
  split
  · exact rejected_unexpected (by simp [mayComplete]) (by simp)
  · exact answers_ite (fun _ => illegal) fun _ => answers_ite (fun _ => illegal) fun _ => answers_orFault fun _ _ =>
      answers_finish (answered_word _)

theorem execDfLuma_completes (d : Dir) (s : State) : Answers (execDfLuma d s) (Completes s (.dfLuma d)) := by
  have illegal : Answers (raise .illegalCommand s) (Completes s (.dfLuma d)) := rejected_illegal (by simp [mayComplete])
  unfold execDfLuma
  split
  · exact rejected_unexpected (by simp [mayComplete]) (by simp)
  · next k hk =>
    exact answers_ite (fun _ => illegal) fun _ => answers_ite (fun _ => illegal) fun _ => answers_orFault fun _ h =>
      filtered_keeping_cod hk (lumaSegment_slotEdited h)

theorem execDfChroma_completes (d : Dir) (c : BitVec 2) (s : State) :
    Answers (execDfChroma d c s) (Completes s (.dfChroma d c)) := by
  have illegal : Answers (raise .illegalCommand s) (Completes s (.dfChroma d c)) :=
    rejected_illegal (by simp [mayComplete])
  unfold execDfChroma
  split
  · exact illegal
  · exact illegal
  · split
    · exact rejected_unexpected (by simp [mayComplete]) (by simp)
    · next k hk =>
      exact answers_ite (fun _ => illegal) fun _ => answers_ite (fun _ => illegal) fun _ =>
        answers_ite (fun _ => illegal) fun _ => answers_orFault fun _ h =>
          filtered_keeping_cod hk (chromaSegment_slotEdited h)

theorem execDfClr_completes (s : State) : Answers (execDfClr s) (Completes s .dfClr) :=
  answers_finish (.cleared (fillCod_wf _ _ _ _ _ _))

theorem execDfCu_completes (d : Dir) (s : State) : Answers (execDfCu d s) (Completes s (.dfCu d)) := by
  have illegal : Answers (raise .illegalCommand s) (Completes s (.dfCu d)) := rejected_illegal (by simp [mayComplete])
  unfold execDfCu
  split
  · exact rejected_unexpected (by simp [mayComplete]) (by simp)
  · next k hk =>
    refine answers_ite (fun _ => illegal) fun _ => answers_ite (fun _ => illegal) fun _ =>
      answers_ite (fun _ => illegal) fun _ => answers_orFault fun u h => ?_
    have hu : SlotEdited k s u := by
      split at h
      · cases h; exact .refl k s
      · exact foldE_slotEdited (fun _ _ _ hseg => dfCuSegment_slotEdited hseg) h
    refine answers_finish (.filtered hk hu ?_)
    obtain ⟨p, rfl, -⟩ := hu
    exact fillCod_wf _ _ _ _ _ _

theorem execDpbGet_completes (s : State) : Answers (execDpbGet s) (Completes s .dpbGet) := by
  cases hpic : noPicture s.cfg with
  | true =>
    rw [execDpbGet_no_picture hpic]
    exact rejected_illegal (by simp [mayComplete])
  | false =>
    have full : Answers (raise .outOfBuffers s) (Completes s .dpbGet) :=
      rejected_code (by simp [mayComplete]) (by decide)
    cases hk : s.dpb.pool.find? s.dpb.reusable with
    | some k =>
      rw [execDpbGet_reuses hpic hk]
      exact answers_finish (.slotReused hpic hk)
    | none =>
      cases hfree : s.dpb.firstFree with
      | none =>
        rw [execDpbGet_full hpic hk (.inr hfree)]
        exact full
      | some k =>
        by_cases hcount : s.dpb.nalloc < s.cfg.maxPb.toNat
        · rw [execDpbGet_allocates hpic hk hcount hfree]
          exact answers_finish (.slotAllocated hpic hfree)
        · rw [execDpbGet_full hpic hk (.inl (Nat.not_lt.1 hcount))]
          exact full

theorem execDpbPut_completes (idr no ref : Bool) (tid : BitVec 3) (s : State) :
    Answers (execDpbPut idr no ref tid s) (Completes s (.dpbPut idr no ref tid)) :=
  have illegal : Answers (raise .illegalCommand s) (Completes s (.dpbPut idr no ref tid)) :=
    rejected_illegal (by simp [mayComplete])
  answers_ite (fun _ => illegal) fun hstate => answers_ite (fun _ => illegal) fun hcap =>
    answers_ite (fun _ => illegal) fun _ =>
      answers_finish (.pictureStored (not_not.1 hstate) (Nat.not_le.1 hcap))

theorem forB1_length_le (s : State) (m poc lip lid : Nat) : (s.forB1 m poc lip lid).length ≤ m := by
  have h1 := layerPicks_length_le s.tidOf m (lid - 1) (s.future poc lip)
  have h2 := layerPicks_length_le s.tidOf (m - (layerPicks s.tidOf m (lid - 1) (s.future poc lip)).length) (lid - 1)
    (s.past poc lip)
  rw [State.forB1, List.length_append]
  omega

theorem execDpbRefp_completes (m : BitVec 8) (st : BitVec 2) (lid : BitVec 3) (s : State) :
    Answers (execDpbRefp m st lid s) (Completes s (.dpbRefp m st lid)) := by
  intro t h
  have hpast (l : List Nat) (poc lip : Nat) (hl : l.Sublist (s.past poc lip)) (j : Nat) (hj : j ∈ l) :
      j ∈ s.dpb.refseq := (mem_past (hl.subset hj)).1
  obtain rfl | ⟨hm, rfl | rfl | rfl | rfl⟩ := execDpbRefp_cases h
  · exact .rejected ⟨by simp [mayComplete], .inl (by decide)⟩
  · exact .listsBuilt (by simp) (by simp) (.inl rfl)
  · exact .listsBuilt (by simp) (by simp) (.inr ⟨rfl, rfl, rfl⟩)
  · refine .listsBuilt (fun j hj => ?_) ⟨(List.length_take_le _ _).trans hm, Nat.zero_le _⟩ (.inl rfl)
    obtain hj | hj := hj
    · exact hpast _ _ _ ((List.take_sublist _ _).trans (forP_sublist_past ..)) j hj
    · cases hj
  · refine .listsBuilt (fun j hj => ?_) ⟨(layerPicks_length_le ..).trans hm, ?_⟩ (.inl rfl)
    · obtain hj | hj := hj
      · exact hpast _ _ _ (layerPicks_sublist ..) j hj
      · obtain hj | hj := List.mem_append.1 hj
        · exact (mem_future ((layerPicks_sublist ..).subset hj)).1
        · exact hpast _ _ _ (layerPicks_sublist ..) j hj
    · exact (forB1_length_le ..).trans hm

theorem execDpbOut_completes (s : State) : Answers (execDpbOut s) (Completes s .dpbOut) := by
  refine answers_ite (fun _ => rejected_unexpected (by simp [mayComplete]) (by simp)) fun _ => ?_
  split
  · exact rejected_code (by simp [mayComplete]) (by decide)
  · next k _ => exact answers_finish (.pictureOutput k)

theorem execDpbListRd_completes (n : BitVec 8) (l : ListIx) (s : State) :
    Answers (execDpbListRd n l s) (Completes s (.dpbListRd n l)) := by
  unfold execDpbListRd
  split
  · exact rejected_illegal (by simp [mayComplete])
  · next e _ => exact answers_finish (.answered (natWord e.slot) e.poc)

theorem execDpbSlotRd_completes (k : BitVec 8) (s : State) :
    Answers (execDpbSlotRd k s) (Completes s (.dpbSlotRd k)) :=
  answers_ite (fun _ => rejected_illegal (by simp [mayComplete])) fun _ => answers_finish (.answered _ _)

/-- Every next state of a command is one that `Completes` lists. -/
theorem exec_completes (i : Instr) (s : State) : Answers (exec i s) (Completes s i) := by
  cases i with
  | nop => exact answers_finish (.answered s.res0 s.res1)
  | reset => exact answers_finish .reset
  | cfgWr idx => exact execCfgWr_completes idx s
  | cfgRd idx => exact execCfgRd_completes idx s
  | statClr => exact answers_finish .stickyCleared
  | brInit => exact execBrInit_completes s
  | brRead n => exact execBrRead_completes n s
  | brRead1 => exact execBrRead1_completes s
  | brReadUe => exact readCode_completes natWord s (.inl rfl)
  | brReadSe => exact readCode_completes (fun v => intWord (zigzag v)) s (.inr rfl)
  | brAligned => exact answers_finish (answered_word _)
  | brConsumed => exact answers_finish (answered_word _)
  | sbacInit f => exact execSbacInit_completes f s
  | ctxWr c => exact execCtxWr_completes c s
  | ctxRd c => exact execCtxRd_completes c s
  | decBin c => exact execDecBin_completes c s
  | decBinEp => exact execDecBinEp_completes s
  | decBinTrm => exact execDecBinTrm_completes s
  | decUnary cb nc bypass => exact execDecUnary_completes cb nc bypass s
  | decTunary cb nc bypass mx => exact execDecTunary_completes cb nc bypass mx s
  | mcClipmv => exact execMcClipmv_completes s
  | mcPred c l => exact execMcPred_completes c l s
  | mcAvg c => exact execMcAvg_completes c s
  | mcCu => exact execMcCu_completes s
  | dfBs => exact execDfBs_completes s
  | dfLuma d => exact execDfLuma_completes d s
  | dfChroma d c => exact execDfChroma_completes d c s
  | dfClr => exact execDfClr_completes s
  | dfCu d => exact execDfCu_completes d s
  | dpbGet => exact execDpbGet_completes s
  | dpbPut idr no ref tid => exact execDpbPut_completes idr no ref tid s
  | dpbRefp m st lid => exact execDpbRefp_completes m st lid s
  | dpbOut => exact execDpbOut_completes s
  | dpbListRd n l => exact execDpbListRd_completes n l s
  | dpbNumref => exact answers_finish (.answered _ _)
  | dpbSlotRd k => exact execDpbSlotRd_completes k s

end Sys2Proof.Machine

/-! What a step can do (00_scope.md R6, 60_exceptions.md R245 to R257), and what every step keeps: the canonical form of
the memories, the legal registers, the invariants of the DPB, the stored pictures and the parameters. -/

namespace Sys2Proof.Machine

variable {s t : State} {i : Instr} {k : Nat}

/-! ### The steps of the machine -/

/-- The states that a step may lead to from s, the host's action being consumed: the effects of a command, or one access
of the host. -/
inductive Moves (s : State) : State → Prop
  | idle : Moves s s
  | command {i : Instr} {t : State} (h : Completes s i t) : Moves s t
  | badWord : Moves s (s.setCode .illegalCommand)
  | operands (a0 a1 a2 a3 : Word) : Moves s { s with arg0 := a0, arg1 := a1, arg2 := a2, arg3 := a3 }
  | answered (v : Word) (n : Nat) : Moves s { s with hostData := v, freeCount := n }
  | byteWritten (a : Nat) (v : Byte) : Moves s (s.setBsmem (s.bsmem.write a v))
  | pictureWritten {k : Nat} {p : List Picture} (hk : (s.dpb.slot k).state = .detached)
      (h : EditsPicture k s.pics p) : Moves s (s.setPics p)
  | cuWordWritten (a : Nat) (low : BitVec 31) (cod : Bool) :
      Moves s ((s.setCuLow (s.cuLow.write a low)).setCuCod (s.cuCod.write a cod))

theorem answers_next {P : State → Prop} (h : P t) : Answers (.next t) P := by
  rintro _ ⟨⟩
  exact h

theorem answers_refused {P : State → Prop} (r : Refusal) : Answers (.refused r) P := fun _ h => nomatch h

theorem runCommand_moves (w : Word) (s : State) : Answers (runCommand w s) (Moves s) := by
  unfold runCommand
  split
  · exact answers_raise .badWord
  · next i _ => exact fun t h => .command (exec_completes i s t h)

theorem hostRegWrite_moves (n : BitVec 6) (v : Word) (s : State) : Answers (hostRegWrite n v s) (Moves s) := by
  unfold hostRegWrite
  split
  · exact runCommand_moves v s
  · exact answers_next (.operands v s.arg1 s.arg2 s.arg3)
  · exact answers_next (.operands s.arg0 v s.arg2 s.arg3)
  · exact answers_next (.operands s.arg0 s.arg1 v s.arg3)
  · exact answers_next (.operands s.arg0 s.arg1 s.arg2 v)
  · exact answers_next .idle

theorem hostAnswer_moves (v : Word) (s : State) : Answers (hostAnswer v s) (Moves s) :=
  answers_next (.answered v s.freeCount)

theorem hostBsWrite_moves (a : Nat) (v : Byte) (s : State) : Answers (hostBsWrite a v s) (Moves s) :=
  answers_ite (fun _ => answers_fault _) fun _ => answers_ite (fun _ => answers_refused _) fun _ =>
    answers_next (.byteWritten a v)

theorem hostBsRead_moves (a : Nat) (s : State) : Answers (hostBsRead a s) (Moves s) := by
  unfold hostBsRead
  split
  · exact answers_ite (fun _ => answers_fault _) fun _ => hostAnswer_moves _ s
  · exact answers_ite (fun _ => answers_fault _) fun _ => answers_fault _

theorem hostPicWrite_moves (k : Nat) (inside : Bool) {f : Picture → Picture}
    (hf : ∀ p, p.wf = true → (f p).wf = true) (s : State) : Answers (hostPicWrite k inside f s) (Moves s) := by
  unfold hostPicWrite
  split
  · exact answers_fault _
  · exact answers_refused _
  · next hk =>
    exact answers_ite (fun _ => answers_next (.pictureWritten hk (editsPicture_modify k s.pics hf)))
      fun _ => answers_fault _

theorem hostPicRead_moves (k : Nat) (inside : Bool) (r : Except Fault Word) (s : State) :
    Answers (hostPicRead k inside r s) (Moves s) :=
  answers_ite (fun _ => answers_fault _) fun _ => answers_orFault fun v _ => hostAnswer_moves v s

theorem hostCuWrite_moves (row col : Nat) (v : Word) (s : State) : Answers (hostCuWrite row col v s) (Moves s) :=
  answers_ite (fun _ => answers_next (.cuWordWritten _ _ _)) fun _ => answers_fault _

theorem hostCuRead_moves (row col : Nat) (s : State) : Answers (hostCuRead row col s) (Moves s) := by
  refine answers_ite (fun _ => ?_) fun _ => answers_fault _
  split
  · exact answers_fault _
  · split
    · exact answers_fault _
    · exact hostAnswer_moves _ s

theorem hostBufRead_moves (v : Option Sample) (i j : Nat) (s : State) : Answers (hostBufRead v i j s) (Moves s) := by
  refine answers_ite (fun _ => ?_) fun _ => answers_fault _
  split
  · exact hostAnswer_moves _ s
  · exact answers_next (.answered _ _)

theorem hostStep_moves (a : HostAction) (s : State) : Answers (hostStep a s) (Moves s) := by
  cases a with
  | regWrite n v => exact hostRegWrite_moves n v s
  | regRead n => exact hostAnswer_moves _ s
  | bsWrite a v => exact hostBsWrite_moves a v s
  | bsRead a => exact hostBsRead_moves a s
  | sampleWrite k c y x v =>
    exact answers_ite (fun _ => answers_refused _) fun _ =>
      hostPicWrite_moves k _ (fun _ hp => Picture.wf_writePlane hp c _ v) s
  | sampleRead k c y x => exact hostPicRead_moves _ _ _ s
  | mvWrite k row col l v => exact hostPicWrite_moves k _ (fun _ hp => Picture.wf_writeMv hp l _ v) s
  | mvRead k row col l => exact hostPicRead_moves _ _ _ s
  | refiWrite k row col l v => exact hostPicWrite_moves k _ (fun _ hp => Picture.wf_writeRefi hp l _ v) s
  | refiRead k row col l => exact hostPicRead_moves _ _ _ s
  | cuWrite row col v => exact hostCuWrite_moves row col v s
  | cuRead row col => exact hostCuRead_moves row col s
  | predRead l c i j => exact hostBufRead_moves _ i j s
  | predOutRead c i j => exact hostBufRead_moves _ i j s

/-- A step consumes at most the host's next action and moves from there. -/
theorem step_moves (h : step s = .next t) : ∃ rest, Moves { s with host := rest } t := by
  cases hhost : s.host with
  | nil =>
    rw [step_of_host_nil hhost] at h
    cases h
    exact ⟨s.host, .idle⟩
  | cons a rest =>
    rw [step_of_host_cons hhost] at h
    exact ⟨rest, hostStep_moves a _ t h⟩

/-! ### The memories -/

theorem blankPictures_wf (n : Nat) : ∀ p ∈ List.replicate n ({} : Picture), p.wf = true := by
  intro p hp
  obtain rfl := List.eq_of_mem_replicate hp
  rfl

@[simp] theorem memoriesOk_setCode (c : Code) : MemoriesOk (s.setCode c) ↔ MemoriesOk s := Iff.rfl
@[simp] theorem memoriesOk_setSticky (b : Bool) : MemoriesOk (s.setSticky b) ↔ MemoriesOk s := Iff.rfl
@[simp] theorem memoriesOk_setRes0 (v : Word) : MemoriesOk (s.setRes0 v) ↔ MemoriesOk s := Iff.rfl
@[simp] theorem memoriesOk_setRes1 (v : Word) : MemoriesOk (s.setRes1 v) ↔ MemoriesOk s := Iff.rfl
@[simp] theorem memoriesOk_setCfg (g : Cfg) : MemoriesOk (s.setCfg g) ↔ MemoriesOk s := Iff.rfl
@[simp] theorem memoriesOk_setDpb (d : Dpb) : MemoriesOk (s.setDpb d) ↔ MemoriesOk s := Iff.rfl

theorem MemoriesOk.setEnt (h : MemoriesOk s) {e : Entropy} (he : s.ent.ctx.wf = true → e.ctx.wf = true) :
    MemoriesOk (s.setEnt e) := by
  obtain ⟨hbs, hctx, hrest⟩ := h
  exact ⟨hbs, he hctx, hrest⟩

theorem MemoriesOk.setCuCod (h : MemoriesOk s) {m : Memory Bool} (hm : s.cuCod.wf = true → m.wf = true) :
    MemoriesOk (s.setCuCod m) := by
  obtain ⟨hbs, hctx, hlow, hcod, hrest⟩ := h
  exact ⟨hbs, hctx, hlow, hm hcod, hrest⟩

theorem MemoriesOk.setPics (h : MemoriesOk s) {p : List Picture}
    (hp : (∀ q ∈ s.pics, q.wf = true) → ∀ q ∈ p, q.wf = true) : MemoriesOk (s.setPics p) := by
  obtain ⟨hbs, hctx, hlow, hcod, hpred, hout, hpics⟩ := h
  exact ⟨hbs, hctx, hlow, hcod, hpred, hout, hp hpics⟩

theorem MemoriesOk.buffersWritten (h : MemoriesOk s) (ht : BuffersWritten s t) : MemoriesOk t := by
  obtain ⟨hbs, hctx, hlow, hcod, hpred, hout, hpics⟩ := h
  obtain ⟨m, m', rfl, hm, hm'⟩ := ht
  exact ⟨hbs, hctx, hlow, hcod, hm hpred, hm' hout, hpics⟩

theorem MemoriesOk.slotEdited (h : MemoriesOk s) (ht : SlotEdited k s t) : MemoriesOk t := by
  obtain ⟨p, rfl, hp⟩ := ht
  exact h.setPics hp.wf

/-- The sequence re-initialisation empties the CU map and the pictures (R234). -/
theorem MemoriesOk.reinit (h : MemoriesOk s) : MemoriesOk (reinit s) := by
  obtain ⟨hbs, hctx, -, -, hpred, hout, -⟩ := h
  exact ⟨hbs, hctx, rfl, rfl, hpred, hout, blankPictures_wf s.config.pbCap⟩

theorem Completes.memoriesOk (h : Completes s i t) (hs : MemoriesOk s) : MemoriesOk t := by
  cases h
  all_goals simp only [State.withLists, memoriesOk_setCode, memoriesOk_setSticky, memoriesOk_setRes0,
    memoriesOk_setRes1, memoriesOk_setCfg, memoriesOk_setDpb]
  case engine he => exact hs.setEnt he.ctx_wf
  case malformed he _ => exact hs.setEnt he.ctx_wf
  case predicted hu => exact hs.buffersWritten hu
  case filtered hu hm =>
    refine (hs.slotEdited hu).setCuCod ?_
    obtain ⟨p, rfl, -⟩ := hu
    exact hm
  case cleared hm => exact hs.setCuCod hm
  case reset => exact ⟨hs.1, rfl, rfl, rfl, rfl, rfl, blankPictures_wf s.config.pbCap⟩
  case packetStarted => exact hs.setEnt id
  case reinitialised => exact MemoriesOk.reinit ((memoriesOk_setCfg _).2 hs)
  case slotAllocated =>
    refine ((memoriesOk_setDpb _).2 hs).setPics fun hpics p hp => ?_
    obtain hp | rfl := List.mem_or_eq_of_mem_set hp
    · exact hpics p hp
    · rfl
  all_goals exact hs

theorem Moves.memoriesOk (h : Moves s t) (hs : MemoriesOk s) : MemoriesOk t := by
  have ⟨hbs, hctx, hlow, hcod, hpred, hout, hpics⟩ := hs
  cases h with
  | idle => exact hs
  | command h => exact h.memoriesOk hs
  | badWord => exact hs
  | operands _ _ _ _ => exact hs
  | answered _ _ => exact hs
  | byteWritten a v => exact ⟨Memory.wf_write _ _ _ hbs, hctx, hlow, hcod, hpred, hout, hpics⟩
  | pictureWritten _ hp => exact ⟨hbs, hctx, hlow, hcod, hpred, hout, hp.wf hpics⟩
  | cuWordWritten a low cod =>
    exact ⟨hbs, hctx, Memory.wf_write _ _ _ hlow, Memory.wf_write _ _ _ hcod, hpred, hout, hpics⟩

/-- Settles O56: every memory that a step writes is written by `Memory.write`, by a fill of such writes, or emptied. -/
theorem stepKeepsMemories : Obligations.StepKeepsMemories := by
  unfold Obligations.StepKeepsMemories
  intro s t hs h
  obtain ⟨rest, hmove⟩ := step_moves h
  exact hmove.memoriesOk hs

/-! ### The registers -/

/-- A legal value written to its register (R232). -/
theorem CfgOk.set (h : CfgOk s) {idx : BitVec 8} {v : Word} (hv : cfgLegal s.config idx v) :
    CfgOk (s.setCfg (s.cfg.set idx v)) := by
  have hidx : idx.toNat < 0x0A := by
    unfold cfgLegal at hv
    split at hv
    case h_11 => exact hv.elim
    all_goals omega
  intro j w hj hw
  rw [State.setCfg_cfg, cfg_get_set _ _ _ _ hidx] at hw
  split at hw
  next he => cases hw; exact he ▸ hv
  next => exact h j w hj hw

/-- CUR_SLOT is no register that CFG_WR can write (R40). -/
theorem Cfg.get_curSlot (g : Cfg) (v : Word) {idx : BitVec 8} (h : idx.toNat < 0x0A) :
    ({ g with curSlot := v } : Cfg).get idx = g.get idx := by
  unfold Cfg.get
  generalize idx.toNat = n at h
  interval_cases n
  all_goals rfl

theorem CfgOk.setCurSlot (h : CfgOk s) (v : Word) : CfgOk (s.setCfg { s.cfg with curSlot := v }) :=
  fun idx w hidx hw => h idx w hidx (Cfg.get_curSlot s.cfg v hidx ▸ hw)

/-- The reset values are legal (R265). -/
theorem cfgOk_of_reset (h : s.cfg = {}) : CfgOk s := by
  intro idx v hidx hv
  rw [h] at hv
  unfold Cfg.get at hv
  unfold cfgLegal
  generalize idx.toNat = n at hidx hv
  interval_cases n
  all_goals
    cases hv
    simp

theorem EngineMove.entropyOk {e : Entropy} (h : EngineMove s e) (hc : CfgOk s) (he : EntropyOk s) :
    EntropyOk (s.setEnt e) := by
  obtain ⟨hrange, hctx, hfits⟩ := he
  refine ⟨h.range hrange, h.ctx_legal (hc 8 _ (by decide) rfl) hctx, ?_⟩
  simpa only [State.setEnt_ent, State.setEnt_config, h.base, h.len] using hfits

theorem entropyOk_of_reset (h : s.ent = {}) : EntropyOk s := by
  unfold EntropyOk
  rw [h]
  refine ⟨by decide, fun c m hm => ?_, Nat.zero_le _⟩
  cases hm

@[simp] theorem registersOk_setCode (c : Code) : RegistersOk (s.setCode c) ↔ RegistersOk s := Iff.rfl
@[simp] theorem registersOk_setSticky (b : Bool) : RegistersOk (s.setSticky b) ↔ RegistersOk s := Iff.rfl
@[simp] theorem registersOk_setRes0 (v : Word) : RegistersOk (s.setRes0 v) ↔ RegistersOk s := Iff.rfl
@[simp] theorem registersOk_setRes1 (v : Word) : RegistersOk (s.setRes1 v) ↔ RegistersOk s := Iff.rfl
@[simp] theorem registersOk_setDpb (d : Dpb) : RegistersOk (s.setDpb d) ↔ RegistersOk s := Iff.rfl
@[simp] theorem registersOk_setCuCod (m : Memory Bool) : RegistersOk (s.setCuCod m) ↔ RegistersOk s := Iff.rfl

theorem RegistersOk.engineMove (h : RegistersOk s) {e : Entropy} (he : EngineMove s e) : RegistersOk (s.setEnt e) := by
  obtain ⟨hwf, hcfg, hent⟩ := h
  exact ⟨hwf, hcfg, he.entropyOk hcfg hent⟩

theorem RegistersOk.setCfg (h : RegistersOk s) {g : Cfg} (hg : CfgOk (s.setCfg g)) : RegistersOk (s.setCfg g) := by
  obtain ⟨hwf, -, hent⟩ := h
  exact ⟨hwf, hg, hent⟩

theorem RegistersOk.setCurSlot (h : RegistersOk s) (v : Word) : RegistersOk (s.setCfg { s.cfg with curSlot := v }) :=
  h.setCfg (CfgOk.setCurSlot h.2.1 v)

/-- A value without error is written (R232). -/
theorem RegistersOk.setChecked (h : RegistersOk s) {idx : BitVec 8} {v : Word}
    (hv : cfgWrError s.config idx v = none) : RegistersOk (s.setCfg (s.cfg.set idx v)) :=
  h.setCfg (CfgOk.set h.2.1 ((cfgWrError_eq_none_iff ..).1 hv))

theorem Completes.registersOk (h : Completes s i t) (hs : RegistersOk s) : RegistersOk t := by
  have ⟨hwf, hcfg, hent⟩ := hs
  cases h
  all_goals simp only [State.withLists, registersOk_setCode, registersOk_setSticky, registersOk_setRes0,
    registersOk_setRes1, registersOk_setDpb, registersOk_setCuCod]
  case engine he => exact hs.engineMove he
  case malformed he _ => exact hs.engineMove he
  case predicted hu => obtain ⟨m, m', rfl, -, -⟩ := hu; exact hs
  case filtered hu _ => obtain ⟨p, rfl, -⟩ := hu; exact hs
  case reset =>
    refine ⟨hwf, ?_, ?_⟩
    · exact cfgOk_of_reset rfl
    · exact entropyOk_of_reset rfl
  case packetStarted hfits =>
    obtain ⟨hrange, hctx, -⟩ := hent
    exact ⟨hwf, hcfg, hrange, hctx, hfits⟩
  case configured hv _ => exact hs.setChecked hv
  case reinitialised hv _ => exact (hs.setChecked hv).setCurSlot noSlot
  case slotReused => exact hs.setCurSlot _
  case slotAllocated k _ _ =>
    exact RegistersOk.setCurSlot (s := (s.setDpb (s.dpb.allocate k)).setPics (s.pics.set k {})) hs _
  case pictureStored => exact hs.setCurSlot _
  case pictureOutput => exact hs.setCfg (hcfg.set (idx := 7) trivial)
  all_goals exact hs

theorem Moves.registersOk (h : Moves s t) (hs : RegistersOk s) : RegistersOk t := by
  cases h with
  | idle => exact hs
  | command h => exact h.registersOk hs
  | badWord => exact hs
  | operands _ _ _ _ => exact hs
  | answered _ _ => exact hs
  | byteWritten _ _ => exact hs
  | pictureWritten _ _ => exact hs
  | cuWordWritten _ _ _ => exact hs

/-- Settles O58: a configuration register is written with a value that CFG_WR has checked or by the block itself, the
engine's registers as `EngineMove` allows, and the packet by BR_INIT, which checks it. -/
theorem stepKeepsRegisters : Obligations.StepKeepsRegisters := by
  unfold Obligations.StepKeepsRegisters
  intro s t hs h
  obtain ⟨rest, hmove⟩ := step_moves h
  exact hmove.registersOk hs

end Sys2Proof.Machine

/-! What every step keeps of the decoded picture buffer (44_dpb.md R211, 20_memory.md R78), and what each completion code
says of a command (60_exceptions.md R245 to R257). -/

namespace Sys2Proof.Machine

variable {s t : State} {i : Instr} {k : Nat}

/-! ### The invariants of the DPB -/

/-- The DPB invariants read the DPB, the number of pictures, the parameters and the current slot. -/
theorem DpbOk.congr (h : DpbOk s) (hconfig : t.config = s.config) (hdpb : t.dpb = s.dpb)
    (hpics : t.pics.length = s.pics.length) (hcur : CurSlotOk t) : DpbOk t where
  slots_length := by rw [hdpb, hconfig]; exact h.slots_length
  pics_length := by rw [hpics, hconfig]; exact h.pics_length
  pool_nodup := hdpb ▸ h.pool_nodup
  mem_pool := hdpb ▸ h.mem_pool
  refseq_nodup := hdpb ▸ h.refseq_nodup
  mem_refseq := hdpb ▸ h.mem_refseq
  not_pool := hdpb ▸ h.not_pool
  borrowed := hdpb ▸ h.borrowed
  numref_le := by rw [hdpb, hconfig]; exact h.numref_le
  current := hcur

/-- An update of any other register or memory keeps them. -/
theorem DpbOk.keep (h : DpbOk s) (hconfig : t.config = s.config) (hdpb : t.dpb = s.dpb)
    (hpics : t.pics.length = s.pics.length) (hcfg : t.cfg = s.cfg) : DpbOk t := by
  refine h.congr hconfig hdpb hpics ?_
  have := h.current
  unfold CurSlotOk at *
  rwa [hdpb, hcfg]

theorem DpbOk.setCode (h : DpbOk s) (c : Code) : DpbOk (s.setCode c) := h.keep rfl rfl rfl rfl

theorem DpbOk.setRes0 (h : DpbOk s) (v : Word) : DpbOk (s.setRes0 v) := h.keep rfl rfl rfl rfl

theorem DpbOk.setRes1 (h : DpbOk s) (v : Word) : DpbOk (s.setRes1 v) := h.keep rfl rfl rfl rfl

/-- They read only the current slot and the size of the configuration. -/
theorem DpbOk.setCfg (h : DpbOk s) {g : Cfg} (hcur : g.curSlot = s.cfg.curSlot) (hw : g.picW = s.cfg.picW)
    (hh : g.picH = s.cfg.picH) : DpbOk (s.setCfg g) := by
  refine h.congr rfl rfl rfl ?_
  have := h.current
  unfold CurSlotOk at *
  rwa [State.setCfg_cfg, State.setCfg_dpb, hcur, hw, hh]

theorem resetOf_slot (c : Config) (k : Nat) : (Dpb.resetOf c).slot k = {} := by
  simp only [Dpb.resetOf, Dpb.slot, List.getD_eq_getElem?_getD, List.getElem?_replicate]
  split <;> rfl

/-- The DPB after reset, with no picture current (R234, R265). -/
theorem dpbOk_of_reset (hdpb : t.dpb = Dpb.resetOf t.config) (hpics : t.pics = List.replicate t.config.pbCap {})
    (hcur : t.cfg.curSlot = noSlot) : DpbOk t := by
  have hslot : ∀ k, t.dpb.slot k = {} := fun k => hdpb ▸ resetOf_slot t.config k
  have hlists : ∀ l, t.dpb.list l = [] := fun l => by rw [hdpb]; cases l <;> rfl
  refine ⟨by rw [hdpb]; simp [Dpb.resetOf], by rw [hpics]; simp, by rw [hdpb]; exact List.nodup_nil, fun k => ?_,
    by rw [hdpb]; exact List.nodup_nil, fun k => ?_, fun k _ => by simp [hslot], fun l e he => ?_, fun l => ?_, .inl hcur⟩
  · rw [hslot, hdpb]; simp [Dpb.resetOf]
  · rw [hslot, hdpb]; simp [Dpb.resetOf]
  · rw [hlists] at he; cases he
  · rw [hlists]; exact Nat.zero_le _

/-- A slot number fits a register (R45). -/
theorem natWord_toNat {n : Nat} (h : n ≤ 255) : (natWord n).toNat = n := by
  rw [natWord, BitVec.toNat_ofNat]
  omega

/-- DPB_GET detaches a slot of POOL that nothing refers to (R200). -/
theorem DpbOk.detach (h : DpbOk s) (hr : RegistersOk s) (hpic : noPicture s.cfg = false)
    (hk : s.dpb.pool.find? s.dpb.reusable = some k) :
    DpbOk ((s.setDpb (s.dpb.detach k)).setCfg { s.cfg with curSlot := natWord k }) := by
  have hmem := List.mem_of_find?_eq_some hk
  obtain ⟨hnoRef, hnoOut, hnoBorrow⟩ := reusable_iff.1 (List.find?_some hk)
  have hlt := h.lt_of_mem_pool hmem
  have hslot := detach_slot hlt
  have hpool := (h.mem_pool k).1 hmem
  obtain ⟨-, -, -, -, -, -, -, hcap, -⟩ := hr.sizes
  have hk255 : k ≤ 255 := by rw [h.slots_length] at hlt; omega
  refine ⟨by simpa [Dpb.detach] using h.slots_length, h.pics_length, h.pool_nodup.filter _, fun j => ?_, h.refseq_nodup,
    fun j => ?_, fun j hj => ?_, fun l e he => ?_, h.numref_le, .inr ?_⟩
  · show j ∈ (s.dpb.detach k).pool ↔ ((s.dpb.detach k).slot j).state = .pool
    rw [detach_pool, List.mem_filter, h.mem_pool, hslot]
    by_cases hjk : j = k
    · simp [hjk]
    · simp [hjk]
  · show j ∈ s.dpb.refseq ↔ ((s.dpb.detach k).slot j).state = .pool ∧ ((s.dpb.detach k).slot j).isRef = true
    rw [h.mem_refseq, hslot]
    by_cases hjk : j = k
    · simp [hjk, hnoRef]
    · simp [hjk]
  · show ((s.dpb.detach k).slot j).isRef = false ∧ ((s.dpb.detach k).slot j).needOut = false
    have hj : ((s.dpb.detach k).slot j).state ≠ .pool := hj
    rw [hslot] at hj ⊢
    split
    · exact ⟨hnoRef, hnoOut⟩
    · next hjk => exact h.not_pool j (by rwa [if_neg hjk] at hj)
  · have he : e ∈ s.dpb.list l := by cases l <;> exact he
    show ((s.dpb.detach k).slot e.slot).state = .pool
    rw [hslot, if_neg (hnoBorrow l e he)]
    exact h.borrowed l e he
  · show ((s.dpb.detach k).slot (natWord k).toNat).state = .detached ∧ _
    rw [natWord_toNat hk255, hslot, if_pos rfl]
    exact ⟨rfl, noPicture_eq_false.1 hpic⟩

/-- DPB_GET hands out a slot that held no picture (R201). -/
theorem DpbOk.allocate (h : DpbOk s) (hr : RegistersOk s) (hpic : noPicture s.cfg = false)
    (hk : s.dpb.firstFree = some k) (p : Picture) :
    DpbOk (((s.setDpb (s.dpb.allocate k)).setPics (s.pics.set k p)).setCfg { s.cfg with curSlot := natWord k }) := by
  obtain ⟨hlt, hfree, -⟩ := firstFree_eq_some_iff.1 hk
  have hslot := allocate_slot hlt
  obtain ⟨-, -, -, -, -, -, -, hcap, -⟩ := hr.sizes
  have hk255 : k ≤ 255 := by rw [h.slots_length] at hlt; omega
  have hnot : (s.dpb.slot k).state ≠ .pool := by rw [hfree]; decide
  refine ⟨by simpa [Dpb.allocate] using h.slots_length, by simpa using h.pics_length, h.pool_nodup, fun j => ?_,
    h.refseq_nodup, fun j => ?_, fun j hj => ?_, fun l e he => ?_, h.numref_le, .inr ?_⟩
  · show j ∈ s.dpb.pool ↔ ((s.dpb.allocate k).slot j).state = .pool
    rw [h.mem_pool, hslot]
    by_cases hjk : j = k
    · simp [hjk, freshSlot, hnot]
    · simp [hjk]
  · show j ∈ s.dpb.refseq ↔ ((s.dpb.allocate k).slot j).state = .pool ∧ ((s.dpb.allocate k).slot j).isRef = true
    rw [h.mem_refseq, hslot]
    by_cases hjk : j = k
    · simp [hjk, freshSlot, hnot]
    · simp [hjk]
  · show ((s.dpb.allocate k).slot j).isRef = false ∧ ((s.dpb.allocate k).slot j).needOut = false
    have hj : ((s.dpb.allocate k).slot j).state ≠ .pool := hj
    rw [hslot] at hj ⊢
    split
    · exact ⟨rfl, rfl⟩
    · next hjk => exact h.not_pool j (by rwa [if_neg hjk] at hj)
  · have he : e ∈ s.dpb.list l := by cases l <;> exact he
    show ((s.dpb.allocate k).slot e.slot).state = .pool
    have hb := h.borrowed l e he
    rw [hslot, if_neg fun hek : e.slot = k => hnot (hek ▸ hb)]
    exact hb
  · show ((s.dpb.allocate k).slot (natWord k).toNat).state = .detached ∧ _
    rw [natWord_toNat hk255, hslot, if_pos rfl]
    exact ⟨rfl, noPicture_eq_false.1 hpic⟩

/-- The moved pictures are references, hence in POOL. -/
theorem mem_refseq_of_mem_gone {idr : Bool} {tid : BitVec 3} {gap cap j : Nat} (h : j ∈ s.gone idr tid gap cap) :
    j ∈ s.dpb.refseq := by
  unfold State.gone at h
  split_ifs at h
  · exact h
  · exact mem_refseq_of_mem_demoted h
  · cases h

theorem mem_gone_of_mem_moved {idr : Bool} {tid : BitVec 3} {gap cap j : Nat} (h : j ∈ s.moved idr tid gap cap) :
    j ∈ s.gone idr tid gap cap := by
  unfold State.moved at h
  split at h
  · cases h
  · exact h

theorem moved_nodup (hd : s.dpb.refseq.Nodup) (idr : Bool) (tid : BitVec 3) (gap cap : Nat) :
    (s.moved idr tid gap cap).Nodup := by
  unfold State.moved State.gone
  split_ifs
  · exact List.nodup_nil
  · exact demoted_nodup hd gap cap
  · exact List.nodup_nil

/-- DPB_PUT stores a detached slot; the pictures it demotes stay in POOL (R202). -/
theorem DpbOk.store (h : DpbOk s) (idr no ref : Bool) (tid : BitVec 3)
    (hstate : (s.dpb.slot s.arg0.toNat).state = .detached) (hcap : s.arg0.toNat < s.config.pbCap) :
    DpbOk ((s.setDpb (s.stored idr no ref tid)).setCfg
      { s.cfg with curSlot := if s.cfg.curSlot = s.arg0 then noSlot else s.cfg.curSlot }) := by
  have hslot := stored_slot h hcap idr no ref tid
  have heq := stored_eq h idr no ref tid
  have hlength : (s.stored idr no ref tid).slots.length = s.config.pbCap := by
    simpa [State.stored, Dpb.store, h.slots_length] using
      (mark_demotes h idr tid s.arg2.toNat s.cfg.maxNumRef.toNat).length
  have hgone : ∀ j ∈ s.gone idr tid s.arg2.toNat s.cfg.maxNumRef.toNat, j ∈ s.dpb.refseq := fun j =>
    mem_refseq_of_mem_gone
  have hmoved : ∀ j ∈ s.moved idr tid s.arg2.toNat s.cfg.maxNumRef.toNat, j ∈ s.dpb.pool := fun j hj =>
    (h.mem_pool j).2 ((h.mem_refseq j).1 (hgone j (mem_gone_of_mem_moved hj))).1
  have hmovedNodup := moved_nodup h.refseq_nodup idr tid s.arg2.toNat s.cfg.maxNumRef.toNat
  generalize s.gone idr tid s.arg2.toNat s.cfg.maxNumRef.toNat = gone at *
  generalize s.moved idr tid s.arg2.toNat s.cfg.maxNumRef.toNat = moved at *
  generalize s.stored idr no ref tid = d at *
  have hnotPool : s.arg0.toNat ∉ s.dpb.pool := by rw [h.mem_pool, hstate]; decide
  have hnotRef : s.arg0.toNat ∉ s.dpb.refseq := by rw [h.mem_refseq, hstate]; simp
  have hstateOf : ∀ j, (d.slot j).state = if j = s.arg0.toNat then .pool else (s.dpb.slot j).state := fun j => by
    rw [hslot]; split_ifs <;> rfl
  have hlists : ∀ l, d.list l = s.dpb.list l := fun l => by rw [heq]; cases l <;> rfl
  have hpool : d.pool = s.dpb.pool.filter (fun j => decide (j ∉ moved)) ++ moved ++ [s.arg0.toNat] := by rw [heq]
  have hrefseq : d.refseq = s.dpb.refseq.filter (fun j => decide (j ∉ gone)) ++ if ref then [s.arg0.toNat] else [] := by
    rw [heq]
  refine ⟨hlength, h.pics_length, ?pool_nodup, fun j => ?mem_pool, ?refseq_nodup, fun j => ?mem_refseq,
    fun j hj => ?not_pool, fun l e he => ?borrowed, fun l => ?numref_le, ?current⟩
  case pool_nodup =>
    show d.pool.Nodup
    rw [hpool, List.append_assoc]
    refine (h.pool_nodup.filter _).append (hmovedNodup.append (List.nodup_singleton _) ?_) ?_
    · exact List.disjoint_singleton.2 fun hk => hnotPool (hmoved _ hk)
    · intro j hj hj'
      obtain ⟨hjPool, hjMoved⟩ := List.mem_filter.1 hj
      obtain hj' | hj' := List.mem_append.1 hj'
      · exact of_decide_eq_true hjMoved hj'
      · exact hnotPool (List.mem_singleton.1 hj' ▸ hjPool)
  case mem_pool =>
    show j ∈ d.pool ↔ (d.slot j).state = .pool
    rw [hstateOf, hpool]
    have := h.mem_pool j
    have := hmoved j
    by_cases hjk : j = s.arg0.toNat
    · simp [hjk]
    · simp only [List.mem_append, List.mem_filter, List.mem_singleton, hjk, decide_eq_true_eq, if_false]
      tauto
  case refseq_nodup =>
    show d.refseq.Nodup
    rw [hrefseq]
    refine (h.refseq_nodup.filter _).append (by cases ref <;> simp) fun j hj hj' => ?_
    cases ref
    · cases hj'
    · exact hnotRef (List.mem_singleton.1 hj' ▸ List.mem_of_mem_filter hj)
  case mem_refseq =>
    show j ∈ d.refseq ↔ (d.slot j).state = .pool ∧ (d.slot j).isRef = true
    rw [hslot, hrefseq]
    have := h.mem_refseq j
    by_cases hjk : j = s.arg0.toNat
    · subst hjk
      cases ref <;> simp [storedSlot, hnotRef]
    · by_cases hjg : j ∈ gone
      · cases ref <;> simp [hjk, hjg]
      · cases ref <;> simp [hjk, hjg, this]
  case not_pool =>
    have hj : (d.slot j).state ≠ .pool := hj
    show (d.slot j).isRef = false ∧ (d.slot j).needOut = false
    rw [hstateOf] at hj
    split_ifs at hj with hjk
    · exact absurd rfl hj
    · have hflags := h.not_pool j hj
      rw [hslot, if_neg hjk]
      split_ifs
      · exact ⟨rfl, hflags.2⟩
      · exact hflags
  case borrowed =>
    have he : e ∈ s.dpb.list l := hlists l ▸ he
    show (d.slot e.slot).state = .pool
    rw [hstateOf, h.borrowed l e he]
    exact ite_self _
  case numref_le =>
    show (d.list l).length ≤ _
    rw [hlists]
    exact h.numref_le l
  case current =>
    have hcur := h.current
    show (if s.cfg.curSlot = s.arg0 then noSlot else s.cfg.curSlot) = noSlot ∨
      (d.slot (if s.cfg.curSlot = s.arg0 then noSlot else s.cfg.curSlot).toNat).state = .detached ∧
        s.cfg.picW ≠ 0 ∧ s.cfg.picH ≠ 0
    split_ifs with hk
    · exact .inl rfl
    · rw [hstateOf, if_neg fun hk' => hk (BitVec.eq_of_toNat_eq hk')]
      exact hcur

theorem Cfg.set_curSlot (g : Cfg) (idx : BitVec 8) (v : Word) : (g.set idx v).curSlot = g.curSlot := by
  unfold Cfg.set
  split <;> rfl

/-- Only a new size changes the size (R234). -/
theorem Cfg.set_size {g : Cfg} {idx : BitVec 8} {v : Word} (h : changesSize g idx v = false) :
    (g.set idx v).picW = g.picW ∧ (g.set idx v).picH = g.picH := by
  simp only [changesSize, Bool.or_eq_false_iff, Bool.and_eq_false_imp, beq_iff_eq, bne_eq_false_iff_eq] at h
  obtain ⟨hw, hh⟩ := h
  unfold Cfg.set
  split
  case h_1 h0 => exact ⟨hw (BitVec.eq_of_toNat_eq h0), rfl⟩
  case h_2 h1 => exact ⟨rfl, hh (BitVec.eq_of_toNat_eq h1)⟩
  all_goals exact ⟨rfl, rfl⟩

/-- Lists of references that are in REFSEQ (R204). -/
theorem DpbOk.withLists (h : DpbOk s) {l0 l1 : List Nat} (hmem : ∀ j, j ∈ l0 ∨ j ∈ l1 → j ∈ s.dpb.refseq)
    (hlen : l0.length ≤ s.config.maxRefList ∧ l1.length ≤ s.config.maxRefList) : DpbOk (s.withLists l0 l1) := by
  refine ⟨h.slots_length, h.pics_length, h.pool_nodup, h.mem_pool, h.refseq_nodup, h.mem_refseq, h.not_pool,
    fun l e he => ?_, fun l => ?_, h.current⟩
  · have hslot : ∀ j ∈ s.dpb.refseq, (s.dpb.slot j).state = .pool := fun j hj => ((h.mem_refseq j).1 hj).1
    cases l
    · obtain ⟨j, hj, rfl⟩ := List.mem_map.1 he
      exact hslot j (hmem j (.inl hj))
    · obtain ⟨j, hj, rfl⟩ := List.mem_map.1 he
      exact hslot j (hmem j (.inr hj))
  · cases l
    · exact (List.length_map _).trans_le hlen.1
    · exact (List.length_map _).trans_le hlen.2

/-- DPB_OUT takes the output mark of a slot (R208). -/
theorem DpbOk.output (h : DpbOk s) (k : Nat) :
    DpbOk (s.setDpb (s.dpb.modifySlot k fun r => { r with needOut := false })) := by
  have hslot : ∀ j, (s.dpb.modifySlot k fun r => { r with needOut := false }).slot j =
      if j = k then { s.dpb.slot k with needOut := false } else s.dpb.slot j := slot_modifySlot' _ rfl
  have hstate : ∀ j, ((s.dpb.modifySlot k fun r => { r with needOut := false }).slot j).state = (s.dpb.slot j).state :=
    fun j => by rw [hslot]; split_ifs with hj <;> [rw [hj]; rfl]
  have hisRef : ∀ j, ((s.dpb.modifySlot k fun r => { r with needOut := false }).slot j).isRef = (s.dpb.slot j).isRef :=
    fun j => by rw [hslot]; split_ifs with hj <;> [rw [hj]; rfl]
  refine ⟨by simpa [Dpb.modifySlot] using h.slots_length, h.pics_length, h.pool_nodup, fun j => ?_, h.refseq_nodup,
    fun j => ?_, fun j hj => ?_, fun l e he => ?_, h.numref_le, ?_⟩
  · exact (h.mem_pool j).trans (by rw [State.setDpb_dpb, hstate])
  · exact (h.mem_refseq j).trans (by rw [State.setDpb_dpb, hstate, hisRef])
  · rw [State.setDpb_dpb, hstate] at hj
    obtain ⟨hr, hn⟩ := h.not_pool j hj
    rw [State.setDpb_dpb, hslot]
    split_ifs with hjk
    · exact ⟨hjk ▸ hr, rfl⟩
    · exact ⟨hr, hn⟩
  · have he : e ∈ s.dpb.list l := by cases l <;> exact he
    exact (hstate e.slot).trans (h.borrowed l e he)
  · have hcur := h.current
    unfold CurSlotOk
    rw [State.setDpb_dpb, hstate]
    exact hcur

theorem Completes.dpbOk (h : Completes s i t) (hr : RegistersOk s) (hs : DpbOk s) : DpbOk t := by
  cases h with
  | rejected _ => exact hs.keep rfl rfl rfl rfl
  | answered _ _ => exact hs.keep rfl rfl rfl rfl
  | engine _ _ => exact hs.keep rfl rfl rfl rfl
  | malformed _ _ => exact hs.keep rfl rfl rfl rfl
  | predicted h =>
    obtain ⟨m, m', rfl, -, -⟩ := h
    exact hs.keep rfl rfl rfl rfl
  | filtered _ h _ =>
    obtain ⟨p, rfl, hp⟩ := h
    exact hs.keep rfl rfl hp.length rfl
  | cleared _ => exact hs.keep rfl rfl rfl rfl
  | reset => exact dpbOk_of_reset rfl rfl rfl
  | stickyCleared => exact hs.keep rfl rfl rfl rfl
  | packetStarted _ => exact hs.keep rfl rfl rfl rfl
  | configured _ hsize =>
    obtain ⟨hw, hh⟩ := Cfg.set_size hsize
    exact (hs.setCfg (Cfg.set_curSlot ..) hw hh).setCode .ok
  | reinitialised _ _ => exact dpbOk_of_reset rfl rfl rfl
  | slotReused hpic hk => exact ((hs.detach hr hpic hk).setRes0 _).setCode .ok
  | slotAllocated hpic hk => exact ((hs.allocate hr hpic hk {}).setRes0 _).setCode .ok
  | pictureStored hstate hcap => exact (hs.store _ _ _ _ hstate hcap).setCode .ok
  | listsBuilt hmem hlen _ => exact (hs.withLists hmem hlen).setCode _
  | pictureOutput k =>
    have h' := (hs.output k).setCfg (g := { s.cfg with nextOutPoc := s.cfg.nextOutPoc + s.cfg.pocInc }) rfl rfl rfl
    exact ((h'.setRes0 _).setRes1 _).setCode .ok

theorem Moves.dpbOk (h : Moves s t) (hr : RegistersOk s) (hs : DpbOk s) : DpbOk t := by
  cases h with
  | idle => exact hs
  | command h => exact h.dpbOk hr hs
  | badWord => exact hs.keep rfl rfl rfl rfl
  | operands _ _ _ _ => exact hs.keep rfl rfl rfl rfl
  | answered _ _ => exact hs.keep rfl rfl rfl rfl
  | byteWritten _ _ => exact hs.keep rfl rfl rfl rfl
  | pictureWritten _ hp => exact hs.keep rfl rfl hp.length rfl
  | cuWordWritten _ _ _ => exact hs.keep rfl rfl rfl rfl

/-- Settles O57: each command that changes the DPB keeps its invariants, and no other changes what they read. -/
theorem stepKeepsDpb : Obligations.StepKeepsDpb := by
  unfold Obligations.StepKeepsDpb
  intro s t hr hs h
  obtain ⟨rest, hmove⟩ := step_moves h
  have hs' : DpbOk { s with host := rest } := hs.keep rfl rfl rfl rfl
  exact hmove.dpbOk hr hs'

/-! ### Stored pictures (20_memory.md section 6) -/

/-- The current slot is detached (R40). -/
theorem CurSlotOk.detached (h : CurSlotOk s) (hk : s.curSlot = some k) : (s.dpb.slot k).state = .detached := by
  unfold State.curSlot at hk
  split_ifs at hk with hnone
  cases hk
  obtain h | ⟨h, -, -⟩ := h
  · exact absurd h hnone
  · exact h

theorem Completes.pics_of_stored (h : Completes s i t) (hs : DpbOk s) (hk : (s.dpb.slot k).state = .pool)
    (hk' : (t.dpb.slot k).state = .pool) : t.pics[k]? = s.pics[k]? := by
  cases h with
  | filtered hcur h _ =>
    obtain ⟨p, rfl, hp⟩ := h
    have hdetached := hs.current.detached hcur
    exact hp.other k fun he => by rw [he, hdetached] at hk; cases hk
  | predicted h => obtain ⟨m, m', rfl, -, -⟩ := h; rfl
  | reset =>
    have : (Dpb.resetOf s.config).slot k = {} := resetOf_slot s.config k
    have hk' : ((Dpb.resetOf s.config).slot k).state = .pool := hk'
    rw [this] at hk'
    cases hk'
  | reinitialised _ _ =>
    have : (Dpb.resetOf s.config).slot k = {} := resetOf_slot s.config k
    have hk' : ((Dpb.resetOf s.config).slot k).state = .pool := hk'
    rw [this] at hk'
    cases hk'
  | @slotAllocated j _ hfree =>
    obtain ⟨-, hj, -⟩ := firstFree_eq_some_iff.1 hfree
    refine List.getElem?_set_ne fun he => ?_
    rw [he, hk] at hj
    cases hj
  | _ => simp [State.withLists]

/-- Settles O13: the block writes only the current slot's picture, which is detached, and the host only detached ones; a
slot that DPB_GET allocates or that a reset empties is not in POOL on both sides. -/
theorem storedPicturesNotWritten : Obligations.StoredPicturesNotWritten := by
  unfold Obligations.StoredPicturesNotWritten
  intro s t k hs h hk hk'
  obtain ⟨rest, hmove⟩ := step_moves h
  have hs' : DpbOk { s with host := rest } := hs.keep rfl rfl rfl rfl
  cases hmove with
  | command hc => exact hc.pics_of_stored hs' hk hk'
  | @pictureWritten j _ hj hp =>
    exact hp.other k fun he => by
      have hj : (s.dpb.slot j).state = .detached := hj
      rw [← he, hk] at hj
      cases hj
  | _ => rfl

end Sys2Proof.Machine

/-! What each completion code says of a command (60_exceptions.md R245 to R257), what no command touches, and reset. -/

namespace Sys2Proof.Machine

variable {s t : State} {i : Instr} {k : Nat}

/-! ### Completion codes -/

theorem ok_mem_mayComplete (i : Instr) : .ok ∈ mayComplete i := by
  cases i <;> simp [mayComplete]

theorem MalformedIn.mem_mayComplete {e : Entropy} (h : MalformedIn s e i) : .malformedBitstream ∈ mayComplete i := by
  obtain ⟨rfl | rfl, -⟩ | ⟨rfl, -⟩ | ⟨_, _, _, rfl⟩ := h
  all_goals simp [mayComplete]

theorem MalformedIn.entropyPath {e : Entropy} (h : MalformedIn s e i) : entropyPath i = true := by
  obtain ⟨rfl | rfl, -⟩ | ⟨rfl, -⟩ | ⟨_, _, _, rfl⟩ := h
  all_goals rfl

theorem not_mem_quietCodes : .unexpectedState ∉ quietCodes ∧ .malformedBitstream ∉ quietCodes := by decide

theorem Rejects.ne_malformed {c : Code} (h : Rejects i c) : c ≠ .malformedBitstream := by
  rintro rfl
  obtain ⟨-, h | ⟨h, -⟩⟩ := h
  · exact not_mem_quietCodes.2 h
  · cases h

theorem Completes.code_mem (h : Completes s i t) : t.code ∈ mayComplete i := by
  cases h with
  | rejected h => exact h.1
  | malformed _ hi => exact hi.mem_mayComplete
  | listsBuilt _ _ hc =>
    obtain rfl | ⟨rfl, -, -⟩ := hc
    all_goals simp [mayComplete]
  | _ => exact ok_mem_mayComplete _

/-- Settles O9: `Completes` lists what a command answers; a word that decodes to no command is raised. -/
theorem completionCodes : Obligations.CompletionCodes := by
  unfold Obligations.CompletionCodes
  refine ⟨fun i s t h => (exec_completes i s t h).code_mem, fun w e s h => ?_⟩
  rw [runCommand, h]
  rfl

/-- The ways to complete with another code than OK (R249). -/
theorem Completes.of_code_ne_ok (h : Completes s i t) (ht : t.code ≠ .ok) :
    (∃ c, Rejects i c ∧ t = s.setCode c) ∨
    (∃ e, EngineMove s e ∧ MalformedIn s e i ∧ t = ((s.setEnt e).setSticky true).setCode .malformedBitstream) ∨
    (∃ m st lid, i = .dpbRefp m st lid) ∧ t = (s.withLists [] []).setCode .unexpectedState := by
  cases h with
  | rejected h => exact .inl ⟨_, h, rfl⟩
  | malformed h hi => exact .inr (.inl ⟨_, h, hi, rfl⟩)
  | listsBuilt _ _ hc =>
    obtain rfl | ⟨rfl, rfl, rfl⟩ := hc
    · exact absurd rfl ht
    · exact .inr (.inr ⟨⟨_, _, _, rfl⟩, rfl⟩)
  | _ => exact absurd rfl ht

/-- What the malformed bitstream leaves of the engine (R257). -/
theorem MalformedIn.engine {e : Entropy} (h : MalformedIn s e i) :
    (i = .brReadUe ∨ i = .brReadSe → e.range = s.ent.range ∧ e.value = s.ent.value ∧ e.ctx = s.ent.ctx) ∧
    (i = .decBinTrm → e.range.toNat + 1 = s.ent.range.toNat ∧ e.value = s.ent.value ∧ e.ctx = s.ent.ctx) := by
  obtain ⟨hi, he⟩ | ⟨rfl, he⟩ | ⟨_, _, _, rfl⟩ := h
  · refine ⟨fun _ => by rw [he]; exact ⟨rfl, rfl, rfl⟩, ?_⟩
    rintro rfl
    simp at hi
  · exact ⟨by simp, fun _ => he⟩
  · exact ⟨by simp, by simp⟩

/-- Settles O10, by the three ways to complete with another code than OK. -/
theorem effectsByCode : Obligations.EffectsByCode := by
  unfold Obligations.EffectsByCode
  intro i s t h
  have hcompletes := exec_completes i s t h
  by_cases hok : t.code = .ok
  · simp [hok]
  obtain ⟨c, ⟨hmay, hc⟩, rfl⟩ | ⟨e, he, hi, rfl⟩ | ⟨hi, rfl⟩ := hcompletes.of_code_ne_ok hok
  · have hne : c ≠ .malformedBitstream := Rejects.ne_malformed ⟨hmay, hc⟩
    refine ⟨fun _ => ⟨rfl, rfl⟩, fun _ => rfl, fun hu => ⟨?_, fun _ => ?_⟩, fun hm => absurd hm hne⟩
    · rintro ⟨m, st, lid, rfl⟩
      obtain rfl : c = .unexpectedState := hu
      obtain hc | ⟨-, hc⟩ := hc
      · exact absurd hc not_mem_quietCodes.1
      · exact absurd rfl (hc m st lid)
    · obtain rfl : c = .unexpectedState := hu
      rfl
  · refine ⟨fun _ => ⟨rfl, rfl⟩, fun hc => absurd hc not_mem_quietCodes.2, nofun,
      fun _ => ⟨rfl, he.base, he.len, he.pos, hi.engine⟩⟩
  · refine ⟨fun _ => ⟨rfl, rfl⟩, fun hc => absurd hc not_mem_quietCodes.1, fun _ => ⟨fun _ => rfl, fun hi' => ?_⟩, nofun⟩
    obtain ⟨m, st, lid, rfl⟩ := hi
    exact absurd rfl (hi' m st lid)

/-! ### STICKY (R28, R248, R257) -/

/-- A command sets STICKY with MALFORMED_BITSTREAM, which only the entropy path answers, and no command but the three
that clear it changes it otherwise. -/
theorem Completes.sticky (h : Completes s i t) :
    (t.sticky = true ∧ t.code = .malformedBitstream ∧ entropyPath i = true) ∨
    t.code ≠ .malformedBitstream ∧ (t.sticky = s.sticky ∨ i ∈ [Instr.statClr, .reset, .brInit]) := by
  cases h with
  | rejected h => exact .inr ⟨h.ne_malformed, .inl rfl⟩
  | malformed _ hi => exact .inl ⟨rfl, rfl, hi.entropyPath⟩
  | predicted h => obtain ⟨m, m', rfl, -, -⟩ := h; exact .inr ⟨nofun, .inl rfl⟩
  | filtered _ h _ => obtain ⟨p, rfl, -⟩ := h; exact .inr ⟨nofun, .inl rfl⟩
  | reset => exact .inr ⟨nofun, .inr (by simp)⟩
  | stickyCleared => exact .inr ⟨nofun, .inr (by simp)⟩
  | packetStarted _ => exact .inr ⟨nofun, .inr (by simp)⟩
  | listsBuilt _ _ hc =>
    obtain rfl | ⟨rfl, -, -⟩ := hc
    all_goals exact .inr ⟨nofun, .inl rfl⟩
  | _ => exact .inr (by simp [reinit])

/-- With legal fields a unary command runs its bins (R135). -/
theorem execDecUnary_legal {cb : BitVec 8} {nc : BitVec 4} {bypass : Bool} (h : unaryFieldsOk cb nc bypass = true)
    (s : State) : execDecUnary cb nc bypass s = unlessHalted s
      (orFault (unaryFrom (unaryBin s.bsmem cb.toNat nc.toNat bypass) unaryLimit 0 s.ent) fun (r, e) =>
        match r with
        | none => raiseMalformed e s
        | some k => finish ((s.setEnt e).setRes0 (natWord k))) := by
  have hf := mt unaryFieldsOk_eq_false.2 (by rw [h]; decide)
  exact (if_neg fun h1 => hf (.inl h1)).trans (if_neg fun h2 => hf (.inr h2))

theorem execDecTunary_legal {cb : BitVec 8} {nc : BitVec 4} {bypass : Bool} (h : unaryFieldsOk cb nc bypass = true)
    (mx : BitVec 8) (s : State) : execDecTunary cb nc bypass mx s = unlessHalted s
      (orFault (unaryFrom (unaryBin s.bsmem cb.toNat nc.toNat bypass) (mx.toNat - 1) 0 s.ent) fun (r, e) =>
        finish ((s.setEnt e).setRes0 (natWord (r.getD (mx.toNat - 1))))) := by
  have hf := mt unaryFieldsOk_eq_false.2 (by rw [h]; decide)
  exact (if_neg fun h1 => hf (.inl h1)).trans (if_neg fun h2 => hf (.inr h2))

/-- An entropy-path command with legal fields is halted by STICKY (R248). -/
theorem exec_halted (hs : s.sticky = true) (hi : entropyPath i = true) (hwf : i.wellFormed = true) :
    exec i s = raise .engineHalted s := by
  cases i with
  | brRead n =>
    simp only [Instr.wellFormed, Bool.and_eq_true, bne_iff_ne, decide_eq_true_eq] at hwf
    obtain ⟨h0, h32⟩ := hwf
    exact execBrRead_halted (Nat.pos_of_ne_zero fun h => h0 (BitVec.eq_of_toNat_eq h)) h32 hs
  | brRead1 => exact unlessHalted_halted hs
  | brReadUe => exact readCode_halted hs
  | brReadSe => exact readCode_halted hs
  | sbacInit f => exact execSbacInit_halted f hs
  | decBin c => exact unlessHalted_halted hs
  | decBinEp => exact execDecBinEp_halted hs
  | decBinTrm => exact unlessHalted_halted hs
  | decUnary cb nc ep => exact (execDecUnary_legal hwf s).trans (unlessHalted_halted hs)
  | decTunary cb nc ep mx => exact (execDecTunary_legal hwf mx s).trans (unlessHalted_halted hs)
  | _ => cases hi

/-- Settles O11. -/
theorem stickyHaltsEntropyPath : Obligations.StickyHaltsEntropyPath := by
  unfold Obligations.StickyHaltsEntropyPath
  refine ⟨fun i s t h => ⟨fun hi => ?clears, ?brInit, fun hi => ?entropy, fun hi hpath => ?other⟩,
    fun i s hs hi hwf => exec_halted hs hi hwf⟩
  case clears =>
    simp only [List.mem_cons, List.not_mem_nil, or_false] at hi
    obtain rfl | rfl := hi
    all_goals cases h; rfl
  case brInit =>
    rintro rfl
    have h : execBrInit s = .next t := h
    unfold execBrInit at h
    split at h
    all_goals cases h; rfl
  case entropy =>
    obtain ⟨hsticky, hcode, -⟩ | ⟨hcode, hsticky | hi'⟩ := (exec_completes i s t h).sticky
    · simp [hsticky, hcode]
    · simp [hsticky, hcode]
    · simp only [List.mem_cons, List.not_mem_nil, or_false] at hi'
      obtain rfl | rfl | rfl := hi'
      all_goals cases hi
  case other =>
    obtain ⟨-, -, hpath'⟩ | ⟨hcode, hsticky | hi'⟩ := (exec_completes i s t h).sticky
    · rw [hpath] at hpath'; cases hpath'
    · exact ⟨hsticky, hcode⟩
    · exact absurd hi' hi

/-! ### What commands do not touch -/

theorem Completes.kept (h : Completes s i t) :
    t.bsmem = s.bsmem ∧ t.host = s.host ∧ t.hostData = s.hostData ∧ t.config = s.config ∧
      (i ≠ .reset → t.arg0 = s.arg0 ∧ t.arg1 = s.arg1 ∧ t.arg2 = s.arg2 ∧ t.arg3 = s.arg3) := by
  cases h with
  | predicted h => obtain ⟨m, m', rfl, -, -⟩ := h; exact ⟨rfl, rfl, rfl, rfl, fun _ => ⟨rfl, rfl, rfl, rfl⟩⟩
  | filtered _ h _ => obtain ⟨p, rfl, -⟩ := h; exact ⟨rfl, rfl, rfl, rfl, fun _ => ⟨rfl, rfl, rfl, rfl⟩⟩
  | reset => exact ⟨rfl, rfl, rfl, rfl, fun h => absurd rfl h⟩
  | _ => simp [State.withLists, reinit]

theorem Moves.config (h : Moves s t) : t.config = s.config := by
  cases h with
  | command h => obtain ⟨-, -, -, hconfig, -⟩ := h.kept; exact hconfig
  | _ => rfl

/-- Settles O12. -/
theorem operandsAndParametersKept : Obligations.OperandsAndParametersKept := by
  unfold Obligations.OperandsAndParametersKept
  refine ⟨fun i s t h => ?_, fun s t h => ?_⟩
  · obtain ⟨hbs, hhost, hdata, -, hargs⟩ := (exec_completes i s t h).kept
    exact ⟨hbs, hhost, hdata, hargs⟩
  · obtain ⟨rest, hmove⟩ := step_moves h
    exact hmove.config

/-! ### Reset (R265, R266) -/

/-- Settles O59. -/
theorem resetMeetsInvariants : Obligations.ResetMeetsInvariants := by
  unfold Obligations.ResetMeetsInvariants
  exact ⟨⟨rfl, rfl, rfl, rfl, rfl, rfl, blankPictures_wf _⟩, dpbOk_of_reset rfl rfl rfl,
    chip_wf, cfgOk_of_reset rfl, entropyOk_of_reset rfl⟩

theorem sampleAt_blank {n : Nat} (hp : s.pics = List.replicate n {}) (k : Nat) (c : Comp) (y x : Nat) :
    s.sampleAt k c y x = none := by
  rw [State.sampleAt, hp, List.getElem?_replicate]
  split
  next => rfl
  next p h =>
    split_ifs at h
    cases h
    cases c <;> rfl

theorem maps_blank {n : Nat} {p : Picture} (h : (List.replicate n ({} : Picture))[k]? = some p) (l : ListIx) (a : Nat) :
    (p.mv l).read a = none ∧ (p.refi l).read a = none := by
  rw [List.getElem?_replicate] at h
  split_ifs at h
  cases h
  cases l <;> exact ⟨rfl, rfl⟩

/-- The state of which only BSMEM and the host's fields may differ from the reset state (R265). -/
def Blank (s : State) : Prop :=
  s = { State.resetOf s.config with host := s.host, hostData := s.hostData, freeCount := s.freeCount, bsmem := s.bsmem }

theorem statusWord_of_ok (hc : s.code = .ok) (hs : s.sticky = false) : s.statusWord = 0 := by
  rw [State.statusWord, hc, hs]
  decide

theorem Blank.resetValues (h : Blank s) : ResetValues s := by
  have hstatus := statusWord_of_ok (congrArg State.code h) (congrArg State.sticky h)
  rw [h] at hstatus ⊢
  refine ⟨⟨rfl, rfl, rfl, rfl⟩, ⟨rfl, rfl⟩, ⟨hstatus, rfl, rfl⟩, ⟨rfl, rfl⟩, ⟨rfl, rfl⟩, ⟨rfl, rfl⟩, ⟨rfl, rfl⟩,
    ⟨rfl, rfl, rfl⟩, ⟨rfl, rfl, rfl⟩, ⟨rfl, rfl⟩, fun k => ?_, ⟨rfl, rfl, rfl, rfl⟩⟩
  exact resetOf_slot s.config k

theorem Blank.memoriesBlank (h : Blank s) : MemoriesBlank s := by
  have hpics : s.pics = List.replicate s.config.pbCap {} := congrArg State.pics h
  refine ⟨fun c => ?_, fun a => ?_, fun a => ?_, sampleAt_blank hpics, fun k p hp => maps_blank (hpics ▸ hp)⟩
  all_goals rw [h]
  · rfl
  · exact ⟨rfl, rfl⟩
  · exact ⟨rfl, rfl⟩

/-- Settles O15: both resets leave the constructor's default values. -/
theorem resetState : Obligations.ResetState := by
  unfold Obligations.ResetState
  have hreset : Blank State.reset := rfl
  refine ⟨⟨hreset.resetValues, hreset.memoriesBlank, fun _ => rfl⟩, fun s => ?_⟩
  refine ⟨{ State.resetOf s.config with
    host := s.host, hostData := s.hostData, freeCount := s.freeCount, bsmem := s.bsmem }, rfl, ?_, ?_, rfl, rfl, rfl, rfl,
    rfl⟩
  · exact Blank.resetValues rfl
  · exact Blank.memoriesBlank rfl

/-! ### CFG_WR (R232, R234) -/

theorem execCfgWr_error {idx : BitVec 8} {c : Code} (h : cfgWrError s.config idx s.arg0 = some c) :
    execCfgWr idx s = raise c s := by
  rw [execCfgWr, h]

theorem execCfgWr_writes {idx : BitVec 8} (h : cfgWrError s.config idx s.arg0 = none) :
    execCfgWr idx s = finish (if changesSize s.cfg idx s.arg0 then reinit (s.setCfg (s.cfg.set idx s.arg0))
      else s.setCfg (s.cfg.set idx s.arg0)) := by
  rw [execCfgWr, h]

theorem changesSize_iff {g : Cfg} {idx : BitVec 8} {v : Word} :
    changesSize g idx v = true ↔ idx = 0 ∧ v ≠ g.picW ∨ idx = 1 ∧ v ≠ g.picH := by
  simp [changesSize]

/-- Only the ten writable registers hold legal values (R29). -/
theorem cfgLegal.lt {c : Config} {idx : BitVec 8} {v : Word} (h : cfgLegal c idx v) : idx.toNat < 0x0A := by
  unfold cfgLegal at h
  split at h
  case h_11 => exact h.elim
  all_goals omega

/-- CUR_SLOT is register 0x0A (R40). -/
theorem Cfg.get_setCurSlot (g : Cfg) (v : Word) (j : BitVec 8) :
    ({ g with curSlot := v } : Cfg).get j = if j = 0x0A then some v else g.get j := by
  have h10 : j = 0x0A ↔ j.toNat = 0x0A := BitVec.toNat_inj.symm
  simp only [Cfg.get, h10]
  split
  all_goals simp_all

theorem cfgWrError_size {c : Config} {idx : BitVec 8} {v : Word} :
    (idx.toNat = 2 → (v.toNat < 8 ∨ 10 < v.toNat) → cfgWrError c idx v = some .unsupported) ∧
    (idx.toNat = 3 → (v.toNat = 0 ∨ v.toNat = 2 ∨ v.toNat = 3) → cfgWrError c idx v = some .unsupported) ∧
    (idx.toNat = 3 → 3 < v.toNat → cfgWrError c idx v = some .illegalCommand) ∧
    (idx.toNat ≠ 2 → idx.toNat ≠ 3 → ¬cfgLegal c idx v → cfgWrError c idx v = some .illegalCommand) := by
  unfold cfgWrError cfgLegal
  split
  all_goals grind

/-- Settles O16. -/
theorem cfgWrWritesRegister : Obligations.CfgWrWritesRegister := by
  unfold Obligations.CfgWrWritesRegister
  refine ⟨fun idx s hlegal => ?_, fun idx s => ?_⟩
  · have hexec := execCfgWr_writes ((cfgWrError_eq_none_iff ..).2 hlegal)
    have hget := fun j => cfg_get_set s.cfg idx j s.arg0 hlegal.lt
    refine ⟨_, hexec, rfl, fun hsize => ?_, fun hsize => ?_⟩
    · rw [if_neg (mt changesSize_iff.1 hsize)]
      exact ⟨rfl, hget⟩
    · rw [if_pos (changesSize_iff.2 hsize)]
      refine ⟨rfl, fun j => ?_, fun k => resetOf_slot s.config k, rfl, rfl, rfl, rfl, fun _ => ⟨rfl, rfl⟩⟩
      have hne : idx ≠ 0x0A := fun h => absurd hlegal.lt (by rw [h]; decide)
      refine (Cfg.get_setCurSlot _ noSlot j).trans ?_
      rw [State.setCfg_cfg, hget]
      split_ifs with hj hj'
      · exact absurd (hj'.symm.trans hj) hne
      · rfl
      · rfl
      · rfl
  · obtain ⟨hdepth, hformat, hformat', hother⟩ := cfgWrError_size (c := s.config) (idx := idx) (v := s.arg0)
    exact ⟨fun h h' => execCfgWr_error (hdepth h h'), fun h h' => execCfgWr_error (hformat h h'),
      fun h h' => execCfgWr_error (hformat' h h'), fun h h' h'' => execCfgWr_error (hother h h' h'')⟩

end Sys2Proof.Machine

/-! The bit reader: the Exp-Golomb round trip (40_bitreader.md R115), and that a command depends on nothing but the
reader's registers and the packet (R116). -/

namespace Sys2Proof.Machine

variable {s u t : State}

/-! ### The Exp-Golomb round trip (R115) -/

/-- The value that `readCode_value` computes from the code of v. -/
theorem expGolomb_value (v : Nat) : 2 ^ Nat.log2 (v + 1) - 1 + (v + 1 - 2 ^ Nat.log2 (v + 1)) = v := by
  have hle := Nat.log2_self_le (n := v + 1) (by omega)
  have hpos := Nat.two_pow_pos (Nat.log2 (v + 1))
  omega

/-- The signed value is that of its code (R112). -/
theorem zigzag_code {v : Nat} {z : Int} (h : (v : Int) = if 0 < z then 2 * z - 1 else -2 * z) : zigzag v = z := by
  unfold zigzag
  split_ifs at h ⊢
  all_goals omega

theorem intWord_toInt {z : Int} (hlo : -2 ^ 31 ≤ z) (hhi : z < 2 ^ 31) : (intWord z).toInt = z := by
  rw [intWord, BitVec.toInt_ofInt]
  exact Int.bmod_eq_of_le (by simpa using hlo) (by simpa using hhi)

/-- A read of the code of v on a written packet answers its result. -/
theorem readCode_of_code {f : Nat → Word} {v : Nat} (hv : v ≤ 2 ^ 32 - 2) (hf : PacketFits s) (hw : PacketWritten s)
    (hs : s.sticky = false) (hzeros : ∀ j < Nat.log2 (v + 1), packetBit s (s.cursor + j) = false)
    (hone : packetBit s (s.cursor + Nat.log2 (v + 1)) = true)
    (hbits : packetBits s (s.cursor + Nat.log2 (v + 1) + 1) (Nat.log2 (v + 1)) = v + 1 - 2 ^ Nat.log2 (v + 1)) :
    ∃ t, readCode f s = .next t ∧ t.code = .ok ∧ t.res0 = f v := by
  have hlog : Nat.log2 (v + 1) < 32 := (Nat.log2_lt (by omega)).2 (by omega)
  have hread := readCode_value (f := f) hf hw hs hlog hzeros hone
  rw [hbits, expGolomb_value] at hread
  exact ⟨_, hread, rfl, rfl⟩

/-- Settles O22: the code of v reads as v, and v is the code of no other signed value. -/
theorem expGolombRoundTrip : Obligations.ExpGolombRoundTrip := by
  unfold Obligations.ExpGolombRoundTrip
  intro s v hv hf hw hs hzeros hone hbits
  refine ⟨?unsigned, fun z hlo hhi hz => ?signed⟩
  case unsigned =>
    obtain ⟨t, ht, hcode, hres⟩ := readCode_of_code (f := natWord) hv hf hw hs hzeros hone hbits
    refine ⟨t, (execBrReadUe_eq s).trans ht, hcode, ?_⟩
    rw [hres, natWord, BitVec.toNat_ofNat]
    omega
  case signed =>
    obtain ⟨t, ht, hcode, hres⟩ :=
      readCode_of_code (f := fun v => intWord (zigzag v)) hv hf hw hs hzeros hone hbits
    refine ⟨t, (execBrReadSe_eq s).trans ht, hcode, ?_⟩
    rw [hres, zigzag_code hz]
    exact intWord_toInt (by omega) (by omega)

/-! ### The bit reader on two memories that agree in the packet (R116) -/

/-- Two readers stand at the same bit of one packet, and the memories agree inside it. -/
structure SameReader (bs bs' : Memory Byte) (e e' : Entropy) : Prop where
  base : e.bsBase = e'.bsBase
  len : e.bsLen = e'.bsLen
  pos : e.bitPos = e'.bitPos
  packet : ∀ a, e.bsBase.toNat ≤ a → a < e.bsBase.toNat + e.bsLen.toNat → bs.read a = bs'.read a

/-- What one reader reads, the other reads too. -/
def ReadsAlike {α : Type} (bs bs' : Memory Byte) (r r' : Except Fault (α × Entropy)) : Prop :=
  ∀ a e, r = .ok (a, e) → ∃ e', r' = .ok (a, e') ∧ SameReader bs bs' e e'

variable {bs bs' : Memory Byte} {e e' : Entropy}

theorem SameReader.advance (h : SameReader bs bs' e e') : SameReader bs bs' e.advance e'.advance := by
  refine ⟨h.base, h.len, ?_, h.packet⟩
  unfold Entropy.advance
  rw [h.pos]

theorem currentBit_congr (h : SameReader bs bs' e e') : currentBit bs e = currentBit bs' e' := by
  simp only [currentBit, ← h.base, ← h.len, ← h.pos]
  by_cases hin : e.bitPos.toNat / 8 < e.bsLen.toNat
  · rw [h.packet _ (Nat.le_add_right ..) (Nat.add_lt_add_left hin _)]
  · rw [if_neg hin, if_neg hin]

theorem nextbit_alike (h : SameReader bs bs' e e') : ReadsAlike bs bs' (nextbit bs e) (nextbit bs' e') := by
  intro b f hf
  unfold nextbit at hf ⊢
  rw [currentBit_congr h] at hf
  split at hf
  next => cases hf
  next hbit =>
    cases hf
    exact ⟨_, rfl, h.advance⟩

theorem readbitsFrom_alike (n : Nat) : ∀ {v : Nat} {e e' : Entropy}, SameReader bs bs' e e' →
    ReadsAlike bs bs' (readbitsFrom bs n v e) (readbitsFrom bs' n v e') := by
  induction n with
  | zero =>
    intro v e e' h a f hf
    cases hf
    exact ⟨e', rfl, h⟩
  | succ n ih =>
    intro v e e' h a f hf
    rw [readbitsFrom] at hf ⊢
    split at hf
    next => cases hf
    next hbit =>
      obtain ⟨e₁, hbit', h₁⟩ := nextbit_alike h _ _ hbit
      rw [hbit']
      exact ih h₁ a f hf

theorem uePrefix_alike (n : Nat) : ∀ {lz : Nat} {e e' : Entropy}, SameReader bs bs' e e' →
    ReadsAlike bs bs' (uePrefix bs n lz e) (uePrefix bs' n lz e') := by
  induction n with
  | zero =>
    intro lz e e' h a f hf
    cases hf
    exact ⟨e', rfl, h⟩
  | succ n ih =>
    intro lz e e' h a f hf
    rw [uePrefix] at hf ⊢
    split at hf
    next => cases hf
    next hbit =>
      obtain ⟨e₁, hbit', h₁⟩ := nextbit_alike h _ _ hbit
      rw [hbit']
      cases hf
      exact ⟨e₁, rfl, h₁⟩
    next hbit =>
      obtain ⟨e₁, hbit', h₁⟩ := nextbit_alike h _ _ hbit
      rw [hbit']
      exact ih h₁ a f hf

theorem ue_alike (h : SameReader bs bs' e e') : ReadsAlike bs bs' (ue bs e) (ue bs' e') := by
  intro a f hf
  unfold ue at hf ⊢
  split at hf
  next => cases hf
  next hzeros =>
    obtain ⟨e₁, hzeros', h₁⟩ := uePrefix_alike _ h _ _ hzeros
    rw [hzeros']
    cases hf
    exact ⟨e₁, rfl, h₁⟩
  next hzeros =>
    obtain ⟨e₁, hzeros', h₁⟩ := uePrefix_alike _ h _ _ hzeros
    rw [hzeros']
    dsimp only
    split at hf
    next => cases hf
    next hbits =>
      obtain ⟨e₂, hbits', h₂⟩ := readbitsFrom_alike _ h₁ _ _ hbits
      rw [readbits, hbits']
      cases hf
      exact ⟨e₂, rfl, h₂⟩

/-! ### The bit-reader commands on two such states -/

/-- The same answer, as far as R116 says. -/
structure SameAnswer (t v : State) : Prop where
  code : v.code = t.code
  sticky : v.sticky = t.sticky
  base : v.ent.bsBase = t.ent.bsBase
  len : v.ent.bsLen = t.ent.bsLen
  pos : v.ent.bitPos = t.ent.bitPos
  result : t.code = .ok → v.res0 = t.res0

/-- A next state of one result has a next state of the other that answers the same. -/
def AnswersAlike (r r' : Result) : Prop := ∀ t, r = .next t → ∃ v, r' = .next v ∧ SameAnswer t v

/-- The states agree on the reader and on STICKY. -/
structure SameInput (s u : State) : Prop where
  reader : SameReader s.bsmem u.bsmem s.ent u.ent
  sticky : s.sticky = u.sticky

theorem SameInput.raise (h : SameInput s u) {c : Code} (hc : c ≠ .ok) :
    AnswersAlike (raise c s) (raise c u) := by
  rintro _ ⟨⟩
  exact ⟨_, rfl, rfl, h.sticky.symm, h.reader.base.symm, h.reader.len.symm, h.reader.pos.symm, fun hok => absurd hok hc⟩

theorem SameInput.query (h : SameInput s u) {v w : Word} (hvw : v = w) :
    AnswersAlike (finish (s.setRes0 v)) (finish (u.setRes0 w)) := by
  rintro _ ⟨⟩
  exact ⟨_, rfl, rfl, h.sticky.symm, h.reader.base.symm, h.reader.len.symm, h.reader.pos.symm, fun _ => hvw.symm⟩

/-- The answer of a read, of which the reader is left behind it. -/
theorem SameInput.read (h : SameInput s u) (he : SameReader bs bs' e e') (v : Word) :
    AnswersAlike (finish ((s.setEnt e).setRes0 v)) (finish ((u.setEnt e').setRes0 v)) := by
  rintro _ ⟨⟩
  exact ⟨_, rfl, rfl, h.sticky.symm, he.base.symm, he.len.symm, he.pos.symm, fun _ => rfl⟩

theorem SameInput.malformed (he : SameReader bs bs' e e') :
    AnswersAlike (raiseMalformed e s) (raiseMalformed e' u) := by
  rintro _ ⟨⟩
  exact ⟨_, rfl, rfl, rfl, he.base.symm, he.len.symm, he.pos.symm, nofun⟩

theorem SameInput.unlessHalted (h : SameInput s u) {r r' : Result} (hr : AnswersAlike r r') :
    AnswersAlike (unlessHalted s r) (unlessHalted u r') := by
  cases hs : s.sticky with
  | true =>
    rw [unlessHalted_halted hs, unlessHalted_halted (h.sticky ▸ hs), ← raise_eq, ← raise_eq]
    exact h.raise (by decide)
  | false => rwa [unlessHalted_running hs, unlessHalted_running (h.sticky ▸ hs)]

theorem ReadsAlike.orFault {α : Type} {r r' : Except Fault (α × Entropy)} (h : ReadsAlike bs bs' r r')
    {k k' : α × Entropy → Result} (hk : ∀ a e e', SameReader bs bs' e e' → AnswersAlike (k (a, e)) (k' (a, e'))) :
    AnswersAlike (orFault r k) (orFault r' k') := by
  intro t ht
  obtain ⟨⟨a, e⟩, hr, hk'⟩ := orFault_next.1 ht
  obtain ⟨e', hr', he⟩ := h a e hr
  rw [hr', orFault_ok]
  exact hk a e e' he t hk'

theorem execBrRead_alike (h : SameInput s u) (n : BitVec 6) : AnswersAlike (execBrRead n s) (execBrRead n u) := by
  by_cases hn : n.toNat = 0 ∨ 32 < n.toNat
  · rw [execBrRead, if_pos hn, execBrRead, if_pos hn]
    exact h.raise (by decide)
  · rw [execBrRead, if_neg hn, execBrRead, if_neg hn]
    exact h.unlessHalted <| (readbitsFrom_alike _ h.reader).orFault fun a e e' he => h.read he _

theorem readCode_alike (h : SameInput s u) (f : Nat → Word) : AnswersAlike (readCode f s) (readCode f u) := by
  refine h.unlessHalted <| (ue_alike h.reader).orFault fun a e e' he => ?_
  cases a with
  | none => exact SameInput.malformed he
  | some v => exact h.read he _

theorem execBrInit_alike (h : SameInput s u) (h0 : s.arg0 = u.arg0) (h1 : s.arg1 = u.arg1)
    (hsize : s.config.bsSize = u.config.bsSize) (ht : execBrInit s = .next t) :
    ∃ v, execBrInit u = .next v ∧ v.code = t.code ∧ v.sticky = t.sticky ∧ v.ent.bsBase = t.ent.bsBase ∧
      v.ent.bsLen = t.ent.bsLen ∧ v.ent.bitPos = t.ent.bitPos := by
  unfold execBrInit at ht ⊢
  rw [← h0, ← h1, ← hsize]
  split at ht
  next hlong =>
    obtain ⟨v, hv, hsame⟩ := h.raise (c := .illegalCommand) (by decide) t ht
    rw [if_pos hlong]
    exact ⟨v, hv, hsame.code, hsame.sticky, hsame.base, hsame.len, hsame.pos⟩
  next hfits =>
    rw [if_neg hfits]
    cases ht
    exact ⟨_, rfl, rfl, rfl, rfl, rfl, rfl⟩

theorem exec_alike {i : Instr} (h : SameInput s u)
    (hi : (∃ n, i = .brRead n) ∨ i ∈ [Instr.brRead1, .brReadUe, .brReadSe, .brAligned, .brConsumed]) :
    AnswersAlike (exec i s) (exec i u) := by
  simp only [List.mem_cons, List.not_mem_nil, or_false] at hi
  obtain ⟨n, rfl⟩ | rfl | rfl | rfl | rfl | rfl := hi
  · exact execBrRead_alike h n
  · exact h.unlessHalted <| (nextbit_alike h.reader).orFault fun a e e' he => h.read he _
  · exact readCode_alike h natWord
  · exact readCode_alike h fun v => intWord (zigzag v)
  · exact h.query (by rw [h.reader.pos])
  · exact h.query (by rw [h.reader.pos])

/-- Settles O24. -/
theorem bitReaderDependsOnPacket : Obligations.BitReaderDependsOnPacket := by
  unfold Obligations.BitReaderDependsOnPacket
  intro i s u t hi hargs hbase hlen hpos hsticky hpacket ht
  have h : SameInput s u := ⟨⟨hbase, hlen, hpos, hpacket⟩, hsticky⟩
  by_cases hinit : i = .brInit
  · subst hinit
    obtain ⟨h0, h1, hsize⟩ := hargs rfl
    obtain ⟨v, hv, hcode, hst, hb, hl, hp⟩ := execBrInit_alike h h0 h1 hsize ht
    exact ⟨v, hv, hcode, hst, hb, hl, hp, fun _ hne => absurd rfl hne⟩
  · obtain ⟨v, hv, hsame⟩ := exec_alike h (by simpa [hinit] using hi) t ht
    exact ⟨v, hv, hsame.code, hsame.sticky, hsame.base, hsame.len, hsame.pos, fun hok _ => hsame.result hok⟩

end Sys2Proof.Machine

/-! The single bins of the SBAC engine (41_sbac.md R129 to R138): what DEC_BIN and DEC_BIN_TRM decode, that a legal model
stays legal, and where RANGE ends. -/

namespace Sys2Proof.Machine

variable {s t : State} {m : CtxModel} {c : BitVec 8}

/-! ### The effects of the bins on any packet -/

theorem execDecBin_next (hs : s.sticky = false) (h : execDecBin c s = .next t) :
    ∃ b e, bin s.bsmem c.toNat s.ent = .ok (b, e) ∧ t = ((s.setEnt e).setRes0 (natWord b.toNat)).setCode .ok := by
  rw [execDecBin, unlessHalted_running hs] at h
  obtain ⟨⟨b, e⟩, hbin, hk⟩ := orFault_next.1 h
  cases hk
  exact ⟨b, e, hbin, rfl⟩

theorem execDecBinEp_next (hs : s.sticky = false) (h : execDecBinEp s = .next t) :
    ∃ b e, ep s.bsmem s.ent = .ok (b, e) ∧ t = ((s.setEnt e).setRes0 (natWord b.toNat)).setCode .ok := by
  rw [execDecBinEp, unlessHalted_running hs] at h
  obtain ⟨⟨b, e⟩, hbin, hk⟩ := orFault_next.1 h
  cases hk
  exact ⟨b, e, hbin, rfl⟩

/-- Settles O28: the adapted model is the one that `bin_cases` calls legal. -/
theorem adaptationKeepsModelsLegal : Obligations.AdaptationKeepsModelsLegal := by
  unfold Obligations.AdaptationKeepsModelsLegal
  intro bs c e e' b m hm hlegal hbin
  refine ⟨?_, fun R hR _ => lpsRange_lt m hR⟩
  obtain ⟨m₀, m', hm₀, -, he', hkeeps, -, -⟩ := bin_cases hbin
  obtain rfl : m₀ = m := Option.some.inj (hm₀.symm.trans hm)
  refine ⟨m', ?_, hkeeps hlegal⟩
  rw [he']
  exact (Memory.read_write ..).trans (if_pos rfl)

/-! ### RANGE (R137) -/

/-- Where every context-coded bin leaves RANGE. -/
def Normal (e : Entropy) : Prop := 8192 ≤ e.range.toNat ∧ e.range.toNat < 16384

theorem bin_normal {bs : Memory Byte} {c : Nat} {e e' : Entropy} {b : Bool} (he : e.range.toNat ≤ 16384)
    (h : bin bs c e = .ok (b, e')) : Normal e' := by
  obtain ⟨-, -, -, -, -, -, hlo, hhi⟩ := bin_cases h
  exact ⟨hlo, hhi he⟩

/-- A unary symbol of context bins decodes at least one. -/
theorem unaryFrom_normal {bs : Memory Byte} {cb nc n k : Nat} {e e' : Entropy} {r : Option Nat} (hn : 1 ≤ n)
    (he : e.range.toNat ≤ 16384) (h : unaryFrom (unaryBin bs cb nc false) n k e = .ok (r, e')) : Normal e' := by
  obtain ⟨n, rfl⟩ : ∃ l, n = l + 1 := ⟨n - 1, by omega⟩
  rw [unaryFrom] at h
  split at h
  next => cases h
  next hbin => cases h; exact bin_normal he hbin
  next hbin =>
    exact unaryFrom_inv Normal (fun _ _ _ _ hp hb => bin_normal hp.2.le hb) n (bin_normal he hbin) h

theorem execDecBinTrm_running (hs : s.sticky = false) (hr : s.ent.range.toNat ≠ 0) : execDecBinTrm s =
    (if s.ent.range.toNat - 1 ≤ s.ent.value.toNat then
      orFault (alignBits s.bsmem (bitsToAlign s.ent) false (s.ent.setRv (s.ent.range.toNat - 1) s.ent.value.toNat))
        fun r => if r.1 then raiseMalformed r.2 s else finish ((s.setEnt r.2).setRes0 1)
    else orFault (renorm s.bsmem (s.ent.setRv (s.ent.range.toNat - 1) s.ent.value.toNat))
      fun e => finish ((s.setEnt e).setRes0 0)) := by
  rw [execDecBinTrm, unlessHalted_running hs, if_neg hr]
  rfl

theorem execDecBinTrm_zero (hs : s.sticky = false) (hr : s.ent.range.toNat = 0) :
    execDecBinTrm s = .fault .rangeTooSmall := by
  rw [execDecBinTrm, unlessHalted_running hs, if_pos hr]

/-- The range that DEC_BIN_TRM compares with, as the register holds it (R134). -/
theorem lowered_range (s : State) (v : Nat) :
    (s.ent.setRv (s.ent.range.toNat - 1) v).range.toNat = s.ent.range.toNat - 1 := by
  have := s.ent.range.isLt
  rw [setRv_range, BitVec.toNat_ofNat]
  omega

theorem kept_value (e : Entropy) (r : Nat) : (e.setRv r e.value.toNat).value = e.value := by
  rw [setRv_value, BitVec.ofNat_toNat, BitVec.setWidth_eq]

/-- A terminating bin 0 renormalises from a RANGE of at least 1. -/
theorem execDecBinTrm_normal (hs : s.sticky = false) (hR : s.ent.range.toNat ≤ 16384) (h : execDecBinTrm s = .next t)
    (hcode : t.code = .ok) (hres : t.res0 = 0) : Normal t.ent := by
  by_cases hr : s.ent.range.toNat = 0
  · rw [execDecBinTrm_zero hs hr] at h
    cases h
  rw [execDecBinTrm_running hs hr] at h
  split at h
  case isTrue =>
    obtain ⟨⟨bad, e⟩, -, hk⟩ := orFault_next.1 h
    split at hk
    · cases hk; cases hcode
    · cases hk; cases hres
  case isFalse hv =>
    obtain ⟨e, hrenorm, hk⟩ := orFault_next.1 h
    cases hk
    obtain ⟨-, hlo, hhi, -⟩ := renormUpTo_frame 13 hrenorm
    rw [lowered_range] at hlo hhi
    exact ⟨hlo (by unfold rangeBound; omega), hhi (by omega)⟩

/-- Settles O29: a context bin renormalises, so does each bin of a unary symbol, a bypass bin drops the low bit of RANGE
and a terminating bin 0 renormalises. -/
theorem rangeAfterBins : Obligations.RangeAfterBins := by
  unfold Obligations.RangeAfterBins
  intro s t hs hR
  refine ⟨fun c h => ?bin, fun cb nc hwf h => ?unary, fun cb nc mx hwf hmx h => ?tunary, fun hR' h => ?bypass,
    fun h hcode hres => ?terminating⟩
  case bin =>
    obtain ⟨b, e, hbin, rfl⟩ := execDecBin_next hs h
    exact bin_normal hR hbin
  case unary =>
    have h : execDecUnary cb nc false s = .next t := h
    rw [execDecUnary_legal hwf, unlessHalted_running hs] at h
    obtain ⟨⟨r, e⟩, hrun, hk⟩ := orFault_next.1 h
    have hnormal := unaryFrom_normal (by decide) hR hrun
    cases r with
    | none => cases hk; exact hnormal
    | some k => cases hk; exact hnormal
  case tunary =>
    have h : execDecTunary cb nc false mx s = .next t := h
    rw [execDecTunary_legal hwf, unlessHalted_running hs] at h
    obtain ⟨⟨r, e⟩, hrun, hk⟩ := orFault_next.1 h
    cases hk
    exact unaryFrom_normal (by omega) hR hrun
  case bypass =>
    obtain ⟨b, e, hbin, rfl⟩ := execDecBinEp_next hs h
    obtain ⟨-, hrange⟩ := ep_cases hbin
    show 8192 ≤ e.range.toNat ∧ e.range.toNat ≤ 16384
    omega
  case terminating =>
    obtain ⟨hlo, hhi⟩ := execDecBinTrm_normal hs hR h hcode hres
    exact ⟨hlo, Nat.le_of_lt_succ hhi⟩

/-! ### The termination bin (R134, R138) -/

theorem lowered_atCursor (s : State) : AtCursor s 0 (s.ent.setRv (s.ent.range.toNat - 1) s.ent.value.toNat) :=
  ⟨rfl, rfl, (cursorAfter_zero s).symm⟩

/-- The engine that has consumed n bits with the lowered RANGE. -/
theorem lowered_moved (s : State) (n : Nat) :
    { s.ent.setRv (s.ent.range.toNat - 1) s.ent.value.toNat with bitPos := cursorAfter s n } =
      { s.ent with range := BitVec.ofNat 15 (s.ent.range.toNat - 1), bitPos := cursorAfter s n } := by
  simp [Entropy.setRv]

/-- Settles O31. -/
theorem decBinTrmDecodes : Obligations.DecBinTrmDecodes := by
  unfold Obligations.DecBinTrmDecodes
  intro s hs
  refine ⟨fun hr => execDecBinTrm_zero hs hr, fun hf hw hr _ => ?_⟩
  have hexec : exec .decBinTrm s = _ := execDecBinTrm_running hs (by omega)
  have hcur : bitsToAlign s.ent = (8 - s.cursor % 8) % 8 := rfl
  have halign := alignBits_ok hf hw ((8 - s.cursor % 8) % 8) (bad := false) (lowered_atCursor s)
  rw [Nat.zero_add, Nat.add_zero, lowered_moved] at halign
  refine ⟨fun hv hzeros => ?zeros, fun hv hones => ?ones, fun hv => ?renormalised⟩
  case zeros =>
    have hno : decide (∃ j < (8 - s.cursor % 8) % 8, packetBit s (s.cursor + j) = true) = false := by
      rw [decide_eq_false_iff_not]
      rintro ⟨j, hj, hbit⟩
      rw [hzeros j hj] at hbit
      cases hbit
    rw [hexec, if_pos hv, hcur, halign, hno]
    rfl
  case ones =>
    rw [hexec, if_pos hv, hcur, halign, decide_eq_true hones]
    rfl
  case renormalised =>
    obtain ⟨k, hrenorm, hlo, hhi⟩ := renorm_ok hf hw (lowered_atCursor s) (by rw [lowered_range]; omega)
    rw [lowered_range] at hlo hhi hrenorm
    refine ⟨k, hlo, hhi, ?_⟩
    rw [hexec, if_neg (by omega), hrenorm, kept_value]
    simp only [doubled, Nat.zero_add, Nat.add_zero]
    rfl

/-! ### The context-coded bin (R129, R131, R132) -/

theorem execDecBin_unwritten (hs : s.sticky = false) (hm : s.ent.ctx.read c.toNat = none) :
    execDecBin c s = .fault (.unwrittenContext c.toNat) := by
  rw [execDecBin, unlessHalted_running hs, bin, hm]
  rfl

theorem bin_of_small_range {bs : Memory Byte} {c : Nat} {e : Entropy} (hm : e.ctx.read c = some m)
    (hr : e.range.toNat ≤ 437) : bin bs c e = .error .rangeTooSmall := by
  rw [bin, hm]
  exact if_pos hr

theorem execDecBin_small_range (hs : s.sticky = false) (hm : s.ent.ctx.read c.toNat = some m)
    (hr : s.ent.range.toNat ≤ 437) : execDecBin c s = .fault .rangeTooSmall := by
  rw [execDecBin, unlessHalted_running hs, bin_of_small_range hm hr]
  rfl

theorem mkCtx_eq {st : Nat} (h : st < 512) (mps : Bool) : mkCtx st mps = BitVec.ofNat 10 (2 * st + mps.toNat) := by
  refine BitVec.eq_of_toNat_eq ?_
  have := mps.toNat_le
  rw [mkCtx_toNat mps h, BitVec.toNat_ofNat]
  omega

theorem adaptMps_eq (m : CtxModel) : adaptMps (ctxState m) (ctxMps m) =
    BitVec.ofNat 10 (2 * (m.toNat / 2 - (m.toNat / 2 + 16) / 32) + (m.getLsbD 0).toNat) := by
  have := m.isLt
  rw [adaptMps, ctxState_eq, ctxMps]
  exact mkCtx_eq (by omega) _

theorem adaptLps_eq (m : CtxModel) : adaptLps (ctxState m) (ctxMps m) =
    let up := m.toNat / 2 + (528 - m.toNat / 2) / 32
    BitVec.ofNat 10 (2 * (if 256 < up then 512 - up else up) +
      (if 256 < up then !m.getLsbD 0 else m.getLsbD 0).toNat) := by
  have := m.isLt
  have hup : 512 - m.toNat / 2 + 16 = 528 - m.toNat / 2 := by omega
  rw [adaptLps, ctxState_eq, ctxMps, hup]
  dsimp only
  split_ifs
  · exact mkCtx_eq (by omega) _
  · exact mkCtx_eq (by omega) _

theorem lpsRange_eq (m : CtxModel) (R : Nat) : lpsRange (ctxState m) R = max 437 (m.toNat / 2 * R / 512) := by
  rw [lpsRange, ctxState_eq]
  rfl

/-- A renormalised RANGE fits its register. -/
theorem doubled_range {e : Entropy} {n R V k : Nat} (hR : R < 2 ^ 15) (h : k = 0 ∨ R * 2 ^ k < 16384) :
    (doubled s e n R V k).range.toNat = R * 2 ^ k := by
  have hlt : R * 2 ^ k < 2 ^ 15 := by
    obtain rfl | h := h
    · simpa using hR
    · omega
  exact (BitVec.toNat_ofNat ..).trans (Nat.mod_eq_of_lt hlt)

/-- What `DecBinDecodes` says of the answer t, for one branch of the bin: k doublings of RANGE R' and VALUE V', and the
new model. -/
theorem decBin_doubled {k R' V' : Nat} {m' : CtxModel} {b : Bool} (hR : R' < 2 ^ 15)
    (hk : k = 0 ∨ R' * 2 ^ k < 16384)
    (hbin : bin s.bsmem c.toNat s.ent =
      .ok (b, doubled s { s.ent with ctx := s.ent.ctx.write c.toNat m' } 0 R' V' k)) (hs : s.sticky = false) :
    ∃ t, exec (.decBin c) s = .next t ∧ t.res0 = natWord b.toNat ∧ t = { s with code := .ok, res0 := t.res0, ent := t.ent } ∧
      t.ent.bsBase = s.ent.bsBase ∧ t.ent.bsLen = s.ent.bsLen ∧ t.ent.bitPos = cursorAfter s k ∧
      t.ent.range.toNat = R' * 2 ^ k ∧ t.ent.value.toNat = (V' * 2 ^ k + packetBits s s.cursor k) % 2 ^ 16 ∧
      ∀ a, t.ent.ctx.read a = if a = c.toNat then some m' else s.ent.ctx.read a := by
  have hexec : execDecBin c s = finish ((s.setEnt
      (doubled s { s.ent with ctx := s.ent.ctx.write c.toNat m' } 0 R' V' k)).setRes0 (natWord b.toNat)) := by
    rw [execDecBin, unlessHalted_running hs, hbin]
    rfl
  refine ⟨_, hexec, rfl, rfl, rfl, rfl, ?_, doubled_range hR hk, BitVec.toNat_ofNat .., fun a => Memory.read_write ..⟩
  exact congrArg (cursorAfter s) (Nat.zero_add k)

/-- Settles O27: the two branches of `bin_ok`. -/
theorem decBinDecodes : Obligations.DecBinDecodes := by
  unfold Obligations.DecBinDecodes
  refine ⟨fun c s hs => ⟨execDecBin_unwritten hs, fun m hm hr => execDecBin_small_range hs hm hr⟩, ?_⟩
  intro c s m hf hw hs hm hr
  have hlt := lpsRange_lt m hr
  obtain ⟨hmps, hlps⟩ := bin_ok hf hw (atCursor_zero s) hm hr
  have hR := s.ent.range.isLt
  rw [lpsRange_eq] at hlt hmps hlps
  dsimp only
  generalize hL : max 437 (m.toNat / 2 * s.ent.range.toNat / 512) = L at *
  by_cases hv : s.ent.value.toNat < s.ent.range.toNat - L
  case pos =>
    obtain ⟨k, hbin, hlo, hhi⟩ := hmps (by omega)
    rw [adaptMps_eq] at hbin
    obtain ⟨t, ht, hres, hstate, hbase, hlen, hpos, hrange, hvalue, hctx⟩ := decBin_doubled (by omega) hhi hbin hs
    refine ⟨t, k, _, _, _, _, ht, fun _ => ⟨rfl, rfl, rfl, rfl, ?_⟩, fun hv' => absurd hv' (by omega), hlo, hhi, hstate,
      hbase, hlen, hpos, hrange, hvalue, hctx⟩
    rw [hres, ctxMps]
    cases m.getLsbD 0 <;> rfl
  case neg =>
    obtain ⟨k, hbin, hlo, hhi⟩ := hlps (by omega)
    rw [adaptLps_eq] at hbin
    obtain ⟨t, ht, hres, hstate, hbase, hlen, hpos, hrange, hvalue, hctx⟩ := decBin_doubled (by omega) hhi hbin hs
    refine ⟨t, k, _, _, _, _, ht, fun hv' => absurd hv' hv, fun _ => ⟨rfl, rfl, rfl, rfl, ?_⟩, hlo, hhi, hstate,
      hbase, hlen, hpos, hrange, hvalue, hctx⟩
    rw [hres, ctxMps]
    cases m.getLsbD 0 <;> rfl

end Sys2Proof.Machine

/-! The unary symbols of the SBAC engine (41_sbac.md R135, R136): they run the bins of the single-bin commands, and on a
written packet with written contexts they answer. -/

namespace Sys2Proof.Machine

variable {s t u : State} {cb : BitVec 8} {nc : BitVec 4} {bypass : Bool} {k n : Nat}

/-- The fields that a unary command admits (R135). -/
def UnaryFields (cb : BitVec 8) (nc : BitVec 4) (bypass : Bool) : Prop :=
  if bypass then cb = 0 ∧ nc = 0 else nc ≠ 0 ∧ cb.toNat + nc.toNat ≤ 256

theorem unaryFieldsOk_of_fields (h : UnaryFields cb nc bypass) : unaryFieldsOk cb nc bypass = true := by
  unfold UnaryFields at h
  cases bypass with
  | true =>
    obtain ⟨rfl, rfl⟩ := h
    rfl
  | false =>
    obtain ⟨hnc, hsum⟩ : nc ≠ 0 ∧ cb.toNat + nc.toNat ≤ 256 := h
    have hpos : nc.toNat ≠ 0 := fun h => hnc (BitVec.eq_of_toNat_eq h)
    have hlt : cb.toNat + nc.toNat - 1 < numCtx := by unfold numCtx; omega
    simpa [unaryFieldsOk, hlt] using hnc

/-- The context of bin k is one of CB to CB + NC - 1 (R135). -/
theorem UnaryFields.context (h : UnaryFields cb nc false) (k : Nat) :
    cb.toNat ≤ cb.toNat + min k (nc.toNat - 1) ∧ cb.toNat + min k (nc.toNat - 1) < cb.toNat + nc.toNat ∧
      cb.toNat + nc.toNat ≤ 256 := by
  obtain ⟨hnc, hsum⟩ : nc ≠ 0 ∧ cb.toNat + nc.toNat ≤ 256 := h
  have hpos : nc.toNat ≠ 0 := fun h => hnc (BitVec.eq_of_toNat_eq h)
  omega

/-! ### A bin of the symbol is a single-bin command (R135) -/

theorem exec_binCommand (h : UnaryFields cb nc bypass) (k : Nat) (s : State) : exec (binCommand cb nc bypass k) s =
    unlessHalted s (orFault (unaryBin s.bsmem cb.toNat nc.toNat bypass k s.ent)
      fun r => finish ((s.setEnt r.2).setRes0 (natWord r.1.toNat))) := by
  cases bypass with
  | true => rfl
  | false =>
    obtain ⟨-, hlt, hle⟩ := h.context k
    have hc : (BitVec.ofNat 8 (cb.toNat + min k (nc.toNat - 1))).toNat = cb.toNat + min k (nc.toNat - 1) := by
      rw [BitVec.toNat_ofNat]
      omega
    have hexec : exec (binCommand cb nc false k) s = execDecBin (BitVec.ofNat 8 (cb.toNat + min k (nc.toNat - 1))) s :=
      rfl
    rw [hexec, execDecBin, hc]
    rfl

/-- The bin command answers as the bin does. -/
theorem binCommand_next (h : UnaryFields cb nc bypass) (hs : s.sticky = false)
    (ht : exec (binCommand cb nc bypass k) s = .next t) :
    ∃ b e, unaryBin s.bsmem cb.toNat nc.toNat bypass k s.ent = .ok (b, e) ∧
      t = ((s.setEnt e).setRes0 (natWord b.toNat)).setCode .ok := by
  rw [exec_binCommand h, unlessHalted_running hs] at ht
  obtain ⟨⟨b, e⟩, hbin, hk⟩ := orFault_next.1 ht
  cases hk
  exact ⟨b, e, hbin, rfl⟩

theorem binCommand_fault (h : UnaryFields cb nc bypass) (hs : s.sticky = false) {f : Fault}
    (ht : exec (binCommand cb nc bypass k) s = .fault f) :
    unaryBin s.bsmem cb.toNat nc.toNat bypass k s.ent = .error f := by
  rw [exec_binCommand h, unlessHalted_running hs] at ht
  cases hbin : unaryBin s.bsmem cb.toNat nc.toNat bypass k s.ent with
  | error x => rw [hbin] at ht; cases ht; rfl
  | ok r => rw [hbin] at ht; cases ht

/-- The word of a bin tells the bin. -/
theorem natWord_bool (b : Bool) : natWord b.toNat = if b then 1 else 0 := by cases b <;> rfl

/-- From s to u only the engine's registers, the code and RES0 change. -/
def EngineRan (s u : State) : Prop := u = { s with code := u.code, res0 := u.res0, ent := u.ent }

/-- A run of 1 bins by single-bin commands is one of the engine. -/
theorem OnesRun.engine (h : UnaryFields cb nc bypass) : ∀ {n k : Nat} {s u : State}, s.sticky = false →
    OnesRun cb nc bypass n k s u →
    EngineOnes (unaryBin s.bsmem cb.toNat nc.toNat bypass) n k s.ent u.ent ∧ EngineRan s u ∧ (1 ≤ n → u.code = .ok)
  | 0, k, s, u, _, hrun => by
    obtain rfl : u = s := hrun
    exact ⟨rfl, rfl, nofun⟩
  | n + 1, k, s, u, hs, hrun => by
    obtain ⟨v, hv, hone, hrest⟩ := hrun
    obtain ⟨b, e, hbin, rfl⟩ := binCommand_next h hs hv
    have hb : b = true := by
      rw [State.setCode_res0, State.setRes0_res0, natWord_bool] at hone
      by_contra hb
      rw [if_neg hb] at hone
      cases hone
    subst hb
    obtain ⟨hones, hran, hcode⟩ := OnesRun.engine h (s := ((s.setEnt e).setRes0 _).setCode .ok) hs hrest
    refine ⟨⟨e, hbin, hones⟩, hran, fun _ => ?_⟩
    cases n with
    | zero =>
      obtain rfl : u = _ := hrest
      rfl
    | succ n => exact hcode (by omega)

theorem EngineRan.sticky (h : EngineRan s u) : u.sticky = s.sticky := by rw [h]

theorem EngineRan.bsmem (h : EngineRan s u) : u.bsmem = s.bsmem := by rw [h]

/-- A run of 1 bins and the bin after it, by what the bin's command answers. -/
theorem unary_of_run (h : UnaryFields cb nc bypass) (hs : s.sticky = false) (hrun : OnesRun cb nc bypass k 0 s u)
    (lim : Nat) :
    (∀ t, k < lim → exec (binCommand cb nc bypass k) u = .next t → t.res0 = 0 →
      unaryFrom (unaryBin s.bsmem cb.toNat nc.toNat bypass) lim 0 s.ent = .ok (some k, t.ent) ∧ EngineRan s t ∧
        t.code = .ok) ∧
    unaryFrom (unaryBin s.bsmem cb.toNat nc.toNat bypass) k 0 s.ent = .ok (none, u.ent) ∧
    ∀ f, k < lim → exec (binCommand cb nc bypass k) u = .fault f →
      unaryFrom (unaryBin s.bsmem cb.toNat nc.toNat bypass) lim 0 s.ent = .error f := by
  obtain ⟨hones, hran, -⟩ := hrun.engine h hs
  have hsu : u.sticky = false := hran.sticky.trans hs
  obtain ⟨hzero, hlimit, hfault⟩ := unaryFrom_run k (lim := lim) hones
  rw [Nat.zero_add] at hzero hfault
  refine ⟨fun t hk ht hres => ?_, hlimit, fun f hk ht => ?_⟩
  · obtain ⟨b, e, hbin, rfl⟩ := binCommand_next h hsu ht
    rw [State.setCode_res0, State.setRes0_res0, natWord_bool] at hres
    obtain rfl : b = false := by
      by_contra hb
      rw [if_pos (by simpa using hb)] at hres
      cases hres
    rw [hran.bsmem] at hbin
    refine ⟨hzero e hk hbin, ?_, rfl⟩
    unfold EngineRan
    rw [hran]
    rfl
  · have hbin := binCommand_fault h hsu ht
    rw [hran.bsmem] at hbin
    exact hfault f hk hbin

/-! ### What the unary commands answer of their bins -/

theorem execDecUnary_of_zero (h : UnaryFields cb nc bypass) (hs : s.sticky = false) {e : Entropy}
    (hrun : unaryFrom (unaryBin s.bsmem cb.toNat nc.toNat bypass) unaryLimit 0 s.ent = .ok (some k, e)) :
    execDecUnary cb nc bypass s = finish ((s.setEnt e).setRes0 (natWord k)) := by
  rw [execDecUnary_legal (unaryFieldsOk_of_fields h), unlessHalted_running hs, hrun]
  rfl

theorem execDecUnary_of_limit (h : UnaryFields cb nc bypass) (hs : s.sticky = false) {e : Entropy}
    (hrun : unaryFrom (unaryBin s.bsmem cb.toNat nc.toNat bypass) unaryLimit 0 s.ent = .ok (none, e)) :
    execDecUnary cb nc bypass s = raiseMalformed e s := by
  rw [execDecUnary_legal (unaryFieldsOk_of_fields h), unlessHalted_running hs, hrun]
  rfl

theorem execDecUnary_of_fault (h : UnaryFields cb nc bypass) (hs : s.sticky = false) {f : Fault}
    (hrun : unaryFrom (unaryBin s.bsmem cb.toNat nc.toNat bypass) unaryLimit 0 s.ent = .error f) :
    execDecUnary cb nc bypass s = .fault f := by
  rw [execDecUnary_legal (unaryFieldsOk_of_fields h), unlessHalted_running hs, hrun]
  rfl

theorem execDecTunary_of_ok (h : UnaryFields cb nc bypass) (hs : s.sticky = false) {mx : BitVec 8} {r : Option Nat}
    {e : Entropy}
    (hrun : unaryFrom (unaryBin s.bsmem cb.toNat nc.toNat bypass) (mx.toNat - 1) 0 s.ent = .ok (r, e)) :
    execDecTunary cb nc bypass mx s = finish ((s.setEnt e).setRes0 (natWord (r.getD (mx.toNat - 1)))) := by
  rw [execDecTunary_legal (unaryFieldsOk_of_fields h), unlessHalted_running hs, hrun]
  rfl

theorem execDecTunary_of_fault (h : UnaryFields cb nc bypass) (hs : s.sticky = false) {mx : BitVec 8} {f : Fault}
    (hrun : unaryFrom (unaryBin s.bsmem cb.toNat nc.toNat bypass) (mx.toNat - 1) 0 s.ent = .error f) :
    execDecTunary cb nc bypass mx s = .fault f := by
  rw [execDecTunary_legal (unaryFieldsOk_of_fields h), unlessHalted_running hs, hrun]
  rfl

/-- Settles O32. -/
theorem decUnaryRunsBins : Obligations.DecUnaryRunsBins := by
  unfold Obligations.DecUnaryRunsBins
  intro cb nc bypass s hs h
  refine ⟨fun k u t hk hrun ht hres => ?zero, fun u hrun => ?limit, fun k u f hk hrun ht => ?fault⟩
  case zero =>
    obtain ⟨hfrom, hran, hcode⟩ := (unary_of_run h hs hrun unaryLimit).1 t hk ht hres
    refine (execDecUnary_of_zero h hs hfrom).trans ?_
    rw [hran, hcode]
    rfl
  case limit =>
    obtain ⟨-, hran, -⟩ := hrun.engine h hs
    obtain ⟨-, hfrom, -⟩ := unary_of_run h hs hrun unaryLimit
    refine (execDecUnary_of_limit h hs hfrom).trans ?_
    rw [hran]
    rfl
  case fault =>
    obtain ⟨-, -, hfault⟩ := unary_of_run h hs hrun unaryLimit
    exact execDecUnary_of_fault h hs (hfault f hk ht)

/-- Settles O33. -/
theorem decTunaryRunsBins : Obligations.DecTunaryRunsBins := by
  unfold Obligations.DecTunaryRunsBins
  intro cb nc bypass mx s hs h
  refine ⟨fun hmx => ?none, fun k u t hk hrun ht hres => ?zero, fun u hmx hrun => ?limit, fun k u f hk hrun ht => ?fault⟩
  case none =>
    have hzero : mx.toNat - 1 = 0 := by omega
    refine (execDecTunary_of_ok h hs (r := Option.none) (e := s.ent) (by rw [hzero]; rfl)).trans ?_
    rw [hzero]
    rfl
  case zero =>
    obtain ⟨hfrom, hran, hcode⟩ := (unary_of_run h hs hrun (mx.toNat - 1)).1 t hk ht hres
    refine (execDecTunary_of_ok h hs hfrom).trans ?_
    rw [hran, hcode]
    rfl
  case limit =>
    obtain ⟨-, hran, hcode⟩ := hrun.engine h hs
    obtain ⟨-, hfrom, -⟩ := unary_of_run h hs hrun (mx.toNat - 1)
    refine (execDecTunary_of_ok h hs hfrom).trans ?_
    rw [hran, hcode (by omega)]
    rfl
  case fault =>
    obtain ⟨-, -, hfault⟩ := unary_of_run h hs hrun (mx.toNat - 1)
    exact execDecTunary_of_fault h hs (hfault f hk ht)

/-! ### On a written packet the unary commands answer (R135 to R137) -/

/-- A context bin on a written packet answers, behind the bits it read. -/
theorem bin_total (hf : PacketFits s) (hw : PacketWritten s) {n c : Nat} {e : Entropy} {m : CtxModel}
    (h : AtCursor s n e) (hm : e.ctx.read c = some m) (hr : 437 < e.range.toNat) :
    ∃ b e' n', bin s.bsmem c e = .ok (b, e') ∧ AtCursor s n' e' := by
  obtain ⟨hmps, hlps⟩ := bin_ok hf hw h hm hr
  have hdoubled : ∀ (m' : CtxModel) (R V k : Nat),
      AtCursor s (n + k) (doubled s { e with ctx := e.ctx.write c m' } n R V k) := fun _ _ _ _ => ⟨h.base, h.len, rfl⟩
  obtain hv | hv := Nat.lt_or_ge (lpsRange (ctxState m) e.range.toNat + e.value.toNat) e.range.toNat
  · obtain ⟨k, hbin, -⟩ := hmps hv
    exact ⟨_, _, _, hbin, hdoubled ..⟩
  · obtain ⟨k, hbin, -⟩ := hlps hv
    exact ⟨_, _, _, hbin, hdoubled ..⟩

/-- What every bin of a unary symbol keeps: the packet, contexts that it can use, and all other contexts. -/
structure UnaryInv (s : State) (cb : BitVec 8) (nc : BitVec 4) (bypass : Bool) (e : Entropy) : Prop where
  cursor : ∃ n, AtCursor s n e
  range : bypass = false → 437 < e.range.toNat
  written : bypass = false → ∀ c, cb.toNat ≤ c → c < cb.toNat + nc.toNat → (e.ctx.read c).isSome = true
  kept : ∀ c, bypass = true ∨ c < cb.toNat ∨ cb.toNat + nc.toNat ≤ c → e.ctx.read c = s.ent.ctx.read c

theorem UnaryReady.inv (h : UnaryReady s cb nc bypass) : UnaryInv s cb nc bypass s.ent :=
  ⟨⟨0, atCursor_zero s⟩, fun hb => (h hb).1, fun hb => (h hb).2, fun _ _ => rfl⟩

theorem UnaryInv.bin (hf : PacketFits s) (hw : PacketWritten s) (hu : UnaryFields cb nc bypass) {e : Entropy}
    (h : UnaryInv s cb nc bypass e) (k : Nat) :
    ∃ b e', unaryBin s.bsmem cb.toNat nc.toNat bypass k e = .ok (b, e') ∧ UnaryInv s cb nc bypass e' := by
  obtain ⟨n, hcur⟩ := h.cursor
  cases bypass with
  | true =>
    refine ⟨_, _, ep_ok hf hw hcur, ⟨n + 1, hcur.base, hcur.len, rfl⟩, nofun, nofun, fun c hc => h.kept c hc⟩
  | false =>
    obtain ⟨hge, hlt, -⟩ := hu.context k
    obtain ⟨m, hm⟩ := Option.isSome_iff_exists.1 (h.written rfl _ hge hlt)
    obtain ⟨b, e', n', hbin, hcur'⟩ := bin_total hf hw hcur hm (h.range rfl)
    obtain ⟨-, m', -, -, he', -, hlo, -⟩ := bin_cases hbin
    have hctx : ∀ c, e'.ctx.read c = if c = cb.toNat + min k (nc.toNat - 1) then some m' else e.ctx.read c := fun c => by
      rw [he']
      exact Memory.read_write ..
    refine ⟨b, e', hbin, ⟨n', hcur'⟩, fun _ => by omega, fun _ c hc hc' => ?_, fun c hc => ?_⟩
    · rw [hctx]
      split_ifs
      · rfl
      · exact h.written rfl c hc hc'
    · rw [hctx, if_neg (by simp only [Bool.false_eq_true, false_or] at hc; omega)]
      exact h.kept c hc

/-- So a unary symbol answers, with a count below its limit where a 0 bin ended it. -/
theorem UnaryInv.run (hf : PacketFits s) (hw : PacketWritten s) (hu : UnaryFields cb nc bypass) (n : Nat) :
    ∀ {k : Nat} {e : Entropy}, UnaryInv s cb nc bypass e →
      ∃ r e', unaryFrom (unaryBin s.bsmem cb.toNat nc.toNat bypass) n k e = .ok (r, e') ∧
        UnaryInv s cb nc bypass e' ∧ ∀ j, r = some j → j < k + n := by
  induction n with
  | zero => exact fun {k e} h => ⟨none, e, rfl, h, nofun⟩
  | succ n ih =>
    intro k e h
    obtain ⟨b, e₁, hbin, h₁⟩ := h.bin hf hw hu k
    rw [unaryFrom, hbin]
    cases b with
    | false => exact ⟨some k, e₁, rfl, h₁, fun j hj => by cases hj; omega⟩
    | true =>
      obtain ⟨r, e', hrun, h', hr⟩ := ih (k := k + 1) h₁
      exact ⟨r, e', hrun, h', fun j hj => by have := hr j hj; omega⟩

/-- The engine's part of the answers. -/
theorem UnaryInv.registers {e : Entropy} (h : UnaryInv s cb nc bypass e) :
    e.bsBase = s.ent.bsBase ∧ e.bsLen = s.ent.bsLen ∧
      ∀ c, bypass = true ∨ c < cb.toNat ∨ cb.toNat + nc.toNat ≤ c → e.ctx.read c = s.ent.ctx.read c := by
  obtain ⟨n, hcur⟩ := h.cursor
  exact ⟨hcur.base, hcur.len, h.kept⟩

/-- A first bin 0 ends the symbol with 0. -/
theorem execDecUnary_first_zero (h : UnaryFields cb nc bypass) (hs : s.sticky = false) {e : Entropy}
    (hbin : unaryBin s.bsmem cb.toNat nc.toNat bypass 0 s.ent = .ok (false, e))
    (ht : execDecUnary cb nc bypass s = .next t) : t.code = .ok ∧ t.res0 = 0 := by
  have hrun := (unaryFrom_run (f := unaryBin s.bsmem cb.toNat nc.toNat bypass) 0 (lim := unaryLimit) (k := 0)
    (e := s.ent) rfl).1 e (by decide) hbin
  rw [execDecUnary_of_zero h hs hrun] at ht
  cases ht
  exact ⟨rfl, rfl⟩

/-- A fault of the first bin is that of the command (R135, R136). -/
theorem unary_first_fault (h : UnaryFields cb nc bypass) (hs : s.sticky = false) {f : Fault}
    (hbin : unaryBin s.bsmem cb.toNat nc.toNat bypass 0 s.ent = .error f) (mx : BitVec 8) :
    execDecUnary cb nc bypass s = .fault f ∧ (2 ≤ mx.toNat → execDecTunary cb nc bypass mx s = .fault f) := by
  have hrun : ∀ lim, 0 < lim → unaryFrom (unaryBin s.bsmem cb.toNat nc.toNat bypass) lim 0 s.ent = .error f :=
    fun lim hlim => (unaryFrom_run (f := unaryBin s.bsmem cb.toNat nc.toNat bypass) 0 (lim := lim) (k := 0)
      (e := s.ent) rfl).2.2 f hlim hbin
  exact ⟨execDecUnary_of_fault h hs (hrun _ (by decide)), fun hmx => execDecTunary_of_fault h hs (hrun _ (by omega))⟩

/-- The first context bin is that of CB. -/
theorem unaryBin_first (bs : Memory Byte) (cb nc : Nat) (e : Entropy) : unaryBin bs cb nc false 0 e = bin bs cb e := by
  simp [unaryBin]

theorem bin_of_unwritten {bs : Memory Byte} {c : Nat} {e : Entropy} (h : e.ctx.read c = none) :
    bin bs c e = .error (.unwrittenContext c) := by
  rw [bin, h]

/-- Settles O34. -/
theorem unaryCompletes : Obligations.UnaryCompletes := by
  unfold Obligations.UnaryCompletes
  refine ⟨fun cb nc mx s hs hnc hsum => ⟨fun hm => ?unwritten, fun m hm hr => ?small⟩,
    fun cb nc bypass mx s hf hw hs hready hu => ⟨?unary, ?tunary⟩⟩
  case unwritten =>
    have h : UnaryFields cb nc false := ⟨hnc, hsum⟩
    exact unary_first_fault h hs ((unaryBin_first ..).trans (bin_of_unwritten hm)) mx
  case small =>
    have h : UnaryFields cb nc false := ⟨hnc, hsum⟩
    exact unary_first_fault h hs ((unaryBin_first ..).trans (bin_of_small_range hm hr)) mx
  case unary =>
    obtain ⟨r, e, hrun, hinv, hr⟩ := UnaryInv.run hf hw hu unaryLimit (k := 0) hready.inv
    obtain ⟨hbase, hlen, hkept⟩ := hinv.registers
    have hbypass (t : State) (ht : execDecUnary cb nc bypass s = .next t) (hb : bypass = true)
        (hv : s.ent.value.toNat < s.ent.range.toNat / 2) : t.code = .ok ∧ t.res0 = 0 := by
      subst hb
      have hbin := ep_ok hf hw (atCursor_zero s)
      rw [decide_eq_false (by omega)] at hbin
      exact execDecUnary_first_zero hu hs hbin ht
    have hcontext (t : State) (ht : execDecUnary cb nc bypass s = .next t) (hb : bypass = false) (m : CtxModel)
        (hm : s.ent.ctx.read cb.toNat = some m) (hmps : m.getLsbD 0 = false)
        (hv : max 437 (m.toNat / 2 * s.ent.range.toNat / 512) + s.ent.value.toNat < s.ent.range.toNat) :
        t.code = .ok ∧ t.res0 = 0 := by
      subst hb
      obtain ⟨hbranch, -⟩ := bin_ok hf hw (atCursor_zero s) hm (hready rfl).1
      rw [lpsRange_eq, ctxMps, hmps] at hbranch
      obtain ⟨k, hbin, -⟩ := hbranch hv
      exact execDecUnary_first_zero hu hs ((unaryBin_first ..).trans hbin) ht
    cases r with
    | none =>
      have ht := execDecUnary_of_limit hu hs hrun
      exact ⟨_, ht, .inr ⟨rfl, rfl, rfl⟩, rfl, hbase, hlen, hkept, hbypass _ ht, hcontext _ ht⟩
    | some j =>
      have ht := execDecUnary_of_zero hu hs hrun
      have hj : j < 65535 := by simpa [unaryLimit] using hr j rfl
      refine ⟨_, ht, .inl ⟨rfl, hs, ?_⟩, rfl, hbase, hlen, hkept, hbypass _ ht, hcontext _ ht⟩
      show (natWord j).toNat < 65535
      rw [natWord, BitVec.toNat_ofNat]
      omega
  case tunary =>
    obtain ⟨r, e, hrun, hinv, hr⟩ := UnaryInv.run hf hw hu (mx.toNat - 1) (k := 0) hready.inv
    obtain ⟨hbase, hlen, hkept⟩ := hinv.registers
    refine ⟨_, execDecTunary_of_ok hu hs hrun, rfl, ?_, hbase, hlen, hkept⟩
    have hle : r.getD (mx.toNat - 1) ≤ mx.toNat - 1 := by
      cases r with
      | none => exact le_rfl
      | some j => have := hr j rfl; show j ≤ _; omega
    show (natWord _).toNat ≤ _
    rw [natWord, BitVec.toNat_ofNat]
    exact (Nat.mod_le ..).trans hle

end Sys2Proof.Machine

/-! The motion-compensation commands (42_mc.md): MC_CLIPMV, MC_PRED and MC_AVG, and the value interpolated for a vector
without fraction. -/

namespace Sys2Proof.Machine

variable {s t : State} {c : Comp} {l : ListIx} {k : Nat}

/-! ### MC_CLIPMV (R151, R152) -/

/-- Settles O35: the checks of MC_CLIPMV are the legality of its operands, one by one. -/
theorem mcClipmvClips : Obligations.McClipmvClips := by
  unfold Obligations.McClipmvClips
  intro s x y w h legal
  refine ⟨fun hlegal => ?_, fun hillegal => ?_⟩
  · obtain ⟨hpw, hph, hzero, hw1, hw, hh1, hh, hx, hy⟩ := hlegal
    have hpic := noPicture_eq_false.2 ⟨hpw, hph⟩
    have hsize : sizeOk w h = true := sizeOk_iff.2 ⟨hw1, hw, hh1, hh⟩
    have hexec : execMcClipmv s = finish (s.setRes0 (pairWord (clipMv s.cfg x y w h (mvX s.arg1, mvY s.arg1)).2
        (clipMv s.cfg x y w h (mvX s.arg1, mvY s.arg1)).1)) := by
      rw [execMcClipmv, hpic, if_neg (by decide), if_neg (not_not.2 hzero), if_neg (not_not.2 hsize),
        if_neg (by omega)]
    exact hexec
  · have hexec : execMcClipmv s = raise .illegalCommand s := by
      unfold execMcClipmv
      dsimp only
      split_ifs with hpic hzero hsize hpos
      · rfl
      · rfl
      · rfl
      · obtain ⟨hpw, hph⟩ := noPicture_eq_false.1 (Bool.eq_false_iff.2 hpic)
        obtain ⟨hw1, hw, hh1, hh⟩ := sizeOk_iff.1 hsize
        have hx : x < s.cfg.picW.toNat := Nat.not_le.1 fun hx => hpos (.inl hx)
        have hy : y < s.cfg.picH.toNat := Nat.not_le.1 fun hy => hpos (.inr hy)
        exact absurd ⟨hpw, hph, not_not.1 hzero, hw1, hw, hh1, hh, hx, hy⟩ hillegal
      · rfl
    exact hexec

/-! ### Interpolation without fraction (R161) -/

/-- A ready sample holds a value. -/
theorem SampleReady.sampleAt {y x : Nat} (h : SampleReady s k c y x) :
    s.sampleAt k c y x = some (toSample (sampleVal s k c y x)) := by
  unfold SampleReady at h
  unfold sampleVal toSample
  split at h
  next => exact h.elim
  next v hv => rw [hv, Option.getD_some, BitVec.ofInt_natCast, BitVec.ofNat_toNat, BitVec.setWidth_eq]

/-- With no fraction no tap is read. -/
theorem interpVal_integer (s : State) (c : Comp) (k x y : Nat) {mx my : Int} (i j : Nat)
    (hx : mx % (if c = .y then 4 else 8) = 0) (hy : my % (if c = .y then 4 else 8) = 0) :
    interpVal s c k x y mx my i j =
      refVal s c k (x + mx / (if c = .y then 4 else 8) + j) (y + my / (if c = .y then 4 else 8) + i) := by
  simp only [interpVal, hx, hy, Int.toNat_zero, and_self, if_true]

/-- Settles O37. -/
theorem integerMotionCopies : Obligations.IntegerMotionCopies := by
  unfold Obligations.IntegerMotionCopies
  intro s c k x y mx my i j hr hp hw hh q hx hy
  obtain ⟨h8, h10⟩ := hr.depth
  obtain ⟨hinterp, -, -⟩ := interpAt_ok hp hw hh h8 h10 x y (mx, my) i j
  refine ⟨_, hinterp, ?_⟩
  rw [interpVal_integer s c k x y i j hx hy]
  exact (hp _ _ (clamp_lt hh _) (clamp_lt hw _)).sampleAt

/-! ### MC_PRED (R153 to R157) -/

theorem execMcPred_legal {e : RefEntry} (hpic : noPicture s.cfg = false) (hzero : byteOf s.arg2 3 = 0)
    (hsize : sizeOk (byteOf s.arg2 0) (byteOf s.arg2 1) = true) (he : (s.dpb.list l)[byteOf s.arg2 2]? = some e)
    (hx : lo16 s.arg0 < (planeSize s.cfg c).1) (hy : hi16 s.arg0 < (planeSize s.cfg c).2) :
    execMcPred (BitVec.ofNat 2 c.num) l s = orFault (predict s l c e.slot (lo16 s.arg0) (hi16 s.arg0)
      (byteOf s.arg2 0) (byteOf s.arg2 1) (mvX s.arg1, mvY s.arg1)) finish := by
  simp only [execMcPred, compOf_num, hpic, hzero, hsize, he, Bool.false_eq_true, if_false, not_true, ne_eq]
  exact if_neg (by omega)

/-- The number in a cell of a written block. -/
theorem predVal_of_read {i j : Nat} {v : Int} {b : Nat} (h : s.pred.read (predKey l c i j) = some (toSample v))
    (h0 : 0 ≤ v) (hlt : v < 2 ^ b) (hb : b ≤ 16) : s.predVal l c i j = some v := by
  rw [State.predVal, h, Option.map_some, toSample_toNat h0 hlt hb]

theorem predOutVal_of_read {i j : Nat} {v : Int} {b : Nat} (h : s.predOut.read (predOutKey c i j) = some (toSample v))
    (h0 : 0 ≤ v) (hlt : v < 2 ^ b) (hb : b ≤ 16) : s.predOutVal c i j = some v := by
  rw [State.predOutVal, h, Option.map_some, toSample_toNat h0 hlt hb]

/-- Settles O36. -/
theorem mcPredInterpolates : Obligations.McPredInterpolates := by
  unfold Obligations.McPredInterpolates
  intro c l s e hr x y w h hpw hph hzero hw1 hw hh1 hh he hx hy hp
  obtain ⟨h8, h10⟩ := hr.depth
  have hplaneW := Nat.zero_lt_of_lt hx
  have hplaneH := Nat.zero_lt_of_lt hy
  have hexec := execMcPred_legal (noPicture_eq_false.2 ⟨hpw, hph⟩) hzero (sizeOk_iff.2 ⟨hw1, hw, hh1, hh⟩) he hx hy
  obtain ⟨m, hpredict, hblock, hother⟩ := predict_ok hp hplaneW hplaneH h8 h10 l x y hw hh (mvX s.arg1, mvY s.arg1)
  rw [hpredict, orFault_ok] at hexec
  refine ⟨_, hexec, rfl, fun i hi j hj => ?_, hother⟩
  obtain ⟨-, h0, hlt⟩ := interpAt_ok hp hplaneW hplaneH h8 h10 x y (mvX s.arg1, mvY s.arg1) i j
  exact predVal_of_read (s := (s.setPred m).setCode .ok) (hblock i hi j hj) h0 hlt (h10.trans (by decide))

/-! ### MC_AVG (R158) -/

theorem execMcAvg_legal (hzero : hi16 s.arg2 = 0) (hsize : sizeOk (byteOf s.arg2 0) (byteOf s.arg2 1) = true) :
    execMcAvg (BitVec.ofNat 2 c.num) s =
      orFault (output s c (byteOf s.arg2 0) (byteOf s.arg2 1) (avgAt s c)) finish := by
  simp only [execMcAvg, compOf_num, hzero, hsize, if_false, not_true, ne_eq]

/-- The cell of a prediction, as the sample it holds; meant where one is written. -/
def predCell (s : State) (l : ListIx) (c : Comp) (i j : Nat) : Sample := (s.pred.read (predKey l c i j)).getD 0

theorem predCell_of_predVal {i j : Nat} {a : Int} (h : s.predVal l c i j = some a) :
    s.pred.read (predKey l c i j) = some (predCell s l c i j) ∧ ((predCell s l c i j).toNat : Int) = a := by
  unfold State.predVal at h
  unfold predCell
  cases hv : s.pred.read (predKey l c i j) with
  | none => rw [hv] at h; cases h
  | some v => rw [hv] at h; exact ⟨rfl, Option.some.inj h⟩

/-- The average of two samples below a power of two is below it, too. -/
theorem average_toNat {a b : Sample} {n : Nat} (ha : a.toNat < 2 ^ n) (hb : b.toNat < 2 ^ n) :
    (BitVec.ofNat 16 ((a.toNat + b.toNat + 1) / 2)).toNat = (a.toNat + b.toNat + 1) / 2 ∧
      (a.toNat + b.toNat + 1) / 2 < 2 ^ n := by
  rw [BitVec.toNat_ofNat]
  omega

/-- A cell that a prediction cannot be read from (R83, R158). -/
def BadCell (s : State) (l : ListIx) (c : Comp) (i j : Nat) : Prop :=
  ∀ a, s.predVal l c i j = some a → 2 ^ s.cfg.bitDepth.toNat ≤ a

theorem BadCell.error {i j : Nat} (h : BadCell s l c i j) : ∃ e, readPred s l c i j = .error e := by
  obtain ⟨-, he⟩ | ⟨v, -, hval, ⟨-, he⟩ | ⟨hlt, -⟩⟩ := readPred_cases s l c i j
  · exact ⟨_, he⟩
  · exact ⟨_, he⟩
  · exact absurd (h _ hval) (by exact_mod_cast Nat.not_le.2 hlt)

/-- The fault of a cell names it. -/
theorem readPred_error {i j : Nat} {e : Fault} (h : readPred s l c i j = .error e) :
    (s.predVal l c i j = none ∧ e = .unwrittenPred l c i j) ∨
      ∃ a, s.predVal l c i j = some a ∧ 2 ^ s.cfg.bitDepth.toNat ≤ a ∧ e = .predTooLarge l c i j := by
  obtain ⟨hnone, he⟩ | ⟨v, -, hval, ⟨hle, he⟩ | ⟨-, hok⟩⟩ := readPred_cases s l c i j
  · rw [he] at h; cases h; exact .inl ⟨hnone, rfl⟩
  · rw [he] at h; cases h; exact .inr ⟨_, hval, by exact_mod_cast hle, rfl⟩
  · rw [hok] at h; cases h

/-- An average faults where and as a prediction does. -/
theorem avgAt_error {i j : Nat} {e : Fault} (h : avgAt s c i j = .error e) : ∃ l, readPred s l c i j = .error e := by
  unfold avgAt at h
  split at h
  next he => cases h; exact ⟨.l0, he⟩
  next =>
    split at h
    next he => cases h; exact ⟨.l1, he⟩
    next => cases h

theorem BadCell.not_average {i j : Nat} (h : BadCell s l c i j) (v : Sample) : avgAt s c i j ≠ .ok v := by
  obtain ⟨e, he⟩ := h.error
  unfold avgAt
  cases l with
  | l0 => rw [he]; exact nofun
  | l1 =>
    split
    · exact nofun
    · rw [he]; exact nofun

/-- A block with a bad cell stops the average with the fault of one. -/
theorem output_avg_error {w h i j : Nat} (hi : i < h) (hj : j < w) (hbad : BadCell s l c i j) (hw : w ≤ 64)
    (hh : h ≤ 64) : ∃ e, output s c w h (avgAt s c) = .error e ∧ ∃ i < h, ∃ j < w, ∃ l, readPred s l c i j = .error e := by
  unfold output
  cases hfill : fillCells (avgAt s c) (predOutKey c) (blockCells h w) s.predOut with
  | ok m =>
    obtain ⟨hall, -⟩ := fillCells_ok _ _ _ hfill (blockCells_predOut_inj hh hw)
    obtain ⟨v, hv, -⟩ := hall (i, j) (mem_blockCells.2 ⟨hi, hj⟩)
    exact absurd hv (hbad.not_average v)
  | error e =>
    obtain ⟨⟨i', j'⟩, hmem, havg⟩ := fillCells_error _ _ hfill
    obtain ⟨hi', hj'⟩ := mem_blockCells.1 hmem
    obtain ⟨l', hl'⟩ := avgAt_error havg
    exact ⟨e, rfl, i', hi', j', hj', l', hl'⟩

/-- Settles O38. -/
theorem mcAvgAverages : Obligations.McAvgAverages := by
  unfold Obligations.McAvgAverages
  intro c s w h hzero hw1 hw hh1 hh
  have hexec := execMcAvg_legal (c := c) hzero (sizeOk_iff.2 ⟨hw1, hw, hh1, hh⟩)
  refine ⟨fun hready => ?averages, ?faults⟩
  case averages =>
    have hcell : ∀ i < h, ∀ j < w, ∀ l, s.pred.read (predKey l c i j) = some (predCell s l c i j) ∧
        (predCell s l c i j).toNat < 2 ^ s.cfg.bitDepth.toNat := fun i hi j hj l => by
      obtain ⟨a, ha, hlt⟩ := hready i hi j hj l
      obtain ⟨hread, rfl⟩ := predCell_of_predVal ha
      exact ⟨hread, by exact_mod_cast hlt⟩
    obtain ⟨m, hout, hblock, hother⟩ := output_ok (s := s) (c := c) hw hh (f := avgAt s c)
      (g := fun i j => BitVec.ofNat 16 (((predCell s .l0 c i j).toNat + (predCell s .l1 c i j).toNat + 1) / 2))
      fun i hi j hj => avgAt_ok (hcell i hi j hj .l0).1 (hcell i hi j hj .l1).1 (hcell i hi j hj .l0).2
        (hcell i hi j hj .l1).2
    rw [hout, orFault_ok] at hexec
    refine ⟨_, hexec, rfl, fun i hi j hj a b ha hb => ?_, hother⟩
    obtain ⟨-, rfl⟩ := predCell_of_predVal ha
    obtain ⟨-, rfl⟩ := predCell_of_predVal hb
    obtain ⟨htoNat, hlt⟩ := average_toNat (hcell i hi j hj .l0).2 (hcell i hi j hj .l1).2
    have hread : ((s.setPredOut m).setCode .ok).predOut.read (predOutKey c i j) = _ := hblock i hi j hj
    rw [State.predOutVal, hread, Option.map_some, htoNat]
    exact ⟨by norm_cast, by exact_mod_cast hlt⟩
  case faults =>
    rintro ⟨i, hi, j, hj, l, hbad⟩
    obtain ⟨e, hout, i', hi', j', hj', l', hl'⟩ := output_avg_error hi hj hbad hw hh
    rw [hout] at hexec
    refine ⟨i', hi', j', hj', l', ?_⟩
    obtain ⟨hnone, rfl⟩ | ⟨a, ha, hle, rfl⟩ := readPred_error hl'
    · exact .inl ⟨hnone, hexec⟩
    · exact .inr ⟨a, ha, hle, hexec⟩

end Sys2Proof.Machine

/-! MC_CU (42_mc.md R159 to R162): what it writes component by component, and so for all three. -/

namespace Sys2Proof.Machine

variable {s t u : State} {c : Comp} {l : ListIx} {k x y size : Nat}

/-! ### Blocks of several components -/

/-- From s to t the CU's blocks of the components `cs` are written: with P in PRED of the used lists and with O in
PREDOUT; no other cell and nothing else changes. -/
structure BlocksFilled (size : Nat) (used : ListIx → Prop) (P : ListIx → Comp → Nat → Nat → Sample)
    (O : Comp → Nat → Nat → Sample) (cs : List Comp) (s t : State) : Prop where
  state : ∃ m m', t = (s.setPred m).setPredOut m'
  pred : ∀ c ∈ cs, ∀ l, used l → ∀ i < inComp c size, ∀ j < inComp c size, t.pred.read (predKey l c i j) = some (P l c i j)
  out : ∀ c ∈ cs, ∀ i < inComp c size, ∀ j < inComp c size, t.predOut.read (predOutKey c i j) = some (O c i j)
  pred_other : ∀ a, (∀ c ∈ cs, ∀ l, used l → ∀ i < inComp c size, ∀ j < inComp c size, a ≠ predKey l c i j) →
    t.pred.read a = s.pred.read a
  out_other : ∀ a, (∀ c ∈ cs, ∀ i < inComp c size, ∀ j < inComp c size, a ≠ predOutKey c i j) →
    t.predOut.read a = s.predOut.read a

variable {used : ListIx → Prop} {P : ListIx → Comp → Nat → Nat → Sample} {O : Comp → Nat → Nat → Sample}

theorem BlocksFilled.nil (s : State) : BlocksFilled size used P O [] s s :=
  ⟨⟨s.pred, s.predOut, rfl⟩, nofun, nofun, fun _ _ => rfl, fun _ _ => rfl⟩

theorem inComp_le (c : Comp) (n : Nat) : inComp c n ≤ n := by
  unfold inComp
  split <;> omega

/-- The blocks of two components share no cell. -/
theorem predKey_ne_of_comp {c c' : Comp} (hsize : size ≤ 64) (hc : c ≠ c') (l l' : ListIx) {i j i' j' : Nat}
    (hi : i < inComp c size) (hj : j < inComp c size) (hi' : i' < inComp c' size) (hj' : j' < inComp c' size) :
    predKey l c i j ≠ predKey l' c' i' j' := by
  have hle := inComp_le c size
  have hle' := inComp_le c' size
  rw [ne_eq, predKey_inj (by omega) (by omega) (by omega) (by omega)]
  exact fun h => hc h.2.1

theorem predOutKey_ne_of_comp {c c' : Comp} (hsize : size ≤ 64) (hc : c ≠ c') {i j i' j' : Nat}
    (hi : i < inComp c size) (hj : j < inComp c size) (hi' : i' < inComp c' size) (hj' : j' < inComp c' size) :
    predOutKey c i j ≠ predOutKey c' i' j' := by
  have hle := inComp_le c size
  have hle' := inComp_le c' size
  rw [ne_eq, predOutKey_inj (by omega) (by omega) (by omega) (by omega)]
  exact fun h => hc h.1

/-- A component after others. -/
theorem BlocksFilled.cons {cs : List Comp} (hsize : size ≤ 64) (hc : c ∉ cs) (h : BlocksFilled size used P O [c] s t)
    (h' : BlocksFilled size used P O cs t u) : BlocksFilled size used P O (c :: cs) s u := by
  obtain ⟨m, m', rfl⟩ := h.state
  obtain ⟨n, n', rfl⟩ := h'.state
  have hne : ∀ c' ∈ cs, c ≠ c' := fun c' hc' he => hc (he ▸ hc')
  refine ⟨⟨n, n', rfl⟩, ?_, ?_, fun a ha => ?_, fun a ha => ?_⟩
  · intro c' hc' l hl i hi j hj
    obtain rfl | hc' := List.mem_cons.1 hc'
    · exact (h'.pred_other _ fun d hd l' _ i' hi' j' hj' => predKey_ne_of_comp hsize (hne d hd) l l' hi hj hi' hj').trans
        (h.pred c' (List.mem_singleton.2 rfl) l hl i hi j hj)
    · exact h'.pred c' hc' l hl i hi j hj
  · intro c' hc' i hi j hj
    obtain rfl | hc' := List.mem_cons.1 hc'
    · exact (h'.out_other _ fun d hd i' hi' j' hj' => predOutKey_ne_of_comp hsize (hne d hd) hi hj hi' hj').trans
        (h.out c' (List.mem_singleton.2 rfl) i hi j hj)
    · exact h'.out c' hc' i hi j hj
  · exact (h'.pred_other a fun d hd => ha d (List.mem_cons_of_mem c hd)).trans
      (h.pred_other a fun d hd => ha d (by simpa using .inl (List.mem_singleton.1 hd)))
  · exact (h'.out_other a fun d hd => ha d (List.mem_cons_of_mem c hd)).trans
      (h.out_other a fun d hd => ha d (by simpa using .inl (List.mem_singleton.1 hd)))

/-- A step that fills each component's blocks, whatever the MC buffers hold, fills those of a list of components. -/
theorem foldE_blocksFilled {f : Comp → State → Except Fault State} (hsize : size ≤ 64)
    (hf : ∀ c m m', ∃ t, f c ((s.setPred m).setPredOut m') = .ok t ∧
      BlocksFilled size used P O [c] ((s.setPred m).setPredOut m') t) :
    ∀ cs : List Comp, cs.Nodup → ∀ m m', ∃ t, foldE f cs ((s.setPred m).setPredOut m') = .ok t ∧
      BlocksFilled size used P O cs ((s.setPred m).setPredOut m') t
  | [], _, m, m' => ⟨_, rfl, .nil _⟩
  | c :: cs, hnodup, m, m' => by
    obtain ⟨hc, hcs⟩ := List.nodup_cons.1 hnodup
    obtain ⟨t, ht, hfilled⟩ := hf c m m'
    obtain ⟨n, n', rfl⟩ := hfilled.state
    obtain ⟨u, hu, hrest⟩ := foldE_blocksFilled hsize hf cs hcs n n'
    exact ⟨u, foldE_cons_ok.2 ⟨_, ht, hu⟩, hfilled.cons hsize hc hrest⟩

theorem foldE_blocksFilled_self {f : Comp → State → Except Fault State} (hsize : size ≤ 64)
    (hf : ∀ c m m', ∃ t, f c ((s.setPred m).setPredOut m') = .ok t ∧
      BlocksFilled size used P O [c] ((s.setPred m).setPredOut m') t) :
    ∃ t, foldE f [.y, .cb, .cr] s = .ok t ∧ BlocksFilled size used P O [.y, .cb, .cr] s t := by
  have hs : (s.setPred s.pred).setPredOut s.predOut = s := rfl
  have h := foldE_blocksFilled hsize hf [.y, .cb, .cr] (by decide) s.pred s.predOut
  rwa [hs] at h

/-- The three components. -/
theorem mem_components (c : Comp) : c ∈ [Comp.y, .cb, .cr] := by cases c <;> decide

/-! ### The fetches of MC_CU (R159, R160) -/

/-- The clipped vector of list l (R152). -/
def cuClipped (s : State) (l : ListIx) : Int × Int :=
  clipMv s.cfg (lo16 s.arg0) (hi16 s.arg0) (byteOf s.arg1 0) (byteOf s.arg1 0) (cuVector s l)

theorem cuRef_unused {d : Dpb} {r : Int} (h : r = -1) : cuRef d l r = some none := if_pos h

theorem cuRef_entry {d : Dpb} {r : Int} {e : RefEntry} (h0 : 0 ≤ r) (he : (d.list l)[r.toNat]? = some e) :
    cuRef d l r = some (some e) := by
  rw [cuRef, if_neg (by omega), if_neg (by omega), he]

theorem CuPlaced.size_le (h : CuPlaced s x y size) : size ≤ 64 := by
  obtain ⟨hsize, -⟩ := h
  omega

theorem CuPlaced.picture (h : CuPlaced s x y size) : 0 < s.cfg.picW.toNat ∧ 0 < s.cfg.picH.toNat := by
  obtain ⟨-, -, -, hx, hy⟩ := h
  omega

theorem CuPlaced.hasPicture (h : CuPlaced s x y size) : noPicture s.cfg = false := by
  obtain ⟨hw, hh⟩ := h.picture
  refine noPicture_eq_false.2 ⟨?_, ?_⟩
  · rintro h0; rw [h0] at hw; exact absurd hw (by decide)
  · rintro h0; rw [h0] at hh; exact absurd hh (by decide)

/-- With legal operands MC_CU fetches and predicts component by component. -/
theorem execMcCu_legal {e0 e1 : Option RefEntry} (hcu : CuPlaced s (lo16 s.arg0) (hi16 s.arg0) (byteOf s.arg1 0))
    (hzero : byteOf s.arg1 3 = 0) (h0 : cuRef s.dpb .l0 (cuRefIndex s .l0) = some e0)
    (h1 : cuRef s.dpb .l1 (cuRefIndex s .l1) = some e1) (hused : ¬(e0 = none ∧ e1 = none)) :
    execMcCu s = orFault (foldE (mcCuComp (lo16 s.arg0) (hi16 s.arg0) (byteOf s.arg1 0)
      (cuFetches s.cfg (lo16 s.arg0) (hi16 s.arg0) (byteOf s.arg1 0) e0 e1 (cuVector s .l0) (cuVector s .l1)))
        [.y, .cb, .cr] s) finish := by
  obtain ⟨hsize, hpos⟩ := cuPlaced_iff.1 hcu
  have h0 : cuRef s.dpb .l0 (s8Of s.arg1 1) = some e0 := h0
  have h1 : cuRef s.dpb .l1 (s8Of s.arg1 2) = some e1 := h1
  simp only [execMcCu, hcu.hasPicture, hzero, hsize, hpos, h0, h1, Bool.false_eq_true, if_false, not_true, ne_eq]
  exact if_neg hused

/-- The planes of a picture of a legal size (R33). -/
theorem planeSize_pos (hr : RegistersOk s) (hw : 0 < s.cfg.picW.toNat) (hh : 0 < s.cfg.picH.toNat) (c : Comp) :
    0 < (planeSize s.cfg c).1 ∧ 0 < (planeSize s.cfg c).2 := by
  obtain ⟨hw8, -, hh8, -⟩ := hr.sizes
  cases c
  all_goals
    simp only [planeSize]
    omega

/-- The sample that MC_CU predicts. -/
def cuSample (s : State) (l : ListIx) (k : Nat) (c : Comp) (i j : Nat) : Sample := toSample (cuPrediction s l k c i j)

/-- The value that MC_CU predicts lies within the bit depth (R163). -/
theorem cuPrediction_range (hr : RegistersOk s) (hw : 0 < s.cfg.picW.toNat) (hh : 0 < s.cfg.picH.toNat)
    (hp : PlaneReady s k c) (l : ListIx) (i j : Nat) :
    0 ≤ cuPrediction s l k c i j ∧ cuPrediction s l k c i j < 2 ^ s.cfg.bitDepth.toNat := by
  obtain ⟨h8, h10⟩ := hr.depth
  obtain ⟨hpw, hph⟩ := planeSize_pos hr hw hh c
  obtain ⟨-, h0, hlt⟩ := interpAt_ok hp hpw hph h8 h10 (inComp c (lo16 s.arg0)) (inComp c (hi16 s.arg0))
    (cuClipped s l) i j
  rw [cuPrediction_eq]
  exact ⟨h0, hlt⟩

/-- One component from one list (R159). -/
theorem mcCuComp_filled_one (hr : RegistersOk s) (hw : 0 < s.cfg.picW.toNat) (hh : 0 < s.cfg.picH.toNat)
    (hsize : byteOf s.arg1 0 ≤ 64) (hp : PlaneReady s k c) (l : ListIx) (m m' : Memory Sample) :
    ∃ t, mcCuComp (lo16 s.arg0) (hi16 s.arg0) (byteOf s.arg1 0) [⟨l, k, cuClipped s l⟩] c
        ((s.setPred m).setPredOut m') = .ok t ∧
      BlocksFilled (byteOf s.arg1 0) (fun l' => l' = l) (fun l c i j => cuSample s l k c i j)
        (fun c i j => cuSample s l k c i j) [c] ((s.setPred m).setPredOut m') t := by
  obtain ⟨h8, h10⟩ := hr.depth
  obtain ⟨hpw, hph⟩ := planeSize_pos hr hw hh c
  obtain ⟨n, n', ht, hblock, hpred, hout⟩ := mcCuComp_one (s := (s.setPred m).setPredOut m') (k := k) (c := c) hp hpw hph
    h8 h10 l (lo16 s.arg0) (hi16 s.arg0) hsize (cuClipped s l)
  simp only [interpVal_setPredOut, interpVal_setPred] at hblock
  refine ⟨_, ht, ⟨n, n', rfl⟩, ?_, ?_, fun a ha => ?_, fun a ha => ?_⟩
  · rintro c' hc' l' rfl i hi j hj
    obtain rfl := List.mem_singleton.1 hc'
    exact (hblock i hi j hj).1.trans (by rw [cuSample, cuPrediction_eq]; rfl)
  · intro c' hc' i hi j hj
    obtain rfl := List.mem_singleton.1 hc'
    exact (hblock i hi j hj).2.trans (by rw [cuSample, cuPrediction_eq]; rfl)
  · exact hpred a (ha c (List.mem_singleton.2 rfl) l rfl)
  · exact hout a (ha c (List.mem_singleton.2 rfl))

/-- The average of two samples (R162). -/
def sampleAverage (a b : Sample) : Sample := BitVec.ofNat 16 ((a.toNat + b.toNat + 1) / 2)

/-- One component from two lists (R162). -/
theorem mcCuComp_filled_two {k' : Nat} (hr : RegistersOk s) (hw : 0 < s.cfg.picW.toNat) (hh : 0 < s.cfg.picH.toNat)
    (hsize : byteOf s.arg1 0 ≤ 64) (hp : PlaneReady s k c) (hp' : PlaneReady s k' c) (m m' : Memory Sample) :
    ∃ t, mcCuComp (lo16 s.arg0) (hi16 s.arg0) (byteOf s.arg1 0)
        [⟨.l0, k, cuClipped s .l0⟩, ⟨.l1, k', cuClipped s .l1⟩] c ((s.setPred m).setPredOut m') = .ok t ∧
      BlocksFilled (byteOf s.arg1 0) (fun _ => True)
        (fun l c i j => cuSample s l (match l with | .l0 => k | .l1 => k') c i j)
        (fun c i j => sampleAverage (cuSample s .l0 k c i j) (cuSample s .l1 k' c i j)) [c]
        ((s.setPred m).setPredOut m') t := by
  obtain ⟨h8, h10⟩ := hr.depth
  obtain ⟨hpw, hph⟩ := planeSize_pos hr hw hh c
  obtain ⟨n, n', ht, hblock, hpred, hout⟩ := mcCuComp_two (s := (s.setPred m).setPredOut m') (k := k) (c := c) (k' := k')
    hp hp' hpw hph h8 h10 (lo16 s.arg0) (hi16 s.arg0) hsize (cuClipped s .l0) (cuClipped s .l1)
  simp only [interpVal_setPredOut, interpVal_setPred] at hblock
  refine ⟨_, ht, ⟨n, n', rfl⟩, ?_, ?_, fun a ha => ?_, fun a ha => ?_⟩
  · intro c' hc' l' _ i hi j hj
    obtain rfl := List.mem_singleton.1 hc'
    obtain ⟨h0, h1, -⟩ := hblock i hi j hj
    cases l' with
    | l0 => exact h0.trans (by rw [cuSample, cuPrediction_eq]; rfl)
    | l1 => exact h1.trans (by rw [cuSample, cuPrediction_eq]; rfl)
  · intro c' hc' i hi j hj
    obtain rfl := List.mem_singleton.1 hc'
    obtain ⟨-, -, ho⟩ := hblock i hi j hj
    exact ho.trans (by rw [sampleAverage, cuSample, cuSample, cuPrediction_eq, cuPrediction_eq]; rfl)
  · exact hpred a fun l' => ha c (List.mem_singleton.2 rfl) l' trivial
  · exact hout a (ha c (List.mem_singleton.2 rfl))

/-! ### One list (R159, R160) -/

/-- The operands of MC_CU with one fetch. -/
theorem execMcCu_one {e : RefEntry} (hcu : CuPlaced s (lo16 s.arg0) (hi16 s.arg0) (byteOf s.arg1 0))
    (hzero : byteOf s.arg1 3 = 0) (h0 : 0 ≤ cuRefIndex s l) (he : (s.dpb.list l)[(cuRefIndex s l).toNat]? = some e)
    (hone : (∀ m, m ≠ l → cuRefIndex s m = -1) ∨ (l = .l0 ∧ 0 ≤ cuRefIndex s .l1 ∧ cuVector s .l0 = cuVector s .l1 ∧
      ∃ e', s.dpb.list1[(cuRefIndex s .l1).toNat]? = some e' ∧ e'.poc = e.poc)) :
    execMcCu s = orFault (foldE (mcCuComp (lo16 s.arg0) (hi16 s.arg0) (byteOf s.arg1 0)
      [⟨l, e.slot, cuClipped s l⟩]) [.y, .cb, .cr] s) finish := by
  have hentry := cuRef_entry h0 he
  obtain hunused | ⟨rfl, h1, hmv, e', he', hpoc⟩ := hone
  · cases l with
    | l0 => exact execMcCu_legal hcu hzero hentry (cuRef_unused (hunused .l1 nofun)) (by simp)
    | l1 => exact execMcCu_legal hcu hzero (cuRef_unused (hunused .l0 nofun)) hentry (by simp)
  · refine (execMcCu_legal hcu hzero hentry (cuRef_entry h1 he') (by simp)).trans ?_
    rw [cuFetches, if_pos ⟨hpoc.symm, hmv⟩]
    rfl

/-- Settles O39. -/
theorem mcCuFromOneList : Obligations.McCuFromOneList := by
  unfold Obligations.McCuFromOneList
  intro s l e hr size hcu hzero h0 he hone hready
  obtain ⟨hw, hh⟩ := hcu.picture
  obtain ⟨-, h10⟩ := hr.depth
  have hexec := execMcCu_one hcu hzero h0 he hone
  obtain ⟨t, ht, hfilled⟩ := foldE_blocksFilled_self hcu.size_le
    fun c m m' => mcCuComp_filled_one hr hw hh hcu.size_le (hready c) l m m'
  rw [ht, orFault_ok] at hexec
  obtain ⟨m, m', rfl⟩ := hfilled.state
  refine ⟨_, hexec, rfl, fun c i hi j hj => ?_, fun a ha => ?_, fun a ha => ?_⟩
  · obtain ⟨hlo, hhi⟩ := cuPrediction_range hr hw hh (hready c) l i j
    exact ⟨predVal_of_read (hfilled.pred c (mem_components c) l rfl i hi j hj) hlo hhi (h10.trans (by decide)),
      predOutVal_of_read (hfilled.out c (mem_components c) i hi j hj) hlo hhi (h10.trans (by decide))⟩
  · exact hfilled.pred_other a fun c _ l' hl' => hl' ▸ ha c
  · exact hfilled.out_other a fun c _ => ha c

/-! ### Two lists (R159, R162) -/

/-- The average of two values within the bit depth. -/
theorem sampleAverage_toNat {v w : Int} {b : Nat} (hv : 0 ≤ v) (hv' : v < 2 ^ b) (hw : 0 ≤ w) (hw' : w < 2 ^ b)
    (hb : b ≤ 16) : ((sampleAverage (toSample v) (toSample w)).toNat : Int) = (v + w + 1) / 2 := by
  have hvn := toSample_toNat hv hv' hb
  have hwn := toSample_toNat hw hw' hb
  rw [sampleAverage, BitVec.toNat_ofNat, Nat.mod_eq_of_lt (by omega)]
  push_cast
  rw [hvn, hwn]

/-- Settles O40. -/
theorem mcCuFromTwoLists : Obligations.McCuFromTwoLists := by
  unfold Obligations.McCuFromTwoLists
  intro s e0 e1 hr size hcu hzero h0 he0 h1 he1 hdistinct hready
  obtain ⟨hw, hh⟩ := hcu.picture
  obtain ⟨-, h10⟩ := hr.depth
  have hexec : execMcCu s = orFault (foldE (mcCuComp (lo16 s.arg0) (hi16 s.arg0) (byteOf s.arg1 0)
      [⟨.l0, e0.slot, cuClipped s .l0⟩, ⟨.l1, e1.slot, cuClipped s .l1⟩]) [.y, .cb, .cr] s) finish := by
    refine (execMcCu_legal hcu hzero (cuRef_entry h0 he0) (cuRef_entry h1 he1) (by simp)).trans ?_
    rw [cuFetches, if_neg hdistinct]
    rfl
  obtain ⟨t, ht, hfilled⟩ := foldE_blocksFilled_self hcu.size_le
    fun c m m' => mcCuComp_filled_two hr hw hh hcu.size_le (hready c).1 (hready c).2 m m'
  rw [ht, orFault_ok] at hexec
  obtain ⟨m, m', rfl⟩ := hfilled.state
  refine ⟨_, hexec, rfl, fun c i hi j hj => ?_, fun a ha => ?_, fun a ha => ?_⟩
  · obtain ⟨hp0, hp1⟩ := hready c
    obtain ⟨hlo0, hhi0⟩ := cuPrediction_range hr hw hh hp0 .l0 i j
    obtain ⟨hlo1, hhi1⟩ := cuPrediction_range hr hw hh hp1 .l1 i j
    refine ⟨predVal_of_read (hfilled.pred c (mem_components c) .l0 trivial i hi j hj) hlo0 hhi0 (h10.trans (by decide)),
      predVal_of_read (hfilled.pred c (mem_components c) .l1 trivial i hi j hj) hlo1 hhi1 (h10.trans (by decide)), ?_⟩
    have hread : (((s.setPred m).setPredOut m').setCode .ok).predOut.read (predOutKey c i j) = _ :=
      hfilled.out c (mem_components c) i hi j hj
    rw [State.predOutVal, hread, Option.map_some]
    exact congrArg some (sampleAverage_toNat hlo0 hhi0 hlo1 hhi1 (h10.trans (by decide)))
  · exact hfilled.pred_other a fun c _ l' _ => ha l' c
  · exact hfilled.out_other a fun c _ => ha c

end Sys2Proof.Machine

/-! The operands that the motion-compensation and the deblocking commands exclude (42_mc.md R157 to R159, 43_deblock.md
R175 to R183). -/

namespace Sys2Proof.Machine

variable {s : State} {c : Comp} {l : ListIx} {d : Dir} {k : Nat}

/-! ### No picture size and no current picture (R30, R175) -/

theorem execMcPred_no_picture (h : noPicture s.cfg = true) (c : BitVec 2) (l : ListIx) :
    execMcPred c l s = raise .illegalCommand s := by
  unfold execMcPred
  split
  · rfl
  · exact if_pos h

theorem exec_no_picture {i : Instr} (h : noPicture s.cfg = true)
    (hi : i ∈ [Instr.mcClipmv, .mcCu, .dpbGet] ∨ ∃ c l, i = .mcPred c l) : exec i s = raise .illegalCommand s := by
  simp only [List.mem_cons, List.not_mem_nil, or_false] at hi
  obtain (rfl | rfl | rfl) | ⟨c, l, rfl⟩ := hi
  · exact if_pos h
  · exact if_pos h
  · exact execDpbGet_no_picture h
  · exact execMcPred_no_picture h c l

theorem exec_no_current {i : Instr} (h : s.curSlot = none)
    (hi : i = .dfBs ∨ (∃ d, i = .dfLuma d) ∨ (∃ d c, i = .dfChroma d c ∧ (c = 1 ∨ c = 2)) ∨ ∃ d, i = .dfCu d) :
    exec i s = raise .unexpectedState s := by
  obtain rfl | ⟨d, rfl⟩ | ⟨d, c, rfl, rfl | rfl⟩ | ⟨d, rfl⟩ := hi
  · show execDfBs s = _
    rw [execDfBs, h]
  · show execDfLuma d s = _
    rw [execDfLuma, h]
  · show execDfChroma d (BitVec.ofNat 2 Comp.cb.num) s = _
    rw [execDfChroma, compOf_num, h]
  · show execDfChroma d (BitVec.ofNat 2 Comp.cr.num) s = _
    rw [execDfChroma, compOf_num, h]
  · show execDfCu d s = _
    rw [execDfCu, h]

/-! ### Motion compensation -/

theorem sizeOk_eq_false {w h : Nat} (hwh : w < 1 ∨ 64 < w ∨ h < 1 ∨ 64 < h) : sizeOk w h = false := by
  rw [← Bool.not_eq_true, sizeOk_iff]
  omega

theorem execMcPred_illegal (h : byteOf s.arg2 3 ≠ 0 ∨ sizeOk (byteOf s.arg2 0) (byteOf s.arg2 1) = false ∨
    (s.dpb.list l).length ≤ byteOf s.arg2 2 ∨ (planeSize s.cfg c).1 ≤ lo16 s.arg0 ∨
      (planeSize s.cfg c).2 ≤ hi16 s.arg0) :
    execMcPred (BitVec.ofNat 2 c.num) l s = raise .illegalCommand s := by
  simp only [execMcPred, compOf_num]
  split_ifs with hpic hzero hsize harea
  · rfl
  · rfl
  · split <;> rfl
  · obtain h | h | h | h := h
    · exact absurd h hzero
    · rw [h] at hsize; cases hsize
    · rw [List.getElem?_eq_none h]
    · exact absurd h harea
  · rfl

theorem execMcAvg_illegal (h : hi16 s.arg2 ≠ 0 ∨ sizeOk (byteOf s.arg2 0) (byteOf s.arg2 1) = false) :
    execMcAvg (BitVec.ofNat 2 c.num) s = raise .illegalCommand s := by
  simp only [execMcAvg, compOf_num]
  split_ifs with hzero hsize
  · rfl
  · obtain h | h := h
    · exact absurd h hzero
    · rw [h] at hsize; cases hsize
  · rfl

theorem cuRef_outside {dpb : Dpb} {r : Int} (h : r < -1 ∨ ((dpb.list l).length : Int) ≤ r) :
    cuRef dpb l r = none := by
  unfold cuRef
  split_ifs
  · omega
  · rfl
  · rw [List.getElem?_eq_none (by omega)]

/-- MC_CU with the references that its indices name. -/
theorem execMcCu_illegal (h : byteOf s.arg1 3 ≠ 0 ∨ ¬CuPlaced s (lo16 s.arg0) (hi16 s.arg0) (byteOf s.arg1 0) ∨
    (∃ l, cuRef s.dpb l (cuRefIndex s l) = none) ∨ ∀ l, cuRef s.dpb l (cuRefIndex s l) = some none) :
    execMcCu s = raise .illegalCommand s := by
  unfold execMcCu
  dsimp only
  split_ifs with hpic hzero hsize hpos
  · rfl
  · rfl
  · split
    next e0 e1 h0 h1 =>
      refine if_pos ?_
      have h0 : cuRef s.dpb .l0 (cuRefIndex s .l0) = some e0 := h0
      have h1 : cuRef s.dpb .l1 (cuRefIndex s .l1) = some e1 := h1
      obtain h | h | ⟨l, h⟩ | h := h
      · exact absurd h hzero
      · exact absurd (cuPlaced_iff.2 ⟨hsize, hpos⟩) h
      · cases l with
        | l0 => rw [h0] at h; cases h
        | l1 => rw [h1] at h; cases h
      · exact ⟨Option.some.inj (h0.symm.trans (h .l0)), Option.some.inj (h1.symm.trans (h .l1))⟩
    next => rfl
  · rfl
  · rfl

/-! ### Deblocking -/

theorem execDfBs_illegal (hk : s.curSlot = some k)
    (h : s.cfg.picW.toNat / 4 ≤ lo16 s.arg0 ∨ s.cfg.picH.toNat / 4 ≤ hi16 s.arg0 ∨
      s.cfg.picW.toNat / 4 ≤ lo16 s.arg1 ∨ s.cfg.picH.toNat / 4 ≤ hi16 s.arg1 ∨
      ¬((lo16 s.arg1 = lo16 s.arg0 + 1 ∧ hi16 s.arg1 = hi16 s.arg0) ∨
        (lo16 s.arg1 = lo16 s.arg0 ∧ hi16 s.arg1 = hi16 s.arg0 + 1))) :
    execDfBs s = raise .illegalCommand s := by
  rw [execDfBs, hk]
  dsimp only
  split_ifs with harea hnext
  · rfl
  · omega
  · rfl

theorem onBoundary_iff {x y : Nat} :
    onBoundary d x y = true ↔ (d = .vertical ∧ x = 0) ∨ (d = .horizontal ∧ y = 0) := by
  cases d <;> simp [onBoundary]

theorem execDfLuma_illegal (hk : s.curSlot = some k)
    (h : lumaPosOk s.cfg (lo16 s.arg0) (hi16 s.arg0) = false ∨ onBoundary d (lo16 s.arg0) (hi16 s.arg0) = true) :
    execDfLuma d s = raise .illegalCommand s := by
  rw [execDfLuma, hk]
  dsimp only
  split_ifs with hpos hedge
  · rfl
  · obtain h | h := h
    · rw [h] at hpos; cases hpos
    · exact absurd h hedge
  · rfl

theorem chromaAligned_iff {x y : Nat} : chromaAligned d x y = true ↔
    (d = .vertical → x % 4 = 0 ∧ y % 2 = 0) ∧ (d = .horizontal → y % 4 = 0 ∧ x % 2 = 0) := by
  cases d <;> simp [chromaAligned]

/-- The planes of Cb and Cr have one size (R33). -/
theorem planeSize_chroma (g : Cfg) (hc : c ≠ .y) : planeSize g c = (g.picW.toNat / 2, g.picH.toNat / 2) := by
  cases c with
  | y => exact absurd rfl hc
  | cb => rfl
  | cr => rfl

theorem execDfChroma_eq (hk : s.curSlot = some k) (hc : c ≠ .y) :
    execDfChroma d (BitVec.ofNat 2 c.num) s =
      if ¬chromaAligned d (lo16 s.arg0) (hi16 s.arg0) = true then raise .illegalCommand s
      else if s.cfg.picW.toNat / 2 ≤ lo16 s.arg0 ∨ s.cfg.picH.toNat / 2 ≤ hi16 s.arg0 then raise .illegalCommand s
      else if onBoundary d (lo16 s.arg0) (hi16 s.arg0) = true then raise .illegalCommand s
      else orFault (chromaSegment k c d (lo16 s.arg0) (hi16 s.arg0) s.arg1.toNat s) finish := by
  cases c with
  | y => exact absurd rfl hc
  | cb => rw [execDfChroma, compOf_num, hk]; rfl
  | cr => rw [execDfChroma, compOf_num, hk]; rfl

/-- A component field names Cb, Cr or none that DF_CHROMA filters. -/
theorem chromaField_cases (c : BitVec 2) : c = 0 ∨ c = 3 ∨ ∃ p : Comp, p ≠ .y ∧ c = BitVec.ofNat 2 p.num := by
  have : c = 0 ∨ c = 3 ∨ c = 1 ∨ c = 2 := by bv_omega
  obtain rfl | rfl | rfl | rfl := this
  · exact .inl rfl
  · exact .inr (.inl rfl)
  · exact .inr (.inr ⟨.cb, nofun, rfl⟩)
  · exact .inr (.inr ⟨.cr, nofun, rfl⟩)

theorem execDfChroma_illegal (hk : s.curSlot = some k)
    (h : chromaAligned d (lo16 s.arg0) (hi16 s.arg0) = false ∨ onBoundary d (lo16 s.arg0) (hi16 s.arg0) = true ∨
      s.cfg.picW.toNat / 2 ≤ lo16 s.arg0 ∨ s.cfg.picH.toNat / 2 ≤ hi16 s.arg0) (c : BitVec 2) :
    execDfChroma d c s = raise .illegalCommand s := by
  obtain rfl | rfl | ⟨p, hp, rfl⟩ := chromaField_cases c
  · exact execDfChroma_not_chroma (.inl rfl) d s
  · exact execDfChroma_not_chroma (.inr rfl) d s
  rw [execDfChroma_eq hk hp]
  split_ifs with halign harea hedge
  · rfl
  · rfl
  · obtain h | h | h := h
    · rw [h] at halign; cases halign
    · exact absurd h hedge
    · exact absurd h harea
  · rfl

theorem execDfCu_illegal (hk : s.curSlot = some k)
    (h : s.arg1.extractLsb' 8 24 ≠ 0 ∨ ¬CuPlaced s (lo16 s.arg0) (hi16 s.arg0) (byteOf s.arg1 0)) :
    execDfCu d s = raise .illegalCommand s := by
  rw [execDfCu, hk]
  dsimp only
  split_ifs with hzero hsize hpos hedge
  · rfl
  · obtain h | h := h
    · exact absurd h hzero
    · exact absurd (cuPlaced_iff.2 ⟨hsize, hpos⟩) h
  · obtain h | h := h
    · exact absurd h hzero
    · exact absurd (cuPlaced_iff.2 ⟨hsize, hpos⟩) h
  · rfl
  · rfl

/-- Settles O41, command by command. -/
theorem operandErrors : Obligations.OperandErrors := by
  unfold Obligations.OperandErrors
  refine ⟨fun i s h hi => exec_no_picture (noPicture_eq_true.2 h) hi,
    fun i s h hi => exec_no_current (curSlot_eq_none.2 h) hi, fun s => ?_⟩
  intro w h x y W H illegal
  refine ⟨fun c l hc => ?mcPred, fun c hc => ?mcAvg, fun hc => ?mcCu, fun hcur => ?deblock⟩
  case mcPred =>
    refine execMcPred_illegal ?_
    obtain hc | hw | hw | hh | hh | hc := hc
    · exact .inl hc
    · exact .inr (.inl (sizeOk_eq_false (.inl hw)))
    · exact .inr (.inl (sizeOk_eq_false (.inr (.inl hw))))
    · exact .inr (.inl (sizeOk_eq_false (.inr (.inr (.inl hh)))))
    · exact .inr (.inl (sizeOk_eq_false (.inr (.inr (.inr hh)))))
    · exact .inr (.inr hc)
  case mcAvg => exact execMcAvg_illegal (hc.imp_right sizeOk_eq_false)
  case mcCu =>
    refine execMcCu_illegal (hc.imp_right <| Or.imp_right <| Or.imp ?_ fun h l => cuRef_unused (h l))
    rintro ⟨l, hl⟩
    exact ⟨l, cuRef_outside hl⟩
  case deblock =>
    have hk := curSlot_eq_some hcur
    refine ⟨execDfBs_illegal hk, fun d hc => ?luma, fun d c hc => ?chroma, fun d => execDfCu_illegal hk⟩
    case luma =>
      refine execDfLuma_illegal hk ?_
      rw [← Bool.not_eq_true, lumaPosOk_iff, onBoundary_iff]
      cases d
      · simp at hc ⊢; omega
      · simp at hc ⊢; omega
    case chroma =>
      refine execDfChroma_illegal hk ?_ c
      rw [← Bool.not_eq_true, chromaAligned_iff, onBoundary_iff]
      cases d
      · simp at hc ⊢; omega
      · simp at hc ⊢; omega

end Sys2Proof.Machine

/-! The deblocking commands on one edge segment (43_deblock.md): DF_BS, DF_LUMA, DF_CHROMA and the lines that the filter
leaves as they are. -/

namespace Sys2Proof.Machine

variable {s t : State} {c : Comp} {l : ListIx} {d : Dir} {k x y : Nat} {p q : Nat × Nat}

/-! ### What a written block reads as (R52, R176) -/

theorem readCuLow_ready (h : BlockReady s k p.1 p.2) : readCuLow s p.1 p.2 = .ok (cuVal s p.1 p.2) := by
  obtain ⟨hcu, -⟩ := h
  obtain ⟨w, hw⟩ := Option.isSome_iff_exists.1 hcu
  simp only [readCuLow, cuVal, hw, Option.getD_some]

theorem readMv_ready (h : BlockReady s k p.1 p.2) (l : ListIx) :
    ∃ v, readMv s k p.1 p.2 l = .ok v ∧ mvVal s k p.1 p.2 l = (v.x.toInt, v.y.toInt) := by
  obtain ⟨-, pic, hpic, hmaps⟩ := h
  obtain ⟨v, hv⟩ := Option.isSome_iff_exists.1 (hmaps l).1
  exact ⟨v, by simp [readMv, hpic, hv], by simp [mvVal, List.getD_eq_getElem?_getD, hpic, hv]⟩

/-- A reference index as a number is not negative where its top bit is 0. -/
theorem refPic_eq (dpb : Dpb) (l : ListIx) (r : Byte) :
    refPic dpb l r = if 0 ≤ r.toInt then ((dpb.list l)[r.toInt.toNat]?).map (·.slot) else none := by
  unfold refPic
  rw [BitVec.toInt_eq_msb_cond]
  have hlt := r.isLt
  cases r.msb with
  | true =>
    have hneg : ¬(0 : Int) ≤ (r.toNat : Int) - (2 ^ 8 : Nat) := by omega
    rw [if_pos rfl, if_pos rfl, if_neg hneg]
  | false =>
    have hnonneg : (0 : Int) ≤ (r.toNat : Int) := Int.natCast_nonneg _
    simp only [Bool.false_eq_true, if_false, if_pos hnonneg, Int.toNat_natCast]

theorem readRefi_ready (h : BlockReady s k p.1 p.2) (l : ListIx) :
    ∃ r, readRefi s k p.1 p.2 l = .ok r ∧ refPic s.dpb l r = refSlotVal s k p.1 p.2 l := by
  obtain ⟨-, pic, hpic, hmaps⟩ := h
  obtain ⟨r, hr⟩ := Option.isSome_iff_exists.1 (hmaps l).2
  exact ⟨r, by simp [readRefi, hpic, hr], by simp [refPic_eq, refSlotVal, List.getD_eq_getElem?_getD, hpic, hr]⟩

theorem blockRefs_ready (h : BlockReady s k p.1 p.2) :
    blockRefs s k p = .ok (refSlotVal s k p.1 p.2 .l0, refSlotVal s k p.1 p.2 .l1) := by
  obtain ⟨r0, hr0, href0⟩ := readRefi_ready h .l0
  obtain ⟨r1, hr1, href1⟩ := readRefi_ready h .l1
  simp only [blockRefs, hr0, hr1, href0, href1]

/-! ### The edge strength (R176, R177) -/

theorem eitherCu_ready (hp : BlockReady s k p.1 p.2) (hq : BlockReady s k q.1 q.2) (field : BitVec 31 → Bool) :
    eitherCu s p q field = .ok (field (cuVal s p.1 p.2) || field (cuVal s q.1 q.2)) := by
  rw [eitherCu, readCuLow_ready hp, readCuLow_ready hq]
  simp only [Except.map]
  cases field (cuVal s p.1 p.2) <;> rfl

theorem mvFar_iff (a b : MotionVec) : mvFar a b = true ↔ FarApart (a.x.toInt, a.y.toInt) (b.x.toInt, b.y.toInt) := by
  simp only [mvFar, FarApart, Bool.or_eq_true, decide_eq_true_eq, Int.abs_eq_natAbs]
  omega

open Classical in
theorem farAt_ready (hp : BlockReady s k p.1 p.2) (hq : BlockReady s k q.1 q.2) (lp lq : ListIx) :
    farAt s k p q lp lq = .ok (decide (FarApart (mvVal s k p.1 p.2 lp) (mvVal s k q.1 q.2 lq))) := by
  obtain ⟨a, ha, hma⟩ := readMv_ready hp lp
  obtain ⟨b, hb, hmb⟩ := readMv_ready hq lq
  simp only [farAt, ha, hb, hma, hmb, ← mvFar_iff, Bool.decide_eq_true]

theorem guardE_ok (b v : Bool) : guardE b (.ok v) = .ok (b && v) := by cases b <;> rfl

theorem orE_ok (a b : Bool) : orE (.ok a) (.ok b) = .ok (a || b) := by cases a <;> rfl

/-- The strength of two sides by whether they match straight and swapped, and are far apart under each match. -/
theorem motionStrength (straight swapped fs fw : Bool) :
    (if !straight && !swapped then .ok 2
      else (if straight && swapped then andE (.ok fs) (.ok fw) else if straight then .ok fs else .ok fw).map
        fun f => if f then 2 else 3) =
      (.ok (if (!straight || fs) && (!swapped || fw) then 2 else 3) : Except Fault Nat) := by
  cases straight with
  | false => cases swapped <;> cases fw <;> rfl
  | true => cases swapped <;> cases fs <;> cases fw <;> rfl

open Classical in
/-- The motion part of the strength is 2 exactly where the motion is far (R176). -/
theorem motionBs_ready (hp : BlockReady s k p.1 p.2) (hq : BlockReady s k q.1 q.2) :
    motionBs s k p q (refSlotVal s k p.1 p.2 .l0, refSlotVal s k p.1 p.2 .l1)
      (refSlotVal s k q.1 q.2 .l0, refSlotVal s k q.1 q.2 .l1) = .ok (if MotionFar s k p q then 2 else 3) := by
  simp only [motionBs, farAt_ready hp hq, guardE_ok, orE_ok]
  refine (motionStrength ..).trans (congrArg _ (if_congr ?_ rfl rfl))
  simp only [MotionFar, Bool.and_eq_true, Bool.or_eq_true, Bool.not_eq_true', ← Bool.not_eq_true, beq_iff_eq,
    decide_eq_true_eq, ← imp_iff_not_or, Option.isSome_iff_ne_none]

open Classical in
theorem bs_ready (hp : BlockReady s k p.1 p.2) (hq : BlockReady s k q.1 q.2) :
    bs s k p q = .ok (if cuIntra (cuVal s p.1 p.2) || cuIntra (cuVal s q.1 q.2) then 0
      else if cuCbfl (cuVal s p.1 p.2) || cuCbfl (cuVal s q.1 q.2) then 1
      else if MotionFar s k p q then 2 else 3) := by
  rw [bs, eitherCu_ready hp hq, eitherCu_ready hp hq, blockRefs_ready hp, blockRefs_ready hq]
  cases cuIntra (cuVal s p.1 p.2) || cuIntra (cuVal s q.1 q.2) with
  | true => rfl
  | false =>
    cases cuCbfl (cuVal s p.1 p.2) || cuCbfl (cuVal s q.1 q.2) with
    | true => rfl
    | false => exact motionBs_ready hp hq

theorem execDfBs_legal (hk : s.curSlot = some k) (hpx : lo16 s.arg0 < s.cfg.picW.toNat / 4)
    (hpy : hi16 s.arg0 < s.cfg.picH.toNat / 4) (hqx : lo16 s.arg1 < s.cfg.picW.toNat / 4)
    (hqy : hi16 s.arg1 < s.cfg.picH.toNat / 4)
    (hnext : (lo16 s.arg1 = lo16 s.arg0 + 1 ∧ hi16 s.arg1 = hi16 s.arg0) ∨
      (lo16 s.arg1 = lo16 s.arg0 ∧ hi16 s.arg1 = hi16 s.arg0 + 1)) :
    execDfBs s = orFault (bs s k (hi16 s.arg0, lo16 s.arg0) (hi16 s.arg1, lo16 s.arg1))
      fun n => finish (s.setRes0 (natWord n)) := by
  rw [execDfBs, hk]
  exact (if_neg (by omega)).trans (if_neg (not_not.2 hnext))

open Classical in
/-- Settles O42. -/
theorem dfBsStrength : Obligations.DfBsStrength := by
  unfold Obligations.DfBsStrength
  rintro s k hcur rfl p q hpx hpy hqx hqy hnext hp hq intra coded
  have hexec := execDfBs_legal (curSlot_eq_some hcur) hpx hpy hqx hqy hnext
  rw [bs_ready (p := (hi16 s.arg0, lo16 s.arg0)) (q := (hi16 s.arg1, lo16 s.arg1)) hp hq, orFault_ok] at hexec
  have hintra : (cuIntra (cuVal s p.1 p.2) || cuIntra (cuVal s q.1 q.2)) = true ↔ intra := Bool.or_eq_true_iff
  have hcoded : (cuCbfl (cuVal s p.1 p.2) || cuCbfl (cuVal s q.1 q.2)) = true ↔ coded := Bool.or_eq_true_iff
  refine ⟨_, hexec, fun hi => if_pos (hintra.2 hi), fun hi hc => ?_, fun hi hc hf => ?_, fun hi hc hf => ?_⟩
  · exact (if_neg (mt hintra.1 hi)).trans (if_pos (hcoded.2 hc))
  · exact (if_neg (mt hintra.1 hi)).trans ((if_neg (mt hcoded.1 hc)).trans (if_pos hf))
  · exact (if_neg (mt hintra.1 hi)).trans ((if_neg (mt hcoded.1 hc)).trans (if_neg hf))

/-! ### Lines left as they are (R186) -/

/-- No threshold, no step and a step past twice the threshold leave no correction. -/
theorem lineCore_eq_zero {a b c d st : Int}
    (h : st = 0 ∨ (a - 4 * b + 4 * c - d).tdiv 8 = 0 ∨ 2 * st ≤ |(a - 4 * b + 4 * c - d).tdiv 8|) :
    lineCore a b c d st = (0, 0) := by
  have habs : |(a - 4 * b + 4 * c - d).tdiv 8| = ((a - 4 * b + 4 * c - d).tdiv 8).natAbs := (Int.natCast_natAbs _).symm
  rw [habs] at h
  unfold lineCore
  generalize (a - 4 * b + 4 * c - d).tdiv 8 = dd at h
  have hcl : max 0 ((dd.natAbs : Int) - max 0 (2 * ((dd.natAbs : Int) - st))) = 0 := by omega
  simp only [hcl, Int.mul_zero]

theorem clipB_of_mem {n : Nat} {v : Int} (h0 : 0 ≤ v) (h : v < 2 ^ n) : clipB n v = v := by
  unfold clipB clip3
  omega

/-- Settles O45. -/
theorem unfilteredLines : Obligations.UnfilteredLines := by
  unfold Obligations.UnfilteredLines
  intro depth st a b c d _ ha ha' hb hb' hc hc' hd hd' h
  have hcore := lineCore_eq_zero h
  have hclip : clip3 (-(0 / 2)) (0 / 2) ((a - d).tdiv 4) = 0 := by unfold clip3; omega
  constructor
  · simp only [lineLuma, hcore, hclip, Int.sub_zero, Int.add_zero, clipB_of_mem ha ha', clipB_of_mem hb hb',
      clipB_of_mem hc hc', clipB_of_mem hd hd']
  · simp only [lineChroma, hcore, Int.sub_zero, Int.add_zero, clipB_of_mem hb hb', clipB_of_mem hc hc']

/-! ### DF_LUMA (R180) -/

theorem execDfLuma_legal (hk : s.curSlot = some k) (hpos : lumaPosOk s.cfg (lo16 s.arg0) (hi16 s.arg0) = true)
    (hedge : onBoundary d (lo16 s.arg0) (hi16 s.arg0) = false) :
    execDfLuma d s = orFault (lumaSegment k d (lo16 s.arg0) (hi16 s.arg0) s.arg1.toNat s) finish := by
  rw [execDfLuma, hk]
  simp only [hpos, hedge, not_true, if_false, Bool.false_eq_true]

theorem onBoundary_eq_false (hv : d = .vertical → x ≠ 0) (hh : d = .horizontal → y ≠ 0) : onBoundary d x y = false := by
  rw [← Bool.not_eq_true, onBoundary_iff]
  rintro (⟨hd, h0⟩ | ⟨hd, h0⟩)
  · exact hv hd h0
  · exact hh hd h0

/-- A segment off the boundary, on a grid of two samples or more, in a picture of a legal size. -/
theorem segmentPlaced (hx : x ≤ 4096) (hv : d = .vertical → 2 ≤ x) (hh : d = .horizontal → 2 ≤ y) :
    SegmentPlaced d x y := by
  cases d with
  | vertical => exact ⟨hv rfl, by omega⟩
  | horizontal => exact ⟨hh rfl, by omega⟩

/-- The value of a sample that a filtered value was written to. -/
theorem sampleVal_clip (h10 : s.cfg.bitDepth.toNat ≤ 10) {row col : Nat} {v : Int}
    (h : t.sampleAt k c row col = some (toSample (clipVal s v))) : sampleVal t k c row col = clipVal s v := by
  obtain ⟨h0, hlt⟩ := clipVal_range s v
  rw [sampleVal, h, Option.getD_some, toSample_toNat h0 hlt (h10.trans (by decide))]

/-- Settles O43. -/
theorem dfLumaFiltersLines : Obligations.DfLumaFiltersLines := by
  unfold Obligations.DfLumaFiltersLines
  rintro d s k hr hcur rfl x y hx4 hy4 hx hy hv hh hready
  obtain ⟨-, hw, -⟩ := hr.sizes
  obtain ⟨-, h10⟩ := hr.depth
  have hplaced : SegmentPlaced d x y := segmentPlaced (by omega) (fun hd => by have := hv hd; omega)
    fun hd => by have := hh hd; omega
  have hexec := execDfLuma_legal (curSlot_eq_some hcur) (lumaPosOk_iff.2 ⟨hx4, hy4, hx, hy⟩) (onBoundary_eq_false hv hh)
  obtain ⟨pics, hsegment, -, hmaps, hlines, hother⟩ := lumaSegment_ok hplaced s.arg1.toNat hready
  rw [hsegment, orFault_ok] at hexec
  refine ⟨_, hexec, rfl, fun i hi => ?_, hother, hmaps⟩
  have hnew := fun n hn => hlines i hi n hn
  rw [lineLuma_eq] at hnew
  exact ⟨sampleVal_clip h10 (hnew 0 (by decide)), sampleVal_clip h10 (hnew 1 (by decide)),
    sampleVal_clip h10 (hnew 2 (by decide)), sampleVal_clip h10 (hnew 3 (by decide))⟩

/-! ### DF_CHROMA (R181) -/

theorem execDfChroma_legal (hk : s.curSlot = some k) (hc : c ≠ .y)
    (halign : chromaAligned d (lo16 s.arg0) (hi16 s.arg0) = true) (hx : lo16 s.arg0 < s.cfg.picW.toNat / 2)
    (hy : hi16 s.arg0 < s.cfg.picH.toNat / 2) (hedge : onBoundary d (lo16 s.arg0) (hi16 s.arg0) = false) :
    execDfChroma d (BitVec.ofNat 2 c.num) s =
      orFault (chromaSegment k c d (lo16 s.arg0) (hi16 s.arg0) s.arg1.toNat s) finish := by
  rw [execDfChroma_eq hk hc, if_neg (not_not.2 halign), if_neg (by omega), if_neg (Bool.eq_false_iff.1 hedge)]

/-- Settles O44. -/
theorem dfChromaFiltersLines : Obligations.DfChromaFiltersLines := by
  unfold Obligations.DfChromaFiltersLines
  rintro d c s k hr hc hcur rfl x y hv hh hx hy hready
  obtain ⟨-, hw, -⟩ := hr.sizes
  obtain ⟨-, h10⟩ := hr.depth
  have hplaced : SegmentPlaced d x y := segmentPlaced (by omega) (fun hd => by obtain ⟨_, _, _⟩ := hv hd; omega)
    fun hd => by obtain ⟨_, _, _⟩ := hh hd; omega
  have halign : chromaAligned d x y = true := chromaAligned_iff.2
    ⟨fun hd => ⟨(hv hd).1, (hv hd).2.1⟩, fun hd => ⟨(hh hd).1, (hh hd).2.1⟩⟩
  have hedge : onBoundary d x y = false := onBoundary_eq_false (fun hd => (hv hd).2.2) fun hd => (hh hd).2.2
  have hexec := execDfChroma_legal (curSlot_eq_some hcur) hc halign hx hy hedge
  obtain ⟨pics, hsegment, -, hmaps, hlines, hother⟩ := chromaSegment_ok hplaced s.arg1.toNat hready
  rw [hsegment, orFault_ok] at hexec
  refine ⟨_, hexec, rfl, fun i hi => ?_, hother, hmaps⟩
  have hnew := fun n hn => hlines i hi n hn
  rw [lineChroma_eq] at hnew
  exact ⟨sampleVal_clip h10 (hnew 1 (.inl rfl)), sampleVal_clip h10 (hnew 2 (.inr rfl))⟩

end Sys2Proof.Machine

/-! DF_CU as a run of the segment commands (43_deblock.md R183, R185). -/

namespace Sys2Proof.Machine

variable {s t u v : State} {c : Comp} {d : Dir} {k x y : Nat} {p q : Nat × Nat}

/-! ### What a deblocking command that completed has done -/

theorem dfBs_done (hk : u.curSlot = some k) (h : execDfBs u = .next v) (hcode : v.code = .ok) :
    ∃ n, bs u k (hi16 u.arg0, lo16 u.arg0) (hi16 u.arg1, lo16 u.arg1) = .ok n ∧ v.res0 = natWord n := by
  rw [execDfBs, hk] at h
  dsimp only at h
  split_ifs at h
  · cases h; cases hcode
  · obtain ⟨n, hn, hv⟩ := orFault_next.1 h
    cases hv
    exact ⟨n, hn, rfl⟩
  · cases h; cases hcode

theorem dfLuma_done (hk : u.curSlot = some k) (h : execDfLuma d u = .next v) (hcode : v.code = .ok) :
    ∃ w, lumaSegment k d (lo16 u.arg0) (hi16 u.arg0) u.arg1.toNat u = .ok w ∧ v = w.setCode .ok := by
  rw [execDfLuma, hk] at h
  dsimp only at h
  split_ifs at h
  · cases h; cases hcode
  · obtain ⟨w, hw, hv⟩ := orFault_next.1 h
    cases hv
    exact ⟨w, hw, rfl⟩
  · cases h; cases hcode

theorem dfChroma_done (hk : u.curSlot = some k) (hc : c ≠ .y) (h : execDfChroma d (BitVec.ofNat 2 c.num) u = .next v)
    (hcode : v.code = .ok) :
    ∃ w, chromaSegment k c d (lo16 u.arg0) (hi16 u.arg0) u.arg1.toNat u = .ok w ∧ v = w.setCode .ok := by
  rw [execDfChroma_eq hk hc] at h
  split_ifs at h
  · cases h; cases hcode
  · cases h; cases hcode
  · obtain ⟨w, hw, hv⟩ := orFault_next.1 h
    cases hv
    exact ⟨w, hw, rfl⟩
  · cases h; cases hcode

/-! ### The same on the state of DF_CU -/

theorem SameForDeblock.curSlot (h : SameForDeblock u s) : u.curSlot = s.curSlot := by
  obtain ⟨-, hcfg, -⟩ := h
  unfold State.curSlot
  rw [hcfg]

/-- The operands are none of what the deblocking primitives read. -/
theorem SameForDeblock.operands (h : SameForDeblock u s) (a0 a1 : Word) :
    SameForDeblock { u with arg0 := a0, arg1 := a1 } s := h

theorem SameForDeblock.setPics (h : SameForDeblock u s) (pics : List Picture) (code : Code) :
    SameForDeblock ((u.setPics pics).setCode code) (s.setPics pics) := by
  obtain ⟨-, hcfg, hconfig, hlow, hcod, hdpb⟩ := h
  exact ⟨rfl, hcfg, hconfig, hlow, hcod, hdpb⟩

/-- A DF_LUMA that completed filters the same segment in DF_CU. -/
theorem lumaSegment_of_done (h : SameForDeblock u s) (hk : s.curSlot = some k) (hv : execDfLuma d u = .next v)
    (hcode : v.code = .ok) :
    lumaSegment k d (lo16 u.arg0) (hi16 u.arg0) u.arg1.toNat s = .ok (s.setPics v.pics) ∧
      SameForDeblock v (s.setPics v.pics) ∧ v.arg0 = u.arg0 ∧ v.arg1 = u.arg1 := by
  obtain ⟨w, hw, rfl⟩ := dfLuma_done (h.curSlot.trans hk) hv hcode
  obtain ⟨pics, rfl, hs⟩ := lumaSegment_congr h.1 h.2.1 hw
  exact ⟨hs, h.setPics pics .ok, rfl, rfl⟩

theorem chromaSegment_of_done (h : SameForDeblock u s) (hk : s.curSlot = some k) (hc : c ≠ .y)
    (hv : execDfChroma d (BitVec.ofNat 2 c.num) u = .next v) (hcode : v.code = .ok) :
    chromaSegment k c d (lo16 u.arg0) (hi16 u.arg0) u.arg1.toNat s = .ok (s.setPics v.pics) ∧
      SameForDeblock v (s.setPics v.pics) ∧ v.arg0 = u.arg0 ∧ v.arg1 = u.arg1 := by
  obtain ⟨w, hw, rfl⟩ := dfChroma_done (h.curSlot.trans hk) hc hv hcode
  obtain ⟨pics, rfl, hs⟩ := chromaSegment_congr h.1 h.2.1 hw
  exact ⟨hs, h.setPics pics .ok, rfl, rfl⟩

theorem SameForDeblock.self (h : SameForDeblock u s) : s.setPics u.pics = s := by
  rw [h.1]
  rfl

/-- The luma part of a segment: what DF_LUMA left, or nothing for a threshold of 0 (R183). -/
theorem luma_of_run {sx sy st : Nat} (h : SameForDeblock u s) (hk : s.curSlot = some k) (hx : sx < 65536)
    (hy : sy < 65536) (hst : st < 2 ^ 32)
    (hrun : if st = 0 then v = u
      else exec (.dfLuma d) { u with arg0 := posWord sx sy, arg1 := BitVec.ofNat 32 st } = .next v ∧ v.code = .ok) :
    (if st = 0 then .ok s else lumaSegment k d sx sy st s) = .ok (s.setPics v.pics) ∧
      SameForDeblock v (s.setPics v.pics) := by
  split_ifs at hrun ⊢
  · subst hrun
    rw [h.self]
    exact ⟨rfl, h⟩
  · obtain ⟨hv, hcode⟩ := hrun
    obtain ⟨hs, hsame, -⟩ := lumaSegment_of_done (h.operands _ _) hk hv hcode
    rw [lo16_posWord hx, hi16_posWord hy, BitVec.toNat_ofNat, Nat.mod_eq_of_lt hst] at hs
    exact ⟨hs, hsame⟩

/-- The chroma part of a segment on the grid (R183). -/
theorem chroma_of_run {sx sy stc e : Nat} (h : SameForDeblock u s) (hk : s.curSlot = some k) (hx : sx < 65536)
    (hy : sy < 65536) (hst : stc < 2 ^ 32)
    (hrun : if e % 8 = 0 ∧ stc ≠ 0 then
        ∃ w, exec (.dfChroma d 1) { u with arg0 := posWord (sx / 2) (sy / 2), arg1 := BitVec.ofNat 32 stc } = .next w ∧
          w.code = .ok ∧ exec (.dfChroma d 2) w = .next v ∧ v.code = .ok
      else v = u) :
    (if e % chromaEdgeGrid = 0 then dfCuChroma k d sx sy stc s else .ok s) = .ok (s.setPics v.pics) ∧
      SameForDeblock v (s.setPics v.pics) := by
  have hgrid : e % chromaEdgeGrid = 0 ↔ e % 8 = 0 := Iff.rfl
  by_cases hruns : e % 8 = 0 ∧ stc ≠ 0
  · rw [if_pos hruns] at hrun
    obtain ⟨w, hw, hwcode, hv, hcode⟩ := hrun
    obtain ⟨hcb, hsame, harg0, harg1⟩ := chromaSegment_of_done (c := .cb) (h.operands _ _) hk nofun hw hwcode
    obtain ⟨hcr, hsame', -⟩ := chromaSegment_of_done (c := .cr) hsame hk nofun hv hcode
    rw [harg0, harg1] at hcr
    dsimp only at hcb hcr
    rw [lo16_posWord (by omega), hi16_posWord (by omega), BitVec.toNat_ofNat, Nat.mod_eq_of_lt hst] at hcb hcr
    rw [if_pos (hgrid.2 hruns.1), dfCuChroma, if_neg hruns.2]
    exact ⟨foldE_cons_ok.2 ⟨_, hcb, foldE_cons_ok.2 ⟨_, hcr, rfl⟩⟩, hsame'⟩
  · rw [if_neg hruns] at hrun
    subst hrun
    rw [h.self, dfCuChroma]
    refine ⟨?_, h⟩
    split_ifs with he hstc
    · rfl
    · exact absurd ⟨hgrid.1 he, hstc⟩ hruns
    · rfl

/-! ### A segment of DF_CU (R178, R183) -/

theorem thresholdVal_eq (h : SameForDeblock u s) (idx qp : Nat) : thresholdVal u idx qp = threshold s idx qp := by
  obtain ⟨-, hcfg, hconfig, -⟩ := h
  rw [thresholdVal, threshold, hcfg, hconfig]

theorem dfCuFilter_of_run {sx sy : Nat} (h : SameForDeblock u s) (hk : s.curSlot = some k) (hx : sx < 65536)
    (hy : sy < 65536) (hrun : SegmentRun d sx sy u v) :
    dfCuFilter k d (edgeAt d sx sy) sx sy (beforeBlock d (sy / 4) (sx / 4)) (sy / 4, sx / 4) s =
        .ok (s.setPics v.pics) ∧
      SameForDeblock v (s.setPics v.pics) := by
  obtain ⟨b, w, hb, hbcode, hw, hst, hstc, m, hluma, hchroma⟩ := hrun
  obtain ⟨n, hn, hres⟩ := dfBs_done ((h.operands _ _).curSlot.trans hk) hb hbcode
  have hbefore : (beforeBlock d (sy / 4) (sx / 4)).1 < 65536 ∧ (beforeBlock d (sy / 4) (sx / 4)).2 < 65536 := by
    cases d <;> simp only [beforeBlock] <;> omega
  have hbs : bs s k (beforeBlock d (sy / 4) (sx / 4)) (sy / 4, sx / 4) = .ok n := by
    rw [bs_congr (h.operands _ _)] at hn
    dsimp only at hn
    rwa [lo16_posWord hbefore.2, hi16_posWord hbefore.1, lo16_posWord (by omega), hi16_posWord (by omega)] at hn
  have hidx : b.res0.toNat = n := by
    have := bs_le hbs
    rw [hres, natWord, BitVec.toNat_ofNat]
    omega
  have hcu : readCuLow s (sy / 4) (sx / 4) = .ok w := by
    obtain ⟨-, -, -, hlow, -⟩ := h
    rw [hlow] at hw
    simp only [readCuLow, hw]
  rw [hidx, thresholdVal_eq h] at hst hstc hluma hchroma
  have hqp : s.config.chromaQpMap.getD (clampedQp w) 0 = u.config.chromaQpMap.getD (min (w.extractLsb' 16 7).toNat 51) 0 := by
    obtain ⟨-, -, hconfig, -⟩ := h
    rw [hconfig]
    rfl
  obtain ⟨hs, hsame⟩ := luma_of_run h hk hx hy hst hluma
  obtain ⟨ht, hsame'⟩ := chroma_of_run hsame hk hx hy hstc hchroma
  have hluma' : (if threshold s n (clampedQp w) = 0 then .ok s
      else lumaSegment k d sx sy (threshold s n (clampedQp w)) s) = .ok (s.setPics m.pics) := hs
  simp only [dfCuFilter, hbs, hcu, hqp, hluma']
  exact ⟨ht, hsame'⟩

theorem edgeAt_segmentAt (d : Dir) (x y i : Nat) : edgeAt d (segmentAt d x y i).1 (segmentAt d x y i).2 = edgeAt d x y := by
  cases d <;> rfl

/-- A run of segments is the loop of DF_CU over them. -/
theorem dfCuSegments_of_run (hk : s.curSlot = some k) (hw : s.cfg.picW.toNat ≤ 4096) (hh : s.cfg.picH.toNat ≤ 4096) :
    ∀ (is : List Nat) {pics : List Picture} {u v : State}, SameForDeblock u (s.setPics pics) → EdgeRun d x y is u v →
      foldE (dfCuSegment k d x y) is (s.setPics pics) = .ok (s.setPics v.pics)
  | [], pics, u, v, h, hrun => by
    obtain rfl : v = u := hrun
    exact congrArg Except.ok h.self.symm
  | i :: is, pics, u, v, h, hrun => by
    rw [foldE_cons_ok, dfCuSegment_eq]
    unfold EdgeRun at hrun
    obtain ⟨hpics, hcfg, hconfig, hlow, hcod, hdpb⟩ := id h
    rw [hcfg, hcod] at hrun
    dsimp only at hrun ⊢
    rw [State.setPics_cfg] at hrun ⊢
    by_cases hout : s.cfg.picW.toNat ≤ (segmentAt d x y i).1 ∨ s.cfg.picH.toNat ≤ (segmentAt d x y i).2
    · rw [if_pos (by tauto)] at hrun
      exact ⟨_, if_pos hout, dfCuSegments_of_run hk hw hh is h hrun⟩
    · rw [if_neg hout, readCod]
      split_ifs at hrun with hskip
      · have hcodFalse := (or_assoc.2 hskip).resolve_left hout
        rw [hcodFalse]
        exact ⟨_, rfl, dfCuSegments_of_run hk hw hh is h hrun⟩
      · obtain ⟨hcodTrue, m, hsegment, hrest⟩ := hrun
        obtain ⟨hfilter, hsame⟩ := dfCuFilter_of_run h hk (by omega) (by omega) hsegment
        rw [hcodTrue]
        rw [edgeAt_segmentAt] at hfilter
        exact ⟨_, hfilter, dfCuSegments_of_run hk hw hh is hsame hrest⟩

/-! ### DF_CU (R183) -/

theorem onBoundary_iff_edgeAt : onBoundary d x y = true ↔ edgeAt d x y = 0 := by
  cases d <;> simp [onBoundary, edgeAt]

theorem execDfCu_legal (hk : s.curSlot = some k) (hzero : s.arg1.extractLsb' 8 24 = 0)
    (hcu : CuPlaced s (lo16 s.arg0) (hi16 s.arg0) (byteOf s.arg1 0)) :
    execDfCu d s = orFault (if edgeAt d (lo16 s.arg0) (hi16 s.arg0) = 0 then .ok s
      else foldE (dfCuSegment k d (lo16 s.arg0) (hi16 s.arg0)) (List.range (byteOf s.arg1 0 / 4)) s)
      fun u => finish (dfCuMark (lo16 s.arg0) (hi16 s.arg0) (byteOf s.arg1 0) u) := by
  obtain ⟨hsize, hpos⟩ := cuPlaced_iff.1 hcu
  rw [execDfCu, hk]
  simp only [hzero, hsize, hpos, not_true, ne_eq, if_false, onBoundary_iff_edgeAt]

/-- The mark of the CU, where its blocks lie in the picture (R183). -/
theorem dfCuMark_read {size : Nat} (hw : s.cfg.picW.toNat ≤ 4096) (hx : x < s.cfg.picW.toNat) (row : Nat) {col : Nat}
    (hcol : col < 65536) :
    (dfCuMark x y size s).cuCod.read (cellKey row col) =
      if y / 4 ≤ row ∧ row < min (y + size) s.cfg.picH.toNat / 4 ∧ x / 4 ≤ col ∧
        col < min (x + size) s.cfg.picW.toNat / 4 then some true
      else s.cuCod.read (cellKey row col) := by
  refine (fillCod_read _ _ _ _ true s.cuCod row col hcol (by omega)).trans (if_congr ?_ rfl rfl)
  omega

/-- Settles O47. -/
theorem dfCuRunsSegments : Obligations.DfCuRunsSegments := by
  unfold Obligations.DfCuRunsSegments
  intro d s m hr hcur x y size hzero hcu hrun
  obtain ⟨-, hw, -, hh, -⟩ := hr.sizes
  obtain ⟨-, -, -, hx, hy⟩ := id hcu
  have hk := curSlot_eq_some hcur
  have hexec := execDfCu_legal (d := d) hk hzero hcu
  have hfiltered : (if edgeAt d x y = 0 then .ok s
      else foldE (dfCuSegment s.cfg.curSlot.toNat d x y) (List.range (size / 4)) s) = .ok (s.setPics m.pics) := by
    split_ifs at hrun ⊢ with hedge
    · rw [hrun]; rfl
    · have hsame : SameForDeblock s (s.setPics s.pics) := ⟨rfl, rfl, rfl, rfl, rfl, rfl⟩
      exact dfCuSegments_of_run hk hw hh (List.range (size / 4)) hsame hrun
  rw [hfiltered, orFault_ok] at hexec
  exact ⟨_, hexec, rfl, fun row col hcol => dfCuMark_read (s := s.setPics m.pics) hw hx row hcol⟩

end Sys2Proof.Machine

/-! DF_CU on a written picture (43_deblock.md R183, R188): it answers, keeps every sample in range, and writes only near
the edge. -/

namespace Sys2Proof.Machine

variable {s t u : State} {c : Comp} {d : Dir} {k x y size : Nat} {p q : Nat × Nat}

/-! ### Where DF_CU may write -/

/-- Position (row, col) of component c is within two samples of the edge (one in a chroma plane), along the CU. -/
def NearEdge (d : Dir) (x y size : Nat) (c : Comp) (row col : Nat) : Prop :=
  match d with
  | .vertical =>
    (if c = .y then x ≤ col + 2 ∧ col < x + 2 else x / 2 ≤ col + 1 ∧ col < x / 2 + 1) ∧
      inComp c y ≤ row ∧ row < inComp c (y + size)
  | .horizontal =>
    (if c = .y then y ≤ row + 2 ∧ row < y + 2 else y / 2 ≤ row + 1 ∧ row < y / 2 + 1) ∧
      inComp c x ≤ col ∧ col < inComp c (x + size)

theorem nearEdge_luma {i n m : Nat} (hi : 4 * i + 4 ≤ size) (hn : n < 4) (hm : m < 4)
    (hplaced : SegmentPlaced d (segmentAt d x y i).1 (segmentAt d x y i).2) :
    NearEdge d x y size .y (linePos d (segmentAt d x y i).1 (segmentAt d x y i).2 n m).1
      (linePos d (segmentAt d x y i).1 (segmentAt d x y i).2 n m).2 := by
  cases d <;> simp only [NearEdge, linePos, segmentAt, inComp, SegmentPlaced, if_true] at * <;> omega

theorem nearEdge_chroma (hc : c ≠ .y) {i n m : Nat} (hi : 4 * i + 4 ≤ size) (hx4 : x % 4 = 0) (hy4 : y % 4 = 0)
    (hn : n < 2) (hm : m = 1 ∨ m = 2)
    (hplaced : SegmentPlaced d ((segmentAt d x y i).1 / 2) ((segmentAt d x y i).2 / 2)) :
    NearEdge d x y size c (linePos d ((segmentAt d x y i).1 / 2) ((segmentAt d x y i).2 / 2) n m).1
      (linePos d ((segmentAt d x y i).1 / 2) ((segmentAt d x y i).2 / 2) n m).2 := by
  cases d <;> simp only [NearEdge, linePos, segmentAt, inComp, SegmentPlaced, if_neg hc] at * <;> omega

/-- What DF_CU keeps of s, segment by segment: the planes ready, the maps, and the samples far from the edge. -/
structure EdgeFiltered (k : Nat) (d : Dir) (x y size : Nat) (s u : State) : Prop where
  state : ∃ pics, u = s.setPics pics
  ready : ∀ c, PlaneReady u k c
  maps : ∀ k', u.mapsOf k' = s.mapsOf k'
  other : ∀ k' c row col, col < 65536 → ¬(k' = k ∧ NearEdge d x y size c row col) →
    u.sampleAt k' c row col = s.sampleAt k' c row col

/-- A sample that a filtered value was written to is ready (R188). -/
theorem sampleReady_clip (h10 : s.cfg.bitDepth.toNat ≤ 10) (hcfg : t.cfg = s.cfg) {row col : Nat} {v : Int}
    (h : t.sampleAt k c row col = some (toSample (clipVal s v))) : SampleReady t k c row col := by
  obtain ⟨h0, hlt⟩ := clipVal_range s v
  have hval := toSample_toNat h0 hlt (h10.trans (by decide))
  rw [SampleReady, h, hcfg]
  dsimp only
  zify
  rwa [hval]

theorem planeSize_le (hw : s.cfg.picW.toNat ≤ 4096) (c : Comp) : (planeSize s.cfg c).1 ≤ 4096 := by
  cases c <;> simp only [planeSize] <;> omega

/-- A filter whose written positions W of one component are near the edge and hold limited values. -/
theorem EdgeFiltered.step (h : EdgeFiltered k d x y size s u) (h10 : s.cfg.bitDepth.toNat ≤ 10)
    (hw : s.cfg.picW.toNat ≤ 4096) {pics : List Picture} (W : Nat → Nat → Prop)
    (hmaps : ∀ k', (u.setPics pics).mapsOf k' = u.mapsOf k')
    (hwritten : ∀ row col, W row col → ∃ v, (u.setPics pics).sampleAt k c row col = some (toSample (clipVal u v)))
    (hnear : ∀ row col, W row col → NearEdge d x y size c row col)
    (hother : ∀ k' c' row col, col < 65536 → ¬(k' = k ∧ c' = c ∧ W row col) →
      (u.setPics pics).sampleAt k' c' row col = u.sampleAt k' c' row col) :
    EdgeFiltered k d x y size s (u.setPics pics) := by
  obtain ⟨pics', rfl⟩ := h.state
  refine ⟨⟨pics, rfl⟩, fun c' row col hrow hcol => ?_, fun k' => (hmaps k').trans (h.maps k'), ?_⟩
  · by_cases hW : c' = c ∧ W row col
    · obtain ⟨rfl, hW⟩ := hW
      obtain ⟨v, hv⟩ := hwritten row col hW
      exact sampleReady_clip (s := s.setPics pics') (t := (s.setPics pics').setPics pics) h10 rfl hv
    · have hlt : col < (planeSize s.cfg c').1 := hcol
      have hle := planeSize_le hw c'
      have hcol' : col < 65536 := by omega
      have hold := h.ready c' row col hrow hcol
      rw [SampleReady] at hold ⊢
      rwa [hother k c' row col hcol' fun hW' => hW hW'.2]
  · intro k' c' row col hcol hfar
    refine (hother k' c' row col hcol ?_).trans (h.other k' c' row col hcol hfar)
    rintro ⟨rfl, rfl, hW⟩
    exact hfar ⟨rfl, hnear row col hW⟩

/-! ### The segments -/

/-- The luma samples of a segment inside the picture are ready. -/
theorem segmentReady_luma {sx sy : Nat} (h : PlaneReady u k .y) (hplaced : SegmentPlaced d sx sy)
    (hx4 : sx % 4 = 0) (hy4 : sy % 4 = 0) (hx : sx < u.cfg.picW.toNat) (hy : sy < u.cfg.picH.toNat)
    (hw8 : u.cfg.picW.toNat % 8 = 0) (hh8 : u.cfg.picH.toNat % 8 = 0) : SegmentReady u k .y d sx sy 4 := by
  intro n m hn hm
  refine h _ _ ?_ ?_
  · cases d <;> simp only [linePos, planeSize, SegmentPlaced] at * <;> omega
  · cases d <;> simp only [linePos, planeSize, SegmentPlaced] at * <;> omega

theorem segmentReady_chroma {sx sy : Nat} (hc : c ≠ .y) (h : PlaneReady u k c)
    (hplaced : SegmentPlaced d (sx / 2) (sy / 2)) (hx4 : sx % 4 = 0) (hy4 : sy % 4 = 0) (hx : sx < u.cfg.picW.toNat)
    (hy : sy < u.cfg.picH.toNat) (hw8 : u.cfg.picW.toNat % 8 = 0) (hh8 : u.cfg.picH.toNat % 8 = 0) :
    SegmentReady u k c d (sx / 2) (sy / 2) 2 := by
  intro n m hn hm
  refine h _ _ ?_ ?_
  · rw [planeSize_chroma _ hc]
    cases d <;> simp only [linePos, SegmentPlaced] at * <;> omega
  · rw [planeSize_chroma _ hc]
    cases d <;> simp only [linePos, SegmentPlaced] at * <;> omega

/-- What DF_CU knows of segment i of its edge when it filters it. -/
structure SegmentInside (s : State) (d : Dir) (x y size i : Nat) : Prop where
  along : 4 * i + 4 ≤ size
  x4 : x % 4 = 0
  y4 : y % 4 = 0
  edge : edgeAt d x y ≠ 0
  right : (segmentAt d x y i).1 < s.cfg.picW.toNat
  bottom : (segmentAt d x y i).2 < s.cfg.picH.toNat
  w8 : s.cfg.picW.toNat % 8 = 0
  h8 : s.cfg.picH.toNat % 8 = 0
  width : s.cfg.picW.toNat ≤ 4096
  height : s.cfg.picH.toNat ≤ 4096
  depth : s.cfg.bitDepth.toNat ≤ 10

variable {i : Nat}

theorem SegmentInside.grid (hi : SegmentInside s d x y size i) :
    (segmentAt d x y i).1 % 4 = 0 ∧ (segmentAt d x y i).2 % 4 = 0 := by
  have hx4 := hi.x4
  have hy4 := hi.y4
  cases d <;> simp only [segmentAt] <;> omega

theorem SegmentInside.placed (hi : SegmentInside s d x y size i) :
    SegmentPlaced d (segmentAt d x y i).1 (segmentAt d x y i).2 := by
  obtain ⟨-, hx4, hy4, hedge, hx, hy, -, -, hw, hh, -⟩ := hi
  cases d <;> simp only [segmentAt, edgeAt, SegmentPlaced] at * <;> omega

/-- On the chroma grid the halved segment is off the boundary, too (R187). -/
theorem SegmentInside.placed_chroma (hi : SegmentInside s d x y size i) (hgrid : edgeAt d x y % 8 = 0) :
    SegmentPlaced d ((segmentAt d x y i).1 / 2) ((segmentAt d x y i).2 / 2) := by
  obtain ⟨-, hx4, hy4, hedge, hx, hy, -, -, hw, hh, -⟩ := hi
  cases d <;> simp only [segmentAt, edgeAt, SegmentPlaced] at * <;> omega

theorem EdgeFiltered.luma (h : EdgeFiltered k d x y size s u) (hi : SegmentInside s d x y size i) (st : Nat) :
    ∃ v, lumaSegment k d (segmentAt d x y i).1 (segmentAt d x y i).2 st u = .ok v ∧ EdgeFiltered k d x y size s v := by
  obtain ⟨pics', rfl⟩ := h.state
  obtain ⟨hx4, hy4⟩ := hi.grid
  have hready := segmentReady_luma (h.ready .y) hi.placed hx4 hy4 hi.right hi.bottom hi.w8 hi.h8
  obtain ⟨pics, hsegment, -, hmaps, hlines, hother⟩ := lumaSegment_ok hi.placed st hready
  refine ⟨_, hsegment, h.step hi.depth hi.width (fun row col => ∃ n < 4, ∃ m < 4, (row, col) =
    linePos d (segmentAt d x y i).1 (segmentAt d x y i).2 n m) hmaps ?_ ?_ hother⟩
  · rintro row col ⟨n, hn, m, hm, hpos⟩
    obtain ⟨rfl, rfl⟩ := Prod.mk.inj hpos
    have hline := hlines n hn m hm
    rw [lineLuma_eq] at hline
    interval_cases m
    all_goals exact ⟨_, hline⟩
  · rintro row col ⟨n, hn, m, hm, hpos⟩
    obtain ⟨rfl, rfl⟩ := Prod.mk.inj hpos
    exact nearEdge_luma hi.along hn hm hi.placed

theorem EdgeFiltered.chroma (h : EdgeFiltered k d x y size s u) (hi : SegmentInside s d x y size i) (hc : c ≠ .y)
    (hgrid : edgeAt d x y % 8 = 0) (st : Nat) :
    ∃ v, chromaSegment k c d ((segmentAt d x y i).1 / 2) ((segmentAt d x y i).2 / 2) st u = .ok v ∧
      EdgeFiltered k d x y size s v := by
  obtain ⟨pics', rfl⟩ := h.state
  obtain ⟨hx4, hy4⟩ := hi.grid
  have hplaced := hi.placed_chroma hgrid
  have hready := segmentReady_chroma hc (h.ready c) hplaced hx4 hy4 hi.right hi.bottom hi.w8 hi.h8
  obtain ⟨pics, hsegment, -, hmaps, hlines, hother⟩ := chromaSegment_ok hplaced st hready
  refine ⟨_, hsegment, h.step hi.depth hi.width (fun row col => ∃ n < 2, ∃ m, (m = 1 ∨ m = 2) ∧ (row, col) =
    linePos d ((segmentAt d x y i).1 / 2) ((segmentAt d x y i).2 / 2) n m) hmaps ?_ ?_ hother⟩
  · rintro row col ⟨n, hn, m, hm, hpos⟩
    obtain ⟨rfl, rfl⟩ := Prod.mk.inj hpos
    have hline := hlines n hn m hm
    rw [lineChroma_eq] at hline
    obtain rfl | rfl := hm
    all_goals exact ⟨_, hline⟩
  · rintro row col ⟨n, hn, m, hm, hpos⟩
    obtain ⟨rfl, rfl⟩ := Prod.mk.inj hpos
    exact nearEdge_chroma hc hi.along hi.x4 hi.y4 hn hm hplaced

/-- A block is as written as its maps (R52). -/
theorem BlockReady.of_maps (h : BlockReady s k p.1 p.2) (hlow : u.cuLow = s.cuLow) (hmaps : u.mapsOf k = s.mapsOf k) :
    BlockReady u k p.1 p.2 := by
  obtain ⟨hcu, pic, hpic, hentries⟩ := h
  refine ⟨hlow ▸ hcu, ?_⟩
  rw [State.mapsOf, State.mapsOf, hpic] at hmaps
  obtain ⟨pic', hpic', hmaps⟩ := Option.map_eq_some_iff.1 hmaps
  refine ⟨pic', hpic', fun l => ?_⟩
  simp only [Prod.mk.injEq] at hmaps
  obtain ⟨⟨h0, h1⟩, h2, h3⟩ := hmaps
  have hmv : pic'.mv l = pic.mv l := by cases l <;> assumption
  have hrefi : pic'.refi l = pic.refi l := by cases l <;> assumption
  rw [hmv, hrefi]
  exact hentries l

/-- The filtering of segment i answers (R183). -/
theorem EdgeFiltered.filter (h : EdgeFiltered k d x y size s u) (hi : SegmentInside s d x y size i)
    (hp : BlockReady s k p.1 p.2) (hq : BlockReady s k q.1 q.2) :
    ∃ v, dfCuFilter k d (edgeAt d x y) (segmentAt d x y i).1 (segmentAt d x y i).2 p q u = .ok v ∧
      EdgeFiltered k d x y size s v := by
  have hlow : u.cuLow = s.cuLow := by obtain ⟨pics, rfl⟩ := h.state; rfl
  have hp' := hp.of_maps hlow (h.maps k)
  have hq' := hq.of_maps hlow (h.maps k)
  rw [dfCuFilter, bs_ready hp' hq', readCuLow_ready hq']
  dsimp only
  generalize threshold u _ (clampedQp _) = st
  generalize threshold u _ _ = stc
  obtain ⟨v, hv, hluma⟩ : ∃ v, (if st = 0 then .ok u
      else lumaSegment k d (segmentAt d x y i).1 (segmentAt d x y i).2 st u) = .ok v ∧ EdgeFiltered k d x y size s v := by
    split_ifs
    · exact ⟨u, rfl, h⟩
    · exact h.luma hi st
  rw [hv]
  dsimp only
  rw [dfCuChroma]
  split_ifs with hgrid hstc
  · exact ⟨v, rfl, hluma⟩
  · obtain ⟨w, hw, hcb⟩ := hluma.chroma (c := .cb) hi nofun hgrid stc
    obtain ⟨w', hw', hcr⟩ := hcb.chroma (c := .cr) hi nofun hgrid stc
    exact ⟨w', foldE_cons_ok.2 ⟨w, hw, foldE_cons_ok.2 ⟨w', hw', rfl⟩⟩, hcr⟩
  · exact ⟨v, rfl, hluma⟩

/-- Segment i of DF_CU answers, whether it is passed over or filtered. -/
theorem EdgeFiltered.segment (h : EdgeFiltered k d x y size s u) (hr : RegistersOk s) (hcu : CuPlaced s x y size)
    (hedge : edgeAt d x y ≠ 0) (hready : EdgeReady s k x y size) (hi : 4 * i + 4 ≤ size) :
    ∃ v, dfCuSegment k d x y i u = .ok v ∧ EdgeFiltered k d x y size s v := by
  obtain ⟨hw8, hw, hh8, hh, -⟩ := hr.sizes
  obtain ⟨-, h10⟩ := hr.depth
  obtain ⟨-, hx4, hy4, -, -⟩ := hcu
  obtain ⟨hblocks, -⟩ := hready
  rw [dfCuSegment_eq]
  dsimp only
  split_ifs with hout
  · exact ⟨u, rfl, h⟩
  have hcfg : u.cfg = s.cfg := by obtain ⟨pics, rfl⟩ := h.state; rfl
  have hcod : u.cuCod = s.cuCod := by obtain ⟨pics, rfl⟩ := h.state; rfl
  rw [hcfg, not_or, Nat.not_le, Nat.not_le] at hout
  obtain ⟨hright, hbottom⟩ := hout
  have hinside : SegmentInside s d x y size i :=
    ⟨hi, hx4, hy4, hedge, hright, hbottom, hw8, hh8, hw, hh, h10⟩
  obtain ⟨hq, -⟩ := hblocks ((segmentAt d x y i).2 / 4) ((segmentAt d x y i).1 / 4) (by omega) (by omega)
    (by cases d <;> simp only [segmentAt] <;> omega) (by cases d <;> simp only [segmentAt] <;> omega)
    (by cases d <;> simp only [segmentAt] <;> omega) (by cases d <;> simp only [segmentAt] <;> omega)
  obtain ⟨hp, hmarked⟩ := hblocks (beforeBlock d ((segmentAt d x y i).2 / 4) ((segmentAt d x y i).1 / 4)).1
    (beforeBlock d ((segmentAt d x y i).2 / 4) ((segmentAt d x y i).1 / 4)).2
    (by cases d <;> simp only [beforeBlock, segmentAt] at * <;> omega)
    (by cases d <;> simp only [beforeBlock, segmentAt] at * <;> omega)
    (by cases d <;> simp only [beforeBlock, segmentAt] at * <;> omega)
    (by cases d <;> simp only [beforeBlock, segmentAt] at * <;> omega)
    (by cases d <;> simp only [beforeBlock, segmentAt] at * <;> omega)
    (by cases d <;> simp only [beforeBlock, segmentAt] at * <;> omega)
  obtain ⟨b, hb⟩ := Option.isSome_iff_exists.1 hmarked
  rw [readCod, hcod, hb]
  cases b with
  | false => exact ⟨u, rfl, h⟩
  | true =>
    exact h.filter hinside (p := beforeBlock d ((segmentAt d x y i).2 / 4) ((segmentAt d x y i).1 / 4))
      (q := ((segmentAt d x y i).2 / 4, (segmentAt d x y i).1 / 4)) hp hq

/-- Settles O48. -/
theorem dfCuCompletes : Obligations.DfCuCompletes := by
  unfold Obligations.DfCuCompletes
  rintro d s k hr hcur rfl x y size hzero hcu hready
  obtain ⟨-, hw, -⟩ := hr.sizes
  obtain ⟨-, -, -, hx, -⟩ := id hcu
  have hexec := execDfCu_legal (d := d) (curSlot_eq_some hcur) hzero hcu
  have hself : EdgeFiltered s.cfg.curSlot.toNat d x y size s s :=
    ⟨⟨s.pics, rfl⟩, hready.2, fun _ => rfl, fun _ _ _ _ _ _ => rfl⟩
  obtain ⟨u, hu, hfiltered⟩ : ∃ u, (if edgeAt d x y = 0 then .ok s
      else foldE (dfCuSegment s.cfg.curSlot.toNat d x y) (List.range (size / 4)) s) = .ok u ∧
        EdgeFiltered s.cfg.curSlot.toNat d x y size s u := by
    split_ifs with hedge
    · exact ⟨s, rfl, hself⟩
    · refine foldE_total (EdgeFiltered s.cfg.curSlot.toNat d x y size s) _ (fun i hi v hv => ?_) s hself
      rw [List.mem_range] at hi
      exact hv.segment hr hcu hedge hready (by omega)
  rw [hu, orFault_ok] at hexec
  obtain ⟨pics, rfl⟩ := hfiltered.state
  refine ⟨_, hexec, rfl, hfiltered.ready, fun k' c row col hcol hfar => ?_, hfiltered.maps,
    fun row col hcol => dfCuMark_read (s := s.setPics pics) hw hx row hcol⟩
  refine hfiltered.other k' c row col hcol ?_
  cases d with
  | vertical => exact hfar
  | horizontal => exact hfar

end Sys2Proof.Machine

/-! The host's accesses to the memories (20_memory.md R61, R78, R82, R83, 10_state.md R50 to R53). -/

namespace Sys2Proof.Machine

variable {s : State} {rest : List HostAction} {k k' a row col : Nat} {c : Comp} {l : ListIx}

/-! ### BSMEM (R61, R276) -/

theorem inPacket_iff {e : Entropy} :
    inPacket e a = true ↔ e.bsBase.toNat ≤ a ∧ a < e.bsBase.toNat + e.bsLen.toNat := by
  simp only [inPacket, Bool.and_eq_true, decide_eq_true_eq]

theorem hostBsWrite_outside {v : Byte} (ha : a < s.config.bsSize) (h : inPacket s.ent a = false) :
    hostBsWrite a v s = .next (s.setBsmem (s.bsmem.write a v)) := by
  rw [hostBsWrite, if_neg (Nat.not_le.2 ha), h]
  rfl

theorem hostBsWrite_inside {v : Byte} (ha : a < s.config.bsSize) (h : inPacket s.ent a = true) :
    hostBsWrite a v s = .refused .bsWriteInPacket := by
  rw [hostBsWrite, if_neg (Nat.not_le.2 ha), if_pos h]

theorem hostBsRead_written {b : Byte} (ha : a < s.config.bsSize) (h : s.bsmem.read a = some b) :
    hostBsRead a s = hostAnswer (b.zeroExtend 32) s := by
  simp only [hostBsRead, h, if_neg (Nat.not_le.2 ha)]

theorem hostBsRead_unwritten (ha : a < s.config.bsSize) (h : s.bsmem.read a = none) :
    hostBsRead a s = .fault (.unwrittenBsByte a) := by
  simp only [hostBsRead, h, if_neg (Nat.not_le.2 ha)]

/-- Settles O6. -/
theorem hostBitstreamMemory : Obligations.HostBitstreamMemory := by
  unfold Obligations.HostBitstreamMemory
  intro s rest a v ha
  refine ⟨fun hhost => ⟨fun hout => ?outside, fun hlo hhi => ?inside⟩, fun hhost => ⟨fun b hb => ?written, fun h => ?unwritten⟩⟩
  case outside =>
    have hpacket : inPacket s.ent a = false := by
      rw [← Bool.not_eq_true, inPacket_iff]
      omega
    exact ⟨_, (step_of_host_cons hhost).trans (hostBsWrite_outside (s := { s with host := rest }) ha hpacket), rfl,
      fun b => Memory.read_write ..⟩
  case inside =>
    exact (step_of_host_cons hhost).trans
      (hostBsWrite_inside (s := { s with host := rest }) ha (inPacket_iff.2 ⟨hlo, hhi⟩))
  case written =>
    exact (step_of_host_cons hhost).trans (hostBsRead_written (s := { s with host := rest }) ha hb)
  case unwritten =>
    exact (step_of_host_cons hhost).trans (hostBsRead_unwritten (s := { s with host := rest }) ha h)

/-! ### Writes of a picture (R50, R51, R78, R277) -/

theorem hostPicWrite_stored {inside : Bool} {f : Picture → Picture} (h : (s.dpb.slot k).state = .pool) :
    hostPicWrite k inside f s = .refused .storedPictureWrite := by
  simp only [hostPicWrite, h]

theorem hostPicWrite_detached {f : Picture → Picture} (h : (s.dpb.slot k).state = .detached) :
    hostPicWrite k true f s = .next (s.setPics (s.pics.modify k f)) := by
  simp only [hostPicWrite, h, if_true]

/-- What is read of a picture after an edit of picture k. -/
theorem bind_modify {β : Type} (pics : List Picture) (f : Picture → Picture) (g : Picture → Option β) (k k' : Nat) :
    ((pics.modify k f)[k']?).bind g = (pics[k']?).bind fun p => if k' = k then g (f p) else g p := by
  rw [List.getElem?_modify]
  cases pics[k']? with
  | none => rfl
  | some p =>
    by_cases hk : k' = k
    · simp [hk]
    · simp [hk, Ne.symm hk]

/-- An edit that keeps what is read leaves it. -/
theorem bind_modify_same {β : Type} {pics : List Picture} {f : Picture → Picture} {g : Picture → Option β}
    (h : ∀ p, g (f p) = g p) (k k' : Nat) : ((pics.modify k f)[k']?).bind g = (pics[k']?).bind g := by
  simp only [bind_modify, h, ite_self]

/-- An edit that writes what is read, in a picture that exists. -/
theorem bind_modify_write {β : Type} {pics : List Picture} {f : Picture → Picture} {g : Picture → Option β}
    {P : Prop} [Decidable P] {v : β} (hk : k < pics.length) (h : ∀ p, g (f p) = if P then some v else g p) (k' : Nat) :
    ((pics.modify k f)[k']?).bind g = if k' = k ∧ P then some v else (pics[k']?).bind g := by
  rw [bind_modify]
  by_cases hkk : k' = k
  · subst hkk
    rw [List.getElem?_eq_getElem hk]
    simp [h]
  · simp [hkk]

theorem sampleAt_modify_same {f : Picture → Picture} (h : ∀ p c, (f p).plane c = p.plane c) (k k' : Nat) (c : Comp)
    (y x : Nat) : (s.setPics (s.pics.modify k f)).sampleAt k' c y x = s.sampleAt k' c y x := by
  rw [sampleAt_setPics, sampleAt_eq, bind_modify_same fun p => by rw [h]]

theorem insideMap_iff {g : Cfg} :
    insideMap g row col = true ↔ row < g.picH.toNat / 4 ∧ col < g.picW.toNat / 4 := by
  simp only [insideMap, Bool.and_eq_true, decide_eq_true_eq]
  exact and_comm

theorem insidePlane_iff {g : Cfg} {y x : Nat} :
    insidePlane g c y x = true ↔ y < (planeSize g c).2 ∧ x < (planeSize g c).1 := by
  simp only [insidePlane, Bool.and_eq_true, decide_eq_true_eq]
  exact and_comm

/-- A write of one entry of a map, read back (R51). -/
theorem read_write_cell {α : Type} (m : Memory α) (v : α) {row col r c : Nat} (hcol : col < 65536) (hc : c < 65536) :
    (m.write (cellKey row col) v).read (cellKey r c) =
      if r = row ∧ c = col then some v else m.read (cellKey r c) := by
  rw [Memory.read_write]
  exact if_congr (cellKey_inj hc hcol) rfl rfl

/-- The edit of a motion-vector map, as the host's accesses see it. -/
theorem mvWrite_rules (hk : k < s.pics.length) (l : ListIx) (row : Nat) {col : Nat} (v : MotionVec) (hcol : col < 65536) :
    let t := s.setPics (s.pics.modify k fun p => p.setMv l ((p.mv l).write (cellKey row col) v))
    (∀ k' c y x, t.sampleAt k' c y x = s.sampleAt k' c y x) ∧
    ∀ k' l' r' c', c' < 65536 →
      t.mvAt k' l' r' c' =
        (if k' = k ∧ l' = l ∧ r' = row ∧ c' = col then some v else s.mvAt k' l' r' c') ∧
      t.refiAt k' l' r' c' = s.refiAt k' l' r' c' := by
  refine ⟨sampleAt_modify_same (fun p c => setMv_plane ..) k, fun k' l' r' c' hc' => ⟨?_, ?_⟩⟩
  · refine bind_modify_write hk (fun p => ?_) k'
    rw [setMv_mv]
    by_cases hl : l' = l
    · subst hl
      rw [if_pos rfl, read_write_cell _ _ hcol hc']
      simp only [true_and]
    · simp only [hl, if_false, false_and]
  · exact bind_modify_same (fun p => by rw [setMv_refi]) k k'

/-- The edit of a reference-index map. -/
theorem refiWrite_rules (hk : k < s.pics.length) (l : ListIx) (row : Nat) {col : Nat} (v : Byte) (hcol : col < 65536) :
    let t := s.setPics (s.pics.modify k fun p => p.setRefi l ((p.refi l).write (cellKey row col) v))
    (∀ k' c y x, t.sampleAt k' c y x = s.sampleAt k' c y x) ∧
    ∀ k' l' r' c', c' < 65536 →
      t.refiAt k' l' r' c' =
        (if k' = k ∧ l' = l ∧ r' = row ∧ c' = col then some v else s.refiAt k' l' r' c') ∧
      t.mvAt k' l' r' c' = s.mvAt k' l' r' c' := by
  refine ⟨sampleAt_modify_same (fun p c => setRefi_plane ..) k, fun k' l' r' c' hc' => ⟨?_, ?_⟩⟩
  · refine bind_modify_write hk (fun p => ?_) k'
    rw [setRefi_refi]
    by_cases hl : l' = l
    · subst hl
      rw [if_pos rfl, read_write_cell _ _ hcol hc']
      simp only [true_and]
    · simp only [hl, if_false, false_and]
  · exact bind_modify_same (fun p => by rw [setRefi_mv]) k k'

theorem hostSampleWrite_in_range {y x : Nat} {v : Sample} (hv : v.toNat < 2 ^ s.cfg.bitDepth.toNat)
    (h : (s.dpb.slot k).state = .detached) (hy : y < (planeSize s.cfg c).2) (hx : x < (planeSize s.cfg c).1) :
    hostSampleWrite k c y x v s = .next (s.writeSample k c y x v) := by
  rw [hostSampleWrite, if_neg (Nat.not_le.2 hv), insidePlane_iff.2 ⟨hy, hx⟩, hostPicWrite_detached h]
  rfl

/-- Settles O7. -/
theorem hostPictureWrites : Obligations.HostPictureWrites := by
  unfold Obligations.HostPictureWrites
  intro s rest k hk
  refine ⟨fun c y x v hhost hy hx hx16 => ⟨fun hv => ?tooLarge, fun hv hpool => ?storedSample, fun hv hdet => ?sample⟩,
    fun l row col v hhost hrow hcol hcol16 => ⟨fun hpool => ?storedMv, fun hdet => ?mv⟩,
    fun l row col v hhost hrow hcol hcol16 => ⟨fun hpool => ?storedRefi, fun hdet => ?refi⟩⟩
  all_goals rw [step_of_host_cons hhost]
  case tooLarge => exact if_pos hv
  case storedSample =>
    exact (if_neg (Nat.not_le.2 hv)).trans (hostPicWrite_stored (s := { s with host := rest }) hpool)
  case sample =>
    refine ⟨_, hostSampleWrite_in_range (s := { s with host := rest }) hv hdet hy hx, rfl,
      fun k' c' y' x' hx' => ?_, fun k' => ?_⟩
    · exact sampleAt_writeSample (s := { s with host := rest }) hk hx16 hx' c c' y y' k' v
    · exact mapsOf_writeSample { s with host := rest } k c y x v k'
  case storedMv => exact hostPicWrite_stored (s := { s with host := rest }) hpool
  case mv =>
    have hwrite := hostPicWrite_detached (s := { s with host := rest })
      (f := fun p => p.setMv l ((p.mv l).write (cellKey row col) v)) hdet
    rw [← insideMap_iff.2 ⟨hrow, hcol⟩] at hwrite
    exact ⟨_, hwrite, rfl, mvWrite_rules (s := { s with host := rest }) hk l row v hcol16⟩
  case storedRefi => exact hostPicWrite_stored (s := { s with host := rest }) hpool
  case refi =>
    have hwrite := hostPicWrite_detached (s := { s with host := rest })
      (f := fun p => p.setRefi l ((p.refi l).write (cellKey row col) v)) hdet
    rw [← insideMap_iff.2 ⟨hrow, hcol⟩] at hwrite
    exact ⟨_, hwrite, rfl, refiWrite_rules (s := { s with host := rest }) hk l row v hcol16⟩

/-! ### Reads of a picture (R82) -/

theorem hostPicRead_no_picture {inside : Bool} {r : Except Fault Word} (h : (s.dpb.slot k).state = .unalloc) :
    hostPicRead k inside r s = .fault .noSuchElement :=
  if_pos (.inl h)

theorem hostPicRead_element {r : Except Fault Word} (h : (s.dpb.slot k).state ≠ .unalloc) :
    hostPicRead k true r s = orFault r fun v => hostAnswer v s :=
  if_neg fun hf => hf.elim h nofun

theorem readMv_eq (s : State) (k row col : Nat) (l : ListIx) : readMv s k row col l =
    match s.mvAt k l row col with
    | none => .error (.unwrittenMv k row col l)
    | some v => .ok v := rfl

theorem readRefi_eq (s : State) (k row col : Nat) (l : ListIx) : readRefi s k row col l =
    match s.refiAt k l row col with
    | none => .error (.unwrittenRefi k row col l)
    | some v => .ok v := rfl

/-- Settles O60. -/
theorem hostPictureReads : Obligations.HostPictureReads := by
  unfold Obligations.HostPictureReads
  intro s rest k
  refine ⟨fun c y x hhost => ⟨fun hno => ?noSample, fun hheld hy hx => ?sample⟩, fun l row col hrow hcol =>
    ⟨fun hhost => ⟨fun hno => ?noMv, fun hheld => ?mv⟩, fun hhost => ⟨fun hno => ?noRefi, fun hheld => ?refi⟩⟩⟩
  all_goals rw [step_of_host_cons hhost]
  case noSample => exact hostPicRead_no_picture (s := { s with host := rest }) hno
  case sample =>
    have hread := fun r => hostPicRead_element (s := { s with host := rest }) (r := r) hheld
    rw [← insidePlane_iff.2 ⟨hy, hx⟩] at hread
    refine ⟨fun v hv => (hread _).trans ?_, fun hv => (hread _).trans ?_⟩
    · have hv : State.sampleAt { s with host := rest } k c y x = some v := hv
      rw [hv]
      rfl
    · have hv : State.sampleAt { s with host := rest } k c y x = none := hv
      rw [hv]
      rfl
  case noMv => exact hostPicRead_no_picture (s := { s with host := rest }) hno
  case mv =>
    have hread := fun r => hostPicRead_element (s := { s with host := rest }) (r := r) hheld
    rw [← insideMap_iff.2 ⟨hrow, hcol⟩] at hread
    refine ⟨fun v hv => (hread _).trans ?_, fun hv => (hread _).trans ?_⟩
    · have hv : State.mvAt { s with host := rest } k l row col = some v := hv
      rw [readMv_eq, hv]
      rfl
    · have hv : State.mvAt { s with host := rest } k l row col = none := hv
      rw [readMv_eq, hv]
      rfl
  case noRefi => exact hostPicRead_no_picture (s := { s with host := rest }) hno
  case refi =>
    have hread := fun r => hostPicRead_element (s := { s with host := rest }) (r := r) hheld
    rw [← insideMap_iff.2 ⟨hrow, hcol⟩] at hread
    refine ⟨fun v hv => (hread _).trans ?_, fun hv => (hread _).trans ?_⟩
    · have hv : State.refiAt { s with host := rest } k l row col = some v := hv
      rw [readRefi_eq, hv]
      rfl
    · have hv : State.refiAt { s with host := rest } k l row col = none := hv
      rw [readRefi_eq, hv]
      rfl

/-! ### The CU map and the MC buffers (R52, R53) -/

theorem insideCuMap_iff {g : Config} :
    insideCuMap g row col = true ↔ row < g.maxH / 4 ∧ col < g.maxW / 4 := by
  simp only [insideCuMap, Bool.and_eq_true, decide_eq_true_eq]
  exact and_comm

theorem hostCuRead_written {low : BitVec 31} {cod : Bool} (h : insideCuMap s.config row col = true)
    (hlow : s.cuLow.read (cellKey row col) = some low) (hcod : s.cuCod.read (cellKey row col) = some cod) :
    hostCuRead row col s = hostAnswer (BitVec.ofBool cod ++ low) s := by
  simp only [hostCuRead, h, if_true, readCuLow, hlow, readCod, hcod]

/-- A read of an MC buffer cell answers its value, or a free one (log entry 4). -/
theorem hostBufRead_answers {i j : Nat} (hi : i < 64) (hj : j < 64) (r : Option Sample) (s : State) :
    ∃ v n, hostBufRead r i j s = .next { s with hostData := v, freeCount := n } ∧
      ∀ w, r = some w → v = w.zeroExtend 32 := by
  cases r with
  | none => exact ⟨_, _, if_pos ⟨hi, hj⟩, nofun⟩
  | some w => exact ⟨w.zeroExtend 32, s.freeCount, if_pos ⟨hi, hj⟩, fun w' hw' => by cases hw'; rfl⟩

/-- Settles O8. -/
theorem hostMapsAndBuffers : Obligations.HostMapsAndBuffers := by
  unfold Obligations.HostMapsAndBuffers
  refine ⟨fun s rest row col v hrow hcol hmax => ⟨fun hhost => ?write, fun hhost low cod hlow hcod => ?read⟩,
    fun s rest l c i j hi hj => ⟨fun hhost => ?pred, fun hhost => ?predOut⟩⟩
  all_goals rw [step_of_host_cons hhost]
  case write =>
    refine ⟨_, if_pos (insideCuMap_iff.2 ⟨hrow, hcol⟩), rfl, fun r c hc => ⟨?_, ?_⟩⟩
    · exact read_write_cell _ _ (by omega) hc
    · exact read_write_cell _ _ (by omega) hc
  case read =>
    exact hostCuRead_written (s := { s with host := rest }) (insideCuMap_iff.2 ⟨hrow, hcol⟩) hlow hcod
  case pred => exact hostBufRead_answers hi hj (s.pred.read (predKey l c i j)) { s with host := rest }
  case predOut => exact hostBufRead_answers hi hj (s.predOut.read (predOutKey c i j)) { s with host := rest }

end Sys2Proof.Machine
